-- ==== Sys2Proof/Word.lean ====
section
/-! DEFINITION. The word types of the block. Widths: bytes and 16-bit wire fields are the wire's (spec 00 R11, R15);
the width of a timestamp is the parameter `W_TIME` of spec 00 R7, open by decision D3. -/

namespace Sys2Proof

/-- A byte of the wire, 0..255 (R11). -/
abbrev Byte := BitVec 8

/-- A 16-bit unsigned wire field (R15 (b)). -/
abbrev Half := BitVec 16

/-- A timestamp, an unsigned value of `W_TIME` bits that wraps (R7, R14). The width is an argument of the instance
(`Params.wTime`), so a reading is a number; every one that the block holds is below `2^W_TIME` (`TimesOk`, Safety.lean). -/
abbrev Time := Nat

end Sys2Proof
end

