-- ==== Sys2Proof/Config.lean ====
section
/-! DEFINITION. What an instance of the block fixes (the parameters of spec 00 R7) and the free values. -/

namespace Sys2Proof

/-- R7: RTU or TCP, fixed per engine instance. -/
inductive Transport
  | rtu
  | tcp
  deriving DecidableEq, Repr

/-- R7, C1, D13: how `Q_READ_READY` takes the winner out. -/
inductive RemoveMode
  | swap
  | rotate
  deriving DecidableEq, Repr

/-- The parameters of R7, the operand of `RESET` (R410). -/
structure Params where
  transport     : Transport
  pduMax        : Nat
  poolCap       : Nat
  queueCap      : Nat
  sentCap       : Nat
  baud          : Nat
  dataBits      : Nat
  parityBits    : Nat
  stopBits      : Nat
  respTimeoutMs : Nat
  hostBe        : Bool
  esMax         : Nat
  removeMode    : RemoveMode
  wTime         : Nat
  deriving DecidableEq, Repr

/-- The defaults of R7. `TRANSPORT` has none: RTU stands here (DESIGN CHOICE, log 2). -/
def Params.default : Params :=
  { transport := .rtu, pduMax := 253, poolCap := 4, queueCap := 4, sentCap := 4, baud := 9600, dataBits := 8,
    parityBits := 0, stopBits := 1, respTimeoutMs := 1000, hostBe := false, esMax := 8, removeMode := .swap,
    wTime := 32 }

/-! FREE VALUES. Nothing constrains them: a statement about one holds whatever it is. The first argument of the free bytes
is the state's counter `freeCount`. -/

/-- Log 4: the bytes that `NORMALIZE` leaves behind when it strips padding (R204, U6). -/
opaque Config.freeByte : Nat → Byte

/-- Log 24: byte `i` of a received PDU of at most `i` bytes (U7). -/
opaque Config.freeReply : Nat → Nat → Byte

/-- Log 24: byte `i` of a template PDU of at most `i` bytes (U7). -/
opaque Config.freeTmpl : Nat → Nat → Byte

/-- Log 24: the byte at offset `k` of a receive buffer that holds at most `k` received bytes (U7). -/
opaque Config.freeRx : Nat → Nat → Byte

/-- Log 25: the quotient of R322 with `BAUD` = 0, which R412 allows on TCP, where no rule reads it. -/
opaque Config.ratioByZero : Nat → Nat

/-- Log 26: the transport size `ts(0)`, which R203 does not give. -/
opaque Config.sizeOfZero : Nat

/-- Log 27: the number whose image stands where R12 and R206 have none, for a `v` of `256^n` or more in `n` bytes. -/
opaque Config.imageTooWide : Nat → Nat → Nat

/-- Log 28: the PDU length behind `txlen` when `TCP_SET_MBAP` is given one above `PDU_MAX` (R241). -/
opaque Config.freeLength : Nat → Nat → Nat

/-- Log 29: coil `i` where R121 defines none. -/
opaque Config.freeCoil : Nat → Bool

end Sys2Proof
end

