-- ==== Sys2Proof/Syntax.lean ====
section
/-! DEFINITION. The operations of the block as syntax: one constructor per row of spec/opcode_table.json
(00 R10, 30 R129). Handles, quantities and lengths are `Nat`; 16-bit data fields are bit vectors by type. -/

namespace Sys2Proof

/-- The target of a build (R140): one device, or a SlaveSet value, which the instruction names by the number of
the host's own free-standing set that holds it (log 6). -/
inductive Target
  | unit (u : Byte)
  | set (k : Nat)
  deriving DecidableEq, Repr

/-- The operand `ss` of the `SS_*` operations (file 44): a free-standing set of the host, or the one embedded in
slot `h`. -/
inductive SsRef
  | host (k : Nat)
  | slot (h : Nat)
  deriving DecidableEq, Repr

/-- The error operand of `TCP_FAIL`: exactly the five codes R250 lists. -/
inductive FailCode
  | responseTimeout
  | tcpSendBufferFull
  | connectionReset
  | connectionRefused
  | noClientForSlave
  deriving DecidableEq, Repr

/-- One constructor per row of the table, in the table's order. -/
inductive Instr
  -- the wire formats (R100, R102, R104)
  | rtuFrame (unit : Byte) (pdu : List Byte)
  | rtuExceptionFrame (unit fc code : Byte)
  | tcpFrame (tid : Half) (unit : Byte) (pdu : List Byte)
  -- the build operations (R150 to R162, R141)
  | rdCoils (target : Target) (a : Half) (q handler : Nat)
  | rdDiscrete (target : Target) (a : Half) (q handler : Nat)
  | rdHolding (target : Target) (a : Half) (n esize handler : Nat)
  | rdInput (target : Target) (a : Half) (n esize handler : Nat)
  | wrCoil (target : Target) (a : Half) (on : Bool) (handler : Nat)
  | wrReg (target : Target) (a v : Half) (handler : Nat)
  | rdExcStatus (target : Target) (handler : Nat)
  | diag (target : Target) (sub data : Half) (handler : Nat)
  | wrCoils (target : Target) (a : Half) (bits : List Bool) (handler : Nat)
  | wrRegs (target : Target) (a : Half) (esize : Nat) (vals : List Nat) (handler : Nat)
  | maskWr (target : Target) (a andMask orMask : Half) (handler : Nat)
  | rwRegs (target : Target) (ra : Half) (rn : Nat) (wa : Half) (esize : Nat) (wvals : List Nat) (handler : Nat)
  | buildRaw (fc : Byte) (target : Target) (handler : Nat)
  -- the response arms (R187 to R198, R181 to R183)
  | rspRdCoils (h : Nat)
  | rspRdDiscrete (h : Nat)
  | rspRdHolding (h : Nat)
  | rspRdInput (h : Nat)
  | rspWrCoil (h : Nat)
  | rspWrReg (h : Nat)
  | rspRdExcStatus (h : Nat)
  | rspDiag (h : Nat)
  | rspWrCoils (h : Nat)
  | rspWrRegs (h : Nat)
  | rspMaskWr (h : Nat)
  | rspRwRegs (h : Nat)
  | rspException (h : Nat)
  | rspWrongFunction (h : Nat)
  | rspNotSupported (h : Nat)
  -- the RTU frame wrapper (R221 to R226)
  | rtuSetHead (h : Nat) (u : Byte)
  | rtuSetCrc (h len : Nat)
  | rtuCheckHead (h : Nat)
  | rtuCheckCrc (h : Nat)
  | crc16 (bytes : List Byte)
  -- the TCP frame wrapper and the SentBuffer (R241 to R257)
  | tcpSetMbap (h : Nat) (u : Byte) (len : Nat)
  | tcpCheckMbap (h : Nat)
  | tcpPayloadLen (h : Nat)
  | tcpReceive (h : Nat) (frame : List Byte)
  | sbAdd (h : Nat)
  | sbRead (tid : Half)
  | sbReadNextTimeout (threshold : Nat)
  | tcpFail (h : Nat) (e : FailCode)
  -- the SlaveSet (R271 to R282)
  | ssSet (ss : SsRef) (a : Byte)
  | ssSetRange (ss : SsRef) (lo hi : Byte)
  | ssRemove (ss : SsRef) (a : Byte)
  | ssRemoveRange (ss : SsRef) (lo hi : Byte)
  | ssGetNext (ss : SsRef)
  | ssPeek (ss : SsRef)
  | ssClear (ss : SsRef)
  | ssSetDelays (ss : SsRef) (itemDelay repeatDelay : Int)
  | repeatIfNeeded (h : Nat)
  -- the TransactionQueue (R301 to R308)
  | qAdd (h : Option Nat)
  | qRead
  | qPeek
  | qReadReady
  | qHasReady
  | qClear
  -- the engine and the whole block (R323, R390, R208, R180, R204, R206, R410)
  | tick
  | clearAll
  | setBigEndian (b : Bool)
  | invoke (h : Nat)
  | normalize (h : Nat)
  | encodeElems (esize : Nat) (vals : List Nat)
  | reset (params : Params)
  deriving DecidableEq, Repr

end Sys2Proof
end

