-- ==== Sys2Proof/WellFormed.lean ====
section
/-! DEFINITION. What makes a term of `Instr` an operation that the host command encoding of Decode.lean can carry (log 1):
its numbers fit their fields, and a `BUILD_RAW` is for a function code outside the twelve (R141). The meanings ask for none of
it: a quantity, an element size, a unit or a value outside its range is the rule's to answer. -/

namespace Sys2Proof

/-- The twelve supported function codes (R2, R125). -/
def supportedCode (fc : Byte) : Bool :=
  [0x01#8, 0x02#8, 0x03#8, 0x04#8, 0x05#8, 0x06#8, 0x07#8, 0x08#8, 0x0F#8, 0x10#8, 0x16#8, 0x17#8].contains fc

/-- A count, handle, handler token or length that fits its two-byte field. -/
def fits16 (n : Nat) : Bool := decide (n < 65536)

/-- A parameter that fits its four-byte field. -/
def fits32 (n : Nat) : Bool := decide (n < 4294967296)

/-- A timeout or a threshold in ms that fits its eight-byte field. -/
def fits64 (n : Nat) : Bool := decide (n < 18446744073709551616)

/-- A SlaveSet delay that fits its eight-byte field. -/
def fitsDelay (i : Int) : Bool := decide (-9223372036854775808 ≤ i) && decide (i < 9223372036854775808)

def Target.wf : Target → Bool
  | .unit _ => true
  | .set k => fits16 k

def SsRef.wf : SsRef → Bool
  | .host k => fits16 k
  | .slot h => fits16 h

/-- R160, R206: each value is an unsigned integer below `256^esize`, so it fits `esize` bytes of a command; the element size
fits one byte, the number of values two. -/
def valsWf (esize : Nat) (vals : List Nat) : Bool :=
  decide (esize < 256) && fits16 vals.length && vals.all (fun v => decide (v < 256 ^ esize))

def Params.wf (p : Params) : Bool :=
  fits32 p.pduMax && fits32 p.poolCap && fits32 p.queueCap && fits32 p.sentCap && fits32 p.baud && fits32 p.dataBits &&
  fits32 p.parityBits && fits32 p.stopBits && fits64 p.respTimeoutMs && fits32 p.esMax && fits16 p.wTime

/-- Every operand of `i` fits its field of the command. -/
def Instr.wf : Instr → Bool
  | .rtuFrame _ pdu => fits16 pdu.length
  | .rtuExceptionFrame _ _ _ => true
  | .tcpFrame _ _ pdu => fits16 pdu.length
  | .rdCoils t _ q hd => t.wf && fits16 q && fits16 hd
  | .rdDiscrete t _ q hd => t.wf && fits16 q && fits16 hd
  | .rdHolding t _ n es hd => t.wf && fits16 n && decide (es < 256) && fits16 hd
  | .rdInput t _ n es hd => t.wf && fits16 n && decide (es < 256) && fits16 hd
  | .wrCoil t _ _ hd => t.wf && fits16 hd
  | .wrReg t _ _ hd => t.wf && fits16 hd
  | .rdExcStatus t hd => t.wf && fits16 hd
  | .diag t _ _ hd => t.wf && fits16 hd
  | .wrCoils t _ bits hd => t.wf && fits16 bits.length && fits16 hd
  | .wrRegs t _ es vals hd => t.wf && valsWf es vals && fits16 hd
  | .maskWr t _ _ _ hd => t.wf && fits16 hd
  | .rwRegs t _ rn _ es vals hd => t.wf && fits16 rn && valsWf es vals && fits16 hd
  | .buildRaw fc t hd => !supportedCode fc && t.wf && fits16 hd
  | .rspRdCoils h => fits16 h
  | .rspRdDiscrete h => fits16 h
  | .rspRdHolding h => fits16 h
  | .rspRdInput h => fits16 h
  | .rspWrCoil h => fits16 h
  | .rspWrReg h => fits16 h
  | .rspRdExcStatus h => fits16 h
  | .rspDiag h => fits16 h
  | .rspWrCoils h => fits16 h
  | .rspWrRegs h => fits16 h
  | .rspMaskWr h => fits16 h
  | .rspRwRegs h => fits16 h
  | .rspException h => fits16 h
  | .rspWrongFunction h => fits16 h
  | .rspNotSupported h => fits16 h
  | .rtuSetHead h _ => fits16 h
  | .rtuSetCrc h len => fits16 h && fits16 len
  | .rtuCheckHead h => fits16 h
  | .rtuCheckCrc h => fits16 h
  | .crc16 bytes => fits16 bytes.length
  | .tcpSetMbap h _ len => fits16 h && fits16 len
  | .tcpCheckMbap h => fits16 h
  | .tcpPayloadLen h => fits16 h
  | .tcpReceive h f => fits16 h && fits16 f.length
  | .sbAdd h => fits16 h
  | .sbRead _ => true
  | .sbReadNextTimeout t => fits64 t
  | .tcpFail h _ => fits16 h
  | .ssSet ss _ => ss.wf
  | .ssSetRange ss _ _ => ss.wf
  | .ssRemove ss _ => ss.wf
  | .ssRemoveRange ss _ _ => ss.wf
  | .ssGetNext ss => ss.wf
  | .ssPeek ss => ss.wf
  | .ssClear ss => ss.wf
  | .ssSetDelays ss i r => ss.wf && fitsDelay i && fitsDelay r
  | .repeatIfNeeded h => fits16 h
  | .qAdd none => true
  | .qAdd (some h) => fits16 h
  | .qRead => true
  | .qPeek => true
  | .qReadReady => true
  | .qHasReady => true
  | .qClear => true
  | .tick => true
  | .clearAll => true
  | .setBigEndian _ => true
  | .invoke h => fits16 h
  | .normalize h => fits16 h
  | .encodeElems es vals => valsWf es vals
  | .reset p => p.wf

end Sys2Proof
end

