-- ==== Sys2Proof/Decode.lean ====
section
/-! DEFINITION. The host's command: from bytes to an operation or a named error, and back.
The source has no command port (D1, D2, R129): only the first byte, the number of opcode_table.json, is the spec's. The
byte after it names the class, the operand bytes are the model's own (DESIGN CHOICE, log 1): big-endian fields in the
order of the operands, lists behind a two-byte count. A command may be followed by zero bytes and by nothing else. -/

namespace Sys2Proof

/-- Why a byte sequence is no command. -/
inductive DecodeError
  | truncated          -- the bytes end inside the operation
  | unknownNumber      -- no row of the table has this class and number
  | badFlag            -- a Boolean, mode or alternative byte that names no alternative
  | trailingBytes      -- a byte other than zero after the operation
  deriving DecidableEq, Repr

/-- A reader takes bytes off the front of a sequence. -/
abbrev Reader (α : Type) := List Byte → Except DecodeError (α × List Byte)

def rdPure {α : Type} (a : α) : Reader α := fun r => .ok (a, r)

/-- `p` reads a function, then `q` its argument. -/
def rdThen {α β : Type} (q : Reader α) (p : Reader (α → β)) : Reader β := fun r =>
  match p r with
  | .error e => .error e
  | .ok (f, r') =>
    match q r' with
    | .error e => .error e
    | .ok (a, r'') => .ok (f a, r'')

def rdMap {α β : Type} (f : α → β) (q : Reader α) : Reader β := rdThen q (rdPure f)

/-- `q` gives an optional value; nothing is an alternative that does not exist. -/
def rdFlag {α : Type} (q : Reader (Option α)) : Reader α := fun r =>
  match q r with
  | .error e => .error e
  | .ok (none, _) => .error .badFlag
  | .ok (some a, r') => .ok (a, r')

def rdByte : Reader Byte
  | [] => .error .truncated
  | b :: r => .ok (b, r)

/-- A big-endian number of `k` bytes, after the digits `acc` read so far. -/
def rdNatFrom (acc : Nat) : Nat → Reader Nat
  | 0, r => .ok (acc, r)
  | _ + 1, [] => .error .truncated
  | k + 1, b :: r => rdNatFrom (256 * acc + b.toNat) k r

def rdNat (k : Nat) : Reader Nat := rdNatFrom 0 k

/-- The big-endian image of `v` in `k` bytes. -/
def putNat : Nat → Nat → List Byte
  | 0, _ => []
  | k + 1, v => BitVec.ofNat 8 (v / 256 ^ k) :: putNat k v

def rdHalf : Reader Half := rdMap (BitVec.ofNat 16) (rdNat 2)
def putHalf (v : Half) : List Byte := putNat 2 v.toNat

def boolOf (b : Byte) : Option Bool := if b = 0#8 then some false else if b = 1#8 then some true else none
def rdBool : Reader Bool := rdFlag (rdMap boolOf rdByte)
def putBool (b : Bool) : List Byte := [if b then 1#8 else 0#8]

def rdMany {α : Type} (q : Reader α) : Nat → Reader (List α)
  | 0, r => .ok ([], r)
  | n + 1, r =>
    match q r with
    | .error e => .error e
    | .ok (a, r') =>
      match rdMany q n r' with
      | .error e => .error e
      | .ok (as, r'') => .ok (a :: as, r'')

/-- A list behind its two-byte count. -/
def rdList {α : Type} (q : Reader α) : Reader (List α) := fun r =>
  match rdNat 2 r with
  | .error e => .error e
  | .ok (n, r') => rdMany q n r'

def putList {α : Type} (put : α → List Byte) (l : List α) : List Byte := putNat 2 l.length ++ l.flatMap put

def rdBytes : Reader (List Byte) := rdList rdByte
def putBytes (l : List Byte) : List Byte := putList (fun b => [b]) l

/-- An element size and the values of that size. -/
def rdVals : Reader (Nat × List Nat) := fun r =>
  match rdNat 1 r with
  | .error e => .error e
  | .ok (es, r') => rdMap (Prod.mk es) (rdList (rdNat es)) r'

def putVals (es : Nat) (vals : List Nat) : List Byte := putNat 1 es ++ putList (putNat es) vals

def rdTarget : Reader Target := fun r =>
  match rdBool r with
  | .error e => .error e
  | .ok (false, r') => rdMap Target.unit rdByte r'
  | .ok (true, r') => rdMap Target.set (rdNat 2) r'

def putTarget : Target → List Byte
  | .unit u => putBool false ++ [u]
  | .set k => putBool true ++ putNat 2 k

def rdSs : Reader SsRef := fun r =>
  match rdBool r with
  | .error e => .error e
  | .ok (false, r') => rdMap SsRef.host (rdNat 2) r'
  | .ok (true, r') => rdMap SsRef.slot (rdNat 2) r'

def putSs : SsRef → List Byte
  | .host k => putBool false ++ putNat 2 k
  | .slot h => putBool true ++ putNat 2 h

def rdOptHandle : Reader (Option Nat) := fun r =>
  match rdBool r with
  | .error e => .error e
  | .ok (false, r') => .ok (none, r')
  | .ok (true, r') => rdMap some (rdNat 2) r'

def putOptHandle : Option Nat → List Byte
  | none => putBool false
  | some h => putBool true ++ putNat 2 h

/-- A signed number of eight bytes, two's complement. -/
def intOf (n : Nat) : Int := if n < 9223372036854775808 then (n : Int) else (n : Int) - 18446744073709551616
def rdInt : Reader Int := rdMap intOf (rdNat 8)
def putInt (i : Int) : List Byte := putNat 8 (i % 18446744073709551616).toNat

def failCodeOf (b : Byte) : Option FailCode :=
  if b = 0#8 then some .responseTimeout
  else if b = 1#8 then some .tcpSendBufferFull
  else if b = 2#8 then some .connectionReset
  else if b = 3#8 then some .connectionRefused
  else if b = 4#8 then some .noClientForSlave
  else none

def failCodeByte : FailCode → Byte
  | .responseTimeout => 0#8
  | .tcpSendBufferFull => 1#8
  | .connectionReset => 2#8
  | .connectionRefused => 3#8
  | .noClientForSlave => 4#8

def rdFailCode : Reader FailCode := rdFlag (rdMap failCodeOf rdByte)

def transportOf (b : Bool) : Transport := if b then .tcp else .rtu
def transportFlag : Transport → Bool
  | .rtu => false
  | .tcp => true

def removeModeOf (b : Bool) : RemoveMode := if b then .rotate else .swap
def removeModeFlag : RemoveMode → Bool
  | .swap => false
  | .rotate => true

/-- The parameters of `RESET`, field by field. -/
def rdParamsFull : Reader Params :=
  rdPure Params.mk |> rdThen (rdMap transportOf rdBool) |> rdThen (rdNat 4) |> rdThen (rdNat 4) |> rdThen (rdNat 4)
    |> rdThen (rdNat 4) |> rdThen (rdNat 4) |> rdThen (rdNat 4) |> rdThen (rdNat 4) |> rdThen (rdNat 4)
    |> rdThen (rdNat 8) |> rdThen rdBool |> rdThen (rdNat 4) |> rdThen (rdMap removeModeOf rdBool) |> rdThen (rdNat 2)

def putParamsFull (p : Params) : List Byte :=
  putBool (transportFlag p.transport) ++ (putNat 4 p.pduMax ++ (putNat 4 p.poolCap ++ (putNat 4 p.queueCap ++
    (putNat 4 p.sentCap ++ (putNat 4 p.baud ++ (putNat 4 p.dataBits ++ (putNat 4 p.parityBits ++
    (putNat 4 p.stopBits ++ (putNat 8 p.respTimeoutMs ++ (putBool p.hostBe ++ (putNat 4 p.esMax ++
    (putBool (removeModeFlag p.removeMode) ++ putNat 2 p.wTime))))))))))))

/-- The parameters of `RESET`: the defaults of R7 behind a zero byte, or all of them behind a one. -/
def rdParams : Reader Params := fun r =>
  match rdBool r with
  | .error e => .error e
  | .ok (false, r') => .ok (Params.default, r')
  | .ok (true, r') => rdParamsFull r'

def putParams (p : Params) : List Byte :=
  if p = Params.default then putBool false else putBool true ++ putParamsFull p

/-! ### The table -/

/-- One row: the class, the table's number (R125, R129) and the reader of the operands. -/
structure Row where
  cls : Byte
  num : Byte
  operands : Reader Instr

/-- Class 0, the build operations: the number is the function code (R108 to R119). -/
def buildRows : List Row :=
  [⟨0#8, 0x01#8, rdPure Instr.rdCoils |> rdThen rdTarget |> rdThen rdHalf |> rdThen (rdNat 2) |> rdThen (rdNat 2)⟩,
   ⟨0#8, 0x02#8, rdPure Instr.rdDiscrete |> rdThen rdTarget |> rdThen rdHalf |> rdThen (rdNat 2) |> rdThen (rdNat 2)⟩,
   ⟨0#8, 0x03#8, rdPure Instr.rdHolding |> rdThen rdTarget |> rdThen rdHalf |> rdThen (rdNat 2) |> rdThen (rdNat 1)
      |> rdThen (rdNat 2)⟩,
   ⟨0#8, 0x04#8, rdPure Instr.rdInput |> rdThen rdTarget |> rdThen rdHalf |> rdThen (rdNat 2) |> rdThen (rdNat 1)
      |> rdThen (rdNat 2)⟩,
   ⟨0#8, 0x05#8, rdPure Instr.wrCoil |> rdThen rdTarget |> rdThen rdHalf |> rdThen rdBool |> rdThen (rdNat 2)⟩,
   ⟨0#8, 0x06#8, rdPure Instr.wrReg |> rdThen rdTarget |> rdThen rdHalf |> rdThen rdHalf |> rdThen (rdNat 2)⟩,
   ⟨0#8, 0x07#8, rdPure Instr.rdExcStatus |> rdThen rdTarget |> rdThen (rdNat 2)⟩,
   ⟨0#8, 0x08#8, rdPure Instr.diag |> rdThen rdTarget |> rdThen rdHalf |> rdThen rdHalf |> rdThen (rdNat 2)⟩,
   ⟨0#8, 0x0F#8, rdPure Instr.wrCoils |> rdThen rdTarget |> rdThen rdHalf |> rdThen (rdList rdBool) |> rdThen (rdNat 2)⟩,
   ⟨0#8, 0x10#8, rdPure (fun t a (ev : Nat × List Nat) hd => Instr.wrRegs t a ev.1 ev.2 hd) |> rdThen rdTarget
      |> rdThen rdHalf |> rdThen rdVals |> rdThen (rdNat 2)⟩,
   ⟨0#8, 0x16#8, rdPure Instr.maskWr |> rdThen rdTarget |> rdThen rdHalf |> rdThen rdHalf |> rdThen rdHalf
      |> rdThen (rdNat 2)⟩,
   ⟨0#8, 0x17#8, rdPure (fun t ra rn wa (ev : Nat × List Nat) hd => Instr.rwRegs t ra rn wa ev.1 ev.2 hd)
      |> rdThen rdTarget |> rdThen rdHalf |> rdThen (rdNat 2) |> rdThen rdHalf |> rdThen rdVals |> rdThen (rdNat 2)⟩]

/-- Class 0, the operations without a wire image (R129), and `RSP_EXCEPTION`, whose number 0x80 no build and no
operation has. -/
def frameOpRows : List Row :=
  [⟨0#8, 0x20#8, rdPure Instr.rtuSetHead |> rdThen (rdNat 2) |> rdThen rdByte⟩,
   ⟨0#8, 0x21#8, rdPure Instr.rtuSetCrc |> rdThen (rdNat 2) |> rdThen (rdNat 2)⟩,
   ⟨0#8, 0x22#8, rdMap Instr.rtuCheckHead (rdNat 2)⟩,
   ⟨0#8, 0x23#8, rdMap Instr.rtuCheckCrc (rdNat 2)⟩,
   ⟨0#8, 0x24#8, rdMap Instr.crc16 rdBytes⟩,
   ⟨0#8, 0x28#8, rdPure Instr.tcpSetMbap |> rdThen (rdNat 2) |> rdThen rdByte |> rdThen (rdNat 2)⟩,
   ⟨0#8, 0x29#8, rdMap Instr.tcpCheckMbap (rdNat 2)⟩,
   ⟨0#8, 0x2A#8, rdMap Instr.tcpPayloadLen (rdNat 2)⟩,
   ⟨0#8, 0x2B#8, rdPure Instr.tcpReceive |> rdThen (rdNat 2) |> rdThen rdBytes⟩,
   ⟨0#8, 0x2C#8, rdMap Instr.sbAdd (rdNat 2)⟩,
   ⟨0#8, 0x2D#8, rdMap Instr.sbRead rdHalf⟩,
   ⟨0#8, 0x2E#8, rdMap Instr.sbReadNextTimeout (rdNat 8)⟩,
   ⟨0#8, 0x2F#8, rdPure Instr.tcpFail |> rdThen (rdNat 2) |> rdThen rdFailCode⟩]

def ssRows : List Row :=
  [⟨0#8, 0x30#8, rdPure Instr.ssSet |> rdThen rdSs |> rdThen rdByte⟩,
   ⟨0#8, 0x31#8, rdPure Instr.ssSetRange |> rdThen rdSs |> rdThen rdByte |> rdThen rdByte⟩,
   ⟨0#8, 0x32#8, rdPure Instr.ssRemove |> rdThen rdSs |> rdThen rdByte⟩,
   ⟨0#8, 0x33#8, rdPure Instr.ssRemoveRange |> rdThen rdSs |> rdThen rdByte |> rdThen rdByte⟩,
   ⟨0#8, 0x34#8, rdMap Instr.ssGetNext rdSs⟩,
   ⟨0#8, 0x35#8, rdMap Instr.ssPeek rdSs⟩,
   ⟨0#8, 0x36#8, rdMap Instr.ssClear rdSs⟩,
   ⟨0#8, 0x37#8, rdPure Instr.ssSetDelays |> rdThen rdSs |> rdThen rdInt |> rdThen rdInt⟩,
   ⟨0#8, 0x38#8, rdMap Instr.repeatIfNeeded (rdNat 2)⟩]

def blockRows : List Row :=
  [⟨0#8, 0x40#8, rdMap Instr.qAdd rdOptHandle⟩,
   ⟨0#8, 0x41#8, rdPure Instr.qRead⟩,
   ⟨0#8, 0x42#8, rdPure Instr.qPeek⟩,
   ⟨0#8, 0x43#8, rdPure Instr.qReadReady⟩,
   ⟨0#8, 0x44#8, rdPure Instr.qHasReady⟩,
   ⟨0#8, 0x45#8, rdPure Instr.qClear⟩,
   ⟨0#8, 0x50#8, rdPure Instr.tick⟩,
   ⟨0#8, 0x51#8, rdPure Instr.clearAll⟩,
   ⟨0#8, 0x52#8, rdMap Instr.setBigEndian rdBool⟩,
   ⟨0#8, 0x53#8, rdMap Instr.invoke (rdNat 2)⟩,
   ⟨0#8, 0x54#8, rdMap Instr.normalize (rdNat 2)⟩,
   ⟨0#8, 0x55#8, rdMap (fun (ev : Nat × List Nat) => Instr.encodeElems ev.1 ev.2) rdVals⟩,
   ⟨0#8, 0x5F#8, rdMap Instr.reset rdParams⟩,
   ⟨0#8, 0x80#8, rdMap Instr.rspException (rdNat 2)⟩]

/-- Class 2, the response arms: the number is the function code (R125); 0x00 and 0xFF stand for the two arms that
have none (log 1). -/
def responseRows : List Row :=
  [⟨2#8, 0x01#8, rdMap Instr.rspRdCoils (rdNat 2)⟩,
   ⟨2#8, 0x02#8, rdMap Instr.rspRdDiscrete (rdNat 2)⟩,
   ⟨2#8, 0x03#8, rdMap Instr.rspRdHolding (rdNat 2)⟩,
   ⟨2#8, 0x04#8, rdMap Instr.rspRdInput (rdNat 2)⟩,
   ⟨2#8, 0x05#8, rdMap Instr.rspWrCoil (rdNat 2)⟩,
   ⟨2#8, 0x06#8, rdMap Instr.rspWrReg (rdNat 2)⟩,
   ⟨2#8, 0x07#8, rdMap Instr.rspRdExcStatus (rdNat 2)⟩,
   ⟨2#8, 0x08#8, rdMap Instr.rspDiag (rdNat 2)⟩,
   ⟨2#8, 0x0F#8, rdMap Instr.rspWrCoils (rdNat 2)⟩,
   ⟨2#8, 0x10#8, rdMap Instr.rspWrRegs (rdNat 2)⟩,
   ⟨2#8, 0x16#8, rdMap Instr.rspMaskWr (rdNat 2)⟩,
   ⟨2#8, 0x17#8, rdMap Instr.rspRwRegs (rdNat 2)⟩,
   ⟨2#8, 0x00#8, rdMap Instr.rspWrongFunction (rdNat 2)⟩,
   ⟨2#8, 0xFF#8, rdMap Instr.rspNotSupported (rdNat 2)⟩]

/-- Class 3, the wire formats. -/
def formatRows : List Row :=
  [⟨3#8, 0x00#8, rdPure Instr.rtuFrame |> rdThen rdByte |> rdThen rdBytes⟩,
   ⟨3#8, 0x80#8, rdPure Instr.rtuExceptionFrame |> rdThen rdByte |> rdThen rdByte |> rdThen rdByte⟩,
   ⟨3#8, 0x01#8, rdPure Instr.tcpFrame |> rdThen rdHalf |> rdThen rdByte |> rdThen rdBytes⟩]

def table : List Row := buildRows ++ frameOpRows ++ ssRows ++ blockRows ++ responseRows ++ formatRows

/-- The operands of the row with this class and number. -/
def findRow (cls num : Byte) : List Row → Option (Reader Instr)
  | [] => none
  | row :: rows => if row.cls = cls ∧ row.num = num then some row.operands else findRow cls num rows

/-- Class 1 is `BUILD_RAW`: the number is any function code outside the twelve (R126, R141). The others are the table's. -/
def operandsOf (cls num : Byte) : Option (Reader Instr) :=
  if cls = 1#8 then
    if supportedCode num then none
    else some (rdPure (Instr.buildRaw num) |> rdThen rdTarget |> rdThen (rdNat 2))
  else findRow cls num table

/-- The first operation of a byte sequence and what follows it. -/
def decodeFront : Reader Instr
  | num :: cls :: r =>
    match operandsOf cls num with
    | none => .error .unknownNumber
    | some p => p r
  | _ => .error .truncated

/-- A command: one operation, then zero bytes at most. Total on any bytes; what it gives is well formed
(`decode_wf`, Laws/Codec.lean). -/
def decode (bytes : List Byte) : Except DecodeError Instr :=
  match decodeFront bytes with
  | .error e => .error e
  | .ok (i, r) =>
    if r.all (fun b => decide (b = 0#8)) then .ok i else .error .trailingBytes

/-! ### The encoder -/

/-- The number (first byte), the class (second byte) and the operand bytes of an operation. -/
def Instr.parts : Instr → Byte × Byte × List Byte
  | .rtuFrame u pdu => (0x00#8, 3#8, u :: putBytes pdu)
  | .rtuExceptionFrame u fc c => (0x80#8, 3#8, [u, fc, c])
  | .tcpFrame tid u pdu => (0x01#8, 3#8, putHalf tid ++ (u :: putBytes pdu))
  | .rdCoils t a q hd => (0x01#8, 0#8, putTarget t ++ (putHalf a ++ (putNat 2 q ++ putNat 2 hd)))
  | .rdDiscrete t a q hd => (0x02#8, 0#8, putTarget t ++ (putHalf a ++ (putNat 2 q ++ putNat 2 hd)))
  | .rdHolding t a n es hd => (0x03#8, 0#8, putTarget t ++ (putHalf a ++ (putNat 2 n ++ (putNat 1 es ++ putNat 2 hd))))
  | .rdInput t a n es hd => (0x04#8, 0#8, putTarget t ++ (putHalf a ++ (putNat 2 n ++ (putNat 1 es ++ putNat 2 hd))))
  | .wrCoil t a on hd => (0x05#8, 0#8, putTarget t ++ (putHalf a ++ (putBool on ++ putNat 2 hd)))
  | .wrReg t a v hd => (0x06#8, 0#8, putTarget t ++ (putHalf a ++ (putHalf v ++ putNat 2 hd)))
  | .rdExcStatus t hd => (0x07#8, 0#8, putTarget t ++ putNat 2 hd)
  | .diag t s d hd => (0x08#8, 0#8, putTarget t ++ (putHalf s ++ (putHalf d ++ putNat 2 hd)))
  | .wrCoils t a bits hd => (0x0F#8, 0#8, putTarget t ++ (putHalf a ++ (putList putBool bits ++ putNat 2 hd)))
  | .wrRegs t a es vals hd => (0x10#8, 0#8, putTarget t ++ (putHalf a ++ (putVals es vals ++ putNat 2 hd)))
  | .maskWr t a am om hd => (0x16#8, 0#8, putTarget t ++ (putHalf a ++ (putHalf am ++ (putHalf om ++ putNat 2 hd))))
  | .rwRegs t ra rn wa es vals hd =>
    (0x17#8, 0#8, putTarget t ++ (putHalf ra ++ (putNat 2 rn ++ (putHalf wa ++ (putVals es vals ++ putNat 2 hd)))))
  | .buildRaw fc t hd => (fc, 1#8, putTarget t ++ putNat 2 hd)
  | .rspRdCoils h => (0x01#8, 2#8, putNat 2 h)
  | .rspRdDiscrete h => (0x02#8, 2#8, putNat 2 h)
  | .rspRdHolding h => (0x03#8, 2#8, putNat 2 h)
  | .rspRdInput h => (0x04#8, 2#8, putNat 2 h)
  | .rspWrCoil h => (0x05#8, 2#8, putNat 2 h)
  | .rspWrReg h => (0x06#8, 2#8, putNat 2 h)
  | .rspRdExcStatus h => (0x07#8, 2#8, putNat 2 h)
  | .rspDiag h => (0x08#8, 2#8, putNat 2 h)
  | .rspWrCoils h => (0x0F#8, 2#8, putNat 2 h)
  | .rspWrRegs h => (0x10#8, 2#8, putNat 2 h)
  | .rspMaskWr h => (0x16#8, 2#8, putNat 2 h)
  | .rspRwRegs h => (0x17#8, 2#8, putNat 2 h)
  | .rspException h => (0x80#8, 0#8, putNat 2 h)
  | .rspWrongFunction h => (0x00#8, 2#8, putNat 2 h)
  | .rspNotSupported h => (0xFF#8, 2#8, putNat 2 h)
  | .rtuSetHead h u => (0x20#8, 0#8, putNat 2 h ++ [u])
  | .rtuSetCrc h len => (0x21#8, 0#8, putNat 2 h ++ putNat 2 len)
  | .rtuCheckHead h => (0x22#8, 0#8, putNat 2 h)
  | .rtuCheckCrc h => (0x23#8, 0#8, putNat 2 h)
  | .crc16 bytes => (0x24#8, 0#8, putBytes bytes)
  | .tcpSetMbap h u len => (0x28#8, 0#8, putNat 2 h ++ (u :: putNat 2 len))
  | .tcpCheckMbap h => (0x29#8, 0#8, putNat 2 h)
  | .tcpPayloadLen h => (0x2A#8, 0#8, putNat 2 h)
  | .tcpReceive h f => (0x2B#8, 0#8, putNat 2 h ++ putBytes f)
  | .sbAdd h => (0x2C#8, 0#8, putNat 2 h)
  | .sbRead tid => (0x2D#8, 0#8, putHalf tid)
  | .sbReadNextTimeout t => (0x2E#8, 0#8, putNat 8 t)
  | .tcpFail h e => (0x2F#8, 0#8, putNat 2 h ++ [failCodeByte e])
  | .ssSet ss a => (0x30#8, 0#8, putSs ss ++ [a])
  | .ssSetRange ss lo hi => (0x31#8, 0#8, putSs ss ++ [lo, hi])
  | .ssRemove ss a => (0x32#8, 0#8, putSs ss ++ [a])
  | .ssRemoveRange ss lo hi => (0x33#8, 0#8, putSs ss ++ [lo, hi])
  | .ssGetNext ss => (0x34#8, 0#8, putSs ss)
  | .ssPeek ss => (0x35#8, 0#8, putSs ss)
  | .ssClear ss => (0x36#8, 0#8, putSs ss)
  | .ssSetDelays ss i r => (0x37#8, 0#8, putSs ss ++ (putInt i ++ putInt r))
  | .repeatIfNeeded h => (0x38#8, 0#8, putNat 2 h)
  | .qAdd h => (0x40#8, 0#8, putOptHandle h)
  | .qRead => (0x41#8, 0#8, [])
  | .qPeek => (0x42#8, 0#8, [])
  | .qReadReady => (0x43#8, 0#8, [])
  | .qHasReady => (0x44#8, 0#8, [])
  | .qClear => (0x45#8, 0#8, [])
  | .tick => (0x50#8, 0#8, [])
  | .clearAll => (0x51#8, 0#8, [])
  | .setBigEndian b => (0x52#8, 0#8, putBool b)
  | .invoke h => (0x53#8, 0#8, putNat 2 h)
  | .normalize h => (0x54#8, 0#8, putNat 2 h)
  | .encodeElems es vals => (0x55#8, 0#8, putVals es vals)
  | .reset p => (0x5F#8, 0#8, putParams p)

/-- The bytes of the command that issues `i`. -/
def encode (i : Instr) : List Byte := i.parts.1 :: i.parts.2.1 :: i.parts.2.2

/-! ### The table's words -/

/-- The first `k` bytes of the word `w`, bit 0 in the first byte. -/
def wordBytes : Nat → Nat → List Byte
  | 0, _ => []
  | k + 1, w => BitVec.ofNat 8 w :: wordBytes k (w / 256)

/-- A table word as a command: its `nbits / 8` bytes, then zeros for the operands. -/
def tableCommand (nbits w : Nat) : List Byte := wordBytes (nbits / 8) w ++ List.replicate 64 0#8

/-- The instruction the decoder reads from a word of spec/opcode_table.json. -/
def decodeTableWord (nbits w : Nat) : Option Instr :=
  match decode (tableCommand nbits w) with
  | .ok i => some i
  | .error _ => none

end Sys2Proof
end

