-- ==== Sys2Proof/Machine/State.lean ====
section
/-! DEFINITION. The state of one MFC instance (spec 10 R20) and of its boundary (00 R9), as plain data; the reasons a step
can stop; the state after reset (10 R42). -/

namespace Sys2Proof.Machine

/-- A sparse array: (index, value) pairs, indices rising, no value equal to the one an unlisted index reads as. -/
abbrev SMap (α : Type) := List (Nat × α)

/-- A byte-addressed buffer from offset 0 (R70): unlisted offsets read as zero, the reset contents of R42. -/
abbrev Memory := List Host.Cell

/-- R370 to R372, D5: the error field as an enumeration. The numbers are labels and are not part of the model. -/
inductive Err
  | ok                          -- 0, no error
  | protocol (c : Byte)         -- 1..10: the remote device's exception code (R371)
  | tooManyData
  | tooFewData
  | responseTimeout
  | connectionReset
  | connectionRefused
  | invalidSlave
  | invalidFunction
  | invalidSubfunction
  | invalidAddress
  | invalidData
  | invalidQuantity
  | invalidByteLength
  | invalidExceptionCode
  | crcFailure
  | invalidArgument
  | notSupported
  | queueFull
  | tcpSendBufferFull
  | noClientForSlave
  | poolExhausted
  | bufferTooSmall
  | invalidMbapHeader
  | invalidTransactionId
  | invalidProtocolId
  | invalidLength
  | invalidUnitId
  deriving DecidableEq, Repr

/-- R37, D12: the SlaveSet cursor, an address or one of the three sentinels. -/
inductive Cursor
  | start                       -- SS_BEGIN
  | addr (a : Nat)
  | finish                      -- SS_END
  | null                        -- SS_NULL (R280)
  deriving DecidableEq, Repr

/-- R37: the SlaveSet record. -/
structure SlaveSet where
  bits        : BitVec 256
  active      : Cursor
  itemDelay   : Int
  repeatDelay : Int
  deriving DecidableEq, Repr

/-- R275: the cleared SlaveSet. -/
def SlaveSet.cleared : SlaveSet := { bits := 0#256, active := .start, itemDelay := 0, repeatDelay := -1 }

/-- R23, R284: a computed send-delay, a `W_TIME`-bit number of ms; a delay of `2^W_TIME` ms or more is never reached
(R428, log 8). -/
inductive Delay
  | ms (d : Time)
  | never
  deriving DecidableEq, Repr

/-- R23: the fields of a transaction slot. -/
structure Slot where
  inuse   : Bool
  tx      : Memory
  txlen   : Nat
  rx      : Memory
  rxlen   : Nat
  explen  : Nat
  tmpl    : Memory
  tmpllen : Nat
  winOff  : Nat
  winLen  : Nat
  esize   : Nat
  err     : Err
  handler : Option Nat
  qtime   : Time
  delay   : Delay
  stime   : Time
  exc     : Bool
  ss      : SlaveSet
  deriving DecidableEq, Repr

/-- R42: the cleared slot. -/
def Slot.cleared : Slot :=
  { inuse := false, tx := [], txlen := 0, rx := [], rxlen := 0, explen := 0, tmpl := [], tmpllen := 1, winOff := 0,
    winLen := 0, esize := 1, err := .ok, handler := none, qtime := 0, delay := .ms 0, stime := 0, exc := false,
    ss := SlaveSet.cleared }

/-- R34: the configuration registers: the parameters and the two derived timing constants (R322). -/
structure Cfg where
  params    : Params
  byteToUs  : Nat
  frameToUs : Nat
  deriving DecidableEq, Repr

/-- R33: the shared context. -/
structure Ctx where
  bigEndian : Bool
  tid       : Half
  deriving DecidableEq, Repr

/-- R35: the TransactionQueue, a circular array with head, tail and count. -/
structure Queue where
  arr   : SMap (Option Nat)
  head  : Nat
  tail  : Nat
  count : Nat
  deriving DecidableEq, Repr

/-- R21, R321: the four states of the RTU engine. -/
inductive EngState
  | bufferClear
  | idle
  | receive
  | headChecked
  deriving DecidableEq, Repr

/-- R38: the RTU engine record. -/
structure Eng where
  state   : EngState
  pending : Option Nat
  idleT   : Time
  byteT   : Time
  deriving DecidableEq, Repr

/-- R385: what the completion handler sees, a copy (D20). -/
structure DoneRecord where
  slot  : Option Nat
  err   : Err
  fc    : Byte
  unit  : Byte
  esize : Nat
  data  : List Byte
  deriving DecidableEq, Repr

/-- R9: the output events. `tcpWrite` is the channel's (out of scope, R5): no rule of the block emits it. -/
inductive Event
  | txBegin
  | txEnd
  | serWrite (bytes : List Byte)
  | tcpWrite (bytes : List Byte)
  | done (handler : Option Nat) (rec : DoneRecord)
  deriving DecidableEq, Repr

/-- Why an operation was rejected with nothing changed (93 Part 1, treatment `refuse`). -/
inductive Reject
  | noSuchSlot              -- a handle outside 0..POOL_CAP-1 (R22)
  | handleNotFree           -- a handle not in use, or held by a container (U1, R420)
  | illegalConfiguration    -- RESET outside R412 (U18)
  | outOfRange              -- no such frame (R100, R102, R104) or no such build (R141)
  deriving DecidableEq, Repr

/-- R9: the result value of a step for the caller. -/
inductive Result
  | unit
  | handle (h : Option Nat)
  | bool (b : Bool)
  | cursor (c : Cursor)
  | err (e : Err)
  | length (n : Nat)
  | crc (w : Half)
  | bytes (l : List Byte)
  | rejected (r : Reject)
  deriving DecidableEq, Repr

/-- One step as the host issues it (R9): the command's bytes, the environment's clock at that moment, the serial bytes that
arrived since the step before. -/
structure HostCmd where
  bytes   : List Byte
  clockMs : Nat
  clockUs : Nat
  arrived : List Byte
  deriving DecidableEq, Repr

/-- R20: `(cfg, ctx, slot, q, sb, eng)`, then the boundary: the environment's clock at this step, of which
the block reads `W_TIME` bits (`State.nowMs`, `State.nowUs`; log 3), the bytes waiting in the serial
source, the host's own SlaveSets and commands, the result and the events of this step; last the free-value counter. -/
structure State where
  cfg       : Cfg
  ctx       : Ctx
  pool      : SMap Slot
  q         : Queue
  sb        : SMap (Option Nat)
  eng       : Eng
  clockMs   : Nat
  clockUs   : Nat
  serial    : List Byte
  hostSets  : SMap SlaveSet
  host      : List HostCmd
  result    : Result
  events    : List Event
  freeCount : Nat
  deriving DecidableEq, Repr

/-- Why the machine stops with a fault. No run of the block's own operations reaches one. -/
inductive Fault
  /-- A buffer access past the buffer's capacity (R80, U12 `fault`): raised by the guards on a slot's frame and template
  lengths (`checked`), on the window a `Done` record copies (`raise`) and by `RTU_SET_CRC` with a length above `PDU_MAX`. Safe: the machine stops. -/
  | bufferBound
  /-- The engine waits for a response and no transaction is pending, against R38. Raised by `TICK`. Safe. -/
  | noPending
  deriving DecidableEq, Repr

/-- Why an operation has no meaning here. -/
inductive Refusal
  /-- An operation this model gives no meaning yet. Safe. No arm of `exec` uses it. -/
  | notModelled (mnemonic : String)
  /-- The host's command is no operation: raised by `step`, with the decoder's reason. Safe. -/
  | undecodable (e : DecodeError)
  /-- The operation does not exist on this instance's transport (files 42, 43, 46). Safe. -/
  | absentOperation
  deriving DecidableEq, Repr

/-- The outcome of a meaning. -/
abbrev Out := Host.Outcome State Fault Refusal

/-- R42: the block right after `RESET` with the default parameters, RTU, at clock 0 (log 2). -/
def State.reset : State :=
  { cfg := { params := Params.default, byteToUs := 1563, frameToUs := 3646 },
    ctx := { bigEndian := false, tid := 0#16 },
    pool := [],
    q := { arr := [], head := 0, tail := 0, count := 0 },
    sb := [],
    eng := { state := .idle, pending := none, idleT := 0, byteT := 0 },
    clockMs := 0, clockUs := 0, serial := [], hostSets := [], host := [], result := .unit, events := [],
    freeCount := 0 }

end Sys2Proof.Machine
end

