-- ==== Sys2Proof/Machine/Memory.lean ====
section
/-! DEFINITION. Sparse arrays in one canonical form, and the byte buffers over them (spec 20 R70, R80).
A buffer's capacity is a matter of the configuration (R8); the bounds are the guards of Machine/Ops.lean. -/

namespace Sys2Proof.Machine

variable {α : Type}

/-- The value at index `k`; `d` is what an unlisted index reads as. -/
def cellAt (d : α) : SMap α → Nat → α
  | [], _ => d
  | (a, v) :: m, k => if a = k then v else cellAt d m k

/-- The array without index `k`. -/
def dropCell : SMap α → Nat → SMap α
  | [], _ => []
  | (a, v) :: m, k => if a = k then dropCell m k else (a, v) :: dropCell m k

/-- The array with index `k` listed as `v`. -/
def insertCell : SMap α → Nat → α → SMap α
  | [], k, v => [(k, v)]
  | (a, w) :: m, k, v =>
    if k < a then (k, v) :: (a, w) :: m
    else if a = k then (k, v) :: m
    else (a, w) :: insertCell m k v

/-- Write `v` at index `k`: a value that an unlisted index reads as is not listed. -/
def putCell [DecidableEq α] (d : α) (m : SMap α) (k : Nat) (v : α) : SMap α :=
  if v = d then dropCell m k else insertCell m k v

/-- The canonical form: indices above `lo` and rising, no value equal to `d`. -/
def canonicalFrom [DecidableEq α] (d : α) : Nat → SMap α → Bool
  | _, [] => true
  | lo, (a, v) :: m => decide (lo ≤ a) && !decide (v = d) && canonicalFrom d (a + 1) m

def canonical [DecidableEq α] (d : α) (m : SMap α) : Bool := canonicalFrom d 0 m

/-- Every listed index is below `n`. -/
def below (n : Nat) (m : SMap α) : Bool := m.all (fun c => decide (c.1 < n))

/-- The canonical form of a byte buffer. -/
def Memory.wf (m : Memory) : Bool := canonical 0#8 m

def readByte (m : Memory) (k : Nat) : Byte := cellAt 0#8 m k

/-- R80 `MemRead`: `n` bytes from offset `k`. -/
def readBytes (m : Memory) : Nat → Nat → List Byte
  | _, 0 => []
  | k, n + 1 => readByte m k :: readBytes m (k + 1) n

/-- R80 `MemWrite`: the sequence at offsets `k`, `k + 1`, and so on. -/
def writeBytes : Memory → Nat → List Byte → Memory
  | m, _, [] => m
  | m, k, b :: bs => writeBytes (putCell 0#8 m k b) (k + 1) bs

end Sys2Proof.Machine
end

