-- ==== Sys2Proof/Machine/Operands.lean ====
section
/-! DEFINITION. Operand forms and the notation of spec 00 R11 to R14 as functions: byte sequences, checksums, the derived
constants of a configuration, the slots and their derived accessors (10 R25), SlaveSet references, time. -/

namespace Sys2Proof.Machine

/-! ### Numbers and byte sequences (R11, R12) -/

def hi8 (v : Half) : Byte := v.extractLsb' 8 8
def lo8 (v : Half) : Byte := v.extractLsb' 0 8
def be16 (v : Half) : List Byte := [hi8 v, lo8 v]
def le16 (v : Half) : List Byte := [lo8 v, hi8 v]
def ceil8 (q : Nat) : Nat := (q + 7) / 8

/-- `uNbe`: the big-endian value of a sequence. -/
def uNbe (l : List Byte) : Nat := l.foldl (fun acc b => 256 * acc + b.toNat) 0

/-- `beN(v, n)`: the n-byte big-endian image of a number. -/
def beN : Nat → Nat → List Byte
  | _, 0 => []
  | v, n + 1 => BitVec.ofNat 8 (v / 256 ^ n) :: beN v n

/-- `u16le` of a two-byte sequence. -/
def u16le (l : List Byte) : Nat := uNbe l.reverse

/-- `s[i..j)`. -/
def slice (l : List Byte) (i j : Nat) : List Byte := (l.drop i).take (j - i)

/-! ### CRC-16 (R221, R228) -/

/-- One pass of the inner loop: shift right, and XOR 0xA001 if the bit shifted out is 1. -/
def crcBit (c : Half) : Half := if c.getLsbD 0 then (c >>> 1) ^^^ 0xA001#16 else c >>> 1

/-- The inner 8-fold loop. -/
def crcEight (c : Half) : Half := crcBit (crcBit (crcBit (crcBit (crcBit (crcBit (crcBit (crcBit c)))))))

/-- One byte of the outer loop. -/
def crcByte (c : Half) (b : Byte) : Half := crcEight (c ^^^ b.setWidth 16)

/-- R221: `CRC16(s)`. -/
def crc (s : List Byte) : Half := s.foldl crcByte 0xFFFF#16

/-- R228: the table entry `TAB[j]`. -/
def crcTab (j : Byte) : Half := crcEight (j.setWidth 16)

/-! ### The element encodings (R121, R203, R206) -/

/-- R203: the transport size of an element. R203 starts at one byte: the size of an element of no bytes is a free value
(log 26). -/
def ts (es : Nat) : Nat := if es = 0 then Config.sizeOfZero else if es ≤ 2 then es else es + es % 2

/-- R121: at most eight coils as one byte, the first in bit 0. -/
def packByte (bits : List Bool) : Byte := BitVec.ofNat 8 (bits.foldr (fun b acc => (if b then 1 else 0) + 2 * acc) 0)

/-- R121: coil packing of a request. -/
def pack (bits : List Bool) : List Byte :=
  (List.range (ceil8 bits.length)).map (fun j => packByte ((bits.drop (8 * j)).take 8))

/-- R121: coil `i` of the decoded data of a read of `q` coils. From `q` on, or past the data, R121 defines none: a free value
(log 29). -/
def coil (q : Nat) (data : List Byte) (i : Nat) : Bool :=
  match data[i / 8]? with
  | some d => if i < q then d.getLsbD (i % 8) else Config.freeCoil i
  | none => Config.freeCoil i

/-- R206: the wire bytes of an element of `es` bytes, whose values are those below `256^es`. The bytes in the place of any other
value, one that would fit the padded size included, are a free value (log 27). -/
def image (es v : Nat) : List Byte := if v < 256 ^ es then beN v (ts es) else beN (Config.imageTooWide v es) (ts es)

/-- R206: `ENCODE_ELEMS`. -/
def encodeVals (es : Nat) (vals : List Nat) : List Byte := vals.flatMap (image es)

/-- An element's bytes in host order (R204): most significant first on a big-endian host. -/
def hostOrder (be : Bool) (v : List Byte) : List Byte := if be then v else v.reverse

/-- R207: `elem(h, k)`, computed from a completed record's data, element size and the host order. -/
def elemOf (be : Bool) (es : Nat) (data : List Byte) (k : Nat) : Nat :=
  uNbe (hostOrder be (slice data (k * es) ((k + 1) * es)))

/-! ### The configuration (R8, R322, R412) -/

def Params.hdr (p : Params) : Nat :=
  match p.transport with
  | .rtu => 1
  | .tcp => 7

def Params.trl (p : Params) : Nat :=
  match p.transport with
  | .rtu => 2
  | .tcp => 0

def Params.bufCap (p : Params) : Nat := Params.hdr p + p.pduMax + Params.trl p

/-- R7, R14: the number of values of a timestamp. -/
def Params.span (p : Params) : Nat := 2 ^ p.wTime

def Cfg.span (c : Cfg) : Nat := Params.span c.params
def Cfg.hdr (c : Cfg) : Nat := Params.hdr c.params
def Cfg.trl (c : Cfg) : Nat := Params.trl c.params
def Cfg.bufCap (c : Cfg) : Nat := Params.bufCap c.params

/-- R322, C6: one start bit, the data bits, the parity bit and the stop bits. -/
def charBits (p : Params) : Nat := 1 + p.dataBits + p.parityBits + p.stopBits

/-- R322: a quotient rounded up. With `BAUD` = 0, legal on TCP (R412) where no rule reads the constants, R322 gives none: a
free value (log 25). -/
def ceilDiv (a b : Nat) : Nat := if b = 0 then Config.ratioByZero a else (a + b - 1) / b

/-- R322: `BYTE_TO_US`, 1.5 characters up to 19200 baud. -/
def byteTo (p : Params) : Nat := if p.baud ≤ 19200 then ceilDiv (15 * charBits p * 100000) p.baud else 750

/-- R322: `FRAME_TO_US`, 3.5 characters up to 19200 baud. -/
def frameTo (p : Params) : Nat := if p.baud ≤ 19200 then ceilDiv (35 * charBits p * 100000) p.baud else 1750

/-- The configuration registers for these parameters (R34, R410). -/
def cfgOf (p : Params) : Cfg := { params := p, byteToUs := byteTo p, frameToUs := frameTo p }

/-- R412: the legal configurations. -/
def legal (p : Params) : Bool :=
  decide (8 ≤ p.pduMax) && decide (p.pduMax ≤ 253) && decide (1 ≤ p.poolCap) && decide (p.poolCap < 65536) &&
  decide (1 ≤ p.queueCap) && decide (p.respTimeoutMs < Params.span p) && decide (2 ≤ p.esMax) &&
  (match p.transport with
   | .tcp => decide (1 ≤ p.sentCap)
   | .rtu => decide (1 ≤ p.baud) && decide (5 ≤ p.dataBits) && decide (p.dataBits ≤ 8) && decide (p.parityBits ≤ 1) &&
      decide (1 ≤ p.stopBits) && decide (p.stopBits ≤ 2))

/-! ### Time (R14) -/

/-- R14: `(now - since) mod 2^W_TIME`. -/
def elapsed (c : Cfg) (now since : Time) : Nat := (now + (c.span - since % c.span)) % c.span

/-- A clock reading as a value of `W_TIME` bits (R9). -/
def stamp (c : Cfg) (reading : Nat) : Time := reading % c.span

/-- R9, R76: `now_ms`, the clock sampled for this step in the `W_TIME` bits now in force. -/
def State.nowMs (s : State) : Time := stamp s.cfg s.clockMs

/-- R9, R76: `now_us`. -/
def State.nowUs (s : State) : Time := stamp s.cfg s.clockUs

/-- R284, R428: a delay of `n` ms as the `W_TIME`-bit number that a slot holds (log 8). -/
def delayOf (c : Cfg) (n : Nat) : Delay := if n < c.span then .ms n else .never

/-- R304: the delay has elapsed once `waited` ms have passed. -/
def Delay.reached (waited : Nat) : Delay → Bool
  | .ms d => decide (d ≤ waited)
  | .never => false

/-! ### Slots (R22, R25) -/

def slotAt (s : State) (h : Nat) : Slot := cellAt Slot.cleared s.pool h

def setSlot (s : State) (h : Nat) (x : Slot) : State := { s with pool := putCell Slot.cleared s.pool h x }

/-- `slot[h].f <- v` for one or more fields. -/
def updSlot (s : State) (h : Nat) (f : Slot → Slot) : State := setSlot s h (f (slotAt s h))

/-- R25: `fc(h)`. -/
def fcOf (c : Cfg) (x : Slot) : Byte := readByte x.tx c.hdr

/-- R25: `unit(h)`. -/
def unitOf (c : Cfg) (x : Slot) : Byte := readByte x.tx (c.hdr - 1)

/-- R25: `pdu_tx(h) = tx[HDR .. txlen-TRL)`. -/
def pduTx (c : Cfg) (x : Slot) : List Byte := readBytes x.tx c.hdr (x.txlen - c.trl - c.hdr)

/-- R25: `pdu_rx(h) = rx[HDR .. rxlen-TRL)`. -/
def pduRx (c : Cfg) (x : Slot) : List Byte := readBytes x.rx c.hdr (x.rxlen - c.trl - c.hdr)

/-- File 41: `T`, the PDU part of the template. -/
def tmplPdu (c : Cfg) (x : Slot) : List Byte := readBytes x.tmpl c.hdr x.tmpllen

/-- R25: `data(h) = rx[win_off .. win_off+win_len)`. -/
def dataOf (x : Slot) : List Byte := readBytes x.rx x.winOff x.winLen

/-- R25: `tid(h)` (TCP). -/
def tidOf (x : Slot) : Nat := uNbe (readBytes x.tx 0 2)

/-! ### SlaveSets (R37, R270, R279) -/

/-- `a` is a member: `ss.bits[a] = 1`. -/
def member (x : SlaveSet) (a : Nat) : Bool := x.bits.getLsbD a

/-- The lowest `a`, `start ≤ a < start + n`, with `p a`. -/
def findFrom (p : Nat → Bool) : Nat → Nat → Option Nat
  | _, 0 => none
  | start, n + 1 => if p start then some start else findFrom p (start + 1) n

/-- R270: `NONEMPTY(ss)`. -/
def nonempty (x : SlaveSet) : Bool := (findFrom (member x) 0 248).isSome

/-- R279: the scan `NEXT(ss)`; `none` is `SS_END`. -/
def nextMember (x : SlaveSet) : Option Nat :=
  match x.active with
  | .finish => none
  | .null => none
  | .start => findFrom (member x) 0 248
  | .addr c =>
    match findFrom (member x) (c + 1) (248 - (c + 1)) with
    | some a => some a
    | none => if 0 ≤ x.repeatDelay then findFrom (member x) 0 (c + 1) else none

/-- The value `NEXT` returns, as a cursor. -/
def cursorOf : Option Nat → Cursor
  | some a => .addr a
  | none => .finish

/-- R277: `SS_GET_NEXT(ss)` on the record. -/
def advance (x : SlaveSet) : SlaveSet := { x with active := cursorOf (nextMember x) }

/-- R271 to R274: the bits of addresses `lo..hi` that are at most 247. -/
def rangeBits (lo hi : Nat) : BitVec 256 :=
  (List.range 248).foldl (fun acc a => if lo ≤ a ∧ a ≤ hi then acc ||| (1#256 <<< a) else acc) 0#256

def addMembers (x : SlaveSet) (lo hi : Nat) : SlaveSet := { x with bits := x.bits ||| rangeBits lo hi }
def dropMembers (x : SlaveSet) (lo hi : Nat) : SlaveSet := { x with bits := x.bits &&& ~~~ (rangeBits lo hi) }

/-- A slot number names a slot (R22). -/
def slotExists (s : State) (h : Nat) : Bool := decide (h < s.cfg.params.poolCap)

/-- The reference names a SlaveSet: every host set exists, an embedded one needs its slot. -/
def ssExists (s : State) : SsRef → Bool
  | .host _ => true
  | .slot h => slotExists s h

def ssAt (s : State) : SsRef → SlaveSet
  | .host k => cellAt SlaveSet.cleared s.hostSets k
  | .slot h => (slotAt s h).ss

def setSs (s : State) (r : SsRef) (x : SlaveSet) : State :=
  match r with
  | .host k => { s with hostSets := putCell SlaveSet.cleared s.hostSets k x }
  | .slot h => updSlot s h (fun y => { y with ss := x })

/-! ### Targets (R140, R143) -/

/-- The SlaveSet a build copies into the slot, its cursor at begin (R140 step 3). -/
def targetSet (s : State) : Target → SlaveSet
  | .unit _ => SlaveSet.cleared
  | .set k => { cellAt SlaveSet.cleared s.hostSets k with active := .start }

/-- The unit a failing build reports: `u0` for `Unit(u0)`, else 0 (R149, R141, R142). -/
def targetUnit : Target → Byte
  | .unit u => u
  | .set _ => 0#8

/-- R143: `CHECK_TARGET(target)`. -/
def checkTarget (s : State) (t : Target) : Err :=
  match t with
  | .unit u => if s.cfg.params.transport = .rtu ∧ 247 < u.toNat then .invalidSlave else .ok
  | .set _ => if nonempty (targetSet s t) then .ok else .invalidArgument

/-- R250: the error code of a `TCP_FAIL`. -/
def failErr : FailCode → Err
  | .responseTimeout => .responseTimeout
  | .tcpSendBufferFull => .tcpSendBufferFull
  | .connectionReset => .connectionReset
  | .connectionRefused => .connectionRefused
  | .noClientForSlave => .noClientForSlave

end Sys2Proof.Machine
end

