-- ==== Sys2Proof/Machine/Flags.lean ====
section
/-! DEFINITION. The status of the block. There are no condition codes (spec 10 R27): the flags are `inuse`, `exc` and
`ctx.big_endian`, the multi-valued status is `err`. Here: the tests that set or read them. -/

namespace Sys2Proof.Machine

/-- R181, R327: byte `b` is the function code `fc` + 0x80, as numbers. -/
def isExceptionOf (fc b : Byte) : Bool := decide (b.toNat = fc.toNat + 0x80)

/-- R329, R331: the length that completes the frame: 5 once an exception is flagged, else `explen`. -/
def needOf (x : Slot) : Nat := if x.exc then 5 else x.explen

/-- R181, D6: an exception code as the error it gives. -/
def exceptionErr (c : Byte) : Err := if 1 ≤ c.toNat ∧ c.toNat ≤ 10 then .protocol c else .invalidExceptionCode

/-- The first failed check gives the error (R144, R377). -/
def firstFailed : List (Bool × Err) → Err
  | [] => .ok
  | (passed, e) :: rest => if passed then firstFailed rest else e

/-- R24: handle `h` stands in the queue, in the SentBuffer, or is pending. -/
def held (s : State) (h : Nat) : Bool :=
  s.q.arr.any (fun c => decide (c.2 = some h)) || s.sb.any (fun c => decide (c.2 = some h)) ||
  decide (s.eng.pending = some h)

/-- U1, R384: the slot exists, is in use and is in no container. -/
def detached (s : State) (h : Nat) : Bool := slotExists s h && (slotAt s h).inuse && !held s h

/-- R23: the frame and template lengths of a slot lie in the ranges the table of R23 gives them: every buffer access by
these lengths is inside the buffer (R80). The window is apart: most rules set it before they read it. -/
def lengthsFit (c : Cfg) (x : Slot) : Bool :=
  decide (x.txlen ≤ c.bufCap) && decide (x.rxlen ≤ c.bufCap) && decide (x.explen ≤ c.bufCap) &&
  decide (1 ≤ x.tmpllen) && decide (x.tmpllen ≤ 7)

/-- R25, R80: reading the window reads inside the receive buffer; an empty window (R23) reads nothing. -/
def windowFits (c : Cfg) (x : Slot) : Bool := decide (x.winLen = 0) || decide (x.winOff + x.winLen ≤ c.bufCap)

/-- R23: lengths and window of a slot lie in their ranges, and a frame in use has its header and trailer. -/
def slotFits (c : Cfg) (x : Slot) : Bool :=
  lengthsFit c x && decide (x.winOff + x.winLen ≤ c.bufCap) && (!x.inuse || decide (c.hdr + c.trl ≤ x.txlen))

end Sys2Proof.Machine
end

