-- ==== Sys2Proof/Machine/Ops.lean ====
section
/-! DEFINITION. The shared operations: outcomes, the host's command stream, frames, the queue, and TAKING AN ERROR: the
completion sequence `COMPLETE` of spec 60 R384 with the return from it, `RELEASE` or `REARM` (60 R387, 44 R283), and the
build sequence of 40 R140. Everything here is a total function of the state. -/

namespace Sys2Proof.Machine

/-! ### Outcomes, results, events (R9, R13) -/

/-- R9: the state with the step's result. -/
def answer (r : Result) (s : State) : State := { s with result := r }

/-- R13 `return v`: the operation ends with result `r`. -/
def ret (r : Result) (s : State) : Out := .next (answer r s)

/-- 93 Part 1, treatment `refuse`: the operation is rejected and changes nothing. -/
def reject (r : Reject) (s : State) : Out := ret (.rejected r) s

/-- R13 `emit`. -/
def emit (s : State) (e : Event) : State := { s with events := s.events ++ [e] }

/-- The operations of the other transport do not exist on this instance. -/
def onlyOn (t : Transport) (s : State) (k : Out) : Out :=
  if s.cfg.params.transport = t then k else .refused .absentOperation

/-- R22: an operation on slot `h` needs the slot. -/
def withSlot (h : Nat) (s : State) (k : Out) : Out := if slotExists s h then k else reject .noSuchSlot s

/-- U1, R384: an operation that ends in `COMPLETE` or puts `h` into a container needs `h` in use and in none. -/
def withDetached (h : Nat) (s : State) (k : Out) : Out := if detached s h then k else reject .handleNotFree s

/-- R80, U12: the guard in front of accesses by the slot's own frame and template lengths. -/
def checked (h : Nat) (s : State) (k : Out) : Out :=
  if slotExists s h && lengthsFit s.cfg (slotAt s h) then k else .fault .bufferBound

/-! ### The host's command stream (R9) -/

/-- The next command's bytes, and the state in which it runs: the command taken off the stream, the environment's
clock sampled, the bytes that arrived appended to the serial source, result and events empty. -/
def fetch (s : State) : Option (List Byte × State) :=
  match s.host with
  | [] => none
  | c :: rest =>
    some (c.bytes, { s with host := rest, clockMs := c.clockMs, clockUs := c.clockUs, serial := s.serial ++ c.arrived,
                            result := .unit, events := [] })

/-- The state with one more command in front of the stream, at the present clock, no byte arriving. -/
def placeCommand (s : State) (bytes : List Byte) : State :=
  { s with host := { bytes := bytes, clockMs := s.clockMs, clockUs := s.clockUs, arrived := [] } :: s.host }

/-! ### Frames (files 42, 43) -/

/-- R223: `RTU_SET_HEAD`. -/
def rtuHead (u : Byte) (x : Slot) : Slot :=
  { x with tx := writeBytes x.tx 0 [u], tmpl := writeBytes x.tmpl 0 [u] }

/-- R224: `RTU_SET_CRC`. -/
def rtuCrc (len : Nat) (x : Slot) : Slot :=
  { x with tx := writeBytes x.tx (1 + len) (le16 (crc (readBytes x.tx 0 (1 + len)))), txlen := 1 + len + 2 }

/-- R225, U11: `RTU_CHECK_HEAD`. -/
def rtuHeadOk (x : Slot) : Bool := decide (1 ≤ x.rxlen) && decide (readByte x.rx 0 = readByte x.tmpl 0)

/-- R226, U11: `RTU_CHECK_CRC`. -/
def rtuCrcOk (x : Slot) : Bool :=
  decide (3 ≤ x.rxlen) &&
  decide ((crc (readBytes x.rx 0 (x.rxlen - 2))).toNat = u16le (readBytes x.rx (x.rxlen - 2) 2))

/-- R104, R241: the seven bytes of an MBAP header. -/
def mbap (tid : Half) (u : Byte) (len : Nat) : List Byte :=
  be16 tid ++ (be16 0#16 ++ (be16 (BitVec.ofNat 16 (len + 1)) ++ [u]))

/-- R241: the header into the frame and the template. -/
def tcpHead (tid : Half) (u : Byte) (len : Nat) (x : Slot) : Slot :=
  { x with tx := writeBytes x.tx 0 (mbap tid u len), tmpl := writeBytes x.tmpl 0 (mbap tid u len), txlen := 7 + len }

/-- R241: `TCP_SET_MBAP`: the counter first, then the header. -/
def tcpSetMbap (h : Nat) (u : Byte) (len : Nat) (s : State) : State :=
  let s := { s with ctx := { s.ctx with tid := s.ctx.tid + 1#16 } }
  updSlot s h (tcpHead s.ctx.tid u len)

/-- R140 step 7, R283: the frame wrapper around a PDU of `len` bytes for unit `u`. -/
def setHeader (h : Nat) (u : Byte) (len : Nat) (s : State) : State :=
  match s.cfg.params.transport with
  | .rtu => updSlot s h (fun x => rtuCrc len (rtuHead u x))
  | .tcp => tcpSetMbap h u len s

/-- R244 to R247: `TCP_CHECK_MBAP`. -/
def mbapErr (x : Slot) : Err :=
  firstFailed
    [(decide (uNbe (readBytes x.rx 0 2) = uNbe (readBytes x.tmpl 0 2)), .invalidTransactionId),
     (decide (uNbe (readBytes x.rx 2 2) = 0), .invalidProtocolId),
     (decide (readByte x.rx 6 = readByte x.tmpl 6), .invalidUnitId)]

/-- R248: `TCP_PAYLOAD_LEN`; `none` is INVALID_LENGTH. -/
def payloadLen (c : Cfg) (x : Slot) : Option Nat :=
  let n := uNbe (readBytes x.rx 4 2)
  if n < 2 ∨ c.params.pduMax < n - 1 then none else some (n - 1)

/-! ### Bytes that were not received (U7, log 24) -/

/-- The offsets `start`, `start + 1`, and so on of a receive buffer as free bytes. -/
def freeRxBytes (count start n : Nat) : List Byte := (List.range n).map (fun j => Config.freeRx count (start + j))

/-- The slot with every byte of its receive buffer that was not received free. -/
def fillRx (c : Cfg) (count : Nat) (x : Slot) : Slot :=
  { x with rx := writeBytes x.rx x.rxlen (freeRxBytes count x.rxlen (c.bufCap - x.rxlen)) }

/-- Every byte of the receive buffer of slot `h` that was not received is free. -/
def unreceived (h : Nat) (s : State) : State :=
  { updSlot s h (fillRx s.cfg s.freeCount) with freeCount := s.freeCount + 1 }

/-- The state in which an operation reads the first `n` bytes of the receive buffer of slot `h`. -/
def heard (n h : Nat) (s : State) : State := if n ≤ (slotAt s h).rxlen then s else unreceived h s

/-! ### The TransactionQueue (file 45) -/

/-- The position of the queue's logical index `i` (R35). -/
def qPos (s : State) (i : Nat) : Nat := (s.q.head + i) % s.cfg.params.queueCap

/-- The element at logical index `i`. -/
def qItem (s : State) (i : Nat) : Option Nat := cellAt none s.q.arr (qPos s i)

/-- R35: the logical content `Q`, head first. -/
def qContent (s : State) : List (Option Nat) := (List.range s.q.count).map (qItem s)

/-- R301: `Q_ADD` on the state; the Boolean is its result. -/
def qPush (h : Option Nat) (s : State) : State × Bool :=
  match h with
  | none => (s, false)
  | some k =>
    if s.q.count = s.cfg.params.queueCap then (s, false)
    else
      ({ s with q := { s.q with arr := putCell none s.q.arr s.q.tail (some k),
                                tail := (s.q.tail + 1) % s.cfg.params.queueCap,
                                count := s.q.count + 1 } }, true)

/-- R302: `Q_READ`. -/
def qPop (s : State) : State × Option Nat :=
  if s.q.count = 0 then (s, none)
  else
    ({ s with q := { s.q with arr := putCell none s.q.arr s.q.head none,
                              head := (s.q.head + 1) % s.cfg.params.queueCap,
                              count := s.q.count - 1 } }, cellAt none s.q.arr s.q.head)

/-- R304: `READY(h)`. -/
def ready (s : State) (h : Nat) : Bool :=
  Delay.reached (elapsed s.cfg s.nowMs (slotAt s h).qtime) (slotAt s h).delay

/-- R305: the delay of the transaction at logical index `i` if it is ready. -/
def readyDelay (s : State) (i : Nat) : Option Nat :=
  match qItem s i with
  | none => none
  | some h =>
    match (slotAt s h).delay with
    | .never => none
    | .ms d => if ready s h then some d else none

/-- R305: one position of the scan; the kept index is replaced only by a strictly smaller delay. -/
def scanReady (s : State) (best : Option (Nat × Nat)) (i : Nat) : Option (Nat × Nat) :=
  match readyDelay s i, best with
  | none, _ => best
  | some d, none => some (i, d)
  | some d, some (j, e) => if d < e then some (i, d) else some (j, e)

/-- R305: `SELECT_READY`, as a logical index. -/
def selectReady (s : State) : Option Nat := ((List.range s.q.count).foldl (scanReady s) none).map Prod.fst

/-- R306, swap: the winner and the head change places. -/
def swapToHead (s : State) (j : Nat) : State :=
  let h0 := qItem s 0
  { s with q := { s.q with arr := putCell none (putCell none s.q.arr (qPos s 0) (qItem s j)) (qPos s j) h0 } }

/-- R306, rotate: the elements behind logical index `j` move one place to the front (log 9). -/
def closeGap (s : State) (j : Nat) : State :=
  let moved := (List.range (s.q.count - 1 - j)).foldl
    (fun arr k => putCell none arr (qPos s (j + k)) (qItem s (j + k + 1))) s.q.arr
  { s with q := { s.q with arr := putCell none moved (qPos s (s.q.count - 1)) none,
                           tail := qPos s (s.q.count - 1), count := s.q.count - 1 } }

/-- R306: `Q_READ_READY`. -/
def qPopReady (s : State) : State × Option Nat :=
  match selectReady s with
  | none => (s, none)
  | some j =>
    match s.cfg.params.removeMode with
    | .swap => qPop (swapToHead s j)
    | .rotate => (closeGap s j, qItem s j)

/-! ### The completion sequence (file 60) -/

/-- R387: `RELEASE(h)`. -/
def release (h : Nat) (s : State) : State := setSlot s h Slot.cleared

def releaseAll (hs : List Nat) (s : State) : State := hs.foldl (fun s h => release h s) s

/-- R385: `RECORD(h)`. -/
def record (s : State) (h : Nat) : DoneRecord :=
  let x := slotAt s h
  { slot := some h, err := x.err, fc := fcOf s.cfg x, unit := unitOf s.cfg x, esize := x.esize, data := dataOf x }

/-- R283: what a re-armed slot keeps and clears before its new header. -/
def rearmed (x : Slot) : Slot := { x with err := .ok, rxlen := 0, exc := false, winOff := 0, winLen := 0 }

/-- R283: the header for unit `u`, the new queued-time; everything but the queue. -/
def rearmFrame (h : Nat) (u : Nat) (s : State) : State :=
  let len := (slotAt s h).txlen - s.cfg.hdr - s.cfg.trl
  let s := setHeader h (BitVec.ofNat 8 u) len (updSlot s h rearmed)
  updSlot s h (fun x => { x with qtime := s.nowMs })

/-- R283: the second `Done` of a re-arm that finds the queue full. -/
def rearmFull (h : Nat) (u : Nat) (s : State) : State :=
  let s := updSlot s h (fun x => { x with err := .queueFull })
  let x := slotAt s h
  release h (emit s (.done x.handler
    { slot := some h, err := .queueFull, fc := fcOf s.cfg x, unit := BitVec.ofNat 8 u, esize := 1, data := [] }))

/-- R283: `REARM(h, u)`. -/
def rearm (h : Nat) (u : Nat) (s : State) : State :=
  let s := rearmFrame h u s
  match qPush (some h) s with
  | (s', true) => s'
  | (s', false) => rearmFull h u s'

/-- R282, R284: the cursor moved back or stayed. -/
def wrapped (prev : Cursor) (nxt : Nat) : Bool :=
  match prev with
  | .addr a => decide (a ≤ 247) && decide (nxt ≤ a)
  | _ => false

/-- R282, R284: the delay of the next attempt. -/
def nextDelay (c : Cfg) (x : SlaveSet) (nxt : Nat) : Delay :=
  delayOf c (if wrapped x.active nxt then x.repeatDelay.toNat else x.itemDelay.toNat)

/-- R282: `REPEAT_IF_NEEDED(h)`. -/
def repeatOrRelease (h : Nat) (s : State) : State :=
  let x := slotAt s h
  if nonempty x.ss then
    match nextMember x.ss with
    | none => release h s
    | some a => rearm h a (setSlot s h { x with ss := advance x.ss, delay := nextDelay s.cfg x.ss a })
  else release h s

/-- R384: `COMPLETE(h, e)`: the error recorded, the handler invoked once, then release or re-arm. -/
def complete (h : Nat) (e : Err) (s : State) : State :=
  let s := updSlot s h (fun x => { x with err := e })
  repeatOrRelease h (emit s (.done (slotAt s h).handler (record s h)))

/-- R13 `raise E(h)` at the end of an operation: `COMPLETE`, whose record copies the window (R385, R80). -/
def raise (h : Nat) (e : Err) (s : State) : Out :=
  checked h s (if windowFits s.cfg (slotAt s h) then ret .unit (complete h e s) else .fault .bufferBound)

/-! ### The build sequence (file 40) -/

/-- What an operation's own rule supplies to the build: the function code, its checks before the size check in the order
of R144, the request PDU, the PDU part of the template (R124), the expected PDU length, the element size. -/
structure Request where
  fc         : Byte
  checks     : List (Bool × Err)
  pdu        : List Byte
  tmpl       : List Byte
  pduExplen  : Nat
  esize      : Nat
  deriving DecidableEq, Repr

/-- R146: the size check, last of R144's order. -/
def sizeCheck (c : Cfg) (r : Request) : Bool × Err :=
  (decide (r.pdu.length ≤ c.params.pduMax) && decide (r.pduExplen ≤ c.params.pduMax), .tooManyData)

/-- R144: `CHECK_ARGS`. -/
def checkArgs (c : Cfg) (r : Request) : Err := firstFailed (r.checks ++ [sizeCheck c r])

/-- R140 step 2: the free slot of lowest index. -/
def freeSlot (s : State) : Option Nat := findFrom (fun h => !(slotAt s h).inuse) 0 s.cfg.params.poolCap

/-- R140 step 3: the slot as allocated. -/
def allocated (s : State) (t : Target) (handler : Nat) : Slot :=
  { Slot.cleared with inuse := true, handler := some handler, ss := targetSet s t }

/-- R140 step 5: the PDU, the template, the lengths, the element size. -/
def fillRequest (c : Cfg) (r : Request) (x : Slot) : Slot :=
  { x with tx := writeBytes x.tx c.hdr r.pdu, tmpl := writeBytes x.tmpl c.hdr r.tmpl, tmpllen := r.tmpl.length,
           explen := c.hdr + r.pduExplen + c.trl, esize := r.esize }

/-- R140 step 6: the unit of the first frame; a set's cursor moves to it. -/
def firstUnit (t : Target) (x : SlaveSet) : Byte × SlaveSet :=
  match t with
  | .unit u => (u, x)
  | .set _ => (BitVec.ofNat 8 ((nextMember x).getD 0), advance x)

/-- R140 steps 5 to 8 up to the queue: the slot filled, framed and stamped. -/
def buildFrame (h : Nat) (t : Target) (handler : Nat) (r : Request) (s : State) : State :=
  let x := fillRequest s.cfg r (allocated s t handler)
  let first := firstUnit t x.ss
  let s := setHeader h first.1 r.pdu.length (setSlot s h { x with ss := first.2 })
  updSlot s h (fun x => { x with qtime := s.nowMs, delay := .ms 0 })

/-- R149: `BUILD_FAIL(h, e)`. -/
def buildFail (h : Nat) (e : Err) (t : Target) (handler : Nat) (fc : Byte) (s : State) : State :=
  let s := updSlot s h (fun x => { x with err := e })
  release h (emit s (.done (some handler)
    { slot := some h, err := e, fc := fc, unit := targetUnit t, esize := 1, data := [] }))

/-- R141, R142: a build that allocated no slot. -/
def buildNoSlot (e : Err) (t : Target) (handler : Nat) (fc : Byte) (s : State) : State :=
  emit s (.done (some handler) { slot := none, err := e, fc := fc, unit := targetUnit t, esize := 1, data := [] })

/-- R140 step 4: the target check, then the operation's own. -/
def buildErr (s : State) (t : Target) (r : Request) : Err :=
  if checkTarget s t = .ok then checkArgs s.cfg r else checkTarget s t

/-- R140: the build sequence with its result. -/
def build (t : Target) (handler : Nat) (r : Request) (s : State) : Out :=
  match freeSlot s with
  | none => ret (.handle none) (buildNoSlot .poolExhausted t handler r.fc s)
  | some h =>
    if buildErr s t r = .ok then
      match qPush (some h) (buildFrame h t handler r s) with
      | (s', true) => ret (.handle (some h)) s'
      | (s', false) => ret (.handle none) (buildFail h .queueFull t handler r.fc s')
    else
      ret (.handle none)
        (buildFail h (buildErr s t r) t handler r.fc (setSlot s h (allocated s t handler)))

end Sys2Proof.Machine
end

