-- ==== Sys2Proof/Machine/Build.lean ====
section
/-! DEFINITION. The build operations (spec 40 R150 to R162, R141): one request per operation, over the shared sequence
`build` (R140). -/

namespace Sys2Proof.Machine

/-- R150 to R162: a quantity outside its range. -/
def quantityIn (q lo hi : Nat) : Bool × Err := (decide (lo ≤ q) && decide (q ≤ hi), .invalidQuantity)

/-- R145: the address range check. -/
def addressIn (a : Half) (q : Nat) : Bool × Err := (decide (a.toNat + q ≤ 65536), .invalidAddress)

/-- R147: the element shape check for `n` elements of `es` bytes. -/
def shapeOk (c : Cfg) (es n : Nat) : Bool × Err :=
  (decide (1 ≤ es) && decide (es ≤ c.params.esMax) && decide ((n * ts es) % 2 = 0), .invalidArgument)

/-- R147: the register quantity of `n` elements of `es` bytes. -/
def regsOf (es n : Nat) : Nat := n * ts es / 2

/-- A quantity as a 16-bit field. -/
def half (q : Nat) : Half := BitVec.ofNat 16 q

/-- A count as a byte field. -/
def byte (n : Nat) : Byte := BitVec.ofNat 8 n

/-- R150, R151 (formats R108, R109): read coils or discrete inputs. -/
def readBitsReq (fc : Byte) (a : Half) (q : Nat) : Request :=
  { fc := fc, checks := [quantityIn q 1 2000, addressIn a q],
    pdu := fc :: (be16 a ++ be16 (half q)), tmpl := [fc, byte (ceil8 q)], pduExplen := 2 + ceil8 q, esize := 1 }

/-- R152, R153 (formats R110, R111): read holding or input registers. -/
def readRegsReq (c : Cfg) (fc : Byte) (a : Half) (n es : Nat) : Request :=
  { fc := fc, checks := [shapeOk c es n, quantityIn (regsOf es n) 1 125, addressIn a (regsOf es n)],
    pdu := fc :: (be16 a ++ be16 (half (regsOf es n))), tmpl := [fc, byte (2 * regsOf es n)],
    pduExplen := 2 + 2 * regsOf es n, esize := es }

/-- R154, R155 (formats R112, R113): write one coil or register; the response echoes all five bytes. -/
def writeOneReq (fc : Byte) (a v : Half) : Request :=
  { fc := fc, checks := [addressIn a 1], pdu := fc :: (be16 a ++ be16 v), tmpl := fc :: (be16 a ++ be16 v),
    pduExplen := 5, esize := 1 }

/-- R112, R154: the value field of a single coil. -/
def coilValue (on : Bool) : Half := if on then 0xFF00#16 else 0x0000#16

/-- R156 (format R114). -/
def rdExcStatusReq : Request :=
  { fc := 0x07#8, checks := [], pdu := [0x07#8], tmpl := [0x07#8], pduExplen := 2, esize := 1 }

/-- R157, R158 (format R115): the sub-function is not interpreted. -/
def diagReq (sub data : Half) : Request :=
  { fc := 0x08#8, checks := [], pdu := 0x08#8 :: (be16 sub ++ be16 data), tmpl := 0x08#8 :: be16 sub, pduExplen := 5,
    esize := 2 }

/-- R159 (format R116). -/
def wrCoilsReq (a : Half) (bits : List Bool) : Request :=
  { fc := 0x0F#8, checks := [quantityIn bits.length 1 1968, addressIn a bits.length],
    pdu := 0x0F#8 :: (be16 a ++ (be16 (half bits.length) ++ (byte (ceil8 bits.length) :: pack bits))),
    tmpl := 0x0F#8 :: (be16 a ++ be16 (half bits.length)), pduExplen := 5, esize := 1 }

/-- R160 (format R117). -/
def wrRegsReq (c : Cfg) (a : Half) (es : Nat) (vals : List Nat) : Request :=
  let q := regsOf es vals.length
  { fc := 0x10#8, checks := [shapeOk c es vals.length, quantityIn q 1 123, addressIn a q],
    pdu := 0x10#8 :: (be16 a ++ (be16 (half q) ++ (byte (2 * q) :: encodeVals es vals))),
    tmpl := 0x10#8 :: (be16 a ++ be16 (half q)), pduExplen := 5, esize := es }

/-- R161 (format R118). -/
def maskWrReq (a andMask orMask : Half) : Request :=
  { fc := 0x16#8, checks := [addressIn a 1], pdu := 0x16#8 :: (be16 a ++ (be16 andMask ++ be16 orMask)),
    tmpl := 0x16#8 :: (be16 a ++ (be16 andMask ++ be16 orMask)), pduExplen := 7, esize := 1 }

/-- R162 (format R119). -/
def rwRegsReq (c : Cfg) (ra : Half) (rn : Nat) (wa : Half) (es : Nat) (wvals : List Nat) : Request :=
  let rq := regsOf es rn
  let wq := regsOf es wvals.length
  { fc := 0x17#8,
    checks := [shapeOk c es rn, shapeOk c es wvals.length, quantityIn rq 1 125, quantityIn wq 1 121, addressIn ra rq,
               addressIn wa wq],
    pdu := 0x17#8 :: (be16 ra ++ (be16 (half rq) ++ (be16 wa ++ (be16 (half wq) ++ (byte (2 * wq) ::
      encodeVals es wvals))))),
    tmpl := [0x17#8, byte (2 * rq)], pduExplen := 2 + 2 * rq, esize := es }

def execRdCoils (t : Target) (a : Half) (q hd : Nat) (s : State) : Out := build t hd (readBitsReq 0x01#8 a q) s

def execRdDiscrete (t : Target) (a : Half) (q hd : Nat) (s : State) : Out := build t hd (readBitsReq 0x02#8 a q) s

def execRdHolding (t : Target) (a : Half) (n es hd : Nat) (s : State) : Out :=
  build t hd (readRegsReq s.cfg 0x03#8 a n es) s

def execRdInput (t : Target) (a : Half) (n es hd : Nat) (s : State) : Out :=
  build t hd (readRegsReq s.cfg 0x04#8 a n es) s

def execWrCoil (t : Target) (a : Half) (on : Bool) (hd : Nat) (s : State) : Out :=
  build t hd (writeOneReq 0x05#8 a (coilValue on)) s

def execWrReg (t : Target) (a v : Half) (hd : Nat) (s : State) : Out := build t hd (writeOneReq 0x06#8 a v) s

def execRdExcStatus (t : Target) (hd : Nat) (s : State) : Out := build t hd rdExcStatusReq s

def execDiag (t : Target) (sub data : Half) (hd : Nat) (s : State) : Out := build t hd (diagReq sub data) s

def execWrCoils (t : Target) (a : Half) (bits : List Bool) (hd : Nat) (s : State) : Out :=
  build t hd (wrCoilsReq a bits) s

/-- R160. -/
def execWrRegs (t : Target) (a : Half) (es : Nat) (vals : List Nat) (hd : Nat) (s : State) : Out :=
  build t hd (wrRegsReq s.cfg a es vals) s

def execMaskWr (t : Target) (a am om : Half) (hd : Nat) (s : State) : Out := build t hd (maskWrReq a am om) s

/-- R162. -/
def execRwRegs (t : Target) (ra : Half) (rn : Nat) (wa : Half) (es : Nat) (wvals : List Nat) (hd : Nat) (s : State) :
    Out :=
  build t hd (rwRegsReq s.cfg ra rn wa es wvals) s

/-- R141: any function code outside the twelve: NOT_SUPPORTED, before allocation, nothing else changed. A supported code
is no operand of it: rejected (log 22). -/
def execBuildRaw (fc : Byte) (t : Target) (hd : Nat) (s : State) : Out :=
  if supportedCode fc then reject .outOfRange s else ret (.handle none) (buildNoSlot .notSupported t hd fc s)

end Sys2Proof.Machine
end

