-- ==== Sys2Proof/Machine/Queue.lean ====
section
/-! DEFINITION. The TransactionQueue operations (spec 45 R301 to R308). -/

namespace Sys2Proof.Machine

/-- R301, U1: `none` and a full queue answer false; else the handle must be in use and in no container. -/
def execQAdd (h : Option Nat) (s : State) : Out :=
  match h with
  | none => ret (.bool false) s
  | some k =>
    if s.q.count = s.cfg.params.queueCap then ret (.bool false) s
    else withSlot k s (withDetached k s (ret (.bool (qPush (some k) s).2) (qPush (some k) s).1))

/-- R302. -/
def execQRead (s : State) : Out := ret (.handle (qPop s).2) (qPop s).1

/-- R303. -/
def execQPeek (s : State) : Out := ret (.handle (if s.q.count = 0 then none else cellAt none s.q.arr s.q.head)) s

/-- R305, R306. -/
def execQReadReady (s : State) : Out := ret (.handle (qPopReady s).2) (qPopReady s).1

/-- R307. -/
def execQHasReady (s : State) : Out := ret (.bool (selectReady s).isSome) s

/-- R308: every held transaction released, no event, the indices at 0. -/
def clearQueue (s : State) : State :=
  { releaseAll ((qContent s).filterMap id) s with q := { arr := [], head := 0, tail := 0, count := 0 } }

def execQClear (s : State) : Out := ret .unit (clearQueue s)

end Sys2Proof.Machine
end

