-- ==== Sys2Proof/Machine/Response.lean ====
section
/-! DEFINITION. The response half of the PDU codec (spec 41): `INVOKE`, the response arms, the normaliser and its encoder
twin. An arm gives the state in which the attempt ends and the error `COMPLETE` is run with (`Err.ok` for none). -/

namespace Sys2Proof.Machine

/-- R204: the window after normalisation, element by element: padding stripped, host order. -/
def normalBytes (be : Bool) (es : Nat) (w : List Byte) : List Byte :=
  (List.range (w.length / ts es)).flatMap (fun k => hostOrder be ((slice w (k * ts es) ((k + 1) * ts es)).drop (ts es - es)))

/-- R205: the guards of `NORMALIZE`, in order. -/
def normalErr (c : Cfg) (x : Slot) : Err :=
  firstFailed
    [(decide (x.esize ≤ c.params.esMax), .invalidArgument),
     (decide (x.winOff + x.winLen + c.trl ≤ x.rxlen) && decide (x.winLen % ts x.esize = 0), .bufferTooSmall)]

/-- R204, U6: `count` free bytes. -/
def freeBytes (start count : Nat) : List Byte := (List.range count).map (fun j => Config.freeByte (start + j))

/-- R204: the slot after a normalisation whose guards pass. The bytes that stripping the padding frees are free values. -/
def normalSlot (be : Bool) (start : Nat) (x : Slot) : Slot :=
  let out := normalBytes be x.esize (dataOf x)
  { x with rx := writeBytes (writeBytes x.rx x.winOff out) (x.winOff + out.length)
                   (freeBytes start (x.winLen - out.length)),
           winLen := out.length }

/-- R204, R205: `NORMALIZE` on the state, with the error it raises. -/
def normalizeSlot (h : Nat) (s : State) : State × Err :=
  let x := slotAt s h
  if normalErr s.cfg x = .ok then
    ({ setSlot s h (normalSlot s.ctx.bigEndian s.freeCount x) with
         freeCount := s.freeCount + (x.winLen - (normalBytes s.ctx.bigEndian x.esize (dataOf x)).length) }, .ok)
  else (updSlot s h (fun x => { x with winLen := 0 }), normalErr s.cfg x)

/-- `P[i]`, byte `i` of the received PDU; a free value where the PDU is shorter (log 24). -/
def replyByte (s : State) (h i : Nat) : Byte := ((pduRx s.cfg (slotAt s h))[i]?).getD (Config.freeReply s.freeCount i)

/-- `T[i]`, byte `i` of the template's PDU part; a free value where it is shorter (log 24). -/
def tmplByte (s : State) (h i : Nat) : Byte := ((tmplPdu s.cfg (slotAt s h))[i]?).getD (Config.freeTmpl s.freeCount i)

/-- The window, an offset and a length (10 R23). -/
def window (h off len : Nat) (s : State) : State := updSlot s h (fun x => { x with winOff := off, winLen := len })

/-- `slot[h].win_len <- 0`. -/
def noWindow (h : Nat) (s : State) : State := updSlot s h (fun x => { x with winLen := 0 })

/-- R185: `READ_CHECK(h)`. -/
def readCheck (h : Nat) (s : State) : State × Err :=
  if replyByte s h 1 = tmplByte s h 1 then (window h (s.cfg.hdr + 2) (replyByte s h 1).toNat s, .ok)
  else (s, .invalidByteLength)

/-- R186: `ECHO_CHECK(h, k, 2, E)` as a check. -/
def echoCheck (h k : Nat) (e : Err) (s : State) : Bool × Err :=
  (decide (replyByte s h k = tmplByte s h k) && decide (replyByte s h (k + 1) = tmplByte s h (k + 1)), e)

/-- The write arms: the echoed fields in PDU order, then no data. -/
def echoArm (h : Nat) (checks : List (Bool × Err)) (s : State) : State × Err :=
  if firstFailed checks = .ok then (noWindow h s, .ok) else (s, firstFailed checks)

/-- R187, R188: a coil read. -/
def bitsArm (h : Nat) (s : State) : State × Err := readCheck h s

/-- R189, R190, R198: a register read: `READ_CHECK`, then `NORMALIZE`. -/
def regsArm (h : Nat) (s : State) : State × Err :=
  if (readCheck h s).2 = .ok then normalizeSlot h (readCheck h s).1 else readCheck h s

/-- R191, R192: a single write. -/
def writeOneArm (h : Nat) (s : State) : State × Err :=
  echoArm h [echoCheck h 1 .invalidAddress s, echoCheck h 3 .invalidData s] s

/-- R193: the status byte as a window. -/
def excStatusArm (h : Nat) (s : State) : State × Err := (window h (s.cfg.hdr + 1) 1 s, .ok)

/-- R194: the sub-function echoed, the data word as a window, normalised. -/
def diagArm (h : Nat) (s : State) : State × Err :=
  if firstFailed [echoCheck h 1 .invalidSubfunction s] = .ok then normalizeSlot h (window h (s.cfg.hdr + 3) 2 s)
  else (s, .invalidSubfunction)

/-- R195, R196: a multiple write. -/
def writeManyArm (h : Nat) (s : State) : State × Err :=
  echoArm h [echoCheck h 1 .invalidAddress s, echoCheck h 3 .invalidQuantity s] s

/-- R197: a mask write. -/
def maskArm (h : Nat) (s : State) : State × Err :=
  echoArm h [echoCheck h 1 .invalidAddress s, echoCheck h 3 .invalidData s, echoCheck h 5 .invalidData s] s

/-- R181: `RSP_EXCEPTION(h)`. -/
def exceptionArm (h : Nat) (s : State) : State × Err :=
  (window h 0 0 s,
    if 2 < (pduRx s.cfg (slotAt s h)).length then .tooManyData else exceptionErr (replyByte s h 1))

/-- R180 step 4: the dispatch on the request's function code; its last arm is R183. -/
def arm (fc : Byte) (h : Nat) (s : State) : State × Err :=
  if fc = 0x01#8 then bitsArm h s
  else if fc = 0x02#8 then bitsArm h s
  else if fc = 0x03#8 then regsArm h s
  else if fc = 0x04#8 then regsArm h s
  else if fc = 0x05#8 then writeOneArm h s
  else if fc = 0x06#8 then writeOneArm h s
  else if fc = 0x07#8 then excStatusArm h s
  else if fc = 0x08#8 then diagArm h s
  else if fc = 0x0F#8 then writeManyArm h s
  else if fc = 0x10#8 then writeManyArm h s
  else if fc = 0x16#8 then maskArm h s
  else if fc = 0x17#8 then regsArm h s
  else (s, .notSupported)

/-- R13: the received PDU and template bytes an arm reads one after the other, each with the test that ends it: (PDU length
needed, template length needed, the arm goes on). True when the PDU and the template have them all. -/
def readsFit (n m : Nat) : List (Nat × Nat × Bool) → Bool
  | [] => true
  | (p, t, goesOn) :: rest => decide (p ≤ n) && decide (t ≤ m) && (!goesOn || readsFit n m rest)

/-- The reads of an arm fit the received PDU and the template of slot `h`. -/
def fitsReads (reads : Nat → State → List (Nat × Nat × Bool)) (h : Nat) (s : State) : Bool :=
  readsFit (pduRx s.cfg (slotAt s h)).length (tmplPdu s.cfg (slotAt s h)).length (reads h s)

/-- R187, R188: the byte count, then the data bytes it counts. -/
def bitsReads (h : Nat) (s : State) : List (Nat × Nat × Bool) :=
  [(2, 2, decide (replyByte s h 1 = tmplByte s h 1)), (2 + (replyByte s h 1).toNat, 2, true)]

/-- R189, R190, R198: the byte count; the data are `NORMALIZE`'s to check (R205). -/
def regsReads (_ : Nat) (_ : State) : List (Nat × Nat × Bool) := [(2, 2, true)]

/-- R191, R192, R195, R196: two echoed fields. -/
def writeReads (h : Nat) (s : State) : List (Nat × Nat × Bool) :=
  [(3, 3, (echoCheck h 1 .ok s).1), (5, 5, true)]

/-- R193, R181: the byte after the function code. -/
def secondRead (_ : Nat) (_ : State) : List (Nat × Nat × Bool) := [(2, 0, true)]

/-- R194: the sub-function; the data word is `NORMALIZE`'s to check. -/
def diagReads (_ : Nat) (_ : State) : List (Nat × Nat × Bool) := [(3, 3, true)]

/-- R197: three echoed fields. -/
def maskReads (h : Nat) (s : State) : List (Nat × Nat × Bool) :=
  [(3, 3, (echoCheck h 1 .ok s).1), (5, 5, (echoCheck h 3 .ok s).1), (7, 7, true)]

/-- R182, R183: nothing is read. -/
def noReads (_ : Nat) (_ : State) : List (Nat × Nat × Bool) := []

/-- The reads of the arm that R180 step 4 selects. -/
def armReads (fc : Byte) : Nat → State → List (Nat × Nat × Bool) :=
  if fc = 0x01#8 then bitsReads
  else if fc = 0x02#8 then bitsReads
  else if fc = 0x03#8 then regsReads
  else if fc = 0x04#8 then regsReads
  else if fc = 0x05#8 then writeReads
  else if fc = 0x06#8 then writeReads
  else if fc = 0x07#8 then secondRead
  else if fc = 0x08#8 then diagReads
  else if fc = 0x0F#8 then writeReads
  else if fc = 0x10#8 then writeReads
  else if fc = 0x16#8 then maskReads
  else if fc = 0x17#8 then regsReads
  else noReads

/-- The state an arm runs in. Issued by the host on a slot whose PDU or template is shorter than what the arm reads, it runs
too (00 R10: "their rules are total either way"); what was not received or not written is then free (U7, log 24). -/
def prepared (reads : Nat → State → List (Nat × Nat × Bool)) (h : Nat) (s : State) : State :=
  if fitsReads reads h s then s else unreceived h s

/-- An arm, from the state it runs in to its `COMPLETE`. -/
def runArm (reads : Nat → State → List (Nat × Nat × Bool)) (a : Nat → State → State × Err) (h : Nat) (s : State) : Out :=
  raise h (a h (prepared reads h s)).2 (a h (prepared reads h s)).1

/-- R180 steps 1 to 3b: how `INVOKE(h)` ends before the dispatch, if it does. -/
def earlyReply (h : Nat) (s : State) : Option (State × Err) :=
  let x := slotAt s h
  let p := pduRx s.cfg x
  if x.err ≠ .ok then some (s, x.err)
  else if p.length < 2 then some (s, .tooFewData)
  else if isExceptionOf (fcOf s.cfg x) (replyByte s h 0) then some (exceptionArm h s)
  else if replyByte s h 0 ≠ fcOf s.cfg x then some (s, .invalidFunction)
  else if p.length + s.cfg.hdr + s.cfg.trl < x.explen then some (s, .tooFewData)
  else if x.explen < p.length + s.cfg.hdr + s.cfg.trl then some (s, .tooManyData)
  else none

/-- R180: `INVOKE(h)`: every path ends in exactly one `COMPLETE`. -/
def invokeOp (h : Nat) (s : State) : Out :=
  match earlyReply h s with
  | some (s', e) => raise h e s'
  | none => runArm (armReads (fcOf s.cfg (slotAt s h))) (arm (fcOf s.cfg (slotAt s h))) h s

/-- A response arm issued by the host: `COMPLETE`'s precondition and the bounds of the slot. -/
def hostArm (h : Nat) (reads : Nat → State → List (Nat × Nat × Bool)) (a : Nat → State → State × Err) (s : State) :
    Out :=
  withSlot h s (withDetached h s (checked h s (runArm reads a h s)))

def execRspRdCoils (h : Nat) (s : State) : Out := hostArm h bitsReads bitsArm s
def execRspRdDiscrete (h : Nat) (s : State) : Out := hostArm h bitsReads bitsArm s
def execRspRdHolding (h : Nat) (s : State) : Out := hostArm h regsReads regsArm s
def execRspRdInput (h : Nat) (s : State) : Out := hostArm h regsReads regsArm s
def execRspWrCoil (h : Nat) (s : State) : Out := hostArm h writeReads writeOneArm s
def execRspWrReg (h : Nat) (s : State) : Out := hostArm h writeReads writeOneArm s
def execRspRdExcStatus (h : Nat) (s : State) : Out := hostArm h secondRead excStatusArm s
def execRspDiag (h : Nat) (s : State) : Out := hostArm h diagReads diagArm s
def execRspWrCoils (h : Nat) (s : State) : Out := hostArm h writeReads writeManyArm s
def execRspWrRegs (h : Nat) (s : State) : Out := hostArm h writeReads writeManyArm s
def execRspMaskWr (h : Nat) (s : State) : Out := hostArm h maskReads maskArm s
def execRspRwRegs (h : Nat) (s : State) : Out := hostArm h regsReads regsArm s
def execRspException (h : Nat) (s : State) : Out := hostArm h secondRead exceptionArm s

/-- R182: `raise INVALID_FUNCTION(h)`. -/
def execRspWrongFunction (h : Nat) (s : State) : Out := hostArm h noReads (fun _ s => (s, .invalidFunction)) s

/-- R183: `raise NOT_SUPPORTED(h)`. -/
def execRspNotSupported (h : Nat) (s : State) : Out := hostArm h noReads (fun _ s => (s, .notSupported)) s

/-- R180, U1. -/
def execInvoke (h : Nat) (s : State) : Out := withSlot h s (withDetached h s (checked h s (invokeOp h s)))

/-- R204, R205: on failure, whatever window the host left, it empties the window and raises, which needs the slot detached. -/
def execNormalize (h : Nat) (s : State) : Out :=
  withSlot h s (checked h s
    (if (normalizeSlot h s).2 = .ok then ret .unit (normalizeSlot h s).1
     else withDetached h s (raise h (normalizeSlot h s).2 (normalizeSlot h s).1)))

/-- R206: a pure function of its operands. -/
def execEncodeElems (es : Nat) (vals : List Nat) (s : State) : Out := ret (.bytes (encodeVals es vals)) s

/-- R208. -/
def execSetBigEndian (b : Bool) (s : State) : Out := ret .unit { s with ctx := { s.ctx with bigEndian := b } }

end Sys2Proof.Machine
end

