-- ==== Sys2Proof/Machine/Engine.lean ====
section
/-! DEFINITION. The RTU master engine (spec 46): `TICK` and its arms; `CLEAR_ALL` (60 R390); `RESET` (70 R410). -/

namespace Sys2Proof.Machine

/-- `eng.state <- BUFFER_CLEAR` if bytes are waiting, else `IDLE` (R330, R332). -/
def restState (s : State) : EngState := if s.serial = [] then .idle else .bufferClear

/-- R330, R332: the engine record at the end of an attempt. -/
def settle (s : State) : State :=
  { s with eng := { s.eng with pending := none, idleT := s.nowUs, state := restState s } }

/-- R324: the BUFFER_CLEAR arm. -/
def tickBufferClear (s : State) : State :=
  if s.serial = [] then
    if s.cfg.frameToUs ≤ elapsed s.cfg s.nowUs s.eng.idleT then { s with eng := { s.eng with state := .idle } } else s
  else { s with serial := [], eng := { s.eng with idleT := s.nowUs } }

/-- R326: the transmission up to the choice between a broadcast and a device. -/
def sendFrame (h : Nat) (s : State) : State :=
  let x := slotAt s h
  let s := emit (emit (emit s .txBegin) (.serWrite (readBytes x.tx 0 x.txlen))) .txEnd
  let s := updSlot s h (fun x => { x with stime := s.nowMs })
  { s with eng := { s.eng with idleT := s.nowUs } }

/-- R326: the engine waits for the response of `h`. -/
def awaitReply (h : Nat) (s : State) : State :=
  let s := updSlot s h (fun x => { x with rxlen := 0, exc := false })
  { s with eng := { s.eng with pending := some h, byteT := s.nowUs, state := .receive } }

/-- R326: `TRANSMIT(h)`. -/
def transmit (h : Nat) (s : State) : Out :=
  let s := sendFrame h s
  if readByte (slotAt s h).tx 0 = 0#8 then raise h .ok s else ret .unit (awaitReply h s)

/-- R325: the IDLE arm. -/
def tickIdle (s : State) : Out :=
  if s.q.count = 0 then
    ret .unit { s with eng := { s.eng with idleT := elapsed s.cfg s.nowUs s.cfg.frameToUs } }
  else if elapsed s.cfg s.nowUs s.eng.idleT < s.cfg.frameToUs then ret .unit s
  else
    match qPopReady s with
    | (s', none) => ret .unit s'
    | (s', some h) => checked h s' (transmit h s')

/-- R328: the bytes `APPEND(h, limit)` takes. -/
def taken (s : State) (h limit : Nat) : List Byte := s.serial.take (limit - (slotAt s h).rxlen)

/-- R328: `APPEND(h, limit)`. -/
def append (h limit : Nat) (s : State) : State :=
  let bs := taken s h limit
  let s' := { updSlot s h (fun x => { x with rx := writeBytes x.rx x.rxlen bs, rxlen := x.rxlen + bs.length }) with
                serial := s.serial.drop bs.length }
  if bs = [] then s' else { s' with eng := { s'.eng with byteT := s.nowUs, idleT := s.nowUs } }

/-- R332: `ENG_FAIL(h, e)`. -/
def engFail (h : Nat) (e : Err) (s : State) : Out := raise h e (settle s)

/-- R330: the error `FINISH` records before `INVOKE`. -/
def crcVerdict (h : Nat) (s : State) : State :=
  if rtuCrcOk (slotAt s h) then s else updSlot s h (fun x => { x with err := .crcFailure })

/-- R330: `FINISH(h)`. -/
def finishFrame (h : Nat) (s : State) : Out := invokeOp h (settle (crcVerdict h s))

/-- R327: the head is good: flag an exception, go to HEAD_CHECKED. -/
def headGood (h : Nat) (s : State) : State :=
  let s := updSlot s h (fun x => { x with exc := x.exc || isExceptionOf (fcOf s.cfg x) (readByte x.rx 1) })
  { s with eng := { s.eng with state := .headChecked } }

/-- R331: `CHECK_COMPLETE(h)`, in the same tick, with no timeout test. -/
def checkComplete (h : Nat) (s : State) : Out :=
  if (slotAt s h).rxlen = needOf (slotAt s h) then finishFrame h s else ret .unit s

/-- R327: the RECEIVE arm. -/
def tickReceive (h : Nat) (s : State) : Out :=
  let k := (taken s h (slotAt s h).explen).length
  let s := append h (slotAt s h).explen s
  if 2 ≤ (slotAt s h).rxlen then
    if rtuHeadOk (slotAt s h) then checkComplete h (headGood h s)
    else engFail h .invalidSlave (updSlot s h (fun x => { x with rxlen := 0 }))
  else if k = 0 ∧ s.cfg.params.respTimeoutMs ≤ elapsed s.cfg s.nowMs (slotAt s h).stime then engFail h .responseTimeout s
  else ret .unit s

/-- R329: the HEAD_CHECKED arm. -/
def tickHeadChecked (h : Nat) (s : State) : Out :=
  let need := needOf (slotAt s h)
  let k := (taken s h need).length
  let s := append h need s
  if (slotAt s h).rxlen = need then finishFrame h s
  else if k = 0 ∧ s.cfg.byteToUs ≤ elapsed s.cfg s.nowUs s.eng.byteT then engFail h .responseTimeout s
  else ret .unit s

/-- The pending transaction (R38). -/
def withPending (s : State) (k : Nat → Out) : Out :=
  match s.eng.pending with
  | none => .fault .noPending
  | some h => checked h s (k h)

/-- R323: `TICK()`; it exists only when `TRANSPORT = RTU`. -/
def execTick (s : State) : Out :=
  onlyOn .rtu s
    (match s.eng.state with
     | .bufferClear => ret .unit (tickBufferClear s)
     | .idle => tickIdle s
     | .receive => withPending s (fun h => tickReceive h s)
     | .headChecked => withPending s (fun h => tickHeadChecked h s))

/-- The handles of the slots in use. -/
def slotsInUse (s : State) : List Nat :=
  (s.pool.filter (fun c => decide (c.1 < s.cfg.params.poolCap) && c.2.inuse)).map Prod.fst

/-- R390: the SentBuffer released and emptied (TCP); the pending transaction released and the engine in IDLE (RTU). -/
def clearContainers (s : State) : State :=
  match s.cfg.params.transport with
  | .tcp => { releaseAll (s.sb.filterMap (fun c => c.2)) s with sb := [] }
  | .rtu =>
    let s := releaseAll s.eng.pending.toList s
    { s with eng := { s.eng with pending := none, state := .idle, idleT := s.nowUs } }

/-- R390: `CLEAR_ALL()`. -/
def clearAllOp (s : State) : State :=
  let s := clearContainers (clearQueue s)
  releaseAll (slotsInUse s) s

def execClearAll (s : State) : Out := ret .unit (clearAllOp s)

/-- R410: the state after `RESET(params)` with legal parameters. Everything outside the block (clock, the host's own sets
and commands) and the free-value counter stay (log 20); the clock of this step is read in the new `W_TIME` bits, however wide the
old ones were (log 3); the serial source is drained on RTU. -/
def resetWith (p : Params) (s : State) : State :=
  { s with cfg := cfgOf p, ctx := { bigEndian := p.hostBe, tid := 0#16 }, pool := [],
           q := { arr := [], head := 0, tail := 0, count := 0 }, sb := [],
           eng := { state := .idle, pending := none, idleT := stamp (cfgOf p) s.clockUs, byteT := stamp (cfgOf p) s.clockUs },
           serial := (match p.transport with
                      | .rtu => []
                      | .tcp => s.serial) }

/-- R410, R412: illegal parameters are refused and change nothing. -/
def execReset (p : Params) (s : State) : Out :=
  if legal p then ret .unit (resetWith p s) else reject .illegalConfiguration s

end Sys2Proof.Machine
end

