-- ==== Sys2Proof/Machine/Frames.lean ====
section
/-! DEFINITION. The wire formats (spec 30 R100, R102, R104) as the byte sequences they give, and the frame wrappers' own
operations (42 R221 to R226, 43 R241 to R250). A format row is no operation of R10: its meaning is its wire image, returned
as the step's result, with no state changed (log 5). -/

namespace Sys2Proof.Machine

/-- R100: unit address, PDU, CRC low byte, CRC high byte. -/
def rtuFrameBytes (u : Byte) (pdu : List Byte) : List Byte := (u :: pdu) ++ le16 (crc (u :: pdu))

/-- R104: the MBAP header of a PDU, then the PDU. -/
def tcpFrameBytes (tid : Half) (u : Byte) (pdu : List Byte) : List Byte := mbap tid u pdu.length ++ pdu

/-- R100, R104: a PDU of a frame has 1 to `PDU_MAX` bytes. -/
def pduInRange (c : Cfg) (pdu : List Byte) : Bool := decide (1 ≤ pdu.length) && decide (pdu.length ≤ c.params.pduMax)

/-- R100, for any unit byte (log 22). -/
def execRtuFrame (u : Byte) (pdu : List Byte) (s : State) : Out :=
  if pduInRange s.cfg pdu then ret (.bytes (rtuFrameBytes u pdu)) s else reject .outOfRange s

/-- R102: the frame of an exception response to function code `fc`; `fc` + 0x80 is a byte only below 0x80 (R106, log 22). -/
def execRtuExceptionFrame (u fc c : Byte) (s : State) : Out :=
  if 128 ≤ fc.toNat then reject .outOfRange s
  else ret (.bytes (rtuFrameBytes u [fc + 0x80#8, c])) s

def execTcpFrame (tid : Half) (u : Byte) (pdu : List Byte) (s : State) : Out :=
  if pduInRange s.cfg pdu then ret (.bytes (tcpFrameBytes tid u pdu)) s else reject .outOfRange s

/-! ### RtuFrame -/

/-- R223, for any unit byte (log 22). -/
def execRtuSetHead (h : Nat) (u : Byte) (s : State) : Out :=
  onlyOn .rtu s (withSlot h s (ret .unit (updSlot s h (rtuHead u))))

/-- R224; a PDU length above `PDU_MAX` reads and writes past the buffer (R80, U12 `fault`), one of 0 is taken as it stands
(log 22). -/
def execRtuSetCrc (h len : Nat) (s : State) : Out :=
  onlyOn .rtu s (withSlot h s
    (if 1 + len + 2 ≤ s.cfg.bufCap then ret .unit (updSlot s h (rtuCrc len)) else .fault .bufferBound))

def execRtuCheckHead (h : Nat) (s : State) : Out :=
  onlyOn .rtu s (withSlot h s (ret (.bool (rtuHeadOk (slotAt s h))) s))

def execRtuCheckCrc (h : Nat) (s : State) : Out :=
  onlyOn .rtu s (withSlot h s (checked h s (ret (.bool (rtuCrcOk (slotAt s h))) s)))

def execCrc16 (bytes : List Byte) (s : State) : Out := ret (.crc (crc bytes)) s

/-! ### TcpFrame -/

/-- R104: the PDU length that the header's length field holds; where `len` + 1 has no image of two bytes, a free one
(logs 27, 28). -/
def fieldLength (len : Nat) : Nat := if len + 1 < 65536 then len else Config.imageTooWide (len + 1) 2

/-- R241 with a PDU length above `PDU_MAX`: the counter and the seven header bytes are the rule's, no byte lies past a buffer;
`txlen`, for which 7 + `len` is no value of R23, is 7 + a free PDU length (log 28). -/
def tcpSetMbapLong (h : Nat) (u : Byte) (len : Nat) (s : State) : State :=
  let n := Config.freeLength s.freeCount len % (s.cfg.params.pduMax + 1)
  let s := { s with ctx := { s.ctx with tid := s.ctx.tid + 1#16 }, freeCount := s.freeCount + 1 }
  updSlot s h (fun x => { tcpHead s.ctx.tid u (fieldLength len) x with txlen := 7 + n })

/-- R241; a PDU length of 0 is taken as it stands: length field 1, `txlen` 7 (log 22). -/
def execTcpSetMbap (h : Nat) (u : Byte) (len : Nat) (s : State) : Out :=
  onlyOn .tcp s (withSlot h s
    (ret .unit (if 7 + len ≤ s.cfg.bufCap then tcpSetMbap h u len s else tcpSetMbapLong h u len s)))

/-- R244 to R247; header bytes that were not received are free (log 24). -/
def execTcpCheckMbap (h : Nat) (s : State) : Out :=
  onlyOn .tcp s (withSlot h s (ret (.err (mbapErr (slotAt (heard 7 h s) h))) (heard 7 h s)))

/-- R248. -/
def lengthResult : Option Nat → Result
  | some n => .length n
  | none => .err .invalidLength

/-- R248; length bytes that were not received are free (log 24). -/
def execTcpPayloadLen (h : Nat) (s : State) : Out :=
  onlyOn .tcp s (withSlot h s (ret (lengthResult (payloadLen s.cfg (slotAt (heard 6 h s) h))) (heard 6 h s)))

end Sys2Proof.Machine
end

