-- ==== Sys2Proof/Machine/SlaveSets.lean ====
section
/-! DEFINITION. The SlaveSet operations and `REPEAT_IF_NEEDED` (spec 44). -/

namespace Sys2Proof.Machine

/-- An operation that replaces the SlaveSet `r` by `f` of it. -/
def ssUpdate (r : SsRef) (f : SlaveSet → SlaveSet) (s : State) : Out :=
  if ssExists s r then ret .unit (setSs s r (f (ssAt s r))) else reject .noSuchSlot s

/-- R271: addresses above 247 are ignored. -/
def execSsSet (r : SsRef) (a : Byte) (s : State) : Out := ssUpdate r (fun x => addMembers x a.toNat a.toNat) s

/-- R272. -/
def execSsSetRange (r : SsRef) (lo hi : Byte) (s : State) : Out :=
  ssUpdate r (fun x => addMembers x lo.toNat hi.toNat) s

/-- R273. -/
def execSsRemove (r : SsRef) (a : Byte) (s : State) : Out := ssUpdate r (fun x => dropMembers x a.toNat a.toNat) s

/-- R274. -/
def execSsRemoveRange (r : SsRef) (lo hi : Byte) (s : State) : Out :=
  ssUpdate r (fun x => dropMembers x lo.toNat hi.toNat) s

/-- R277. -/
def execSsGetNext (r : SsRef) (s : State) : Out :=
  if ssExists s r then ret (.cursor (cursorOf (nextMember (ssAt s r)))) (setSs s r (advance (ssAt s r)))
  else reject .noSuchSlot s

/-- R278. -/
def execSsPeek (r : SsRef) (s : State) : Out :=
  if ssExists s r then ret (.cursor (cursorOf (nextMember (ssAt s r)))) s else reject .noSuchSlot s

/-- R275. -/
def execSsClear (r : SsRef) (s : State) : Out := ssUpdate r (fun _ => SlaveSet.cleared) s

/-- R276. -/
def execSsSetDelays (r : SsRef) (item rep : Int) (s : State) : Out :=
  ssUpdate r (fun x => { x with itemDelay := item, repeatDelay := rep }) s

/-- R282, U1. -/
def execRepeatIfNeeded (h : Nat) (s : State) : Out :=
  withSlot h s (withDetached h s (checked h s (ret .unit (repeatOrRelease h s))))

end Sys2Proof.Machine
end

