-- ==== Sys2Proof/Machine/Tcp.lean ====
section
/-! DEFINITION. The channel's entry points (spec 43 R249, R250) and the SentBuffer (R255 to R257). All of it exists only
when `TRANSPORT = TCP`. -/

namespace Sys2Proof.Machine

/-- The seven header bytes into the receive buffer. -/
def storeHeader (h : Nat) (f : List Byte) (s : State) : State :=
  updSlot s h (fun x => { x with rx := writeBytes x.rx 0 (f.take 7), rxlen := 7 })

/-- The `n` payload bytes behind the header. -/
def storePayload (h n : Nat) (f : List Byte) (s : State) : State :=
  updSlot s h (fun x => { x with rx := writeBytes x.rx 7 (slice f 7 (7 + n)), rxlen := 7 + n })

/-- R249: `TCP_RECEIVE(h, F)`. -/
def tcpReceive (h : Nat) (f : List Byte) (s : State) : Out :=
  if f.length < 7 then raise h .invalidMbapHeader s
  else
    let s := storeHeader h f s
    if mbapErr (slotAt s h) ≠ .ok then raise h (mbapErr (slotAt s h)) s
    else
      match payloadLen s.cfg (slotAt s h) with
      | none => raise h .invalidLength s
      | some n => if f.length < 7 + n then raise h .tooFewData s else invokeOp h (storePayload h n f s)

def execTcpReceive (h : Nat) (f : List Byte) (s : State) : Out :=
  onlyOn .tcp s (withSlot h s (withDetached h s (checked h s (tcpReceive h f s))))

/-- R250. -/
def execTcpFail (h : Nat) (e : FailCode) (s : State) : Out :=
  onlyOn .tcp s (withSlot h s (withDetached h s (raise h (failErr e) s)))

/-- The lowest SentBuffer position that passes `p`. -/
def sbFind (s : State) (p : Option Nat → Bool) : Option Nat :=
  findFrom (fun i => p (cellAt none s.sb i)) 0 s.cfg.params.sentCap

def sbPut (s : State) (i : Nat) (v : Option Nat) : State := { s with sb := putCell none s.sb i v }

/-- R255: `SB_ADD(h)`; a full buffer answers false before the handle matters. -/
def execSbAdd (h : Nat) (s : State) : Out :=
  onlyOn .tcp s
    (match sbFind s (fun v => decide (v = none)) with
     | none => ret (.bool false) s
     | some i =>
       withSlot h s (withDetached h s
         (ret (.bool true) (updSlot (sbPut s i (some h)) h (fun x => { x with stime := s.nowMs })))))

/-- The handle found, its position freed. -/
def sbTake (s : State) (p : Nat → Bool) : Out :=
  match sbFind s (fun v => v.elim false p) with
  | none => ret (.handle none) s
  | some i => ret (.handle (cellAt none s.sb i)) (sbPut s i none)

/-- R256: `SB_READ(t)`. -/
def execSbRead (tid : Half) (s : State) : Out :=
  onlyOn .tcp s (sbTake s (fun h => decide (tidOf (slotAt s h) = tid.toNat)))

/-- R257: `SB_READ_NEXT_TIMEOUT(T)`. -/
def execSbReadNextTimeout (threshold : Nat) (s : State) : Out :=
  onlyOn .tcp s (sbTake s (fun h => decide (threshold ≤ elapsed s.cfg s.nowMs (slotAt s h).stime)))

end Sys2Proof.Machine
end

