-- ==== Sys2Proof/Machine/Dispatch.lean ====
section
/-! DEFINITION. One arm per operation: each calls the meaning of that operation. -/

namespace Sys2Proof.Machine

def exec (i : Instr) (s : State) : Host.Outcome State Fault Refusal :=
  match i with
  | .rtuFrame unit pdu => Sys2Proof.Machine.execRtuFrame unit pdu s
  | .rtuExceptionFrame unit fc code => Sys2Proof.Machine.execRtuExceptionFrame unit fc code s
  | .tcpFrame tid unit pdu => Sys2Proof.Machine.execTcpFrame tid unit pdu s
  | .rdCoils t a q hd => Sys2Proof.Machine.execRdCoils t a q hd s
  | .rdDiscrete t a q hd => Sys2Proof.Machine.execRdDiscrete t a q hd s
  | .rdHolding t a n es hd => Sys2Proof.Machine.execRdHolding t a n es hd s
  | .rdInput t a n es hd => Sys2Proof.Machine.execRdInput t a n es hd s
  | .wrCoil t a on hd => Sys2Proof.Machine.execWrCoil t a on hd s
  | .wrReg t a v hd => Sys2Proof.Machine.execWrReg t a v hd s
  | .rdExcStatus t hd => Sys2Proof.Machine.execRdExcStatus t hd s
  | .diag t sub data hd => Sys2Proof.Machine.execDiag t sub data hd s
  | .wrCoils t a bits hd => Sys2Proof.Machine.execWrCoils t a bits hd s
  | .wrRegs t a es vals hd => Sys2Proof.Machine.execWrRegs t a es vals hd s
  | .maskWr t a am om hd => Sys2Proof.Machine.execMaskWr t a am om hd s
  | .rwRegs t ra rn wa es wvals hd => Sys2Proof.Machine.execRwRegs t ra rn wa es wvals hd s
  | .buildRaw fc t hd => Sys2Proof.Machine.execBuildRaw fc t hd s
  | .rspRdCoils h => Sys2Proof.Machine.execRspRdCoils h s
  | .rspRdDiscrete h => Sys2Proof.Machine.execRspRdDiscrete h s
  | .rspRdHolding h => Sys2Proof.Machine.execRspRdHolding h s
  | .rspRdInput h => Sys2Proof.Machine.execRspRdInput h s
  | .rspWrCoil h => Sys2Proof.Machine.execRspWrCoil h s
  | .rspWrReg h => Sys2Proof.Machine.execRspWrReg h s
  | .rspRdExcStatus h => Sys2Proof.Machine.execRspRdExcStatus h s
  | .rspDiag h => Sys2Proof.Machine.execRspDiag h s
  | .rspWrCoils h => Sys2Proof.Machine.execRspWrCoils h s
  | .rspWrRegs h => Sys2Proof.Machine.execRspWrRegs h s
  | .rspMaskWr h => Sys2Proof.Machine.execRspMaskWr h s
  | .rspRwRegs h => Sys2Proof.Machine.execRspRwRegs h s
  | .rspException h => Sys2Proof.Machine.execRspException h s
  | .rspWrongFunction h => Sys2Proof.Machine.execRspWrongFunction h s
  | .rspNotSupported h => Sys2Proof.Machine.execRspNotSupported h s
  | .rtuSetHead h u => Sys2Proof.Machine.execRtuSetHead h u s
  | .rtuSetCrc h len => Sys2Proof.Machine.execRtuSetCrc h len s
  | .rtuCheckHead h => Sys2Proof.Machine.execRtuCheckHead h s
  | .rtuCheckCrc h => Sys2Proof.Machine.execRtuCheckCrc h s
  | .crc16 l => Sys2Proof.Machine.execCrc16 l s
  | .tcpSetMbap h u len => Sys2Proof.Machine.execTcpSetMbap h u len s
  | .tcpCheckMbap h => Sys2Proof.Machine.execTcpCheckMbap h s
  | .tcpPayloadLen h => Sys2Proof.Machine.execTcpPayloadLen h s
  | .tcpReceive h frame => Sys2Proof.Machine.execTcpReceive h frame s
  | .sbAdd h => Sys2Proof.Machine.execSbAdd h s
  | .sbRead tid => Sys2Proof.Machine.execSbRead tid s
  | .sbReadNextTimeout th => Sys2Proof.Machine.execSbReadNextTimeout th s
  | .tcpFail h e => Sys2Proof.Machine.execTcpFail h e s
  | .ssSet ss a => Sys2Proof.Machine.execSsSet ss a s
  | .ssSetRange ss lo hi => Sys2Proof.Machine.execSsSetRange ss lo hi s
  | .ssRemove ss a => Sys2Proof.Machine.execSsRemove ss a s
  | .ssRemoveRange ss lo hi => Sys2Proof.Machine.execSsRemoveRange ss lo hi s
  | .ssGetNext ss => Sys2Proof.Machine.execSsGetNext ss s
  | .ssPeek ss => Sys2Proof.Machine.execSsPeek ss s
  | .ssClear ss => Sys2Proof.Machine.execSsClear ss s
  | .ssSetDelays ss item rep => Sys2Proof.Machine.execSsSetDelays ss item rep s
  | .repeatIfNeeded h => Sys2Proof.Machine.execRepeatIfNeeded h s
  | .qAdd h => Sys2Proof.Machine.execQAdd h s
  | .qRead => Sys2Proof.Machine.execQRead s
  | .qPeek => Sys2Proof.Machine.execQPeek s
  | .qReadReady => Sys2Proof.Machine.execQReadReady s
  | .qHasReady => Sys2Proof.Machine.execQHasReady s
  | .qClear => Sys2Proof.Machine.execQClear s
  | .tick => Sys2Proof.Machine.execTick s
  | .clearAll => Sys2Proof.Machine.execClearAll s
  | .setBigEndian b => Sys2Proof.Machine.execSetBigEndian b s
  | .invoke h => Sys2Proof.Machine.execInvoke h s
  | .normalize h => Sys2Proof.Machine.execNormalize h s
  | .encodeElems es vals => Sys2Proof.Machine.execEncodeElems es vals s
  | .reset p => Sys2Proof.Machine.execReset p s

end Sys2Proof.Machine
end

