-- ==== Sys2Proof/Machine/Step.lean ====
section
/-! DEFINITION. One step (spec 00 R9): the host's next command, executed whole; with no command the block does nothing
(log 13). -/

namespace Sys2Proof.Machine

def step (s : State) : Host.Outcome State Fault Refusal :=
  match fetch s with
  | none => .next s
  | some (bytes, s') =>
    match decode bytes with
    | .error e => .refused (.undecodable e)
    | .ok i => exec i s'

/-- The state whose next step issues the command of a table word, at the present clock, with no byte arriving. -/
def State.withFetchWord (s : State) (nbits w : Nat) : State := placeCommand s (tableCommand nbits w)

end Sys2Proof.Machine
end

