-- ==== Sys2Proof/Safety.lean ====
section
/-! DEFINITION. What a sound state of the block is: the invariants the spec states of its records, each as a predicate of
the state, and the safe run, a step that does not fault. -/

namespace Sys2Proof.Machine

/-- R34, R412: the parameters are legal and the derived constants are theirs (R322). -/
def CfgOk (s : State) : Prop := legal s.cfg.params = true ∧ s.cfg = cfgOf s.cfg.params

/-- The three buffers of a slot are in canonical form. -/
def BuffersCanonical (x : Slot) : Prop := Memory.wf x.tx = true ∧ Memory.wf x.rx = true ∧ Memory.wf x.tmpl = true

/-- Every sparse array of the state is in canonical form: equal contents are equal data. -/
structure Canonical (s : State) : Prop where
  pool     : canonical Slot.cleared s.pool = true
  buffers  : ∀ h, BuffersCanonical (slotAt s h)
  queue    : canonical none s.q.arr = true
  sent     : canonical none s.sb = true
  hostSets : canonical SlaveSet.cleared s.hostSets = true

/-- R37: bits 248..255 are 0, and the cursor is an address up to 247 or a sentinel. -/
def SetOk (x : SlaveSet) : Prop := (∀ a, 248 ≤ a → member x a = false) ∧ (∀ a, x.active = .addr a → a ≤ 247)

/-- R271: every SlaveSet, embedded or the host's own. -/
def SetsOk (s : State) : Prop :=
  (∀ h, SetOk (slotAt s h).ss) ∧ (∀ k, SetOk (cellAt SlaveSet.cleared s.hostSets k))

/-- R35: the queue's invariants. -/
structure QueueOk (s : State) : Prop where
  cap      : 0 < s.cfg.params.queueCap
  head     : s.q.head < s.cfg.params.queueCap
  count    : s.q.count ≤ s.cfg.params.queueCap
  tail     : s.q.tail = (s.q.head + s.q.count) % s.cfg.params.queueCap
  occupied : ∀ i, i < s.q.count → ∃ h, qItem s i = some h
  free     : ∀ p, (∀ i, i < s.q.count → qPos s i ≠ p) → cellAt none s.q.arr p = none

/-- The places of the three containers (R24): a handle stands in the queue, in the SentBuffer, or is pending. -/
def InQueue (s : State) (p h : Nat) : Prop := cellAt none s.q.arr p = some h
def InSent (s : State) (i h : Nat) : Prop := cellAt none s.sb i = some h
def IsPending (s : State) (h : Nat) : Prop := s.eng.pending = some h

/-- A handle that may stand in a container: the slot exists and is in use. -/
def Holdable (s : State) (h : Nat) : Prop := slotExists s h = true ∧ (slotAt s h).inuse = true

/-- R24, R36, R38: one place per handle, only slots in use are held, the SentBuffer is TCP's and the engine is RTU's, and a
transaction is pending exactly while its response is awaited. -/
structure ContainersOk (s : State) : Prop where
  queueHolds   : ∀ p h, InQueue s p h → Holdable s h
  sentHolds    : ∀ i h, InSent s i h → Holdable s h
  pendingHolds : ∀ h, IsPending s h → Holdable s h
  queueOnce    : ∀ p p' h, InQueue s p h → InQueue s p' h → p = p'
  sentOnce     : ∀ i i' h, InSent s i h → InSent s i' h → i = i'
  queueNotSent : ∀ p i h, InQueue s p h → ¬ InSent s i h
  queueNotPend : ∀ p h, InQueue s p h → ¬ IsPending s h
  sentNotPend  : ∀ i h, InSent s i h → ¬ IsPending s h
  sentTcp      : s.cfg.params.transport = .rtu → ∀ i, cellAt none s.sb i = none
  pendingRtu   : s.cfg.params.transport = .tcp → s.eng.pending = none
  awaiting     : s.eng.pending.isSome = true ↔ (s.eng.state = .receive ∨ s.eng.state = .headChecked)

/-- R23, R80: every slot's length fields are in their ranges and no byte is listed outside a buffer. -/
structure BoundsOk (s : State) : Prop where
  lengths : ∀ h, slotFits s.cfg (slotAt s h) = true
  tx      : ∀ h, below s.cfg.bufCap (slotAt s h).tx = true
  rx      : ∀ h, below s.cfg.bufCap (slotAt s h).rx = true
  tmpl    : ∀ h, below (s.cfg.hdr + 7) (slotAt s h).tmpl = true
  pool    : below s.cfg.params.poolCap s.pool = true
  sent    : below s.cfg.params.sentCap s.sb = true

/-- R7, R9, R14, R23, R38: every time the state holds is a value of `W_TIME` bits. -/
structure TimesOk (s : State) : Prop where
  clock  : s.nowMs < s.cfg.span ∧ s.nowUs < s.cfg.span
  engine : s.eng.idleT < s.cfg.span ∧ s.eng.byteT < s.cfg.span
  slots  : ∀ h, (slotAt s h).qtime < s.cfg.span ∧ (slotAt s h).stime < s.cfg.span
  delays : ∀ h d, (slotAt s h).delay = .ms d → d < s.cfg.span

/-- R386, R423: no window outlives the step that made it. -/
def WindowsClosed (s : State) : Prop := ∀ h, (slotAt s h).winLen = 0

/-- The invariant of the block. -/
structure Sound (s : State) : Prop where
  cfg        : CfgOk s
  queue      : QueueOk s
  containers : ContainersOk s
  bounds     : BoundsOk s

/-- The line events of a step (R9): all but the completions. -/
def Event.onLine : Event → Bool
  | .txBegin => true
  | .txEnd => true
  | .serWrite _ => true
  | .tcpWrite _ => true
  | .done _ _ => false

/-- A safe run: no step of it faults. -/
def SafeRun : Nat → State → Prop
  | 0, _ => True
  | k + 1, s =>
    match step s with
    | .next t => SafeRun k t
    | .fault _ => False
    | .refused _ => True

end Sys2Proof.Machine
end

