-- ==== Sys2Proof/Certificates/Slice0/Obligations.lean ====
section
/-! DEFINITION. The statements for the provers. First the vocabulary: frames, the first unit of a build, the scan `NEXT`,
the ends of an attempt, each written from its rule on what can be read of a state. -/

namespace Sys2Proof.Claims

open Sys2Proof.Machine

/-! ### Frames -/

/-- All of a state but the pool and what one step answers. -/
def offPool (s : State) : State := { s with pool := [], result := .unit, events := [] }

def SlotsBut (h : Nat) (s t : State) : Prop := ∀ k, k ≠ h → slotAt t k = slotAt s k

def SlotsSame (s t : State) : Prop := ∀ k, slotAt t k = slotAt s k

/-- An operation on slot `h` alone: it answers `r`, emits nothing, leaves every other slot and every other record. -/
def OnSlot (h : Nat) (r : Result) (s t : State) : Prop :=
  t.result = r ∧ t.events = s.events ∧ offPool t = offPool s ∧ SlotsBut h s t

/-- A slot but for the frame it transmits and the header it expects. -/
def offFrame (x : Slot) : Slot := { x with tx := [], txlen := 0, tmpl := [] }

/-- A slot but for its SlaveSet. -/
def offSet (x : Slot) : Slot := { x with ss := SlaveSet.cleared }

/-- A slot but for its receive buffer and window. -/
def offWindow (x : Slot) : Slot := { x with rx := [], winLen := 0 }

/-- All of a state but the queue and what one step answers. -/
def offQueue (s : State) : State :=
  { s with q := { arr := [], head := 0, tail := 0, count := 0 }, result := .unit, events := [] }

/-- All of a state but the SentBuffer and what one step answers. -/
def offSent (s : State) : State := { s with sb := [], result := .unit, events := [] }

/-- All of a state but the SlaveSets and what one step answers; the slots are compared apart. -/
def offSets (s : State) : State := { s with pool := [], hostSets := [], result := .unit, events := [] }

/-- All of a state but what an attempt's end may write: the pool, the queue, the transaction id, the answer. -/
def offAttempt (s : State) : State :=
  { s with pool := [], q := { arr := [], head := 0, tail := 0, count := 0 }, ctx := { s.ctx with tid := 0#16 },
           result := .unit, events := [], freeCount := 0 }

/-! ### Time (R14), and bytes that were not received (U7) -/

/-- R14: `(now - before) mod 2^W_TIME`. -/
def since (s : State) (now before : Time) : Nat :=
  (((now : Int) - (before : Int)) % ((2 ^ s.cfg.params.wTime : Nat) : Int)).toNat

/-- R284, R428: `d` stands for a delay of `n` ms: the `W_TIME`-bit number, or, where there is none, a delay that is never
reached (log 8). -/
def DelayIs (s : State) (n : Nat) (d : Delay) : Prop :=
  (n < 2 ^ s.cfg.params.wTime → d = .ms n) ∧ (2 ^ s.cfg.params.wTime ≤ n → d = .never)

/-- Of slot `h` nothing but bytes that were not received, of everything else nothing but the free-value counter (log 24). -/
def Heard (h : Nat) (s t : State) : Prop :=
  t.events = s.events ∧ SlotsBut h s t ∧ { offPool t with freeCount := s.freeCount } = offPool s ∧
  { slotAt t h with rx := (slotAt s h).rx } = slotAt s h ∧
  ∀ k, k < (slotAt s h).rxlen → readByte (slotAt t h).rx k = readByte (slotAt s h).rx k

/-! ### The scan of a SlaveSet (R270, R279) -/

/-- The lowest member in `lo .. hi - 1`, or none. -/
def Least (x : SlaveSet) (lo hi : Nat) : Option Nat → Prop
  | some a => lo ≤ a ∧ a < hi ∧ member x a = true ∧ ∀ b, lo ≤ b → b < a → member x b = false
  | none => ∀ b, lo ≤ b → b < hi → member x b = false

/-- R270: some address 0..247 is a member. -/
def HasMember (x : SlaveSet) : Prop := ∃ a, a ≤ 247 ∧ member x a = true

/-- R279: `NEXT(x)` is `n`; none is the end sentinel. -/
def NextIs (x : SlaveSet) (n : Option Nat) : Prop :=
  match x.active with
  | .finish => n = none
  | .null => n = none
  | .start => Least x 0 248 n
  | .addr c =>
    (∃ a, n = some a ∧ Least x (c + 1) 248 n) ∨
    (Least x (c + 1) 248 none ∧ ((0 ≤ x.repeatDelay ∧ Least x 0 (c + 1) n) ∨ (x.repeatDelay < 0 ∧ n = none)))

/-! ### Frames on the wire (R100, R104) -/

/-- R241: the transaction id a new header carries; RTU has none and keeps the counter. -/
def nextTid (s : State) : Half :=
  match s.cfg.params.transport with
  | .rtu => s.ctx.tid
  | .tcp => s.ctx.tid + 1#16

/-- R100, R104: the frame of a PDU for unit `u`. -/
def wireFrame (tr : Transport) (tid : Half) (u : Byte) (pdu : List Byte) : List Byte :=
  match tr with
  | .rtu => [u] ++ pdu ++ le16 (crc ([u] ++ pdu))
  | .tcp => be16 tid ++ [0x00#8, 0x00#8] ++ be16 (BitVec.ofNat 16 (pdu.length + 1)) ++ [u] ++ pdu

/-- R223, R224, R241: the transmit buffer of `x` holds the frame of `pdu` for `u`, the template its header. -/
def Framed (s : State) (u : Byte) (pdu : List Byte) (x : Slot) : Prop :=
  x.txlen = s.cfg.hdr + pdu.length + s.cfg.trl ∧
  readBytes x.tx 0 x.txlen = wireFrame s.cfg.params.transport (nextTid s) u pdu ∧
  readBytes x.tmpl 0 s.cfg.hdr = (wireFrame s.cfg.params.transport (nextTid s) u pdu).take s.cfg.hdr

/-! ### Builds (file 40) -/

/-- R143. -/
def TargetOk (s : State) : Target → Prop
  | .unit u => s.cfg.params.transport = .rtu → u.toNat ≤ 247
  | .set k => HasMember (cellAt SlaveSet.cleared s.hostSets k)

/-- R143: the error of a target that fails the check. -/
def targetError : Target → Err
  | .unit _ => .invalidSlave
  | .set _ => .invalidArgument

/-- R140 step 2: `h` is the free slot of lowest index. -/
def Lowest (s : State) (h : Nat) : Prop :=
  h < s.cfg.params.poolCap ∧ (slotAt s h).inuse = false ∧ ∀ k, k < h → (slotAt s k).inuse = true

/-- A build finds a slot, a place in the queue and a legal target. -/
structure CanBuild (s : State) (h : Nat) (target : Target) : Prop where
  cfg    : CfgOk s
  queue  : QueueOk s
  room   : s.q.count < s.cfg.params.queueCap
  lowest : Lowest s h
  target : TargetOk s target

/-- R140 steps 3 and 6: the unit of the first frame, and the SlaveSet the slot then holds. -/
def FirstUnit (s : State) (target : Target) (u : Byte) (ss : SlaveSet) : Prop :=
  match target with
  | .unit u0 => u = u0 ∧ ss = SlaveSet.cleared
  | .set k =>
    Least (cellAt SlaveSet.cleared s.hostSets k) 0 248 (some u.toNat) ∧
    ss = { cellAt SlaveSet.cleared s.hostSets k with active := .addr u.toNat }

/-- R140, R148: a build that queued a transaction in slot `h`. -/
structure Built (s t : State) (h : Nat) (target : Target) (handler : Nat) (pdu tmpl : List Byte)
    (pduExplen esize : Nat) : Prop where
  result   : t.result = .handle (some h)
  noEvent  : t.events = s.events
  framed   : ∃ u ss, FirstUnit s target u ss ∧ Framed s u pdu (slotAt t h) ∧ (slotAt t h).ss = ss
  template : readBytes (slotAt t h).tmpl s.cfg.hdr tmpl.length = tmpl ∧ (slotAt t h).tmpllen = tmpl.length
  lengths  : (slotAt t h).explen = s.cfg.hdr + pduExplen + s.cfg.trl ∧ (slotAt t h).esize = esize
  owner    : (slotAt t h).inuse = true ∧ (slotAt t h).handler = some handler
  fresh    : (slotAt t h).err = .ok ∧ (slotAt t h).rxlen = 0 ∧ (slotAt t h).exc = false ∧ (slotAt t h).winLen = 0
  stamped  : (slotAt t h).qtime = s.nowMs ∧ (slotAt t h).delay = .ms 0
  queued   : qContent t = qContent s ++ [some h]
  slots    : SlotsBut h s t
  ctx      : t.ctx = { s.ctx with tid := nextTid s }
  frame    : offAttempt t = offAttempt s ∧ t.freeCount = s.freeCount

/-- R149: a build that failed with `e` in slot `h`: one `Done`, nothing queued, the slot cleared. -/
def BuildFailed (s t : State) (h : Nat) (target : Target) (handler : Nat) (fc : Byte) (e : Err) : Prop :=
  t.result = .handle none ∧
  t.events = s.events ++ [.done (some handler)
    { slot := some h, err := e, fc := fc, unit := targetUnit target, esize := 1, data := [] }] ∧
  slotAt t h = Slot.cleared ∧ SlotsBut h s t

/-- R206: `data` holds the values `vals` as big-endian images of the transport size; nothing is said of the image of a value
that is not below `256^es` (log 27). -/
def Encoded (es : Nat) (vals : List Nat) (data : List Byte) : Prop :=
  data.length = vals.length * ts es ∧
  ∀ k v, vals[k]? = some v → v < 256 ^ es → slice data (k * ts es) ((k + 1) * ts es) = beN v (ts es)

/-- The twelve build operations (R150 to R162), with their function code, target and handler. -/
inductive IsBuild (target : Target) (handler : Nat) : Byte → Instr → Prop
  | rdCoils (a : Half) (q : Nat) : IsBuild target handler 0x01#8 (.rdCoils target a q handler)
  | rdDiscrete (a : Half) (q : Nat) : IsBuild target handler 0x02#8 (.rdDiscrete target a q handler)
  | rdHolding (a : Half) (n es : Nat) : IsBuild target handler 0x03#8 (.rdHolding target a n es handler)
  | rdInput (a : Half) (n es : Nat) : IsBuild target handler 0x04#8 (.rdInput target a n es handler)
  | wrCoil (a : Half) (on : Bool) : IsBuild target handler 0x05#8 (.wrCoil target a on handler)
  | wrReg (a v : Half) : IsBuild target handler 0x06#8 (.wrReg target a v handler)
  | rdExcStatus : IsBuild target handler 0x07#8 (.rdExcStatus target handler)
  | diag (sub data : Half) : IsBuild target handler 0x08#8 (.diag target sub data handler)
  | wrCoils (a : Half) (bits : List Bool) : IsBuild target handler 0x0F#8 (.wrCoils target a bits handler)
  | wrRegs (a : Half) (es : Nat) (vals : List Nat) : IsBuild target handler 0x10#8 (.wrRegs target a es vals handler)
  | maskWr (a am om : Half) : IsBuild target handler 0x16#8 (.maskWr target a am om handler)
  | rwRegs (ra : Half) (rn : Nat) (wa : Half) (es : Nat) (vals : List Nat) :
      IsBuild target handler 0x17#8 (.rwRegs target ra rn wa es vals handler)

/-- R144 to R147, R150 to R162: the seven build operations with argument checks: the function code, the operation, and
its element shape, quantity, address and size conditions. -/
inductive BuildArgs (c : Cfg) (target : Target) (handler : Nat) : Byte → Instr → Prop → Prop → Prop → Prop → Prop
  | rdCoils (a : Half) (q : Nat) :
      BuildArgs c target handler 0x01#8 (.rdCoils target a q handler) True (1 ≤ q ∧ q ≤ 2000) (a.toNat + q ≤ 65536)
        (2 + ceil8 q ≤ c.params.pduMax)
  | rdDiscrete (a : Half) (q : Nat) :
      BuildArgs c target handler 0x02#8 (.rdDiscrete target a q handler) True (1 ≤ q ∧ q ≤ 2000)
        (a.toNat + q ≤ 65536) (2 + ceil8 q ≤ c.params.pduMax)
  | rdHolding (a : Half) (n es q : Nat) (hq : q = n * ts es / 2) :
      BuildArgs c target handler 0x03#8 (.rdHolding target a n es handler)
        (1 ≤ es ∧ es ≤ c.params.esMax ∧ n * ts es % 2 = 0) (1 ≤ q ∧ q ≤ 125) (a.toNat + q ≤ 65536)
        (2 + 2 * q ≤ c.params.pduMax)
  | rdInput (a : Half) (n es q : Nat) (hq : q = n * ts es / 2) :
      BuildArgs c target handler 0x04#8 (.rdInput target a n es handler)
        (1 ≤ es ∧ es ≤ c.params.esMax ∧ n * ts es % 2 = 0) (1 ≤ q ∧ q ≤ 125) (a.toNat + q ≤ 65536)
        (2 + 2 * q ≤ c.params.pduMax)
  | wrCoils (a : Half) (bits : List Bool) :
      BuildArgs c target handler 0x0F#8 (.wrCoils target a bits handler) True (1 ≤ bits.length ∧ bits.length ≤ 1968)
        (a.toNat + bits.length ≤ 65536) (6 + ceil8 bits.length ≤ c.params.pduMax)
  | wrRegs (a : Half) (es : Nat) (vals : List Nat) (q : Nat) (hq : q = vals.length * ts es / 2) :
      BuildArgs c target handler 0x10#8 (.wrRegs target a es vals handler)
        (1 ≤ es ∧ es ≤ c.params.esMax ∧ vals.length * ts es % 2 = 0) (1 ≤ q ∧ q ≤ 123) (a.toNat + q ≤ 65536)
        (6 + 2 * q ≤ c.params.pduMax)
  | rwRegs (ra : Half) (rn : Nat) (wa : Half) (es : Nat) (vals : List Nat) (rq wq : Nat)
      (hr : rq = rn * ts es / 2) (hw : wq = vals.length * ts es / 2) :
      BuildArgs c target handler 0x17#8 (.rwRegs target ra rn wa es vals handler)
        (1 ≤ es ∧ es ≤ c.params.esMax ∧ rn * ts es % 2 = 0 ∧ vals.length * ts es % 2 = 0)
        (1 ≤ rq ∧ rq ≤ 125 ∧ 1 ≤ wq ∧ wq ≤ 121) (ra.toNat + rq ≤ 65536 ∧ wa.toNat + wq ≤ 65536)
        (10 + 2 * wq ≤ c.params.pduMax ∧ 2 + 2 * rq ≤ c.params.pduMax)

/-! ### The end of an attempt (R282 to R284, R384, R385, R387) -/

/-- A transaction whose attempt may end: in use and in no container (R384), its lengths in range (R23), a request of one
byte or more (R100), no window (R386). -/
structure Awaiting (s : State) (h : Nat) : Prop where
  queue   : QueueOk s
  slot    : h < s.cfg.params.poolCap
  inuse   : (slotAt s h).inuse = true
  free    : held s h = false
  fits    : lengthsFit s.cfg (slotAt s h) = true
  request : s.cfg.hdr + s.cfg.trl < (slotAt s h).txlen
  window  : (slotAt s h).winLen = 0

/-- R387: the slot is cleared, nothing else of the pool and the queue changes. -/
def Released (h : Nat) (s t : State) : Prop := slotAt t h = Slot.cleared ∧ SlotsBut h s t ∧ t.q = s.q

/-- R282: the cursor moved back or stayed. -/
def Wrapped (x : SlaveSet) (nxt : Nat) : Prop := ∃ p, x.active = .addr p ∧ p ≤ 247 ∧ nxt ≤ p

/-- R283, R284, R389: slot `h` re-armed for unit `a` and queued. -/
structure Rearmed (h a : Nat) (s t : State) : Prop where
  framed   : Framed s (BitVec.ofNat 8 a) (pduTx s.cfg (slotAt s h)) (slotAt t h)
  template : readBytes (slotAt t h).tmpl s.cfg.hdr (slotAt s h).tmpllen = tmplPdu s.cfg (slotAt s h)
  kept     : (slotAt t h).inuse = true ∧ (slotAt t h).tmpllen = (slotAt s h).tmpllen ∧
             (slotAt t h).explen = (slotAt s h).explen ∧ (slotAt t h).esize = (slotAt s h).esize ∧
             (slotAt t h).handler = (slotAt s h).handler
  fresh    : (slotAt t h).err = .ok ∧ (slotAt t h).rxlen = 0 ∧ (slotAt t h).exc = false ∧ (slotAt t h).winOff = 0 ∧
             (slotAt t h).winLen = 0
  stamped  : (slotAt t h).qtime = s.nowMs
  delay    : (Wrapped (slotAt s h).ss a → DelayIs s (slotAt s h).ss.repeatDelay.toNat (slotAt t h).delay) ∧
             (¬ Wrapped (slotAt s h).ss a → DelayIs s (max 0 (slotAt s h).ss.itemDelay).toNat (slotAt t h).delay)
  set      : (slotAt t h).ss = { (slotAt s h).ss with active := .addr a }
  slots    : SlotsBut h s t
  queued   : qContent t = qContent s ++ [some h]
  tid      : t.ctx.tid = nextTid s

/-- R282: after the events `evs`, slot `h` is released or re-armed for its next target; a re-arm that finds the queue full
ends in a second `Done` (R378). -/
def Repeats (h : Nat) (evs : List Event) (s t : State) : Prop :=
  offAttempt t = offAttempt s ∧
  ∃ n, (HasMember (slotAt s h).ss → NextIs (slotAt s h).ss n) ∧ (¬ HasMember (slotAt s h).ss → n = none) ∧
    match n with
    | none => t.events = evs ∧ Released h s t ∧ t.ctx.tid = s.ctx.tid
    | some a =>
      (s.q.count = s.cfg.params.queueCap →
        t.events = evs ++ [.done (slotAt s h).handler
          { slot := some h, err := .queueFull, fc := fcOf s.cfg (slotAt s h), unit := BitVec.ofNat 8 a, esize := 1,
            data := [] }] ∧
        Released h s t ∧ t.ctx.tid = nextTid s) ∧
      (s.q.count ≠ s.cfg.params.queueCap → t.events = evs ∧ Rearmed h a s t)

/-- R384, R385: the attempt of slot `h` ends with error `e` and data `w`: one `Done` with the record, then R282. -/
def Completes (h : Nat) (e : Err) (w : List Byte) (s t : State) : Prop :=
  Repeats h (s.events ++ [.done (slotAt s h).handler
    { slot := some h, err := e, fc := fcOf s.cfg (slotAt s h), unit := unitOf s.cfg (slotAt s h),
      esize := (slotAt s h).esize, data := w }]) s t

/-- The operation `i` ends the attempt of slot `h` with `e` and `w`. -/
def EndsWith (i : Instr) (h : Nat) (e : Err) (w : List Byte) (s : State) : Prop :=
  ∃ t, exec i s = .next t ∧ t.result = .unit ∧ Completes h e w s t

/-! ### The normaliser (R203 to R207) -/

/-- R204: `w` is `raw` normalised: each element without its padding, in host order. -/
def Normalised (be : Bool) (es : Nat) (raw w : List Byte) : Prop :=
  w.length = raw.length / ts es * es ∧
  ∀ k, k < raw.length / ts es →
    slice w (k * es) ((k + 1) * es) = hostOrder be (slice raw (k * ts es + (ts es - es)) ((k + 1) * ts es))

/-- Data of `n` bytes from offset `k` of the receive buffer of slot `h`: what was received is exposed as received, nothing is
said of the rest (U7, log 24). -/
def Exposed (s : State) (h k n : Nat) (w : List Byte) : Prop :=
  w.length = n ∧ ∀ j, j < n → k + j < (slotAt s h).rxlen → w[j]? = some (readByte (slotAt s h).rx (k + j))

/-- R204, R205: an attempt that ends by normalising the bytes `raw`, of which `whole` says all were received. -/
def EndsNormalised (i : Instr) (h : Nat) (raw : List Byte) (whole : Prop) (s : State) : Prop :=
  (s.cfg.params.esMax < (slotAt s h).esize → EndsWith i h .invalidArgument [] s) ∧
  ((slotAt s h).esize ≤ s.cfg.params.esMax → (¬ whole ∨ raw.length % ts (slotAt s h).esize ≠ 0) →
    EndsWith i h .bufferTooSmall [] s) ∧
  ((slotAt s h).esize ≤ s.cfg.params.esMax → whole → raw.length % ts (slotAt s h).esize = 0 →
    ∃ w, Normalised s.ctx.bigEndian (slotAt s h).esize raw w ∧ EndsWith i h .ok w s)

/-! ### The queue (file 45) and the engine (file 46) -/

/-- R304. -/
def ReadyAt (s : State) (i h : Nat) : Prop :=
  i < s.q.count ∧ qItem s i = some h ∧ ∃ d, (slotAt s h).delay = .ms d ∧ d ≤ since s s.nowMs (slotAt s h).qtime

/-- R305: the transaction `h` at logical index `j` wins: ready, of smallest delay, the first such from the head. -/
def Wins (s : State) (j h : Nat) : Prop :=
  ReadyAt s j h ∧
  ∀ i k, ReadyAt s i k → ∀ d e, (slotAt s h).delay = .ms d → (slotAt s k).delay = .ms e → d ≤ e ∧ (i < j → d < e)

/-- R306: the queue's content once the winner at index `j` is out. -/
def without (m : RemoveMode) (l : List (Option Nat)) (j : Nat) : List (Option Nat) :=
  match m with
  | .swap => (l.set j (l.getD 0 none)).drop 1
  | .rotate => l.eraseIdx j

/-- R410: `RESET` may set these parameters (R412). -/
def LegalParams (p : Params) : Prop :=
  8 ≤ p.pduMax ∧ p.pduMax ≤ 253 ∧ 1 ≤ p.poolCap ∧ 1 ≤ p.queueCap ∧ p.respTimeoutMs < 2 ^ p.wTime ∧ 2 ≤ p.esMax ∧
  p.poolCap < 65536 ∧ (p.transport = .tcp → 1 ≤ p.sentCap) ∧
  (p.transport = .rtu →
    1 ≤ p.baud ∧ 5 ≤ p.dataBits ∧ p.dataBits ≤ 8 ∧ p.parityBits ≤ 1 ∧ 1 ≤ p.stopBits ∧ p.stopBits ≤ 2)

/-- R21, R38: the engine waits in state `st` for the response of slot `h`, in a sound state of an RTU instance. -/
structure WaitsFor (s : State) (st : EngState) (h : Nat) : Prop where
  sound   : Sound s
  canon   : Canonical s
  rtu     : s.cfg.params.transport = .rtu
  state   : s.eng.state = st
  pending : s.eng.pending = some h
  request : s.cfg.hdr + s.cfg.trl < (slotAt s h).txlen
  window  : (slotAt s h).winLen = 0

/-- R328: the state after `APPEND(h, limit)` took its bytes. -/
def received (h limit : Nat) (s : State) : State :=
  let bs := s.serial.take (limit - (slotAt s h).rxlen)
  let s' := updSlot s h (fun x => { x with rx := writeBytes x.rx x.rxlen bs, rxlen := x.rxlen + bs.length })
  { s' with serial := s.serial.drop bs.length,
            eng := if bs = [] then s.eng else { s.eng with byteT := s.nowUs, idleT := s.nowUs } }

/-- R328: `APPEND(h, limit)` takes nothing. -/
def Silent (h limit : Nat) (s : State) : Prop := limit ≤ (slotAt s h).rxlen ∨ s.serial = []

/-- R330, R332: the engine record at the end of an attempt. -/
def settled (s : State) : State :=
  { s with eng := { s.eng with pending := none, idleT := s.nowUs,
                               state := if s.serial = [] then .idle else .bufferClear } }

/-- R326 on the engine: what the tick that sends slot `h` does before the choice between a broadcast and a device. -/
structure Sent (s t : State) (j h : Nat) : Prop where
  content : qContent t = without s.cfg.params.removeMode (qContent s) j
  events  : t.events = s.events ++ [.txBegin, .serWrite (readBytes (slotAt s h).tx 0 (slotAt s h).txlen), .txEnd]
  slot    : slotAt t h = { slotAt s h with stime := s.nowMs }
  slots   : SlotsBut h s t
  eng     : t.eng = { s.eng with idleT := s.nowUs }
  frame   : { offAttempt t with eng := s.eng } = offAttempt s ∧ t.ctx = s.ctx
  queue   : QueueOk t ∧ ∀ p, ¬ InQueue t p h

/-- `i` may end the attempt of slot `h` with the data of a coil or discrete-input read, of the length the received byte count
gives (R185, R187, R188). -/
def ReadsCoils (i : Instr) (s : State) (h : Nat) : Prop :=
  i = .rspRdCoils h ∨ i = .rspRdDiscrete h ∨
  ((fcOf s.cfg (slotAt s h) = 0x01#8 ∨ fcOf s.cfg (slotAt s h) = 0x02#8) ∧
    (i = .invoke h ∨ (∃ f, i = .tcpReceive h f) ∨ (i = .tick ∧ s.eng.pending = some h)))

/-- The byte count that slot `h` expects fits the receive buffer, as every build of a coil read leaves it (R146, R150). -/
def CountFits (s : State) (h : Nat) : Prop :=
  2 ≤ (slotAt s h).tmpllen ∧ s.cfg.hdr + 2 + (readByte (slotAt s h).tmpl (s.cfg.hdr + 1)).toNat ≤ s.cfg.bufCap

/-- The operations that only a TCP instance has (file 43). -/
def IsTcpOnly : Instr → Prop
  | .tcpSetMbap _ _ _ | .tcpCheckMbap _ | .tcpPayloadLen _ | .tcpReceive _ _ | .sbAdd _ | .sbRead _
  | .sbReadNextTimeout _ | .tcpFail _ _ => True
  | _ => False

/-- The operations that end the attempt of slot `h`, or put it into a container (U1). -/
inductive NeedsDetached (h : Nat) : Instr → Prop
  | invoke : NeedsDetached h (.invoke h)
  | repeatIfNeeded : NeedsDetached h (.repeatIfNeeded h)
  | rspRdCoils : NeedsDetached h (.rspRdCoils h)
  | rspRdDiscrete : NeedsDetached h (.rspRdDiscrete h)
  | rspRdHolding : NeedsDetached h (.rspRdHolding h)
  | rspRdInput : NeedsDetached h (.rspRdInput h)
  | rspWrCoil : NeedsDetached h (.rspWrCoil h)
  | rspWrReg : NeedsDetached h (.rspWrReg h)
  | rspRdExcStatus : NeedsDetached h (.rspRdExcStatus h)
  | rspDiag : NeedsDetached h (.rspDiag h)
  | rspWrCoils : NeedsDetached h (.rspWrCoils h)
  | rspWrRegs : NeedsDetached h (.rspWrRegs h)
  | rspMaskWr : NeedsDetached h (.rspMaskWr h)
  | rspRwRegs : NeedsDetached h (.rspRwRegs h)
  | rspException : NeedsDetached h (.rspException h)
  | rspWrongFunction : NeedsDetached h (.rspWrongFunction h)
  | rspNotSupported : NeedsDetached h (.rspNotSupported h)

end Sys2Proof.Claims

open Sys2Proof Sys2Proof.Machine Sys2Proof.Claims

/-! ### Steps, commands, reset -/

/-- R9, R76: a step executes one operation whole, with the clock sampled once, read in `W_TIME` bits, and with the bytes that
arrived. The model's choices here: the stream of commands, each with its clock and its bytes (log 14); a step with no command
changes nothing (log 13); bytes that are no operation are refused (log 22). -/
def Obligations.StepRunsCommand : Prop :=
  (∀ s c rest i, s.host = c :: rest → decode c.bytes = .ok i →
    step s = exec i { s with host := rest, clockMs := c.clockMs, clockUs := c.clockUs, serial := s.serial ++ c.arrived,
                             result := .unit, events := [] }) ∧
  (∀ s : State, s.nowMs = s.clockMs % 2 ^ s.cfg.params.wTime ∧ s.nowUs = s.clockUs % 2 ^ s.cfg.params.wTime) ∧
  (∀ s, s.host = [] → step s = .next s) ∧
  (∀ s c rest e, s.host = c :: rest → decode c.bytes = .error e → step s = .refused (.undecodable e))

/-- R125, R129: one number of each family, as its first byte, gives its operation (the bytes behind it are the model's
own encoding, log 1). -/
def Obligations.NumbersSelectOperations : Prop :=
  decodeTableWord 8 0x03 = some (.rdHolding (.unit 0x00#8) 0x0000#16 0 0 0) ∧
  decodeTableWord 8 0x17 = some (.rwRegs (.unit 0x00#8) 0x0000#16 0 0x0000#16 0 [] 0) ∧
  decodeTableWord 8 0x21 = some (.rtuSetCrc 0 0) ∧
  decodeTableWord 8 0x2F = some (.tcpFail 0 .responseTimeout) ∧
  decodeTableWord 8 0x37 = some (.ssSetDelays (.host 0) 0 0) ∧
  decodeTableWord 8 0x43 = some .qReadReady ∧
  decodeTableWord 8 0x50 = some .tick ∧
  decodeTableWord 8 0x5F = some (.reset Params.default) ∧
  decodeTableWord 8 0x80 = some (.rspException 0) ∧
  decodeTableWord 8 0x56 = none

/-- Every well-formed operation is read back from its command, whatever zero bytes follow (the encoding is the model's
own, log 1): no operand bit is dropped. -/
def Obligations.DecodeEncodeAgree : Prop :=
  ∀ i : Instr, i.wf = true → ∀ n, decode (encode i ++ List.replicate n 0#8) = .ok i

/-- R410, R412, R42, R322: `RESET` with legal parameters answers, emits nothing, discards every transaction, and leaves
exactly the reset values; a TCP instance leaves the serial source alone. The model's readings: what the host holds stays
(log 20), the clock of the step is read in the new `W_TIME` bits, narrower or wider than the old (log 3), and nothing is said of the timing constants of a TCP
instance with BAUD = 0 (log 25). -/
def Obligations.ResetLeavesResetValues : Prop :=
  ∀ s p, LegalParams p → ∃ t, exec (.reset p) s = .next t ∧
    t.result = .unit ∧ t.events = s.events ∧ t.cfg.params = p ∧
    (1 ≤ p.baud → p.baud ≤ 19200 →
      t.cfg.byteToUs = (15 * (1 + p.dataBits + p.parityBits + p.stopBits) * 100000 + p.baud - 1) / p.baud ∧
      t.cfg.frameToUs = (35 * (1 + p.dataBits + p.parityBits + p.stopBits) * 100000 + p.baud - 1) / p.baud) ∧
    (19200 < p.baud → t.cfg.byteToUs = 750 ∧ t.cfg.frameToUs = 1750) ∧
    t.ctx = { bigEndian := p.hostBe, tid := 0#16 } ∧
    (∀ h, slotAt t h = Slot.cleared) ∧
    (∀ i, cellAt none t.q.arr i = none) ∧ t.q.head = 0 ∧ t.q.tail = 0 ∧ t.q.count = 0 ∧
    (∀ i, cellAt none t.sb i = none) ∧
    t.eng = { state := .idle, pending := none, idleT := s.clockUs % 2 ^ p.wTime, byteT := s.clockUs % 2 ^ p.wTime } ∧
    (p.transport = .rtu → t.serial = []) ∧ (p.transport = .tcp → t.serial = s.serial) ∧
    t.hostSets = s.hostSets ∧ t.host = s.host ∧ t.clockMs = s.clockMs ∧ t.clockUs = s.clockUs ∧
    t.nowMs = s.clockMs % 2 ^ p.wTime ∧ t.nowUs = s.clockUs % 2 ^ p.wTime ∧ t.freeCount = s.freeCount

/-- The state after reset (log 2 for the parameters) is sound: every invariant holds of it. -/
def Obligations.ResetStateIsSound : Prop :=
  Sound State.reset ∧ TimesOk State.reset ∧ Canonical State.reset ∧ SetsOk State.reset ∧ WindowsClosed State.reset

/-! ### The checksum and the frames -/

/-- R221, R228: `CRC16` answers the checksum and changes nothing; the checksum starts at 0xFFFF and takes each byte by an
exclusive or and eight shifts, or, the same, by the table. -/
def Obligations.Crc16Algorithm : Prop :=
  (∀ l s, exec (.crc16 l) s = .next { s with result := .crc (crc l) }) ∧
  crc [] = 0xFFFF#16 ∧
  ∀ l b, crc (l ++ [b]) = (List.range 8).foldl
    (fun c _ => if c.getLsbD 0 then (c >>> 1) ^^^ 0xA001#16 else c >>> 1) (crc l ^^^ b.setWidth 16) ∧
  crc (l ++ [b]) = (crc l >>> 8) ^^^ crcTab (lo8 (crc l ^^^ b.setWidth 16)) ∧
  crcTab 0#8 = 0x0000#16 ∧ crcTab 1#8 = 0xC0C1#16 ∧ crcTab 2#8 = 0xC181#16 ∧ crcTab 3#8 = 0x0140#16 ∧
  crcTab 255#8 = 0x4040#16

/-- R222, R226: the checksum of a sequence followed by its own checksum, low byte first, is 0, and only the right trailer
gives 0. -/
def Obligations.CrcOfWholeFrame : Prop :=
  ∀ l lo hi, crc (l ++ [lo, hi]) = 0#16 ↔ [lo, hi] = le16 (crc l)

/-- R222: a frame that passes `RTU_CHECK_CRC` fails it once any one of its bytes has another value (so once any one of its
bits is flipped). -/
def Obligations.OneByteErrorDetected : Prop :=
  ∀ s h k b, s.cfg.params.transport = .rtu → h < s.cfg.params.poolCap → lengthsFit s.cfg (slotAt s h) = true →
    exec (.rtuCheckCrc h) s = .next { s with result := .bool true } →
    k < (slotAt s h).rxlen → b ≠ readByte (slotAt s h).rx k →
    exec (.rtuCheckCrc h) (updSlot s h (fun x => { x with rx := writeBytes x.rx k [b] })) =
      .next { updSlot s h (fun x => { x with rx := writeBytes x.rx k [b] }) with result := .bool false }

/-- R100, R102, R104: the wire formats. Naming a format answers its image and changes nothing (log 5). The model's choices: a
frame outside its format's ranges is rejected (logs 5, 22), and any unit byte is taken (log 22). -/
def Obligations.WireFormats : Prop :=
  (∀ s u pdu, 1 ≤ pdu.length → pdu.length ≤ s.cfg.params.pduMax →
    exec (.rtuFrame u pdu) s = .next { s with result := .bytes (wireFrame .rtu 0#16 u pdu) }) ∧
  (∀ s u fc c, fc.toNat < 128 →
    exec (.rtuExceptionFrame u fc c) s = .next { s with result := .bytes (wireFrame .rtu 0#16 u [fc + 0x80#8, c]) }) ∧
  (∀ s tid u pdu, 1 ≤ pdu.length → pdu.length ≤ s.cfg.params.pduMax →
    exec (.tcpFrame tid u pdu) s = .next { s with result := .bytes (wireFrame .tcp tid u pdu) }) ∧
  (∀ s tid u pdu, ¬ (1 ≤ pdu.length ∧ pdu.length ≤ s.cfg.params.pduMax) →
    exec (.rtuFrame u pdu) s = .next { s with result := .rejected .outOfRange } ∧
    exec (.tcpFrame tid u pdu) s = .next { s with result := .rejected .outOfRange }) ∧
  (∀ s u fc c, 128 ≤ fc.toNat → exec (.rtuExceptionFrame u fc c) s = .next { s with result := .rejected .outOfRange })

/-- R223, R224: the address goes to offset 0 of both buffers and nowhere else; the checksum of address and PDU goes behind
them, low byte first, and sets the length. That a unit above 247 and a PDU length of 0 are taken as they stand is the model's
choice (log 22). -/
def Obligations.RtuSetHeadAndCrc : Prop :=
  (∀ s h u, s.cfg.params.transport = .rtu → h < s.cfg.params.poolCap →
    ∃ t, exec (.rtuSetHead h u) s = .next t ∧ OnSlot h .unit s t ∧
      readByte (slotAt t h).tx 0 = u ∧ readByte (slotAt t h).tmpl 0 = u ∧
      (∀ k, k ≠ 0 → readByte (slotAt t h).tx k = readByte (slotAt s h).tx k ∧
        readByte (slotAt t h).tmpl k = readByte (slotAt s h).tmpl k) ∧
      (slotAt t h).txlen = (slotAt s h).txlen ∧ offFrame (slotAt t h) = offFrame (slotAt s h)) ∧
  (∀ s h len, s.cfg.params.transport = .rtu → h < s.cfg.params.poolCap → len ≤ s.cfg.params.pduMax →
    ∃ t, exec (.rtuSetCrc h len) s = .next t ∧ OnSlot h .unit s t ∧
      readBytes (slotAt t h).tx (1 + len) 2 = le16 (crc (readBytes (slotAt s h).tx 0 (1 + len))) ∧
      (∀ k, k < 1 + len ∨ 1 + len + 2 ≤ k → readByte (slotAt t h).tx k = readByte (slotAt s h).tx k) ∧
      (slotAt t h).txlen = 1 + len + 2 ∧ (slotAt t h).tmpl = (slotAt s h).tmpl ∧
      offFrame (slotAt t h) = offFrame (slotAt s h))

/-- R225, R226, U11: the two checks answer a Boolean and change nothing; a frame of fewer bytes than the check reads
fails it. -/
def Obligations.RtuChecksAnswer : Prop :=
  ∀ s h, s.cfg.params.transport = .rtu → h < s.cfg.params.poolCap →
    (∃ b, exec (.rtuCheckHead h) s = .next { s with result := .bool b } ∧
      (b = true ↔ 1 ≤ (slotAt s h).rxlen ∧ readByte (slotAt s h).rx 0 = readByte (slotAt s h).tmpl 0)) ∧
    (lengthsFit s.cfg (slotAt s h) = true →
      ∃ b, exec (.rtuCheckCrc h) s = .next { s with result := .bool b } ∧
        (b = true ↔ 3 ≤ (slotAt s h).rxlen ∧
          readBytes (slotAt s h).rx ((slotAt s h).rxlen - 2) 2 =
            le16 (crc (readBytes (slotAt s h).rx 0 ((slotAt s h).rxlen - 2)))))

/-- R241, R242: `TCP_SET_MBAP` increments the transaction id modulo 2^16 and writes the seven header bytes to both buffers
and nothing else. The model's choices: a PDU length of 0 is taken as it stands (log 22); with one above `PDU_MAX` the operation
runs too, its header as the rule says where the length field has a value, and `txlen` is a free value in R23's range
(log 28). -/
def Obligations.TcpSetMbapWritesHeader : Prop :=
  (∀ s h u len, s.cfg.params.transport = .tcp → h < s.cfg.params.poolCap → len ≤ s.cfg.params.pduMax →
    ∃ t, exec (.tcpSetMbap h u len) s = .next t ∧
      t.result = .unit ∧ t.events = s.events ∧ SlotsBut h s t ∧
      t.ctx = { s.ctx with tid := s.ctx.tid + 1#16 } ∧ { offPool t with ctx := s.ctx } = offPool s ∧
      readBytes (slotAt t h).tx 0 7 =
        be16 (s.ctx.tid + 1#16) ++ be16 0#16 ++ be16 (BitVec.ofNat 16 (len + 1)) ++ [u] ∧
      readBytes (slotAt t h).tmpl 0 7 =
        be16 (s.ctx.tid + 1#16) ++ be16 0#16 ++ be16 (BitVec.ofNat 16 (len + 1)) ++ [u] ∧
      (∀ k, 7 ≤ k → readByte (slotAt t h).tx k = readByte (slotAt s h).tx k ∧
        readByte (slotAt t h).tmpl k = readByte (slotAt s h).tmpl k) ∧
      (slotAt t h).txlen = 7 + len ∧ offFrame (slotAt t h) = offFrame (slotAt s h)) ∧
  (∀ s h u len, s.cfg.params.transport = .tcp → h < s.cfg.params.poolCap → s.cfg.params.pduMax < len →
    ∃ t field, exec (.tcpSetMbap h u len) s = .next t ∧
      t.result = .unit ∧ t.events = s.events ∧ SlotsBut h s t ∧
      t.ctx = { s.ctx with tid := s.ctx.tid + 1#16 } ∧
      { offPool t with ctx := s.ctx, freeCount := s.freeCount } = offPool s ∧
      (len + 1 < 65536 → field = BitVec.ofNat 16 (len + 1)) ∧
      readBytes (slotAt t h).tx 0 7 = be16 (s.ctx.tid + 1#16) ++ be16 0#16 ++ be16 field ++ [u] ∧
      readBytes (slotAt t h).tmpl 0 7 = be16 (s.ctx.tid + 1#16) ++ be16 0#16 ++ be16 field ++ [u] ∧
      (∀ k, 7 ≤ k → readByte (slotAt t h).tx k = readByte (slotAt s h).tx k ∧
        readByte (slotAt t h).tmpl k = readByte (slotAt s h).tmpl k) ∧
      7 ≤ (slotAt t h).txlen ∧ (slotAt t h).txlen ≤ s.cfg.bufCap ∧ offFrame (slotAt t h) = offFrame (slotAt s h))

/-- R244 to R248: the header checks, the first that fails giving the answer, and the payload length; nothing changes. On
fewer bytes than the operation reads it answers too, from free bytes (log 24). -/
def Obligations.TcpChecksAnswer : Prop :=
  ∀ s h, s.cfg.params.transport = .tcp → h < s.cfg.params.poolCap →
    (7 ≤ (slotAt s h).rxlen → ∃ e, exec (.tcpCheckMbap h) s = .next { s with result := .err e } ∧
      (readBytes (slotAt s h).rx 0 2 ≠ readBytes (slotAt s h).tmpl 0 2 → e = .invalidTransactionId) ∧
      (readBytes (slotAt s h).rx 0 2 = readBytes (slotAt s h).tmpl 0 2 →
        (readBytes (slotAt s h).rx 2 2 ≠ [0#8, 0#8] → e = .invalidProtocolId) ∧
        (readBytes (slotAt s h).rx 2 2 = [0#8, 0#8] →
          (readByte (slotAt s h).rx 6 ≠ readByte (slotAt s h).tmpl 6 → e = .invalidUnitId) ∧
          (readByte (slotAt s h).rx 6 = readByte (slotAt s h).tmpl 6 → e = .ok)))) ∧
    ((slotAt s h).rxlen < 7 → ∃ e t, exec (.tcpCheckMbap h) s = .next t ∧ t.result = .err e ∧ Heard h s t ∧
      (e = .ok ∨ e = .invalidTransactionId ∨ e = .invalidProtocolId ∨ e = .invalidUnitId)) ∧
    ((slotAt s h).rxlen < 6 → ∃ r t, exec (.tcpPayloadLen h) s = .next t ∧ t.result = r ∧ Heard h s t ∧
      (r = .err .invalidLength ∨ ∃ n, 1 ≤ n ∧ n ≤ s.cfg.params.pduMax ∧ r = .length n)) ∧
    (6 ≤ (slotAt s h).rxlen → ∃ r, exec (.tcpPayloadLen h) s = .next { s with result := r } ∧
      ∀ n, n = 256 * (readByte (slotAt s h).rx 4).toNat + (readByte (slotAt s h).rx 5).toNat →
        ((n < 2 ∨ s.cfg.params.pduMax < n - 1) → r = .err .invalidLength) ∧
        (2 ≤ n → n - 1 ≤ s.cfg.params.pduMax → r = .length (n - 1)))

/-- R249: what `TCP_RECEIVE` refuses, in its order: a short header, a header of another transaction, a bad length, a short
payload; each ends the attempt with its error and no data. -/
def Obligations.TcpReceiveRefuses : Prop :=
  ∀ s h f, s.cfg.params.transport = .tcp → Awaiting s h →
    (f.length < 7 → EndsWith (.tcpReceive h f) h .invalidMbapHeader [] s) ∧
    (7 ≤ f.length →
      (f.take 2 ≠ readBytes (slotAt s h).tmpl 0 2 → EndsWith (.tcpReceive h f) h .invalidTransactionId [] s) ∧
      (f.take 2 = readBytes (slotAt s h).tmpl 0 2 →
        (slice f 2 4 ≠ [0#8, 0#8] → EndsWith (.tcpReceive h f) h .invalidProtocolId [] s) ∧
        (slice f 2 4 = [0#8, 0#8] →
          (slice f 6 7 ≠ [readByte (slotAt s h).tmpl 6] → EndsWith (.tcpReceive h f) h .invalidUnitId [] s) ∧
          (slice f 6 7 = [readByte (slotAt s h).tmpl 6] →
            ((uNbe (slice f 4 6) < 2 ∨ s.cfg.params.pduMax < uNbe (slice f 4 6) - 1) →
              EndsWith (.tcpReceive h f) h .invalidLength [] s) ∧
            (2 ≤ uNbe (slice f 4 6) → uNbe (slice f 4 6) - 1 ≤ s.cfg.params.pduMax →
              f.length < 6 + uNbe (slice f 4 6) → EndsWith (.tcpReceive h f) h .tooFewData [] s)))))

/-- R249: a header that passes every check and a whole payload are stored, and the attempt ends as `INVOKE` ends it: the
answer to an exception-status request, for one, ends it with the status byte. -/
def Obligations.TcpReceiveAccepts : Prop :=
  ∀ s h f n u, s.cfg.params.transport = .tcp → Awaiting s h → 7 + n ≤ f.length → 1 ≤ n → n ≤ s.cfg.params.pduMax →
    f.take 2 = readBytes (slotAt s h).tmpl 0 2 → slice f 2 4 = [0#8, 0#8] → uNbe (slice f 4 6) = n + 1 →
    slice f 6 7 = [readByte (slotAt s h).tmpl 6] →
    u = updSlot s h (fun x =>
      { x with rx := writeBytes (writeBytes x.rx 0 (f.take 7)) 7 (slice f 7 (7 + n)), rxlen := 7 + n }) →
    exec (.tcpReceive h f) s = exec (.invoke h) u ∧
    ((slotAt s h).err = .ok → fcOf s.cfg (slotAt s h) = 0x07#8 → (slotAt s h).explen = 9 → ∀ b,
      n = 2 → slice f 7 9 = [0x07#8, b] →
      ∃ t, exec (.tcpReceive h f) s = .next t ∧ t.result = .unit ∧ Completes h .ok [b] u t)

/-- R250: `TCP_FAIL` ends the attempt with the channel's error, one of five, and no data. -/
def Obligations.TcpFailEnds : Prop :=
  ∀ s h, s.cfg.params.transport = .tcp → Awaiting s h →
    EndsWith (.tcpFail h .responseTimeout) h .responseTimeout [] s ∧
    EndsWith (.tcpFail h .tcpSendBufferFull) h .tcpSendBufferFull [] s ∧
    EndsWith (.tcpFail h .connectionReset) h .connectionReset [] s ∧
    EndsWith (.tcpFail h .connectionRefused) h .connectionRefused [] s ∧
    EndsWith (.tcpFail h .noClientForSlave) h .noClientForSlave [] s

/-- R255: `SB_ADD` takes the lowest free position and stamps the sent-time; with none free it answers false and changes
nothing, whatever the handle (the order of that test and the handle's precondition is the model's reading, log 19). -/
def Obligations.SentBufferAdd : Prop :=
  (∀ s h i, s.cfg.params.transport = .tcp → h < s.cfg.params.poolCap → (slotAt s h).inuse = true → held s h = false →
    i < s.cfg.params.sentCap → cellAt none s.sb i = none → (∀ k, k < i → cellAt none s.sb k ≠ none) →
    ∃ t, exec (.sbAdd h) s = .next t ∧ t.result = .bool true ∧ t.events = s.events ∧
      (∀ k, cellAt none t.sb k = if k = i then some h else cellAt none s.sb k) ∧
      slotAt t h = { slotAt s h with stime := s.nowMs } ∧ SlotsBut h s t ∧
      { offPool t with sb := s.sb } = offPool s) ∧
  (∀ s h, s.cfg.params.transport = .tcp → (∀ k, k < s.cfg.params.sentCap → cellAt none s.sb k ≠ none) →
    exec (.sbAdd h) s = .next { s with result := .bool false })

/-- R256, R257, R258: `SB_READ` and `SB_READ_NEXT_TIMEOUT` answer the handle at the lowest position that matches and free
exactly that position; with none they change nothing. -/
def Obligations.SentBufferTake : Prop :=
  ∀ s (op : Instr) (hit : Nat → Prop), s.cfg.params.transport = .tcp →
    ((∃ tid, op = .sbRead tid ∧ ∀ h, hit h ↔ readBytes (slotAt s h).tx 0 2 = be16 tid) ∨
     (∃ lim, op = .sbReadNextTimeout lim ∧ ∀ h, hit h ↔ lim ≤ since s s.nowMs (slotAt s h).stime)) →
    (∀ i h, i < s.cfg.params.sentCap → cellAt none s.sb i = some h → hit h →
      (∀ k g, k < i → cellAt none s.sb k = some g → ¬ hit g) →
      ∃ t, exec op s = .next t ∧ t.result = .handle (some h) ∧ t.events = s.events ∧
        (∀ k, cellAt none t.sb k = if k = i then none else cellAt none s.sb k) ∧ offSent t = offSent s) ∧
    ((∀ i h, i < s.cfg.params.sentCap → cellAt none s.sb i = some h → ¬ hit h) →
      exec op s = .next { s with result := .handle none })

/-! ### SlaveSets -/

/-- R271 to R274: the four operations on membership, for a host's set and for one embedded in a slot: addresses above 247
are ignored, an empty range changes nothing, the cursor and the delays stay, and so does everything else. -/
def Obligations.SlaveSetMembership : Prop :=
  ∀ s r lo hi (op : Instr) (add : Bool), (∀ h, r = SsRef.slot h → h < s.cfg.params.poolCap) →
    ((op = .ssSet r lo ∧ hi = lo ∧ add = true) ∨ (op = .ssSetRange r lo hi ∧ add = true) ∨
     (op = .ssRemove r lo ∧ hi = lo ∧ add = false) ∨ (op = .ssRemoveRange r lo hi ∧ add = false)) →
    ∃ t, exec op s = .next t ∧ t.result = .unit ∧ t.events = s.events ∧
      (∀ a, member (ssAt t r) a =
        if lo.toNat ≤ a ∧ a ≤ hi.toNat ∧ a ≤ 247 then add else member (ssAt s r) a) ∧
      { ssAt t r with bits := (ssAt s r).bits } = ssAt s r ∧
      (∀ r', r' ≠ r → ssAt t r' = ssAt s r') ∧ (∀ h, offSet (slotAt t h) = offSet (slotAt s h)) ∧ offSets t = offSets s

/-- R275, R276: `SS_CLEAR` and `SS_SET_DELAYS` write their fields of one set and nothing else. `SS_SET_DELAYS` is an operation
the spec marks as its own (D12). -/
def Obligations.SlaveSetClearAndDelays : Prop :=
  ∀ s r, (∀ h, r = SsRef.slot h → h < s.cfg.params.poolCap) →
    (∃ t, exec (.ssClear r) s = .next t ∧ t.result = .unit ∧ t.events = s.events ∧
      ssAt t r = { bits := 0#256, active := .start, itemDelay := 0, repeatDelay := -1 } ∧
      (∀ r', r' ≠ r → ssAt t r' = ssAt s r') ∧ (∀ h, offSet (slotAt t h) = offSet (slotAt s h)) ∧
      offSets t = offSets s) ∧
    (∀ i d, ∃ t, exec (.ssSetDelays r i d) s = .next t ∧ t.result = .unit ∧ t.events = s.events ∧
      ssAt t r = { ssAt s r with itemDelay := i, repeatDelay := d } ∧
      (∀ r', r' ≠ r → ssAt t r' = ssAt s r') ∧ (∀ h, offSet (slotAt t h) = offSet (slotAt s h)) ∧
      offSets t = offSets s)

/-- R277, R278, R279, R280: the scan. `SS_PEEK` answers it and changes nothing; `SS_GET_NEXT` answers it and moves the
cursor there, and changes nothing else. -/
def Obligations.SlaveSetScan : Prop :=
  ∀ s r, (∀ h, r = SsRef.slot h → h < s.cfg.params.poolCap) →
    ∃ n, NextIs (ssAt s r) n ∧
      exec (.ssPeek r) s = .next { s with result := .cursor (cursorOf n) } ∧
      ∃ t, exec (.ssGetNext r) s = .next t ∧ t.result = .cursor (cursorOf n) ∧ t.events = s.events ∧
        ssAt t r = { ssAt s r with active := cursorOf n } ∧
        (∀ r', r' ≠ r → ssAt t r' = ssAt s r') ∧ (∀ h, offSet (slotAt t h) = offSet (slotAt s h)) ∧ offSets t = offSets s

/-- R282 to R284: `REPEAT_IF_NEEDED` releases the slot or re-arms it for its next target; a re-arm that finds the queue full
ends in a `Done` QUEUE_FULL (its element size is the model's, log 17). A delay that fits `W_TIME` bits is stored, a longer one
is held as never reached (the model's form of R428, log 8). -/
def Obligations.RepeatReleasesOrRearms : Prop :=
  ∀ s h, Awaiting s h → ∃ t, exec (.repeatIfNeeded h) s = .next t ∧ t.result = .unit ∧ Repeats h s.events s t

/-! ### The queue -/

/-- R301: `Q_ADD` appends at the end and stamps nothing; without a handle, or when full, it answers false and changes
nothing, whatever the handle (the order of that test and the handle's precondition is the model's reading, log 19). R302, R303:
`Q_PEEK` answers the head and changes nothing; `Q_READ` answers it and takes it out; on an empty queue
both answer none and change nothing. -/
def Obligations.QueueIsFifo : Prop :=
  (∀ s h, QueueOk s → s.q.count < s.cfg.params.queueCap → h < s.cfg.params.poolCap → (slotAt s h).inuse = true →
    held s h = false →
    ∃ t, exec (.qAdd (some h)) s = .next t ∧ t.result = .bool true ∧ t.events = s.events ∧
      qContent t = qContent s ++ [some h] ∧ offQueue t = offQueue s) ∧
  (∀ s, exec (.qAdd none) s = .next { s with result := .bool false }) ∧
  (∀ s h, s.q.count = s.cfg.params.queueCap → exec (.qAdd (some h)) s = .next { s with result := .bool false }) ∧
  (∀ s h rest, QueueOk s → qContent s = some h :: rest →
    exec .qPeek s = .next { s with result := .handle (some h) } ∧
    ∃ t, exec .qRead s = .next t ∧ t.result = .handle (some h) ∧ t.events = s.events ∧ qContent t = rest ∧
      offQueue t = offQueue s) ∧
  (∀ s, qContent s = [] →
    exec .qPeek s = .next { s with result := .handle none } ∧ exec .qRead s = .next { s with result := .handle none })

/-- R304 to R307, R309: `Q_READ_READY` answers the ready transaction of smallest delay, the first such from the head, and
takes it out in the configured way; it answers none exactly when none is ready, and then nothing changes; `Q_HAS_READY`
answers whether one is ready and changes nothing. -/
def Obligations.QueueSelectsReady : Prop :=
  ∀ s, QueueOk s →
    (∀ j h, Wins s j h →
      exec .qHasReady s = .next { s with result := .bool true } ∧
      ∃ t, exec .qReadReady s = .next t ∧ t.result = .handle (some h) ∧ t.events = s.events ∧
        qContent t = without s.cfg.params.removeMode (qContent s) j ∧ offQueue t = offQueue s) ∧
    ((∀ i h, ¬ ReadyAt s i h) →
      exec .qHasReady s = .next { s with result := .bool false } ∧
      exec .qReadReady s = .next { s with result := .handle none }) ∧
    ((∃ i h, ReadyAt s i h) → ∃ j h, Wins s j h)

/-- R308: `Q_CLEAR` releases every queued transaction, without an event, and resets the indices; other slots stay. -/
def Obligations.QueueClearReleases : Prop :=
  ∀ s, QueueOk s → ∃ t, exec .qClear s = .next t ∧ t.result = .unit ∧ t.events = s.events ∧
    (∀ i, cellAt none t.q.arr i = none) ∧ t.q.head = 0 ∧ t.q.tail = 0 ∧ t.q.count = 0 ∧
    (∀ h, some h ∈ qContent s → slotAt t h = Slot.cleared) ∧
    (∀ h, some h ∉ qContent s → slotAt t h = slotAt s h) ∧
    { offQueue t with pool := s.pool } = offQueue s

/-! ### Builds -/

/-- R150, R151 (R108, R109): a read of coils or of discrete inputs within its limits is queued. -/
def Obligations.BuildReadBits : Prop :=
  ∀ s h target a q handler, CanBuild s h target → 1 ≤ q → q ≤ 2000 → a.toNat + q ≤ 65536 →
    2 + ceil8 q ≤ s.cfg.params.pduMax →
    (∃ t, exec (.rdCoils target a q handler) s = .next t ∧
      Built s t h target handler ([0x01#8] ++ be16 a ++ be16 (BitVec.ofNat 16 q)) [0x01#8, BitVec.ofNat 8 (ceil8 q)]
        (2 + ceil8 q) 1) ∧
    (∃ t, exec (.rdDiscrete target a q handler) s = .next t ∧
      Built s t h target handler ([0x02#8] ++ be16 a ++ be16 (BitVec.ofNat 16 q)) [0x02#8, BitVec.ofNat 8 (ceil8 q)]
        (2 + ceil8 q) 1)

/-- R152, R153 (R110, R111): a read of `n` elements of `es` bytes from holding or input registers within its limits is
queued, with the quantity of registers the elements occupy. -/
def Obligations.BuildReadRegisters : Prop :=
  ∀ s h target a n es q handler, CanBuild s h target → 1 ≤ es → es ≤ s.cfg.params.esMax → n * ts es = 2 * q →
    1 ≤ q → q ≤ 125 → a.toNat + q ≤ 65536 → 2 + 2 * q ≤ s.cfg.params.pduMax →
    (∃ t, exec (.rdHolding target a n es handler) s = .next t ∧
      Built s t h target handler ([0x03#8] ++ be16 a ++ be16 (BitVec.ofNat 16 q)) [0x03#8, BitVec.ofNat 8 (2 * q)]
        (2 + 2 * q) es) ∧
    (∃ t, exec (.rdInput target a n es handler) s = .next t ∧
      Built s t h target handler ([0x04#8] ++ be16 a ++ be16 (BitVec.ofNat 16 q)) [0x04#8, BitVec.ofNat 8 (2 * q)]
        (2 + 2 * q) es)

/-- R154 to R158, R161 (R112 to R115, R118): a write of one coil or one register, a mask write, the exception-status
request and a diagnostics request with any sub-function pass every argument check and are queued. -/
def Obligations.BuildWithoutLimits : Prop :=
  ∀ s h target a handler, CanBuild s h target →
    (∀ on, ∃ t, exec (.wrCoil target a on handler) s = .next t ∧
      Built s t h target handler ([0x05#8] ++ be16 a ++ be16 (if on then 0xFF00#16 else 0x0000#16))
        ([0x05#8] ++ be16 a ++ be16 (if on then 0xFF00#16 else 0x0000#16)) 5 1) ∧
    (∀ v, ∃ t, exec (.wrReg target a v handler) s = .next t ∧
      Built s t h target handler ([0x06#8] ++ be16 a ++ be16 v) ([0x06#8] ++ be16 a ++ be16 v) 5 1) ∧
    (∀ am om, ∃ t, exec (.maskWr target a am om handler) s = .next t ∧
      Built s t h target handler ([0x16#8] ++ be16 a ++ be16 am ++ be16 om) ([0x16#8] ++ be16 a ++ be16 am ++ be16 om)
        7 1) ∧
    (∃ t, exec (.rdExcStatus target handler) s = .next t ∧ Built s t h target handler [0x07#8] [0x07#8] 2 1) ∧
    (∀ sub data, ∃ t, exec (.diag target sub data handler) s = .next t ∧
      Built s t h target handler ([0x08#8] ++ be16 sub ++ be16 data) ([0x08#8] ++ be16 sub) 5 2)

/-- R159, R121 (R116): a write of coils within its limits is queued; coil `i` is bit `i mod 8` of data byte `i div 8`, and
the bits above the last coil are 0. -/
def Obligations.BuildWriteCoils : Prop :=
  ∀ s h target a bits handler, CanBuild s h target → 1 ≤ bits.length → bits.length ≤ 1968 →
    a.toNat + bits.length ≤ 65536 → 6 + ceil8 bits.length ≤ s.cfg.params.pduMax →
    ∃ t packed, exec (.wrCoils target a bits handler) s = .next t ∧
      packed.length = ceil8 bits.length ∧
      (∀ j i, i < 8 → j < ceil8 bits.length → ∀ b, packed[j]? = some b → b.getLsbD i = (bits[8 * j + i]?).getD false) ∧
      Built s t h target handler
        ([0x0F#8] ++ be16 a ++ be16 (BitVec.ofNat 16 bits.length) ++ [BitVec.ofNat 8 (ceil8 bits.length)] ++ packed)
        ([0x0F#8] ++ be16 a ++ be16 (BitVec.ofNat 16 bits.length)) 5 1

/-- R160 (R117, R206): a write of elements of `es` bytes to registers within its limits is queued, each value as its
big-endian image; nothing is said of the bytes of a value outside its type (log 27). -/
def Obligations.BuildWriteRegisters : Prop :=
  ∀ s h target a es vals q handler, CanBuild s h target → 1 ≤ es → es ≤ s.cfg.params.esMax →
    vals.length * ts es = 2 * q → 1 ≤ q → q ≤ 123 → a.toNat + q ≤ 65536 → 6 + 2 * q ≤ s.cfg.params.pduMax →
    ∃ t data, exec (.wrRegs target a es vals handler) s = .next t ∧ Encoded es vals data ∧
      Built s t h target handler
        ([0x10#8] ++ be16 a ++ be16 (BitVec.ofNat 16 q) ++ [BitVec.ofNat 8 (2 * q)] ++ data)
        ([0x10#8] ++ be16 a ++ be16 (BitVec.ofNat 16 q)) 5 es

/-- R162 (R119, R206): a read and write of registers within its limits is queued, each value as its big-endian image;
nothing is said of the bytes of a value outside its type (log 27). -/
def Obligations.BuildReadWriteRegisters : Prop :=
  ∀ s h target ra rn rq wa es vals wq handler, CanBuild s h target → 1 ≤ es →
    es ≤ s.cfg.params.esMax → rn * ts es = 2 * rq → vals.length * ts es = 2 * wq → 1 ≤ rq → rq ≤ 125 → 1 ≤ wq →
    wq ≤ 121 → ra.toNat + rq ≤ 65536 → wa.toNat + wq ≤ 65536 → 10 + 2 * wq ≤ s.cfg.params.pduMax →
    2 + 2 * rq ≤ s.cfg.params.pduMax →
    ∃ t data, exec (.rwRegs target ra rn wa es vals handler) s = .next t ∧ Encoded es vals data ∧
      Built s t h target handler
        ([0x17#8] ++ be16 ra ++ be16 (BitVec.ofNat 16 rq) ++ be16 wa ++ be16 (BitVec.ofNat 16 wq) ++
          [BitVec.ofNat 8 (2 * wq)] ++ data)
        [0x17#8, BitVec.ofNat 8 (2 * rq)] (2 + 2 * rq) es

/-- R141, R142: a build that gets no slot (a function code outside the twelve; for the twelve, a pool all in use) answers
none, emits one `Done` without a slot (its element size is the model's, log 17), and changes nothing. A `BUILD_RAW` for one of
the twelve is rejected (the model's choice, log 22). -/
def Obligations.BuildWithoutSlot : Prop :=
  (∀ s target fc handler, supportedCode fc = false →
    exec (.buildRaw fc target handler) s = .next { s with
      result := .handle none,
      events := s.events ++ [.done (some handler)
        { slot := none, err := .notSupported, fc := fc, unit := targetUnit target, esize := 1, data := [] }] }) ∧
  (∀ s target fc handler, supportedCode fc = true →
    exec (.buildRaw fc target handler) s = .next { s with result := .rejected .outOfRange }) ∧
  (∀ s i target fc handler, IsBuild target handler fc i →
    (∀ h, h < s.cfg.params.poolCap → (slotAt s h).inuse = true) →
    exec i s = .next { s with
      result := .handle none,
      events := s.events ++ [.done (some handler)
        { slot := none, err := .poolExhausted, fc := fc, unit := targetUnit target, esize := 1, data := [] }] })

/-- R143, R149: every build refuses a target that fails its check before it looks at its arguments (the element size of
the record is the model's, log 17). -/
def Obligations.BuildRefusesTarget : Prop :=
  ∀ s h i target fc handler, IsBuild target handler fc i → Lowest s h → ¬ TargetOk s target →
    ∃ t, exec i s = .next t ∧ BuildFailed s t h target handler fc (targetError target) ∧ offPool t = offPool s

/-- R144 to R147, R149: the argument checks of the seven builds that have any, the first that fails giving the error:
element shape, quantity, address range, size (the element size of the record is the model's, log 17). -/
def Obligations.BuildRefusesArguments : Prop :=
  ∀ s h i target fc handler shape quantity address size, CfgOk s → Lowest s h → TargetOk s target →
    BuildArgs s.cfg target handler fc i shape quantity address size →
    (¬ shape → ∃ t, exec i s = .next t ∧ BuildFailed s t h target handler fc .invalidArgument ∧ offPool t = offPool s) ∧
    (shape → ¬ quantity →
      ∃ t, exec i s = .next t ∧ BuildFailed s t h target handler fc .invalidQuantity ∧ offPool t = offPool s) ∧
    (shape → quantity → ¬ address →
      ∃ t, exec i s = .next t ∧ BuildFailed s t h target handler fc .invalidAddress ∧ offPool t = offPool s) ∧
    (shape → quantity → address → ¬ size →
      ∃ t, exec i s = .next t ∧ BuildFailed s t h target handler fc .tooManyData ∧ offPool t = offPool s)

/-- R140 step 8, R149: a build that an empty queue would have taken fails with QUEUE_FULL when the queue is full; a TCP
build has used up a transaction id by then (log 17). -/
def Obligations.BuildFindsQueueFull : Prop :=
  ∀ s h i t₀ target fc handler, CfgOk s → IsBuild target handler fc i → s.q.count = s.cfg.params.queueCap →
    exec i { s with q := { arr := [], head := 0, tail := 0, count := 0 } } = .next t₀ → t₀.result = .handle (some h) →
    ∃ t, exec i s = .next t ∧ BuildFailed s t h target handler fc .queueFull ∧
      t.ctx = { s.ctx with tid := nextTid s } ∧ { offPool t with ctx := s.ctx } = offPool s

/-! ### Responses -/

/-- R187, R188 (R185, R121): a coil or discrete-input response: a byte count that is not the template's ends with
INVALID_BYTE_LENGTH; the right one ends without error, the data bytes as received. On a response shorter than its byte count
the bytes that were not received are free (log 24); a window past the buffer stops (R80, U12). With a byte count that is
missing the attempt ends in one of these ways. -/
def Obligations.ResponseReadBits : Prop :=
  ∀ s h op, Awaiting s h → (op = Instr.rspRdCoils h ∨ op = Instr.rspRdDiscrete h) →
    (∀ c b, (pduRx s.cfg (slotAt s h))[1]? = some c → (tmplPdu s.cfg (slotAt s h))[1]? = some b →
      (c ≠ b → EndsWith op h .invalidByteLength [] s) ∧
      (c = b → 2 + c.toNat ≤ (pduRx s.cfg (slotAt s h)).length →
        EndsWith op h .ok (slice (pduRx s.cfg (slotAt s h)) 2 (2 + c.toNat)) s) ∧
      (c = b → s.cfg.hdr + 2 + c.toNat ≤ s.cfg.bufCap →
        ∃ w, Exposed s h (s.cfg.hdr + 2) c.toNat w ∧ EndsWith op h .ok w s) ∧
      (c = b → s.cfg.bufCap < s.cfg.hdr + 2 + c.toNat → exec op s = .fault .bufferBound)) ∧
    ((pduRx s.cfg (slotAt s h)).length < 2 ∨ (slotAt s h).tmpllen < 2 →
      EndsWith op h .invalidByteLength [] s ∨
      (∃ n w, Exposed s h (s.cfg.hdr + 2) n w ∧ EndsWith op h .ok w s) ∨ exec op s = .fault .bufferBound)

/-- R189, R190, R198 (R185, R204, R205): a register response: the byte count as above, then the data normalised, or the
normaliser's error. With a byte count that is missing (a free value, log 24) the attempt still ends, with one of the errors of
these operations or none. -/
def Obligations.ResponseReadRegisters : Prop :=
  ∀ s h op, Awaiting s h → (op = Instr.rspRdHolding h ∨ op = Instr.rspRdInput h ∨ op = Instr.rspRwRegs h) →
    (∀ c b, (pduRx s.cfg (slotAt s h))[1]? = some c → (tmplPdu s.cfg (slotAt s h))[1]? = some b →
      (c ≠ b → EndsWith op h .invalidByteLength [] s) ∧
      (c = b → ∀ raw, raw.length = c.toNat →
        (∀ k, k < c.toNat → raw[k]? = some (readByte (slotAt s h).rx (s.cfg.hdr + 2 + k))) →
        EndsNormalised op h raw (2 + c.toNat ≤ (pduRx s.cfg (slotAt s h)).length) s)) ∧
    (CfgOk s → (pduRx s.cfg (slotAt s h)).length < 2 ∨ (slotAt s h).tmpllen < 2 →
      ∃ e w, EndsWith op h e w s ∧ (e = .invalidByteLength ∨ e = .invalidArgument ∨ e = .bufferTooSmall ∨ e = .ok))

/-- R191, R192, R195, R196, R197 (R186): the write responses echo their fields in PDU order, the first that differs giving
its error; all echoed, the attempt ends without error and without data. On a response or a template too short for its fields
(the missing bytes are free, log 24) the attempt still ends, with one of these errors or none and without data. -/
def Obligations.ResponseEchoes : Prop :=
  (∀ s h op, Awaiting s h →
    (op = Instr.rspWrCoil h ∨ op = Instr.rspWrReg h ∨ op = Instr.rspWrCoils h ∨ op = Instr.rspWrRegs h ∨
      op = Instr.rspMaskWr h) →
    ∃ e, EndsWith op h e [] s ∧ (e = .invalidAddress ∨ e = .invalidData ∨ e = .invalidQuantity ∨ e = .ok)) ∧
  ∀ s h (same : Nat → Prop), Awaiting s h → 5 ≤ (pduRx s.cfg (slotAt s h)).length → 5 ≤ (slotAt s h).tmpllen →
    (∀ k, same k ↔ slice (pduRx s.cfg (slotAt s h)) k (k + 2) = slice (tmplPdu s.cfg (slotAt s h)) k (k + 2)) →
    (∀ op, (op = Instr.rspWrCoil h ∨ op = Instr.rspWrReg h) →
      (¬ same 1 → EndsWith op h .invalidAddress [] s) ∧ (same 1 → ¬ same 3 → EndsWith op h .invalidData [] s) ∧
      (same 1 → same 3 → EndsWith op h .ok [] s)) ∧
    (∀ op, (op = Instr.rspWrCoils h ∨ op = Instr.rspWrRegs h) →
      (¬ same 1 → EndsWith op h .invalidAddress [] s) ∧ (same 1 → ¬ same 3 → EndsWith op h .invalidQuantity [] s) ∧
      (same 1 → same 3 → EndsWith op h .ok [] s)) ∧
    (7 ≤ (pduRx s.cfg (slotAt s h)).length → 7 ≤ (slotAt s h).tmpllen →
      (¬ same 1 → EndsWith (.rspMaskWr h) h .invalidAddress [] s) ∧
      (same 1 → ¬ (same 3 ∧ same 5) → EndsWith (.rspMaskWr h) h .invalidData [] s) ∧
      (same 1 → same 3 → same 5 → EndsWith (.rspMaskWr h) h .ok [] s))

/-- R193, R194: the exception-status byte is the data; a diagnostics response echoes its sub-function and exposes its two
data bytes, normalised. On a response or a template too short for that (the missing bytes are free, log 24) the attempt still
ends. -/
def Obligations.ResponseStatusAndDiagnostics : Prop :=
  ∀ s h, Awaiting s h →
    (∀ b, (pduRx s.cfg (slotAt s h))[1]? = some b → EndsWith (.rspRdExcStatus h) h .ok [b] s) ∧
    (CfgOk s → (∃ w, Exposed s h (s.cfg.hdr + 1) 1 w ∧ EndsWith (.rspRdExcStatus h) h .ok w s) ∧
      (∃ e w, EndsWith (.rspDiag h) h e w s ∧
        (e = .invalidSubfunction ∨ e = .invalidArgument ∨ e = .bufferTooSmall ∨ e = .ok))) ∧
    (3 ≤ (pduRx s.cfg (slotAt s h)).length → 3 ≤ (slotAt s h).tmpllen →
      (slice (pduRx s.cfg (slotAt s h)) 1 3 ≠ slice (tmplPdu s.cfg (slotAt s h)) 1 3 →
        EndsWith (.rspDiag h) h .invalidSubfunction [] s) ∧
      (slice (pduRx s.cfg (slotAt s h)) 1 3 = slice (tmplPdu s.cfg (slotAt s h)) 1 3 →
        EndsNormalised (.rspDiag h) h (readBytes (slotAt s h).rx (s.cfg.hdr + 3) 2)
          (5 ≤ (pduRx s.cfg (slotAt s h)).length) s))

/-- R181, R182, R183, R371, R373: an exception response ends with its code, 1 to 10, with INVALID_EXCEPTION_CODE for any
other code, and with TOO_MANY_DATA when it is longer than two bytes; the two fall-through arms end with their errors. A code
that was not received is a free value (log 24): the attempt ends with one of the two kinds of error. -/
def Obligations.ResponseExceptionAndFallThrough : Prop :=
  ∀ s h, Awaiting s h →
    (2 < (pduRx s.cfg (slotAt s h)).length → EndsWith (.rspException h) h .tooManyData [] s) ∧
    (∀ p c, pduRx s.cfg (slotAt s h) = [p, c] →
      (1 ≤ c.toNat → c.toNat ≤ 10 → EndsWith (.rspException h) h (.protocol c) [] s) ∧
      (c.toNat = 0 ∨ 11 ≤ c.toNat → EndsWith (.rspException h) h .invalidExceptionCode [] s)) ∧
    ((pduRx s.cfg (slotAt s h)).length < 2 →
      ∃ e, EndsWith (.rspException h) h e [] s ∧
        (e = .invalidExceptionCode ∨ ∃ c : Byte, 1 ≤ c.toNat ∧ c.toNat ≤ 10 ∧ e = .protocol c)) ∧
    EndsWith (.rspWrongFunction h) h .invalidFunction [] s ∧
    EndsWith (.rspNotSupported h) h .notSupported [] s

/-- R180 steps 1 to 3b, R377: what `INVOKE` decides before it looks at a function code's own fields, in its order. -/
def Obligations.InvokeGuards : Prop :=
  ∀ s h x p, Awaiting s h → x = slotAt s h → p = pduRx s.cfg x →
    (x.err ≠ .ok → EndsWith (.invoke h) h x.err [] s) ∧
    (x.err = .ok →
      (p.length < 2 → EndsWith (.invoke h) h .tooFewData [] s) ∧
      (∀ b rest, p = b :: rest → 1 ≤ rest.length →
        (b.toNat = (fcOf s.cfg x).toNat + 0x80 → exec (.invoke h) s = exec (.rspException h) s) ∧
        (b.toNat ≠ (fcOf s.cfg x).toNat + 0x80 →
          (b ≠ fcOf s.cfg x → exec (.invoke h) s = exec (.rspWrongFunction h) s) ∧
          (b = fcOf s.cfg x →
            (s.cfg.hdr + p.length + s.cfg.trl < x.explen → EndsWith (.invoke h) h .tooFewData [] s) ∧
            (x.explen < s.cfg.hdr + p.length + s.cfg.trl → EndsWith (.invoke h) h .tooManyData [] s)))))

/-- R180 step 4: past its guards `INVOKE` ends the attempt as the response arm of the request's function code does; the
last arm takes every other code (R183). An exception-status response, for one, ends it with the status byte. -/
def Obligations.InvokeDispatches : Prop :=
  ∀ s h rest, Awaiting s h → (slotAt s h).err = .ok →
    pduRx s.cfg (slotAt s h) = fcOf s.cfg (slotAt s h) :: rest → 1 ≤ rest.length →
    (slotAt s h).explen = s.cfg.hdr + (1 + rest.length) + s.cfg.trl →
    (∀ b, fcOf s.cfg (slotAt s h) = 0x07#8 → rest = [b] → EndsWith (.invoke h) h .ok [b] s) ∧
    exec (.invoke h) s =
      match (fcOf s.cfg (slotAt s h)).toNat with
      | 0x01 => exec (.rspRdCoils h) s
      | 0x02 => exec (.rspRdDiscrete h) s
      | 0x03 => exec (.rspRdHolding h) s
      | 0x04 => exec (.rspRdInput h) s
      | 0x05 => exec (.rspWrCoil h) s
      | 0x06 => exec (.rspWrReg h) s
      | 0x07 => exec (.rspRdExcStatus h) s
      | 0x08 => exec (.rspDiag h) s
      | 0x0F => exec (.rspWrCoils h) s
      | 0x10 => exec (.rspWrRegs h) s
      | 0x16 => exec (.rspMaskWr h) s
      | 0x17 => exec (.rspRwRegs h) s
      | _ => exec (.rspNotSupported h) s

/-- R204, R205: `NORMALIZE` on a slot: the window is replaced in place by its elements in host order and shortened by the
padding; outside the old window no byte changes. Its guards' errors end the attempt with no data, wherever the window
lies, past the buffer included; on a slot that may not end, that is refused (log 10). The bytes the padding frees are free values (log 4): nothing is said of them. -/
def Obligations.NormalizeRewritesWindow : Prop :=
  ∀ s h x, h < s.cfg.params.poolCap → x = slotAt s h → lengthsFit s.cfg x = true →
    (x.esize ≤ s.cfg.params.esMax → x.winOff + x.winLen + s.cfg.trl ≤ x.rxlen → x.winLen % ts x.esize = 0 →
      ∃ t, exec (.normalize h) s = .next t ∧ t.result = .unit ∧ t.events = s.events ∧
        Normalised s.ctx.bigEndian x.esize (dataOf x) (dataOf (slotAt t h)) ∧
        (∀ k, k < x.winOff ∨ x.winOff + x.winLen ≤ k → readByte (slotAt t h).rx k = readByte x.rx k) ∧
        offWindow (slotAt t h) = offWindow x ∧ SlotsBut h s t ∧
        { offPool t with freeCount := s.freeCount } = offPool s) ∧
    (s.cfg.params.esMax < x.esize ∨ x.rxlen < x.winOff + x.winLen + s.cfg.trl ∨ x.winLen % ts x.esize ≠ 0 →
      (detached s h = true → QueueOk s → s.cfg.hdr + s.cfg.trl < x.txlen →
        EndsWith (.normalize h) h (if s.cfg.params.esMax < x.esize then .invalidArgument else .bufferTooSmall) [] s) ∧
      (detached s h = false → exec (.normalize h) s = .next { s with result := .rejected .handleNotFree }))

/-- R207: the element accessor gives the big-endian value of the element's bytes on the wire, without padding, under
either host order; and the values that were encoded (R206) come back. -/
def Obligations.ElementsReadBack : Prop :=
  ∀ be es (raw w : List Byte) k, 1 ≤ es → Normalised be es raw w → k < raw.length / ts es →
    elemOf be es w k = uNbe (slice raw (k * ts es + (ts es - es)) ((k + 1) * ts es)) ∧
    ∀ vals : List Nat, raw = vals.flatMap (fun v => beN v (ts es)) → (∀ v ∈ vals, v < 256 ^ es) →
      vals[k]? = some (elemOf be es w k)

/-- R206, R203: `ENCODE_ELEMS` answers the concatenation of the big-endian images, each of the transport size, and changes
nothing. Nothing is said of the size of an element of no bytes (log 26) or of the image of a value outside its type (log 27). -/
def Obligations.EncodeElementsAnswers : Prop :=
  ∀ s es vals, ∃ l, exec (.encodeElems es vals) s = .next { s with result := .bytes l } ∧
    (1 ≤ es → l.length = vals.length * (if es ≤ 2 then es else es + es % 2)) ∧
    ∀ k v, 1 ≤ es → vals[k]? = some v → v < 256 ^ es →
      uNbe (slice l (k * (if es ≤ 2 then es else es + es % 2)) ((k + 1) * (if es ≤ 2 then es else es + es % 2))) = v

/-- R208, R33: `SET_BIG_ENDIAN` writes the byte-order flag and nothing else. -/
def Obligations.SetBigEndianWritesFlag : Prop :=
  ∀ s b, exec (.setBigEndian b) s =
    .next { s with ctx := { bigEndian := b, tid := s.ctx.tid }, result := .unit }

/-! ### The engine and the whole block -/

/-- R390: `CLEAR_ALL` releases every slot in use, empties the containers, puts an RTU engine in `IDLE`, emits nothing, and
keeps the configuration, the context, the clock and the bytes waiting. -/
def Obligations.ClearAllReleasesAll : Prop :=
  ∀ s, QueueOk s → ContainersOk s → Canonical s → ∃ t, exec .clearAll s = .next t ∧ t.result = .unit ∧ t.events = s.events ∧
    (∀ h, h < s.cfg.params.poolCap → (slotAt s h).inuse = true → slotAt t h = Slot.cleared) ∧
    (∀ h, (slotAt s h).inuse = false → slotAt t h = slotAt s h) ∧
    (∀ i, cellAt none t.q.arr i = none) ∧ t.q.head = 0 ∧ t.q.tail = 0 ∧ t.q.count = 0 ∧
    (∀ i, cellAt none t.sb i = none) ∧ t.eng.pending = none ∧
    (s.cfg.params.transport = .rtu →
      t.eng.state = .idle ∧ t.eng.idleT = s.nowUs ∧ t.eng.byteT = s.eng.byteT) ∧
    t.cfg = s.cfg ∧ t.ctx = s.ctx ∧ t.serial = s.serial ∧ t.clockMs = s.clockMs ∧ t.clockUs = s.clockUs ∧
    t.hostSets = s.hostSets ∧ t.host = s.host ∧ t.freeCount = s.freeCount

/-- R324, R325, R334: the ticks that neither send nor receive: draining, waiting for silence, an empty queue, a queue with
nothing ready. -/
def Obligations.TickWaits : Prop :=
  ∀ s, s.cfg.params.transport = .rtu →
    (s.eng.state = .bufferClear →
      (s.serial ≠ [] →
        exec .tick s = .next { s with result := .unit, serial := [], eng := { s.eng with idleT := s.nowUs } }) ∧
      (s.serial = [] → since s s.nowUs s.eng.idleT < s.cfg.frameToUs →
        exec .tick s = .next { s with result := .unit }) ∧
      (s.serial = [] → s.cfg.frameToUs ≤ since s s.nowUs s.eng.idleT →
        exec .tick s = .next { s with result := .unit, eng := { s.eng with state := .idle } })) ∧
    (s.eng.state = .idle →
      (s.q.count = 0 →
        exec .tick s = .next
          { s with result := .unit, eng := { s.eng with idleT := since s s.nowUs s.cfg.frameToUs } }) ∧
      (s.q.count ≠ 0 → since s s.nowUs s.eng.idleT < s.cfg.frameToUs →
        exec .tick s = .next { s with result := .unit }) ∧
      (QueueOk s → s.q.count ≠ 0 → s.cfg.frameToUs ≤ since s s.nowUs s.eng.idleT → (∀ i h, ¬ ReadyAt s i h) →
        exec .tick s = .next { s with result := .unit }))

/-- R325, R326, R306: after a frame timeout of silence the tick sends the winner's whole frame between `TxBegin` and
`TxEnd`; a frame to address 0 then ends its attempt at once, any other is awaited. -/
def Obligations.TickTransmits : Prop :=
  ∀ s j h, Sound s → s.cfg.params.transport = .rtu → s.eng.state = .idle →
    s.cfg.frameToUs ≤ since s s.nowUs s.eng.idleT → Wins s j h → s.cfg.hdr + s.cfg.trl < (slotAt s h).txlen →
    (slotAt s h).winLen = 0 →
    ∃ m t, exec .tick s = .next t ∧ t.result = .unit ∧ Sent s m j h ∧
      (readByte (slotAt s h).tx 0 = 0#8 → Completes h .ok [] m t) ∧
      (readByte (slotAt s h).tx 0 ≠ 0#8 →
        t.events = m.events ∧ slotAt t h = { slotAt m h with rxlen := 0, exc := false } ∧ SlotsBut h m t ∧
        t.eng = { m.eng with pending := some h, byteT := s.nowUs, state := .receive } ∧
        { offPool t with eng := m.eng } = offPool m)

/-- R327, R328, R331, R332, R334: the `RECEIVE` arm. Fewer than two bytes: wait, or RESPONSE_TIMEOUT on a silent tick
after the response timeout. Two or more: a wrong address ends with INVALID_SLAVE; a right one flags an exception response
and goes on, in the same tick when the frame is complete. -/
def Obligations.TickReceives : Prop :=
  ∀ s h m, WaitsFor s .receive h → m = received h (slotAt s h).explen s →
    ((slotAt m h).rxlen < 2 →
      (Silent h (slotAt s h).explen s → s.cfg.params.respTimeoutMs ≤ since s s.nowMs (slotAt s h).stime →
        ∃ t, exec .tick s = .next t ∧ t.result = .unit ∧ Completes h .responseTimeout [] (settled m) t) ∧
      (¬ (Silent h (slotAt s h).explen s ∧ s.cfg.params.respTimeoutMs ≤ since s s.nowMs (slotAt s h).stime) →
        exec .tick s = .next { m with result := .unit })) ∧
    (2 ≤ (slotAt m h).rxlen →
      (readByte (slotAt m h).rx 0 ≠ readByte (slotAt m h).tmpl 0 →
        ∃ t, exec .tick s = .next t ∧ t.result = .unit ∧ Completes h .invalidSlave [] (settled m) t) ∧
      (readByte (slotAt m h).rx 0 = readByte (slotAt m h).tmpl 0 →
        ∀ flagged n, (flagged = true ↔ (slotAt s h).exc = true ∨
            (readByte (slotAt m h).rx 1).toNat = (fcOf s.cfg (slotAt s h)).toNat + 0x80) →
          n = updSlot m h (fun x => { x with exc := flagged }) →
          ((slotAt m h).rxlen ≠ (if flagged then 5 else (slotAt s h).explen) →
            exec .tick s = .next { n with result := .unit, eng := { n.eng with state := .headChecked } }) ∧
          ((slotAt m h).rxlen = (if flagged then 5 else (slotAt s h).explen) →
            (rtuCrcOk (slotAt m h) = true → exec .tick s = exec (.invoke h) (settled n)) ∧
            (rtuCrcOk (slotAt m h) = false → (slotAt s h).err = .ok →
              ∃ t, exec .tick s = .next t ∧ t.result = .unit ∧ Completes h .crcFailure [] (settled n) t))))

/-- R329, R330, R332, R334: the `HEAD_CHECKED` arm. It takes bytes up to the length needed, 5 for an exception response;
complete, it checks the checksum and ends as `INVOKE` does, or with CRC_FAILURE; incomplete, it waits, or ends with
RESPONSE_TIMEOUT on a silent tick after the byte timeout. -/
def Obligations.TickCollects : Prop :=
  ∀ s h need m, WaitsFor s .headChecked h → need = (if (slotAt s h).exc then 5 else (slotAt s h).explen) →
    m = received h need s →
    ((slotAt m h).rxlen = need →
      (rtuCrcOk (slotAt m h) = true → exec .tick s = exec (.invoke h) (settled m)) ∧
      (rtuCrcOk (slotAt m h) = false → (slotAt s h).err = .ok →
        ∃ t, exec .tick s = .next t ∧ t.result = .unit ∧ Completes h .crcFailure [] (settled m) t)) ∧
    ((slotAt m h).rxlen ≠ need →
      (Silent h need s → s.cfg.byteToUs ≤ since s s.nowUs s.eng.byteT →
        ∃ t, exec .tick s = .next t ∧ t.result = .unit ∧ Completes h .responseTimeout [] (settled m) t) ∧
      (¬ (Silent h need s ∧ s.cfg.byteToUs ≤ since s s.nowUs s.eng.byteT) →
        exec .tick s = .next { m with result := .unit }))

/-- R81, R323, R326, R378: the events of an operation only add to those before it; only `TICK` touches the line, with at
most one whole transmission; at most two completions are announced. -/
def Obligations.EventsOfOneOperation : Prop :=
  ∀ i s t, exec i s = .next t → ∃ new, t.events = s.events ++ new ∧
    (new.filter Event.onLine = [] ∨
      (i = .tick ∧ ∃ bytes, new.filter Event.onLine = [.txBegin, .serWrite bytes, .txEnd])) ∧
    (new.filter (fun e => !e.onLine)).length ≤ 2

/-- R21, R33, R34, R36, R39: which operation writes which record: the configuration is `RESET`'s; the engine record
`TICK`'s, `CLEAR_ALL`'s and `RESET`'s; the byte-order flag `SET_BIG_ENDIAN`'s and `RESET`'s; the SentBuffer its three
operations' and the two that clear it; the serial source is read by `TICK` and drained by `RESET`. The model's readings: the
host's own numbered sets (log 6) change by the operations that name them and by nothing else, `RESET` included, and no operation
touches the commands that wait or the environment's clock (log 20), which a `RESET` reads in its new width (log 3). -/
def Obligations.WhoWritesWhat : Prop :=
  ∀ i s t, exec i s = .next t →
    ((∀ p, i ≠ .reset p) → t.cfg = s.cfg) ∧
    ((∀ p, i ≠ .reset p) → i ≠ .tick → i ≠ .clearAll → t.eng = s.eng) ∧
    ((∀ p, i ≠ .reset p) → (∀ b, i ≠ .setBigEndian b) → t.ctx.bigEndian = s.ctx.bigEndian) ∧
    ((∀ p, i ≠ .reset p) → i ≠ .clearAll → (∀ h, i ≠ .sbAdd h) → (∀ w, i ≠ .sbRead w) →
      (∀ n, i ≠ .sbReadNextTimeout n) → t.sb = s.sb) ∧
    ((∀ p, i ≠ .reset p) → i ≠ .tick → t.serial = s.serial) ∧
    ((∀ k a, i ≠ .ssSet (.host k) a) → (∀ k a b, i ≠ .ssSetRange (.host k) a b) → (∀ k a, i ≠ .ssRemove (.host k) a) →
      (∀ k a b, i ≠ .ssRemoveRange (.host k) a b) → (∀ k, i ≠ .ssGetNext (.host k)) → (∀ k, i ≠ .ssClear (.host k)) →
      (∀ k a b, i ≠ .ssSetDelays (.host k) a b) → t.hostSets = s.hostSets) ∧
    t.clockMs = s.clockMs ∧ t.clockUs = s.clockUs ∧ t.host = s.host

/-- U1, U18, R412, R420, R384: an operation that would end the attempt of a slot that is free or in a container, or put
such a slot into a container, and a `RESET` with illegal parameters, are rejected and change nothing (the answer's form is
the model's, log 10). -/
def Obligations.OutOfContractRejected : Prop :=
  (∀ s p, ¬ LegalParams p → exec (.reset p) s = .next { s with result := .rejected .illegalConfiguration }) ∧
  (∀ s h i, NeedsDetached h i → h < s.cfg.params.poolCap → detached s h = false →
    exec i s = .next { s with result := .rejected .handleNotFree }) ∧
  (∀ s h f e, s.cfg.params.transport = .tcp → h < s.cfg.params.poolCap → detached s h = false →
    exec (.tcpReceive h f) s = .next { s with result := .rejected .handleNotFree } ∧
    exec (.tcpFail h e) s = .next { s with result := .rejected .handleNotFree } ∧
    ((∃ i, i < s.cfg.params.sentCap ∧ cellAt none s.sb i = none) →
      exec (.sbAdd h) s = .next { s with result := .rejected .handleNotFree })) ∧
  (∀ s h, s.q.count ≠ s.cfg.params.queueCap → h < s.cfg.params.poolCap → detached s h = false →
    exec (.qAdd (some h)) s = .next { s with result := .rejected .handleNotFree })

/-- Files 43 and 46 (log 7): an RTU instance has none of the TCP operations, a TCP instance neither `TICK` nor the RTU
frame's operations: they are refused by name. -/
def Obligations.OtherTransportRefused : Prop :=
  (∀ s i, s.cfg.params.transport = .rtu → IsTcpOnly i → exec i s = .refused .absentOperation) ∧
  (∀ s, s.cfg.params.transport = .tcp → exec .tick s = .refused .absentOperation ∧
    ∀ h, (∀ u, exec (.rtuSetHead h u) s = .refused .absentOperation) ∧
      (∀ len, exec (.rtuSetCrc h len) s = .refused .absentOperation) ∧
      exec (.rtuCheckHead h) s = .refused .absentOperation ∧ exec (.rtuCheckCrc h) s = .refused .absentOperation)

/-! ### Invariants of every step -/

/-- R24, R34, R35, R38, R80: every step keeps the invariant of the block: the configuration, the queue's shape, one
container per transaction, the pending transaction awaited, every length and every byte inside its buffer. R7, R14, R23: and
every time it holds stays a value of `W_TIME` bits (that the width is an argument of the instance is D3; the width in force
after a `RESET` is the new one, log 3). -/
def Obligations.StepKeepsInvariant : Prop :=
  (∀ s t, Sound s → step s = .next t → Sound t) ∧ (∀ s t, TimesOk s → step s = .next t → TimesOk t)

/-- Every step keeps every sparse array in canonical form: equal contents are equal data. -/
def Obligations.StepKeepsCanonicalForm : Prop :=
  ∀ s t, Canonical s → step s = .next t → Canonical t

/-- R271, R37: bits 248 to 255 of every SlaveSet are 0, and every cursor is an address up to 247 or a sentinel, after every
step. -/
def Obligations.StepKeepsSlaveSets : Prop :=
  ∀ s t, SetsOk s → step s = .next t → SetsOk t

/-- R386: no window outlives its step, and whenever an attempt ends with an error its record carries no data. -/
def Obligations.NoDataOnError : Prop :=
  ∀ s t, WindowsClosed s → step s = .next t → WindowsClosed t ∧
    (s.host ≠ [] → ∀ handler rec, .done handler rec ∈ t.events → rec.err ≠ .ok → rec.data = [])

/-- R80, R38, U12: from a sound state no operation runs past a buffer, but for `RTU_SET_CRC` with a length above
`PDU_MAX` and for the end of a coil read whose expected byte count no build left; and the engine never waits for
nothing. -/
def Obligations.NoOverrun : Prop :=
  ∀ s i, Sound s →
    exec i s ≠ .fault .noPending ∧
    ((∀ h len, i ≠ .rtuSetCrc h len) → (∀ h, ReadsCoils i s h → CountFits s h) →
      exec i s ≠ .fault .bufferBound) ∧
    (∀ h len, len ≤ s.cfg.params.pduMax → exec (.rtuSetCrc h len) s ≠ .fault .bufferBound)
end

