-- ==== Sys2Proof/Laws/Memory.lean ====
section
/-! SUPPORT. Sparse arrays and byte buffers: read after write, what a write leaves alone, the canonical form kept, equal
contents equal data. -/

namespace Sys2Proof.Machine

variable {α : Type}

@[simp] theorem cellAt_nil (d : α) (k : Nat) : cellAt d [] k = d := rfl

theorem cellAt_dropCell (d : α) (m : SMap α) (k j : Nat) :
    cellAt d (dropCell m k) j = if j = k then d else cellAt d m j := by
  induction m with
  | nil => simp [dropCell, cellAt]
  | cons c m ih =>
    obtain ⟨a, v⟩ := c
    by_cases hak : a = k
    · subst hak
      by_cases hj : j = a
      · subst hj; simpa [dropCell] using ih
      · simp [dropCell, ih, cellAt, hj, Ne.symm hj]
    · simp only [dropCell, if_neg hak, cellAt, ih]; split <;> simp_all

theorem cellAt_insertCell (d : α) (m : SMap α) (k j : Nat) (v : α) :
    cellAt d (insertCell m k v) j = if j = k then v else cellAt d m j := by
  induction m with
  | nil => simp [insertCell, cellAt, eq_comm]
  | cons c m ih =>
    obtain ⟨a, w⟩ := c
    simp only [insertCell]
    split
    · simp [cellAt, eq_comm]
    · split
      · next h =>
        subst h
        by_cases hj : j = a
        · simp [cellAt, hj]
        · simp [cellAt, hj, Ne.symm hj]
      · simp only [cellAt, ih]; split <;> simp_all

/-- Read after write, at the index written and at every other. -/
theorem cellAt_putCell [DecidableEq α] (d : α) (m : SMap α) (k j : Nat) (v : α) :
    cellAt d (putCell d m k v) j = if j = k then v else cellAt d m j := by
  unfold putCell
  split
  · next h => rw [cellAt_dropCell, h]
  · exact cellAt_insertCell d m k j v

@[simp] theorem cellAt_putCell_self [DecidableEq α] (d : α) (m : SMap α) (k : Nat) (v : α) :
    cellAt d (putCell d m k v) k = v := by simp [cellAt_putCell]

theorem cellAt_putCell_ne [DecidableEq α] (d : α) (m : SMap α) {k j : Nat} (v : α) (h : j ≠ k) :
    cellAt d (putCell d m k v) j = cellAt d m j := by simp [cellAt_putCell, h]

/-! ### The canonical form -/

@[simp] theorem canonicalFrom_nil [DecidableEq α] (d : α) (lo : Nat) : canonicalFrom d lo [] = true := rfl

@[simp] theorem canonicalFrom_cons [DecidableEq α] (d : α) (lo a : Nat) (v : α) (m : SMap α) :
    canonicalFrom d lo ((a, v) :: m) = true ↔ lo ≤ a ∧ v ≠ d ∧ canonicalFrom d (a + 1) m = true := by
  simp [canonicalFrom, and_assoc]

theorem canonicalFrom_mono [DecidableEq α] {d : α} {lo lo' : Nat} {m : SMap α} (hlo : lo' ≤ lo)
    (h : canonicalFrom d lo m = true) : canonicalFrom d lo' m = true := by
  cases m with
  | nil => rfl
  | cons c m =>
    obtain ⟨a, v⟩ := c
    rw [canonicalFrom_cons] at h ⊢
    exact ⟨by omega, h.2⟩

theorem canonicalFrom_dropCell [DecidableEq α] {d : α} {lo : Nat} {m : SMap α} (k : Nat)
    (h : canonicalFrom d lo m = true) : canonicalFrom d lo (dropCell m k) = true := by
  induction m generalizing lo with
  | nil => rfl
  | cons c m ih =>
    obtain ⟨a, v⟩ := c
    rw [canonicalFrom_cons] at h
    simp only [dropCell]
    split
    · exact canonicalFrom_mono (by omega) (ih h.2.2)
    · rw [canonicalFrom_cons]; exact ⟨h.1, h.2.1, ih h.2.2⟩

theorem canonicalFrom_insertCell [DecidableEq α] {d : α} {lo k : Nat} {v : α} {m : SMap α} (hk : lo ≤ k) (hv : v ≠ d)
    (h : canonicalFrom d lo m = true) : canonicalFrom d lo (insertCell m k v) = true := by
  induction m generalizing lo with
  | nil => simp [insertCell, hk, hv]
  | cons c m ih =>
    obtain ⟨a, w⟩ := c
    rw [canonicalFrom_cons] at h
    simp only [insertCell]
    split
    · rw [canonicalFrom_cons, canonicalFrom_cons]; exact ⟨hk, hv, by omega, h.2⟩
    · split
      · next hak => subst hak; rw [canonicalFrom_cons]; exact ⟨hk, hv, h.2.2⟩
      · rw [canonicalFrom_cons]; exact ⟨h.1, h.2.1, ih (by omega) h.2.2⟩

/-- A write keeps the canonical form. -/
theorem canonical_putCell [DecidableEq α] {d : α} {m : SMap α} (k : Nat) (v : α) (h : canonical d m = true) :
    canonical d (putCell d m k v) = true := by
  unfold putCell
  split
  · exact canonicalFrom_dropCell k h
  · next hv => exact canonicalFrom_insertCell (Nat.zero_le k) hv h

theorem cellAt_below_canonicalFrom [DecidableEq α] {d : α} {lo k : Nat} {m : SMap α} (hk : k < lo)
    (h : canonicalFrom d lo m = true) : cellAt d m k = d := by
  induction m generalizing lo with
  | nil => rfl
  | cons c m ih =>
    obtain ⟨a, v⟩ := c
    rw [canonicalFrom_cons] at h
    simp only [cellAt]
    rw [if_neg (by omega), ih (by omega) h.2.2]

/-- Equal contents are equal data. -/
theorem canonicalFrom_ext [DecidableEq α] {d : α} {lo : Nat} {m m' : SMap α} (h : canonicalFrom d lo m = true)
    (h' : canonicalFrom d lo m' = true) (heq : ∀ k, cellAt d m k = cellAt d m' k) : m = m' := by
  induction m generalizing lo m' with
  | nil =>
    cases m' with
    | nil => rfl
    | cons c m' =>
      obtain ⟨a, v⟩ := c
      rw [canonicalFrom_cons] at h'
      have := heq a
      simp [cellAt] at this
      exact absurd this.symm h'.2.1
  | cons c m ih =>
    obtain ⟨a, v⟩ := c
    rw [canonicalFrom_cons] at h
    cases m' with
    | nil =>
      have := heq a
      simp [cellAt] at this
      exact absurd this h.2.1
    | cons c' m' =>
      obtain ⟨a', v'⟩ := c'
      rw [canonicalFrom_cons] at h'
      have hle : ∀ {x y : Nat} {u u' : α} {n n' : SMap α}, x < y → u ≠ d → canonicalFrom d (y + 1) n' = true →
          cellAt d ((x, u) :: n) x = cellAt d ((y, u') :: n') x → False := by
        intro x y u u' n n' hxy hu hn hc
        simp only [cellAt, if_true] at hc
        rw [if_neg (by omega), cellAt_below_canonicalFrom (by omega) hn] at hc
        exact hu hc
      have haa : a = a' := by
        rcases Nat.lt_trichotomy a a' with hlt | heq' | hgt
        · exact (hle hlt h.2.1 h'.2.2 (heq a)).elim
        · exact heq'
        · exact (hle hgt h'.2.1 h.2.2 (heq a').symm).elim
      subst haa
      have hvv : v = v' := by have := heq a; simpa [cellAt] using this
      subst hvv
      congr 1
      refine ih h.2.2 h'.2.2 (fun k => ?_)
      by_cases hk : k < a + 1
      · rw [cellAt_below_canonicalFrom hk h.2.2, cellAt_below_canonicalFrom hk h'.2.2]
      · have := heq k
        simp only [cellAt] at this
        rwa [if_neg (by omega), if_neg (by omega)] at this

theorem canonical_ext [DecidableEq α] {d : α} {m m' : SMap α} (h : canonical d m = true) (h' : canonical d m' = true)
    (heq : ∀ k, cellAt d m k = cellAt d m' k) : m = m' := canonicalFrom_ext h h' heq

/-- A value other than `d` is listed. -/
theorem mem_of_cellAt_ne {d : α} {m : SMap α} {k : Nat} (h : cellAt d m k ≠ d) : (k, cellAt d m k) ∈ m := by
  induction m with
  | nil => exact absurd rfl h
  | cons c m ih =>
    obtain ⟨a, v⟩ := c
    simp only [cellAt] at h ⊢
    split
    · next hak => subst hak; simp
    · next hak => rw [if_neg hak] at h; exact List.mem_cons_of_mem _ (ih h)

/-- In canonical form, what is listed is what is read. -/
theorem cellAt_of_mem [DecidableEq α] {d : α} {lo : Nat} {m : SMap α} {k : Nat} {v : α}
    (h : canonicalFrom d lo m = true) (hm : (k, v) ∈ m) : cellAt d m k = v ∧ v ≠ d := by
  induction m generalizing lo with
  | nil => simp at hm
  | cons c m ih =>
    obtain ⟨a, w⟩ := c
    rw [canonicalFrom_cons] at h
    rcases List.mem_cons.mp hm with heq | hm
    · cases heq; exact ⟨by simp [cellAt], h.2.1⟩
    · have hr := ih h.2.2 hm
      by_cases hak : a = k
      · subst hak
        rw [cellAt_below_canonicalFrom (by omega) h.2.2] at hr
        exact absurd hr.1.symm hr.2
      · simp only [cellAt, if_neg hak]; exact hr

/-! ### Bounds -/

theorem mem_dropCell {m : SMap α} {k : Nat} {c : Nat × α} (h : c ∈ dropCell m k) : c ∈ m := by
  induction m with
  | nil => simp [dropCell] at h
  | cons e m ih =>
    obtain ⟨a, v⟩ := e
    simp only [dropCell] at h
    split at h
    · exact List.mem_cons_of_mem _ (ih h)
    · rcases List.mem_cons.mp h with h | h
      · exact h ▸ List.mem_cons_self ..
      · exact List.mem_cons_of_mem _ (ih h)

theorem mem_insertCell {m : SMap α} {k : Nat} {v : α} {c : Nat × α} (h : c ∈ insertCell m k v) : c = (k, v) ∨ c ∈ m := by
  induction m with
  | nil => simpa [insertCell] using h
  | cons e m ih =>
    obtain ⟨a, w⟩ := e
    simp only [insertCell] at h
    split at h
    · rcases List.mem_cons.mp h with h | h
      · exact .inl h
      · exact .inr h
    · split at h
      · rcases List.mem_cons.mp h with h | h
        · exact .inl h
        · exact .inr (List.mem_cons_of_mem _ h)
      · rcases List.mem_cons.mp h with h | h
        · exact .inr (h ▸ List.mem_cons_self ..)
        · rcases ih h with h | h
          · exact .inl h
          · exact .inr (List.mem_cons_of_mem _ h)

theorem below_iff {n : Nat} {m : SMap α} : below n m = true ↔ ∀ c ∈ m, c.1 < n := by
  simp [below, List.all_eq_true]

theorem below_putCell [DecidableEq α] {d : α} {n k : Nat} {v : α} {m : SMap α} (hk : k < n) (h : below n m = true) :
    below n (putCell d m k v) = true := by
  rw [below_iff] at h ⊢
  intro c hc
  unfold putCell at hc
  split at hc
  · exact h c (mem_dropCell hc)
  · rcases mem_insertCell hc with hc | hc
    · subst hc; exact hk
    · exact h c hc

/-- Writing back the default never lists a new index. -/
theorem below_putCell_default [DecidableEq α] {d : α} {n k : Nat} {m : SMap α} (h : below n m = true) :
    below n (putCell d m k d) = true := by
  rw [below_iff] at h ⊢
  intro c hc
  rw [putCell, if_pos rfl] at hc
  exact h c (mem_dropCell hc)

theorem cellAt_of_below {d : α} {n k : Nat} {m : SMap α} (h : below n m = true) (hk : n ≤ k) : cellAt d m k = d := by
  by_contra hne
  have := below_iff.mp h _ (mem_of_cellAt_ne hne)
  simp at this; omega

/-! ### Byte buffers (R80) -/

@[simp] theorem readByte_nil (k : Nat) : readByte [] k = 0#8 := rfl

@[simp] theorem length_readBytes (m : Memory) (k n : Nat) : (readBytes m k n).length = n := by
  induction n generalizing k with
  | zero => rfl
  | succ n ih => simp [readBytes, ih]

theorem getElem?_readBytes (m : Memory) (k n i : Nat) :
    (readBytes m k n)[i]? = if i < n then some (readByte m (k + i)) else none := by
  induction n generalizing k i with
  | zero => simp [readBytes]
  | succ n ih =>
    cases i with
    | zero => simp [readBytes]
    | succ i => simp [readBytes, ih, Nat.add_assoc, Nat.add_comm 1 i]

theorem readBytes_congr {m m' : Memory} {k n : Nat} (h : ∀ j, k ≤ j → j < k + n → readByte m j = readByte m' j) :
    readBytes m k n = readBytes m' k n := by
  induction n generalizing k with
  | zero => rfl
  | succ n ih =>
    rw [readBytes, readBytes, h k (Nat.le_refl k) (by omega), ih (fun j hj hj' => h j (by omega) (by omega))]

theorem readBytes_add (m : Memory) (k n p : Nat) : readBytes m k (n + p) = readBytes m k n ++ readBytes m (k + n) p := by
  induction n generalizing k with
  | zero => simp [readBytes]
  | succ n ih =>
    rw [show n + 1 + p = (n + p) + 1 by omega]
    simp only [readBytes, List.cons_append, ih]
    congr 2; rw [show k + 1 + n = k + (n + 1) by omega]

theorem readByte_writeBytes (m : Memory) (k j : Nat) (bs : List Byte) :
    readByte (writeBytes m k bs) j = if k ≤ j ∧ j < k + bs.length then (bs[j - k]?).getD 0#8 else readByte m j := by
  induction bs generalizing m k with
  | nil => simp [writeBytes]
  | cons b bs ih =>
    rw [writeBytes, ih]
    simp only [readByte, cellAt_putCell, List.length_cons]
    by_cases hj : j = k
    · subst hj; simp
    · by_cases hin : k + 1 ≤ j ∧ j < k + 1 + bs.length
      · rw [if_pos hin, if_pos (by omega)]
        obtain ⟨i, hi⟩ : ∃ i, j = k + 1 + i := ⟨j - (k + 1), by omega⟩
        subst hi
        simp [show k + 1 + i - k = i + 1 by omega]
      · rw [if_neg hin, if_neg hj, if_neg (by omega)]

/-- A write leaves every byte outside the sequence alone. -/
theorem readByte_writeBytes_outside (m : Memory) {k j : Nat} (bs : List Byte) (h : j < k ∨ k + bs.length ≤ j) :
    readByte (writeBytes m k bs) j = readByte m j := by
  rw [readByte_writeBytes, if_neg (by omega)]

/-- Read after write. -/
theorem readBytes_writeBytes_self (m : Memory) (k : Nat) (bs : List Byte) :
    readBytes (writeBytes m k bs) k bs.length = bs := by
  apply List.ext_getElem?
  intro i
  rw [getElem?_readBytes]
  split
  · next h =>
    rw [readByte_writeBytes, if_pos (by omega)]
    simp [h]
  · next h => simp; omega

/-- Reads beside the written sequence are those of before. -/
theorem readBytes_writeBytes_outside (m : Memory) {k j n : Nat} (bs : List Byte) (h : j + n ≤ k ∨ k + bs.length ≤ j) :
    readBytes (writeBytes m k bs) j n = readBytes m j n :=
  readBytes_congr (fun i hi hi' => readByte_writeBytes_outside m bs (by omega))

theorem wf_putCell {m : Memory} (k : Nat) (b : Byte) (h : m.wf = true) : Memory.wf (putCell 0#8 m k b) = true :=
  canonical_putCell k b h

/-- Every memory operation keeps the canonical form. -/
theorem wf_writeBytes {m : Memory} (k : Nat) (bs : List Byte) (h : m.wf = true) :
    (writeBytes m k bs).wf = true := by
  induction bs generalizing m k with
  | nil => exact h
  | cons b bs ih => exact ih (k + 1) (wf_putCell k b h)

theorem wf_nil : Memory.wf [] = true := rfl

theorem below_writeBytes {n : Nat} {m : Memory} {k : Nat} {bs : List Byte} (hk : k + bs.length ≤ n)
    (h : below n m = true) : below n (writeBytes m k bs) = true := by
  induction bs generalizing m k with
  | nil => exact h
  | cons b bs ih =>
    simp only [List.length_cons] at hk
    exact ih (by omega) (below_putCell (by omega) h)

end Sys2Proof.Machine
end

