-- ==== Sys2Proof/Laws/State.lean ====
section
/-! SUPPORT. One lemma per field and per named update of the state, true by `rfl`, and what a slot reads as after each. -/

namespace Sys2Proof.Machine

/-! ### `setSlot` and `updSlot` -/

theorem slotAt_setSlot (s : State) (h k : Nat) (x : Slot) :
    slotAt (setSlot s h x) k = if k = h then x else slotAt s k := cellAt_putCell _ _ _ _ _

@[simp] theorem slotAt_setSlot_self (s : State) (h : Nat) (x : Slot) : slotAt (setSlot s h x) h = x := by
  simp [slotAt_setSlot]

theorem slotAt_setSlot_ne (s : State) {h k : Nat} (x : Slot) (hk : k ≠ h) : slotAt (setSlot s h x) k = slotAt s k := by
  simp [slotAt_setSlot, hk]

theorem slotAt_updSlot (s : State) (h k : Nat) (f : Slot → Slot) :
    slotAt (updSlot s h f) k = if k = h then f (slotAt s h) else slotAt s k := slotAt_setSlot _ _ _ _

@[simp] theorem slotAt_updSlot_self (s : State) (h : Nat) (f : Slot → Slot) :
    slotAt (updSlot s h f) h = f (slotAt s h) := by simp [slotAt_updSlot]

theorem slotAt_updSlot_ne (s : State) {h k : Nat} (f : Slot → Slot) (hk : k ≠ h) :
    slotAt (updSlot s h f) k = slotAt s k := by simp [slotAt_updSlot, hk]

/-- A slot is read from the pool alone. -/
theorem slotAt_congr {s t : State} (hp : t.pool = s.pool) (h : Nat) : slotAt t h = slotAt s h := by
  simp [slotAt, hp]

@[simp] theorem setSlot_cfg (s : State) (h : Nat) (x : Slot) : (setSlot s h x).cfg = s.cfg := rfl
@[simp] theorem setSlot_ctx (s : State) (h : Nat) (x : Slot) : (setSlot s h x).ctx = s.ctx := rfl
@[simp] theorem setSlot_q (s : State) (h : Nat) (x : Slot) : (setSlot s h x).q = s.q := rfl
@[simp] theorem setSlot_sb (s : State) (h : Nat) (x : Slot) : (setSlot s h x).sb = s.sb := rfl
@[simp] theorem setSlot_eng (s : State) (h : Nat) (x : Slot) : (setSlot s h x).eng = s.eng := rfl
@[simp] theorem setSlot_nowMs (s : State) (h : Nat) (x : Slot) : (setSlot s h x).nowMs = s.nowMs := rfl
@[simp] theorem setSlot_clockMs (s : State) (h : Nat) (x : Slot) : (setSlot s h x).clockMs = s.clockMs := rfl
@[simp] theorem setSlot_nowUs (s : State) (h : Nat) (x : Slot) : (setSlot s h x).nowUs = s.nowUs := rfl
@[simp] theorem setSlot_clockUs (s : State) (h : Nat) (x : Slot) : (setSlot s h x).clockUs = s.clockUs := rfl
@[simp] theorem setSlot_serial (s : State) (h : Nat) (x : Slot) : (setSlot s h x).serial = s.serial := rfl
@[simp] theorem setSlot_hostSets (s : State) (h : Nat) (x : Slot) : (setSlot s h x).hostSets = s.hostSets := rfl
@[simp] theorem setSlot_host (s : State) (h : Nat) (x : Slot) : (setSlot s h x).host = s.host := rfl
@[simp] theorem setSlot_result (s : State) (h : Nat) (x : Slot) : (setSlot s h x).result = s.result := rfl
@[simp] theorem setSlot_events (s : State) (h : Nat) (x : Slot) : (setSlot s h x).events = s.events := rfl
@[simp] theorem setSlot_freeCount (s : State) (h : Nat) (x : Slot) : (setSlot s h x).freeCount = s.freeCount := rfl

@[simp] theorem updSlot_cfg (s : State) (h : Nat) (f : Slot → Slot) : (updSlot s h f).cfg = s.cfg := rfl
@[simp] theorem updSlot_ctx (s : State) (h : Nat) (f : Slot → Slot) : (updSlot s h f).ctx = s.ctx := rfl
@[simp] theorem updSlot_q (s : State) (h : Nat) (f : Slot → Slot) : (updSlot s h f).q = s.q := rfl
@[simp] theorem updSlot_sb (s : State) (h : Nat) (f : Slot → Slot) : (updSlot s h f).sb = s.sb := rfl
@[simp] theorem updSlot_eng (s : State) (h : Nat) (f : Slot → Slot) : (updSlot s h f).eng = s.eng := rfl
@[simp] theorem updSlot_nowMs (s : State) (h : Nat) (f : Slot → Slot) : (updSlot s h f).nowMs = s.nowMs := rfl
@[simp] theorem updSlot_clockMs (s : State) (h : Nat) (f : Slot → Slot) : (updSlot s h f).clockMs = s.clockMs := rfl
@[simp] theorem updSlot_nowUs (s : State) (h : Nat) (f : Slot → Slot) : (updSlot s h f).nowUs = s.nowUs := rfl
@[simp] theorem updSlot_clockUs (s : State) (h : Nat) (f : Slot → Slot) : (updSlot s h f).clockUs = s.clockUs := rfl
@[simp] theorem updSlot_serial (s : State) (h : Nat) (f : Slot → Slot) : (updSlot s h f).serial = s.serial := rfl
@[simp] theorem updSlot_hostSets (s : State) (h : Nat) (f : Slot → Slot) : (updSlot s h f).hostSets = s.hostSets := rfl
@[simp] theorem updSlot_host (s : State) (h : Nat) (f : Slot → Slot) : (updSlot s h f).host = s.host := rfl
@[simp] theorem updSlot_result (s : State) (h : Nat) (f : Slot → Slot) : (updSlot s h f).result = s.result := rfl
@[simp] theorem updSlot_events (s : State) (h : Nat) (f : Slot → Slot) : (updSlot s h f).events = s.events := rfl
@[simp] theorem updSlot_freeCount (s : State) (h : Nat) (f : Slot → Slot) :
    (updSlot s h f).freeCount = s.freeCount := rfl

/-! ### `emit`, `release`, `setSs` -/

@[simp] theorem slotAt_emit (s : State) (e : Event) (h : Nat) : slotAt (emit s e) h = slotAt s h := rfl
@[simp] theorem emit_cfg (s : State) (e : Event) : (emit s e).cfg = s.cfg := rfl
@[simp] theorem emit_ctx (s : State) (e : Event) : (emit s e).ctx = s.ctx := rfl
@[simp] theorem emit_pool (s : State) (e : Event) : (emit s e).pool = s.pool := rfl
@[simp] theorem emit_q (s : State) (e : Event) : (emit s e).q = s.q := rfl
@[simp] theorem emit_sb (s : State) (e : Event) : (emit s e).sb = s.sb := rfl
@[simp] theorem emit_eng (s : State) (e : Event) : (emit s e).eng = s.eng := rfl
@[simp] theorem emit_nowMs (s : State) (e : Event) : (emit s e).nowMs = s.nowMs := rfl
@[simp] theorem emit_clockMs (s : State) (e : Event) : (emit s e).clockMs = s.clockMs := rfl
@[simp] theorem emit_nowUs (s : State) (e : Event) : (emit s e).nowUs = s.nowUs := rfl
@[simp] theorem emit_clockUs (s : State) (e : Event) : (emit s e).clockUs = s.clockUs := rfl
@[simp] theorem emit_serial (s : State) (e : Event) : (emit s e).serial = s.serial := rfl
@[simp] theorem emit_hostSets (s : State) (e : Event) : (emit s e).hostSets = s.hostSets := rfl
@[simp] theorem emit_host (s : State) (e : Event) : (emit s e).host = s.host := rfl
@[simp] theorem emit_result (s : State) (e : Event) : (emit s e).result = s.result := rfl
@[simp] theorem emit_events (s : State) (e : Event) : (emit s e).events = s.events ++ [e] := rfl
@[simp] theorem emit_freeCount (s : State) (e : Event) : (emit s e).freeCount = s.freeCount := rfl

theorem slotAt_release (s : State) (h k : Nat) :
    slotAt (release h s) k = if k = h then Slot.cleared else slotAt s k := slotAt_setSlot _ _ _ _

@[simp] theorem release_cfg (s : State) (h : Nat) : (release h s).cfg = s.cfg := rfl
@[simp] theorem release_ctx (s : State) (h : Nat) : (release h s).ctx = s.ctx := rfl
@[simp] theorem release_q (s : State) (h : Nat) : (release h s).q = s.q := rfl
@[simp] theorem release_sb (s : State) (h : Nat) : (release h s).sb = s.sb := rfl
@[simp] theorem release_eng (s : State) (h : Nat) : (release h s).eng = s.eng := rfl
@[simp] theorem release_nowMs (s : State) (h : Nat) : (release h s).nowMs = s.nowMs := rfl
@[simp] theorem release_clockMs (s : State) (h : Nat) : (release h s).clockMs = s.clockMs := rfl
@[simp] theorem release_nowUs (s : State) (h : Nat) : (release h s).nowUs = s.nowUs := rfl
@[simp] theorem release_clockUs (s : State) (h : Nat) : (release h s).clockUs = s.clockUs := rfl
@[simp] theorem release_serial (s : State) (h : Nat) : (release h s).serial = s.serial := rfl
@[simp] theorem release_hostSets (s : State) (h : Nat) : (release h s).hostSets = s.hostSets := rfl
@[simp] theorem release_host (s : State) (h : Nat) : (release h s).host = s.host := rfl
@[simp] theorem release_events (s : State) (h : Nat) : (release h s).events = s.events := rfl
@[simp] theorem release_result (s : State) (h : Nat) : (release h s).result = s.result := rfl
@[simp] theorem release_freeCount (s : State) (h : Nat) : (release h s).freeCount = s.freeCount := rfl

/-! ### `unreceived` and `heard` -/

theorem slotAt_unreceived (h k : Nat) (s : State) :
    slotAt (unreceived h s) k = if k = h then fillRx s.cfg s.freeCount (slotAt s h) else slotAt s k :=
  slotAt_updSlot s h k _

@[simp] theorem unreceived_cfg (h : Nat) (s : State) : (unreceived h s).cfg = s.cfg := rfl
@[simp] theorem unreceived_ctx (h : Nat) (s : State) : (unreceived h s).ctx = s.ctx := rfl
@[simp] theorem unreceived_q (h : Nat) (s : State) : (unreceived h s).q = s.q := rfl
@[simp] theorem unreceived_sb (h : Nat) (s : State) : (unreceived h s).sb = s.sb := rfl
@[simp] theorem unreceived_eng (h : Nat) (s : State) : (unreceived h s).eng = s.eng := rfl
@[simp] theorem unreceived_nowMs (h : Nat) (s : State) : (unreceived h s).nowMs = s.nowMs := rfl
@[simp] theorem unreceived_clockMs (h : Nat) (s : State) : (unreceived h s).clockMs = s.clockMs := rfl
@[simp] theorem unreceived_nowUs (h : Nat) (s : State) : (unreceived h s).nowUs = s.nowUs := rfl
@[simp] theorem unreceived_clockUs (h : Nat) (s : State) : (unreceived h s).clockUs = s.clockUs := rfl
@[simp] theorem unreceived_serial (h : Nat) (s : State) : (unreceived h s).serial = s.serial := rfl
@[simp] theorem unreceived_hostSets (h : Nat) (s : State) : (unreceived h s).hostSets = s.hostSets := rfl
@[simp] theorem unreceived_host (h : Nat) (s : State) : (unreceived h s).host = s.host := rfl
@[simp] theorem unreceived_result (h : Nat) (s : State) : (unreceived h s).result = s.result := rfl
@[simp] theorem unreceived_events (h : Nat) (s : State) : (unreceived h s).events = s.events := rfl
@[simp] theorem unreceived_freeCount (h : Nat) (s : State) : (unreceived h s).freeCount = s.freeCount + 1 := rfl

theorem length_freeRxBytes (count start n : Nat) : (freeRxBytes count start n).length = n := by simp [freeRxBytes]

/-- What was received stays as it is. -/
theorem readBytes_unreceived {h i n : Nat} {s : State} (hn : i + n ≤ (slotAt s h).rxlen) :
    readBytes (slotAt (unreceived h s) h).rx i n = readBytes (slotAt s h).rx i n := by
  rw [slotAt_unreceived, if_pos rfl]
  exact readBytes_writeBytes_outside _ _ (.inl hn)

theorem held_unreceived (h k : Nat) (s : State) : held (unreceived h s) k = held s k := rfl

theorem detached_unreceived (h k : Nat) (s : State) : detached (unreceived h s) k = detached s k := by
  unfold detached
  rw [held_unreceived, slotAt_unreceived]
  split
  · next hk => subst hk; rfl
  · rfl

theorem lengthsFit_unreceived (h k : Nat) (s : State) :
    lengthsFit (unreceived h s).cfg (slotAt (unreceived h s) k) = lengthsFit s.cfg (slotAt s k) := by
  rw [slotAt_unreceived]
  split
  · next hk => subst hk; rfl
  · rfl

theorem heard_of_le {n h : Nat} {s : State} (hn : n ≤ (slotAt s h).rxlen) : heard n h s = s := if_pos hn

theorem heard_of_lt {n h : Nat} {s : State} (hn : (slotAt s h).rxlen < n) : heard n h s = unreceived h s :=
  if_neg (by omega)

/-! ### `answer` -/

@[simp] theorem slotAt_answer (r : Result) (s : State) (h : Nat) : slotAt (answer r s) h = slotAt s h := rfl
@[simp] theorem answer_result (r : Result) (s : State) : (answer r s).result = r := rfl
@[simp] theorem answer_cfg (r : Result) (s : State) : (answer r s).cfg = s.cfg := rfl
@[simp] theorem answer_ctx (r : Result) (s : State) : (answer r s).ctx = s.ctx := rfl
@[simp] theorem answer_pool (r : Result) (s : State) : (answer r s).pool = s.pool := rfl
@[simp] theorem answer_q (r : Result) (s : State) : (answer r s).q = s.q := rfl
@[simp] theorem answer_sb (r : Result) (s : State) : (answer r s).sb = s.sb := rfl
@[simp] theorem answer_eng (r : Result) (s : State) : (answer r s).eng = s.eng := rfl
@[simp] theorem answer_nowMs (r : Result) (s : State) : (answer r s).nowMs = s.nowMs := rfl
@[simp] theorem answer_clockMs (r : Result) (s : State) : (answer r s).clockMs = s.clockMs := rfl
@[simp] theorem answer_nowUs (r : Result) (s : State) : (answer r s).nowUs = s.nowUs := rfl
@[simp] theorem answer_clockUs (r : Result) (s : State) : (answer r s).clockUs = s.clockUs := rfl
@[simp] theorem answer_serial (r : Result) (s : State) : (answer r s).serial = s.serial := rfl
@[simp] theorem answer_hostSets (r : Result) (s : State) : (answer r s).hostSets = s.hostSets := rfl
@[simp] theorem answer_host (r : Result) (s : State) : (answer r s).host = s.host := rfl
@[simp] theorem answer_events (r : Result) (s : State) : (answer r s).events = s.events := rfl
@[simp] theorem answer_freeCount (r : Result) (s : State) : (answer r s).freeCount = s.freeCount := rfl

/-! ### Outcomes -/

@[simp] theorem ret_eq_next {r : Result} {s t : State} : ret r s = .next t ↔ t = answer r s := by
  simp [ret, eq_comm]

@[simp] theorem reject_eq_next {r : Reject} {s t : State} : reject r s = .next t ↔ t = answer (.rejected r) s :=
  ret_eq_next

/-- What the four guards let through: the operation behind them, a rejection, a refusal or a fault. -/
theorem onlyOn_eq_next {tr : Transport} {s t : State} {k : Out} :
    onlyOn tr s k = .next t ↔ s.cfg.params.transport = tr ∧ k = .next t := by
  unfold onlyOn; split <;> simp [*]

theorem withSlot_eq_next {h : Nat} {s t : State} {k : Out} :
    withSlot h s k = .next t ↔
      (slotExists s h = true ∧ k = .next t) ∨ (slotExists s h = false ∧ t = answer (.rejected .noSuchSlot) s) := by
  unfold withSlot; split <;> simp_all

theorem withDetached_eq_next {h : Nat} {s t : State} {k : Out} :
    withDetached h s k = .next t ↔
      (detached s h = true ∧ k = .next t) ∨ (detached s h = false ∧ t = answer (.rejected .handleNotFree) s) := by
  unfold withDetached; split <;> simp_all

theorem checked_eq_next {h : Nat} {s t : State} {k : Out} :
    checked h s k = .next t ↔ slotExists s h = true ∧ lengthsFit s.cfg (slotAt s h) = true ∧ k = .next t := by
  unfold checked; split <;> simp_all

/-- What the end of an attempt that answers next has passed. -/
theorem raise_eq_next {h : Nat} {e : Err} {s t : State} :
    raise h e s = .next t ↔ slotExists s h = true ∧ lengthsFit s.cfg (slotAt s h) = true ∧
      windowFits s.cfg (slotAt s h) = true ∧ answer .unit (complete h e s) = t := by
  unfold raise; rw [checked_eq_next]; split <;> simp_all [ret]

end Sys2Proof.Machine
end

