-- ==== Sys2Proof/Laws/Queue.lean ====
section
/-! SUPPORT. The TransactionQueue: what each operation does to the logical content (R35), and that each keeps the shape. -/

namespace Sys2Proof.Machine

/-! ### Positions and content -/

@[simp] theorem length_qContent (s : State) : (qContent s).length = s.q.count := by simp [qContent]

theorem qContent_congr {s t : State} (hq : t.q = s.q) (hc : t.cfg = s.cfg) : qContent t = qContent s := by
  simp [qContent, qItem, qPos, hq, hc]

@[simp] theorem qContent_answer (r : Result) (s : State) : qContent (answer r s) = qContent s := rfl

theorem getElem?_qContent (s : State) (i : Nat) :
    (qContent s)[i]? = if i < s.q.count then some (qItem s i) else none := by
  simp only [qContent, List.getElem?_map]
  split
  · next h => simp [h]
  · next h => simp [h]

theorem mod_inj {h c i j : Nat} (hi : i < c) (hj : j < c) (heq : (h + i) % c = (h + j) % c) : i = j := by
  have : ∀ i j : Nat, i ≤ j → i < c → j < c → (h + i) % c = (h + j) % c → i = j := by
    intro i j hij hi hj heq
    obtain ⟨d, rfl⟩ := Nat.exists_eq_add_of_le hij
    have h1 : (h + i + d) % c = (h + i) % c := by rw [Nat.add_assoc]; exact heq.symm
    have h2 : d % c = 0 := by
      have := (Nat.modEq_iff_dvd' (n := c) (a := h + i) (b := h + i + d) (by omega)).mp h1.symm
      rw [Nat.add_sub_cancel_left] at this
      exact Nat.mod_eq_zero_of_dvd this
    rw [Nat.mod_eq_of_lt (by omega)] at h2
    omega
  rcases Nat.le_total i j with h | h
  · exact this i j h hi hj heq
  · exact (this j i h hj hi heq.symm).symm

theorem qPos_inj {s : State} {i j : Nat} (hi : i < s.cfg.params.queueCap) (hj : j < s.cfg.params.queueCap)
    (h : qPos s i = qPos s j) : i = j := mod_inj hi hj h

theorem qPos_lt {s : State} (hq : QueueOk s) (i : Nat) : qPos s i < s.cfg.params.queueCap := Nat.mod_lt _ hq.cap

theorem qPos_zero {s : State} (hq : QueueOk s) : qPos s 0 = s.q.head := Nat.mod_eq_of_lt hq.head

theorem tail_eq {s : State} (hq : QueueOk s) : s.q.tail = qPos s s.q.count := hq.tail

/-- Every position is the place of one logical index. -/
theorem exists_index {s : State} (hq : QueueOk s) {p : Nat} (hp : p < s.cfg.params.queueCap) :
    ∃ i, i < s.cfg.params.queueCap ∧ qPos s i = p := by
  have hh := hq.head
  refine ⟨(p + s.cfg.params.queueCap - s.q.head) % s.cfg.params.queueCap, Nat.mod_lt _ hq.cap, ?_⟩
  unfold qPos
  rw [Nat.add_mod_mod, show s.q.head + (p + s.cfg.params.queueCap - s.q.head) = p + s.cfg.params.queueCap by omega]
  simp [Nat.mod_eq_of_lt hp]

theorem cellAt_out {s : State} (hq : QueueOk s) {p : Nat} (hp : s.cfg.params.queueCap ≤ p) :
    cellAt none s.q.arr p = none :=
  hq.free p (fun i _ h => by have := qPos_lt hq i; omega)

theorem cellAt_free {s : State} (hq : QueueOk s) {i : Nat} (hi : s.q.count ≤ i) (hc : i < s.cfg.params.queueCap) :
    cellAt none s.q.arr (qPos s i) = none :=
  hq.free _ (fun k hk h => by have := qPos_inj (by have := hq.count; omega) hc h; omega)

theorem queueOk_congr {s t : State} (hq : t.q = s.q) (hc : t.cfg = s.cfg) (h : QueueOk s) : QueueOk t := by
  constructor <;> simp only [qItem, qPos, hq, hc]
  · exact h.cap
  · exact h.head
  · exact h.count
  · exact h.tail
  · exact h.occupied
  · exact h.free

theorem queueOk_of_empty {s : State} (hc : 0 < s.cfg.params.queueCap) (h : s.q = { arr := [], head := 0, tail := 0, count := 0 }) :
    QueueOk s := by
  constructor <;> simp [h, hc]

/-! ### `Q_ADD` (R301) -/

theorem qPush_some {s : State} (h : Nat) (hc : s.q.count ≠ s.cfg.params.queueCap) :
    qPush (some h) s = ({ s with q := { s.q with arr := putCell none s.q.arr s.q.tail (some h),
                                                 tail := (s.q.tail + 1) % s.cfg.params.queueCap,
                                                 count := s.q.count + 1 } }, true) := by simp [qPush, hc]

theorem qPush_full {s : State} (h : Nat) (hc : s.q.count = s.cfg.params.queueCap) :
    qPush (some h) s = (s, false) := by
  simp [qPush, hc]

theorem qContent_qPush {s : State} (hq : QueueOk s) (h : Nat) (hc : s.q.count < s.cfg.params.queueCap) :
    qContent (qPush (some h) s).1 = qContent s ++ [some h] := by
  rw [qPush_some h (by omega)]
  simp only [qContent, List.range_succ, List.map_append, List.map_cons, List.map_nil]
  congr 1
  · apply List.map_congr_left
    intro i hi
    simp only [List.mem_range] at hi
    simp only [qItem]
    rw [cellAt_putCell_ne]
    · rfl
    · show qPos s i ≠ s.q.tail
      rw [tail_eq hq]
      intro he; have := qPos_inj (by omega) (by omega) he; omega
  · show [cellAt none (putCell none s.q.arr s.q.tail (some h)) (qPos s s.q.count)] = _
    rw [← tail_eq hq]; simp

theorem queueOk_qPush {s : State} (hq : QueueOk s) (h : Nat) (hc : s.q.count < s.cfg.params.queueCap) :
    QueueOk (qPush (some h) s).1 := by
  rw [qPush_some h (by omega)]
  have hpos : ∀ i, qPos { s with q := { s.q with arr := putCell none s.q.arr s.q.tail (some h),
                                                 tail := (s.q.tail + 1) % s.cfg.params.queueCap,
                                                 count := s.q.count + 1 } } i = qPos s i := fun i => rfl
  constructor
  · exact hq.cap
  · exact hq.head
  · show s.q.count + 1 ≤ s.cfg.params.queueCap; omega
  · show (s.q.tail + 1) % _ = (s.q.head + (s.q.count + 1)) % _
    rw [hq.tail, Nat.mod_add_mod, Nat.add_assoc]
  · intro i hi
    simp only [qItem, hpos]
    show ∃ k, cellAt none (putCell none s.q.arr s.q.tail (some h)) (qPos s i) = some k
    rw [cellAt_putCell]
    split
    · exact ⟨h, rfl⟩
    · next hne =>
      have : i ≠ s.q.count := by rintro rfl; exact hne (tail_eq hq).symm
      have hi : i < s.q.count + 1 := hi
      exact hq.occupied i (by omega)
  · intro p hp
    show cellAt none (putCell none s.q.arr s.q.tail (some h)) p = none
    rw [cellAt_putCell_ne]
    · exact hq.free p (fun i hi => hp i (Nat.lt_succ_of_lt hi))
    · rintro rfl; exact hp s.q.count (Nat.lt_succ_self _) (by rw [hpos]; exact (tail_eq hq).symm)

/-! ### `Q_READ` (R302) -/

theorem qPop_some {s : State} (hc : s.q.count ≠ 0) :
    qPop s = ({ s with q := { s.q with arr := putCell none s.q.arr s.q.head none,
                                       head := (s.q.head + 1) % s.cfg.params.queueCap,
                                       count := s.q.count - 1 } }, cellAt none s.q.arr s.q.head) := by simp [qPop, hc]

theorem qPos_qPop {s : State} (hc : s.q.count ≠ 0) (i : Nat) : qPos (qPop s).1 i = qPos s (i + 1) := by
  rw [qPop_some hc]
  show ((s.q.head + 1) % s.cfg.params.queueCap + i) % s.cfg.params.queueCap = (s.q.head + (i + 1)) % _
  rw [Nat.mod_add_mod]; congr 1; omega

theorem qContent_qPop {s : State} (hq : QueueOk s) (hc : s.q.count ≠ 0) :
    qContent (qPop s).1 = (qContent s).drop 1 := by
  have hpos := qPos_qPop hc
  apply List.ext_getElem?
  intro i
  rw [List.getElem?_drop, getElem?_qContent, getElem?_qContent]
  have hcnt : (qPop s).1.q.count = s.q.count - 1 := by rw [qPop_some hc]
  rw [hcnt]
  have := hq.count
  by_cases hi : i < s.q.count - 1
  · rw [if_pos hi, if_pos (by omega)]
    congr 1
    simp only [qItem, hpos]
    rw [show (1 + i) = i + 1 by omega]
    rw [qPop_some hc]
    show cellAt none (putCell none s.q.arr s.q.head none) (qPos s (i + 1)) = _
    rw [cellAt_putCell_ne]
    intro he
    rw [← qPos_zero hq] at he
    have := qPos_inj (by omega) hq.cap he
    omega
  · rw [if_neg hi, if_neg (by omega)]

theorem qPop_head {s : State} (hq : QueueOk s) (hc : s.q.count ≠ 0) : (qPop s).2 = qItem s 0 := by
  rw [qPop_some hc, qItem, qPos_zero hq]

theorem queueOk_qPop {s : State} (hq : QueueOk s) : QueueOk (qPop s).1 := by
  by_cases hc : s.q.count = 0
  · simp [qPop, hc]; exact hq
  have hpos := qPos_qPop hc
  have e := qPop_some hc
  have hcnt : (qPop s).1.q.count = s.q.count - 1 := by rw [e]
  have harr : (qPop s).1.q.arr = putCell none s.q.arr s.q.head none := by rw [e]
  have hcfg : (qPop s).1.cfg = s.cfg := by rw [e]
  have := hq.count
  constructor
  · rw [hcfg]; exact hq.cap
  · rw [e]; exact Nat.mod_lt _ hq.cap
  · rw [hcnt, hcfg]; omega
  · rw [e]; show s.q.tail = ((s.q.head + 1) % _ + (s.q.count - 1)) % _
    rw [Nat.mod_add_mod, hq.tail]; congr 1; omega
  · intro i hi
    rw [hcnt] at hi
    simp only [qItem, hpos, harr]
    rw [cellAt_putCell_ne]
    · exact hq.occupied (i + 1) (by omega)
    · intro he; rw [← qPos_zero hq] at he
      have := qPos_inj (by omega) hq.cap he; omega
  · intro p hp
    rw [harr, cellAt_putCell]
    split
    · rfl
    · next hne =>
      apply hq.free
      intro i hi
      cases i with
      | zero => rw [qPos_zero hq]; exact fun h => hne h.symm
      | succ i => have := hp i (by rw [hcnt]; omega); rwa [hpos] at this

theorem qPop_frame (s u : State) : { (qPop s).1 with q := u.q } = { s with q := u.q } := by
  unfold qPop; split <;> rfl

/-! ### The scan (R304, R305) -/

theorem readyDelay_some {s : State} {i d : Nat} :
    readyDelay s i = some d ↔ ∃ h, qItem s i = some h ∧ ready s h = true ∧ (slotAt s h).delay = .ms d := by
  unfold readyDelay
  cases qItem s i with
  | none => simp
  | some h =>
    cases hd : (slotAt s h).delay with
    | never => simp [hd]
    | ms e => by_cases hr : ready s h = true <;> simp [hr, hd]

/-- What the scan of R305 has found in the first `n` positions. -/
def ScanOk (s : State) (n : Nat) : Option (Nat × Nat) → Prop
  | none => ∀ i, i < n → readyDelay s i = none
  | some (j, d) => j < n ∧ readyDelay s j = some d ∧
      ∀ i e, i < n → readyDelay s i = some e → d ≤ e ∧ (i < j → d < e)

/-- The fold keeps the first smallest delay. -/
theorem scanOk_foldl (s : State) (n : Nat) : ScanOk s n ((List.range n).foldl (scanReady s) none) := by
  induction n with
  | zero => intro i hi; omega
  | succ n ih =>
    rw [List.range_succ, List.foldl_append]
    simp only [List.foldl_cons, List.foldl_nil]
    generalize (List.range n).foldl (scanReady s) none = b at ih
    unfold scanReady
    cases hr : readyDelay s n with
    | none =>
      cases b with
      | none =>
        intro i hi
        by_cases h : i = n
        · rw [h, hr]
        · exact ih i (by omega)
      | some p =>
        obtain ⟨h1, h2, h3⟩ := ih
        refine ⟨by omega, h2, fun i e hi he => ?_⟩
        by_cases h : i = n
        · subst h; simp [hr] at he
        · exact h3 i e (by omega) he
    | some d =>
      cases b with
      | none =>
        refine ⟨by omega, hr, fun i e hi he => ?_⟩
        by_cases h : i = n
        · subst h; rw [hr] at he; cases he; exact ⟨Nat.le_refl _, fun h => absurd h (Nat.lt_irrefl _)⟩
        · have := ih i (by omega); simp [he] at this
      | some p =>
        obtain ⟨h1, h2, h3⟩ := ih
        simp only
        split
        · next hlt =>
          refine ⟨by omega, hr, fun i e hi he => ?_⟩
          by_cases h : i = n
          · subst h; rw [hr] at he; cases he; exact ⟨Nat.le_refl _, fun h => absurd h (Nat.lt_irrefl _)⟩
          · have := (h3 i e (by omega) he).1; omega
        · next hlt =>
          refine ⟨by omega, h2, fun i e hi he => ?_⟩
          by_cases h : i = n
          · subst h; rw [hr] at he; cases he; exact ⟨by omega, fun h => by omega⟩
          · exact h3 i e (by omega) he

theorem selectReady_none {s : State} (h : selectReady s = none) : ∀ i, i < s.q.count → readyDelay s i = none := by
  have := scanOk_foldl s s.q.count
  unfold selectReady at h
  rw [Option.map_eq_none_iff] at h
  rw [h] at this; exact this

theorem selectReady_some {s : State} {j : Nat} (h : selectReady s = some j) :
    j < s.q.count ∧ ∃ d, readyDelay s j = some d ∧
      ∀ i e, i < s.q.count → readyDelay s i = some e → d ≤ e ∧ (i < j → d < e) := by
  have := scanOk_foldl s s.q.count
  unfold selectReady at h
  rw [Option.map_eq_some_iff] at h
  obtain ⟨⟨j', d⟩, h1, h2⟩ := h
  rw [h1] at this
  subst h2
  exact ⟨this.1, d, this.2.1, this.2.2⟩

/-! ### Taking the winner out (R306) -/

@[simp] theorem swapToHead_cfg (s : State) (j : Nat) : (swapToHead s j).cfg = s.cfg := rfl

@[simp] theorem swapToHead_head (s : State) (j : Nat) : (swapToHead s j).q.head = s.q.head := rfl

@[simp] theorem swapToHead_tail (s : State) (j : Nat) : (swapToHead s j).q.tail = s.q.tail := rfl

@[simp] theorem swapToHead_count (s : State) (j : Nat) : (swapToHead s j).q.count = s.q.count := rfl

theorem qPos_swapToHead (s : State) (j i : Nat) : qPos (swapToHead s j) i = qPos s i := rfl

theorem cellAt_swapToHead (s : State) (j p : Nat) : cellAt none (swapToHead s j).q.arr p =
    if p = qPos s j then qItem s 0 else if p = qPos s 0 then qItem s j else cellAt none s.q.arr p := by
  simp only [swapToHead, cellAt_putCell]

theorem qItem_swapToHead {s : State} {i j : Nat} (hi : i < s.cfg.params.queueCap)
    (hj : j < s.cfg.params.queueCap) :
    qItem (swapToHead s j) i = if i = j then qItem s 0 else if i = 0 then qItem s j else qItem s i := by
  show cellAt none (swapToHead s j).q.arr (qPos s i) = _
  rw [cellAt_swapToHead]
  by_cases h1 : i = j
  · simp [h1]
  · rw [if_neg (fun h => h1 (qPos_inj hi hj h)), if_neg h1]
    by_cases h2 : i = 0
    · simp [h2]
    · rw [if_neg (fun h => h2 (qPos_inj hi (by omega) h)), if_neg h2]; rfl

theorem qContent_swapToHead {s : State} (hq : QueueOk s) {j : Nat} (hj : j < s.q.count) :
    qContent (swapToHead s j) = ((qContent s).set 0 (qItem s j)).set j (qItem s 0) := by
  have := hq.count
  apply List.ext_getElem?
  intro i
  rw [getElem?_qContent, List.getElem?_set, List.getElem?_set, swapToHead_count]
  simp only [List.length_set, length_qContent, getElem?_qContent]
  by_cases hi : i < s.q.count
  · rw [if_pos hi, qItem_swapToHead (by omega) (by omega), if_pos hi]
    by_cases h1 : i = j
    · subst h1; simp [hi]
    · have h1' : ¬ j = i := fun h => h1 h.symm
      rw [if_neg h1, if_neg h1']
      by_cases h2 : i = 0
      · subst h2; simp [hi]
      · have h2' : ¬ 0 = i := fun h => h2 h.symm
        rw [if_neg h2, if_neg h2']
  · rw [if_neg hi, if_neg hi]
    have h1' : ¬ j = i := by omega
    have h2' : ¬ (0 = i ∧ True) := by omega
    rw [if_neg h1']
    by_cases h2 : 0 = i
    · subst h2; simp [hi]
    · simp [h2]

theorem queueOk_swapToHead {s : State} (hq : QueueOk s) {j : Nat} (hj : j < s.q.count) :
    QueueOk (swapToHead s j) := by
  have hc := hq.count
  constructor
  · exact hq.cap
  · exact hq.head
  · exact hq.count
  · exact hq.tail
  · intro i hi
    have hi : i < s.q.count := hi
    rw [qItem_swapToHead (by omega) (by omega)]
    split
    · exact hq.occupied 0 (by omega)
    · split
      · exact hq.occupied j hj
      · exact hq.occupied i hi
  · intro p hp
    rw [cellAt_swapToHead, if_neg (fun h => hp j hj h.symm), if_neg (fun h => hp 0 (by simp; omega) h.symm)]
    exact hq.free p hp

theorem cellAt_moved {s : State} (hq : QueueOk s) {j m : Nat} (hm : j + m < s.q.count) (p : Nat) :
    cellAt none ((List.range m).foldl (fun arr k => putCell none arr (qPos s (j + k)) (qItem s (j + k + 1))) s.q.arr) (qPos s p) =
      if p < s.cfg.params.queueCap then (if j ≤ p ∧ p < j + m then qItem s (p + 1) else qItem s p)
      else cellAt none ((List.range m).foldl (fun arr k => putCell none arr (qPos s (j + k)) (qItem s (j + k + 1))) s.q.arr) (qPos s p) := by
  have := hq.count
  split
  · next hp =>
    induction m with
    | zero => rw [if_neg (by omega)]; rfl
    | succ m ih =>
      rw [List.range_succ, List.foldl_append]
      simp only [List.foldl_cons, List.foldl_nil]
      rw [cellAt_putCell]
      by_cases h : p = j + m
      · subst h; simp
      · rw [if_neg (fun he => h (qPos_inj hp (by omega) he)), ih (by omega)]
        by_cases hc : j ≤ p ∧ p < j + m
        · rw [if_pos hc, if_pos ⟨hc.1, by omega⟩]
        · rw [if_neg hc, if_neg (fun hh => hc ⟨hh.1, by omega⟩)]
  · rfl

@[simp] theorem closeGap_cfg (s : State) (j : Nat) : (closeGap s j).cfg = s.cfg := rfl

@[simp] theorem closeGap_head (s : State) (j : Nat) : (closeGap s j).q.head = s.q.head := rfl

@[simp] theorem closeGap_tail (s : State) (j : Nat) : (closeGap s j).q.tail = qPos s (s.q.count - 1) := rfl

@[simp] theorem closeGap_count (s : State) (j : Nat) : (closeGap s j).q.count = s.q.count - 1 := rfl

theorem qPos_closeGap (s : State) (j i : Nat) : qPos (closeGap s j) i = qPos s i := rfl

theorem cellAt_closeGap {s : State} (hq : QueueOk s) {j p : Nat} (hj : j < s.q.count) (hp : p < s.cfg.params.queueCap) :
    cellAt none (closeGap s j).q.arr (qPos s p) =
      if p = s.q.count - 1 then none else if j ≤ p ∧ p < s.q.count - 1 then qItem s (p + 1) else qItem s p := by
  have := hq.count
  simp only [closeGap]
  rw [cellAt_putCell]
  by_cases h : p = s.q.count - 1
  · subst h; simp
  · rw [if_neg (fun he => h (qPos_inj hp (by omega) he)), if_neg h, cellAt_moved hq (by omega), if_pos hp,
        show j + (s.q.count - 1 - j) = s.q.count - 1 by omega]

theorem qContent_closeGap {s : State} (hq : QueueOk s) {j : Nat} (hj : j < s.q.count) :
    qContent (closeGap s j) = (qContent s).eraseIdx j := by
  have := hq.count
  apply List.ext_getElem?
  intro i
  rw [getElem?_qContent, List.getElem?_eraseIdx, getElem?_qContent, getElem?_qContent, closeGap_count]
  by_cases hi : i < s.q.count - 1
  · rw [if_pos hi]
    show some (cellAt none (closeGap s j).q.arr (qPos s i)) = _
    rw [cellAt_closeGap hq hj (by omega), if_neg (by omega)]
    by_cases hji : j ≤ i
    · rw [if_pos ⟨hji, hi⟩, if_neg (by omega), if_pos (by omega)]
    · rw [if_neg (fun h => hji h.1), if_pos (by omega), if_pos (by omega)]
  · rw [if_neg hi]
    by_cases hij : i < j
    · omega
    · rw [if_neg hij, if_neg (by omega)]

theorem queueOk_closeGap {s : State} (hq : QueueOk s) {j : Nat} (hj : j < s.q.count) : QueueOk (closeGap s j) := by
  have hc := hq.count
  constructor
  · exact hq.cap
  · exact hq.head
  · simp; omega
  · rfl
  · intro i hi
    have hi : i < s.q.count - 1 := hi
    show ∃ h, cellAt none (closeGap s j).q.arr (qPos s i) = some h
    rw [cellAt_closeGap hq hj (by omega), if_neg (by omega)]
    split
    · exact hq.occupied _ (by omega)
    · exact hq.occupied _ (by omega)
  · intro p hp
    by_cases hpc : p < s.cfg.params.queueCap
    · obtain ⟨i, hi, rfl⟩ := exists_index hq hpc
      rw [cellAt_closeGap hq hj hi]
      split
      · rfl
      · next hne =>
        have hge : ¬ i < s.q.count - 1 := fun h => hp i h rfl
        rw [if_neg (fun h => hge h.2)]
        exact cellAt_free hq (by omega) hi
    · simp only [closeGap]
      rw [cellAt_putCell]
      split
      · rfl
      · have : ∀ m, cellAt none ((List.range m).foldl (fun arr k => putCell none arr (qPos s (j + k)) (qItem s (j + k + 1))) s.q.arr) p
            = cellAt none s.q.arr p := by
          intro m
          induction m with
          | zero => rfl
          | succ m ih =>
            rw [List.range_succ, List.foldl_append]
            simp only [List.foldl_cons, List.foldl_nil]
            rw [cellAt_putCell_ne, ih]
            rintro rfl; exact hpc (qPos_lt hq _)
        rw [this]; exact cellAt_out hq (by omega)

theorem qPopReady_none {s : State} (h : selectReady s = none) : qPopReady s = (s, none) := by simp [qPopReady, h]

/-- R306: the winner, the content without it, nothing else changed. -/
theorem qPopReady_some {s : State} (hq : QueueOk s) {j : Nat} (h : selectReady s = some j) :
    (qPopReady s).2 = qItem s j ∧ QueueOk (qPopReady s).1 ∧
    qContent (qPopReady s).1 = (match s.cfg.params.removeMode with
      | .swap => ((qContent s).set j ((qContent s).getD 0 none)).drop 1
      | .rotate => (qContent s).eraseIdx j) ∧
    { (qPopReady s).1 with q := s.q } = s := by
  have hj := (selectReady_some h).1
  have hcnt := hq.count
  have hg : (qContent s).getD 0 none = qItem s 0 := by
    rw [List.getD_eq_getElem?_getD, getElem?_qContent, if_pos (by omega)]; rfl
  rw [hg]
  unfold qPopReady
  rw [h]
  cases s.cfg.params.removeMode with
  | rotate => exact ⟨rfl, queueOk_closeGap hq hj, qContent_closeGap hq hj, rfl⟩
  | swap =>
    have hne : (swapToHead s j).q.count ≠ 0 := by simp; omega
    refine ⟨?_, queueOk_qPop (queueOk_swapToHead hq hj), ?_, ?_⟩
    · rw [qPop_head (queueOk_swapToHead hq hj) hne, qItem_swapToHead (by omega) (by omega)]
      by_cases h0 : 0 = j
      · subst h0; simp
      · simp [h0]
    · rw [qContent_qPop (queueOk_swapToHead hq hj) hne, qContent_swapToHead hq hj]
      cases hl : qContent s with
      | nil => rw [← length_qContent, hl] at hj; simp at hj
      | cons a l => cases j <;> simp
    · exact (qPop_frame (swapToHead s j) s).trans rfl

/-! ### Releasing (R308, R387) -/

theorem slotAt_releaseAll (hs : List Nat) (s : State) (k : Nat) :
    slotAt (releaseAll hs s) k = if k ∈ hs then Slot.cleared else slotAt s k := by
  induction hs generalizing s with
  | nil => simp [releaseAll]
  | cons a hs ih =>
    have : releaseAll (a :: hs) s = releaseAll hs (release a s) := rfl
    rw [this, ih, slotAt_release]
    by_cases h1 : k ∈ hs <;> by_cases h2 : k = a <;> simp [h1, h2]

theorem releaseAll_eq (hs : List Nat) (s : State) : { releaseAll hs s with pool := s.pool } = s := by
  induction hs generalizing s with
  | nil => rfl
  | cons a hs ih =>
    have h1 : releaseAll (a :: hs) s = releaseAll hs (release a s) := rfl
    have h2 := ih (release a s)
    rw [h1]
    have h3 := congrArg (fun t : State => { t with pool := s.pool }) h2
    exact h3

end Sys2Proof.Machine
end

