-- ==== Sys2Proof/Laws/Check.lean ====
section
/-! SUPPORT. The invariants of Safety.lean as computations over what a state lists: a check that answers true gives the
invariant, for every handle, position and index. -/

namespace Sys2Proof.Machine

variable {α : Type}

theorem forall_cellAt {d : α} {m : SMap α} {P : α → Prop} (hd : P d) (hm : ∀ c ∈ m, P c.2) (k : Nat) : P (cellAt d m k) := by
  by_cases h : cellAt d m k = d
  · rw [h]; exact hd
  · exact hm _ (mem_of_cellAt_ne h)

theorem mem_of_cellAt_some {m : SMap (Option Nat)} {k h : Nat} (e : cellAt none m k = some h) : (k, some h) ∈ m := by
  have := mem_of_cellAt_ne (d := none) (m := m) (k := k) (by rw [e]; simp)
  rwa [e] at this

/-- The queue's invariants, over the positions the array lists. -/
def queueCheck (s : State) : Bool :=
  decide (s.q.head < s.cfg.params.queueCap) && decide (s.q.count ≤ s.cfg.params.queueCap) &&
  decide (s.q.tail = (s.q.head + s.q.count) % s.cfg.params.queueCap) &&
  decide (∀ i < s.q.count, (qItem s i).isSome = true) &&
  decide (∀ c ∈ s.q.arr, (∀ i < s.q.count, qPos s i ≠ c.1) → cellAt none s.q.arr c.1 = none)

theorem queueOk_of_check {s : State} (h : queueCheck s = true) : QueueOk s := by
  simp only [queueCheck, Bool.and_eq_true, decide_eq_true_eq] at h
  obtain ⟨⟨⟨⟨h2, h3⟩, h4⟩, h5⟩, h6⟩ := h
  refine ⟨by omega, h2, h3, h4, fun i hi => Option.isSome_iff_exists.mp (h5 i hi), fun p hp => ?_⟩
  by_cases hn : cellAt none s.q.arr p = none
  · exact hn
  · exact h6 _ (mem_of_cellAt_ne hn) hp

/-- The entries of two containers: the same handle only at the same place. -/
def onceCheck (m : SMap (Option Nat)) : Bool := decide (∀ c ∈ m, ∀ c' ∈ m, c.2 = c'.2 → c.2 ≠ none → c.1 = c'.1)

def holdableCheck (s : State) (v : Option Nat) : Bool :=
  match v with
  | none => true
  | some h => slotExists s h && (slotAt s h).inuse

def awaitingCheck (s : State) : Bool :=
  match s.eng.state with
  | .receive => s.eng.pending.isSome
  | .headChecked => s.eng.pending.isSome
  | _ => s.eng.pending.isNone

def containersCheck (s : State) : Bool :=
  s.q.arr.all (fun c => holdableCheck s c.2) && s.sb.all (fun c => holdableCheck s c.2) &&
  holdableCheck s s.eng.pending && onceCheck s.q.arr && onceCheck s.sb &&
  decide (∀ c ∈ s.q.arr, ∀ c' ∈ s.sb, c.2 = c'.2 → c.2 = none) &&
  decide (∀ c ∈ s.q.arr, c.2 = s.eng.pending → c.2 = none) && decide (∀ c ∈ s.sb, c.2 = s.eng.pending → c.2 = none) &&
  decide (s.cfg.params.transport = .rtu → ∀ c ∈ s.sb, c.2 = none) &&
  decide (s.cfg.params.transport = .tcp → s.eng.pending = none) && awaitingCheck s

theorem containersOk_of_check {s : State} (h : containersCheck s = true) : ContainersOk s := by
  simp only [containersCheck, onceCheck, Bool.and_eq_true, decide_eq_true_eq, List.all_eq_true] at h
  obtain ⟨⟨⟨⟨⟨⟨⟨⟨⟨⟨h1, h2⟩, h3⟩, h4⟩, h5⟩, h6⟩, h7⟩, h8⟩, h9⟩, h10⟩, h11⟩ := h
  have hold : ∀ {h}, holdableCheck s (some h) = true → Holdable s h := fun e => by
    simpa [holdableCheck, Holdable] using e
  refine ⟨fun p k e => hold (h1 _ (mem_of_cellAt_some e)), fun p k e => hold (h2 _ (mem_of_cellAt_some e)),
    fun k e => hold (by have := h3; rwa [show s.eng.pending = some k from e] at this),
    fun p p' k e e' => h4 _ (mem_of_cellAt_some e) _ (mem_of_cellAt_some e') rfl (by simp),
    fun p p' k e e' => h5 _ (mem_of_cellAt_some e) _ (mem_of_cellAt_some e') rfl (by simp),
    fun p i k e e' => by simpa using h6 _ (mem_of_cellAt_some e) _ (mem_of_cellAt_some e') rfl,
    fun p k e e' => by simpa using h7 _ (mem_of_cellAt_some e) e'.symm,
    fun p k e e' => by simpa using h8 _ (mem_of_cellAt_some e) e'.symm,
    fun tr i => ?_, h10, ?_⟩
  · by_cases hn : cellAt none s.sb i = none
    · exact hn
    · exact h9 tr _ (mem_of_cellAt_ne hn)
  · unfold awaitingCheck at h11
    cases hst : s.eng.state <;> simp only [hst] at h11 <;> simp_all

def slotCheck (c : Cfg) (x : Slot) : Bool :=
  slotFits c x && below c.bufCap x.tx && below c.bufCap x.rx && below (c.hdr + 7) x.tmpl

def boundsCheck (s : State) : Bool :=
  slotCheck s.cfg Slot.cleared && s.pool.all (fun c => slotCheck s.cfg c.2) &&
  below s.cfg.params.poolCap s.pool && below s.cfg.params.sentCap s.sb

theorem boundsOk_of_check {s : State} (h : boundsCheck s = true) : BoundsOk s := by
  simp only [boundsCheck, Bool.and_eq_true, List.all_eq_true] at h
  obtain ⟨⟨⟨h1, h2⟩, h3⟩, h4⟩ := h
  have hall : ∀ k, slotCheck s.cfg (slotAt s k) = true := forall_cellAt (P := fun x => slotCheck s.cfg x = true) h1 h2
  simp only [slotCheck, Bool.and_eq_true] at hall
  exact ⟨fun k => (hall k).1.1.1, fun k => (hall k).1.1.2, fun k => (hall k).1.2, fun k => (hall k).2, h3, h4⟩

/-- The invariant of the block, as a computation. -/
def soundCheck (s : State) : Bool :=
  legal s.cfg.params && decide (s.cfg = cfgOf s.cfg.params) && queueCheck s && containersCheck s && boundsCheck s

theorem sound_of_check {s : State} (h : soundCheck s = true) : Sound s := by
  simp only [soundCheck, Bool.and_eq_true, decide_eq_true_eq] at h
  obtain ⟨⟨⟨⟨h1, h2⟩, h3⟩, h4⟩, h5⟩ := h
  exact ⟨⟨h1, h2⟩, queueOk_of_check h3, containersOk_of_check h4, boundsOk_of_check h5⟩

def canonicalCheck (s : State) : Bool :=
  canonical Slot.cleared s.pool &&
  s.pool.all (fun c => Memory.wf c.2.tx && Memory.wf c.2.rx && Memory.wf c.2.tmpl) &&
  canonical none s.q.arr && canonical none s.sb && canonical SlaveSet.cleared s.hostSets

theorem canonical_of_check {s : State} (h : canonicalCheck s = true) : Canonical s := by
  simp only [canonicalCheck, Bool.and_eq_true, List.all_eq_true] at h
  obtain ⟨⟨⟨⟨h1, h2⟩, h3⟩, h4⟩, h5⟩ := h
  exact ⟨h1, forall_cellAt (P := BuffersCanonical) ⟨rfl, rfl, rfl⟩ (fun c hc => ⟨(h2 c hc).1.1, (h2 c hc).1.2, (h2 c hc).2⟩),
    h3, h4, h5⟩

def setCheck (x : SlaveSet) : Bool :=
  (List.range 8).all (fun a => !member x (248 + a)) &&
  (match x.active with
   | .addr a => decide (a ≤ 247)
   | _ => true)

theorem setOk_of_check {x : SlaveSet} (h : setCheck x = true) : SetOk x := by
  simp only [setCheck, Bool.and_eq_true, List.all_eq_true, List.mem_range, Bool.not_eq_true'] at h
  refine ⟨fun a ha => ?_, fun a ha => ?_⟩
  · by_cases hb : a < 256
    · have := h.1 (a - 248) (by omega)
      rwa [show 248 + (a - 248) = a by omega] at this
    · exact BitVec.getLsbD_of_ge x.bits a (by omega)
  · have := h.2; rw [ha] at this; simpa using this

def setsCheck (s : State) : Bool := s.pool.all (fun c => setCheck c.2.ss) && s.hostSets.all (fun c => setCheck c.2)

theorem setsOk_of_check {s : State} (h : setsCheck s = true) : SetsOk s := by
  simp only [setsCheck, Bool.and_eq_true, List.all_eq_true] at h
  have hc : SetOk SlaveSet.cleared := ⟨fun a _ => by simp [member, SlaveSet.cleared], fun a ha => by simp [SlaveSet.cleared] at ha⟩
  exact ⟨forall_cellAt (P := fun x : Slot => SetOk x.ss) hc (fun c h' => setOk_of_check (h.1 c h')),
    forall_cellAt (P := SetOk) hc (fun c h' => setOk_of_check (h.2 c h'))⟩

def windowsCheck (s : State) : Bool := s.pool.all (fun c => decide (c.2.winLen = 0))

theorem windowsClosed_of_check {s : State} (h : windowsCheck s = true) : WindowsClosed s := by
  simp only [windowsCheck, List.all_eq_true, decide_eq_true_eq] at h
  exact forall_cellAt (P := fun x : Slot => x.winLen = 0) rfl h

def delayCheck (c : Cfg) : Delay → Bool
  | .ms d => decide (d < c.span)
  | .never => true

def slotTimesCheck (c : Cfg) (x : Slot) : Bool :=
  decide (x.qtime < c.span) && decide (x.stime < c.span) && delayCheck c x.delay

def timesCheck (s : State) : Bool :=
  decide (s.nowMs < s.cfg.span) && decide (s.nowUs < s.cfg.span) && decide (s.eng.idleT < s.cfg.span) &&
  decide (s.eng.byteT < s.cfg.span) && slotTimesCheck s.cfg Slot.cleared &&
  s.pool.all (fun c => slotTimesCheck s.cfg c.2)

theorem timesOk_of_check {s : State} (h : timesCheck s = true) : TimesOk s := by
  simp only [timesCheck, Bool.and_eq_true, List.all_eq_true, decide_eq_true_eq] at h
  obtain ⟨⟨⟨⟨⟨h1, h2⟩, h3⟩, h4⟩, h5⟩, h6⟩ := h
  have hall : ∀ k, slotTimesCheck s.cfg (slotAt s k) = true :=
    forall_cellAt (P := fun x => slotTimesCheck s.cfg x = true) h5 h6
  simp only [slotTimesCheck, Bool.and_eq_true, decide_eq_true_eq] at hall
  refine ⟨⟨h1, h2⟩, ⟨h3, h4⟩, fun k => (hall k).1, fun k d hd => ?_⟩
  have := (hall k).2
  rw [hd] at this; exact of_decide_eq_true this

end Sys2Proof.Machine
end

