-- ==== Sys2Proof/Laws/Codec.lean ====
section
/-! SUPPORT. What each reader of Decode.lean reads back from the bytes its writer puts: one lemma per reader, with the
bytes that follow left over. -/

namespace Sys2Proof

theorem rdThen_ok {α β : Type} {q : Reader α} {p : Reader (α → β)} {f : α → β} {a : α} {r r' r'' : List Byte}
    (hp : p r = .ok (f, r')) (hq : q r' = .ok (a, r'')) : rdThen q p r = .ok (f a, r'') := by
  simp [rdThen, hp, hq]

theorem rdMap_ok {α β : Type} {q : Reader α} {f : α → β} {a : α} {r r' : List Byte} (hq : q r = .ok (a, r')) :
    rdMap f q r = .ok (f a, r') := rdThen_ok rfl hq

theorem length_putNat (k v : Nat) : (putNat k v).length = k := by
  induction k with
  | zero => rfl
  | succ k ih => simp [putNat, ih]

theorem rdNatFrom_putNat (k v acc : Nat) (r : List Byte) (hv : v < 256 ^ k) :
    rdNatFrom acc k (putNat k v ++ r) = .ok (acc * 256 ^ k + v, r) := by
  induction k generalizing v acc with
  | zero => simp at hv; subst hv; simp [putNat, rdNatFrom]
  | succ k ih =>
    have hp : 0 < 256 ^ k := Nat.pos_of_ne_zero (by simp)
    have hq : v / 256 ^ k < 256 := by
      rw [Nat.div_lt_iff_lt_mul hp]; rw [Nat.pow_succ] at hv; omega
    have hsplit := Nat.div_add_mod v (256 ^ k)
    have hmod := Nat.mod_lt v hp
    have hput : putNat k v = putNat k (v % 256 ^ k) := by
      clear ih hv hq hsplit hmod hp
      suffices H : ∀ j, j ≤ k → putNat j v = putNat j (v % 256 ^ k) from H k (Nat.le_refl k)
      intro j
      induction j with
      | zero => intro; rfl
      | succ j ihj =>
        intro hj
        have hdvd : 256 ^ k = 256 ^ j * (256 * 256 ^ (k - (j + 1))) := by
          rw [← Nat.mul_assoc, ← Nat.pow_succ, ← Nat.pow_add]; congr 1; omega
        rw [putNat, putNat, ihj (by omega)]
        congr 1
        apply BitVec.eq_of_toNat_eq
        simp only [BitVec.toNat_ofNat]
        rw [hdvd, Nat.mod_mul_right_div_self]
        exact (Nat.mod_mod_of_dvd _ ⟨256 ^ (k - (j + 1)), rfl⟩).symm
    rw [putNat, List.cons_append, rdNatFrom, hput, ih _ _ hmod]
    have : (BitVec.ofNat 8 (v / 256 ^ k)).toNat = v / 256 ^ k := by
      simp [Nat.mod_eq_of_lt hq]
    rw [this]
    congr 2
    rw [Nat.pow_succ]
    generalize 256 ^ k = m at *
    have : (256 * acc + v / m) * m = acc * (m * 256) + m * (v / m) := by
      rw [Nat.add_mul, Nat.mul_comm (v / m) m, Nat.mul_comm 256 acc, Nat.mul_assoc, Nat.mul_comm 256 m]
    omega

theorem rdNat_putNat (k v : Nat) (r : List Byte) (hv : v < 256 ^ k) : rdNat k (putNat k v ++ r) = .ok (v, r) := by
  rw [rdNat, rdNatFrom_putNat k v 0 r hv]; simp

theorem rdNat1_put (v : Nat) (r : List Byte) (hv : v < 256) : rdNat 1 (putNat 1 v ++ r) = .ok (v, r) :=
  rdNat_putNat 1 v r (by simpa using hv)

theorem rdNat2_put (v : Nat) (r : List Byte) (hv : fits16 v = true) : rdNat 2 (putNat 2 v ++ r) = .ok (v, r) :=
  rdNat_putNat 2 v r (by simpa [fits16] using hv)

theorem rdNat4_put (v : Nat) (r : List Byte) (hv : fits32 v = true) : rdNat 4 (putNat 4 v ++ r) = .ok (v, r) :=
  rdNat_putNat 4 v r (by simpa [fits32] using hv)

theorem rdNat8_put (v : Nat) (r : List Byte) (hv : fits64 v = true) : rdNat 8 (putNat 8 v ++ r) = .ok (v, r) :=
  rdNat_putNat 8 v r (by simpa [fits64] using hv)

theorem rdByte_put (b : Byte) (r : List Byte) : rdByte (b :: r) = .ok (b, r) := rfl

theorem rdHalf_put (v : Half) (r : List Byte) : rdHalf (putHalf v ++ r) = .ok (v, r) := by
  rw [rdHalf, putHalf, rdMap_ok (rdNat_putNat 2 v.toNat r v.isLt)]; simp

theorem rdBool_put (b : Bool) (r : List Byte) : rdBool (putBool b ++ r) = .ok (b, r) := by
  cases b <;> rfl

theorem rdMany_put {α : Type} {q : Reader α} {put : α → List Byte} (l : List α) (r : List Byte)
    (h : ∀ a ∈ l, ∀ r, q (put a ++ r) = .ok (a, r)) : rdMany q l.length (l.flatMap put ++ r) = .ok (l, r) := by
  induction l with
  | nil => rfl
  | cons a l ih =>
    simp only [List.length_cons, List.flatMap_cons, List.append_assoc, rdMany]
    simp only [h a (by simp), ih (fun b hb => h b (by simp [hb]))]

theorem rdList_put {α : Type} {q : Reader α} {put : α → List Byte} (l : List α) (r : List Byte)
    (hlen : fits16 l.length = true) (h : ∀ a ∈ l, ∀ r, q (put a ++ r) = .ok (a, r)) :
    rdList q (putList put l ++ r) = .ok (l, r) := by
  rw [rdList, putList, List.append_assoc, rdNat2_put _ _ hlen]; exact rdMany_put l r h

theorem rdBytes_put (l : List Byte) (r : List Byte) (hlen : fits16 l.length = true) :
    rdBytes (putBytes l ++ r) = .ok (l, r) := rdList_put l r hlen (fun _ _ _ => rfl)

theorem rdBits_put (l : List Bool) (r : List Byte) (hlen : fits16 l.length = true) :
    rdList rdBool (putList putBool l ++ r) = .ok (l, r) := rdList_put l r hlen (fun b _ r => rdBool_put b r)

theorem rdVals_put (es : Nat) (vals : List Nat) (r : List Byte) (hv : valsWf es vals = true) :
    rdVals (putVals es vals ++ r) = .ok ((es, vals), r) := by
  simp only [valsWf, Bool.and_eq_true, decide_eq_true_eq, List.all_eq_true] at hv
  obtain ⟨⟨hes, hlen⟩, hall⟩ := hv
  rw [rdVals, putVals, List.append_assoc, rdNat1_put _ _ hes]
  exact rdMap_ok (rdList_put vals r hlen (fun v hv r => rdNat_putNat es v r (hall v hv)))

theorem rdTarget_put (t : Target) (r : List Byte) (h : t.wf = true) : rdTarget (putTarget t ++ r) = .ok (t, r) := by
  cases t with
  | unit u => rfl
  | set k =>
    simp only [rdTarget, putTarget, List.append_assoc, rdBool_put]
    exact rdMap_ok (rdNat2_put k r h)

theorem rdSs_put (t : SsRef) (r : List Byte) (h : t.wf = true) : rdSs (putSs t ++ r) = .ok (t, r) := by
  cases t with
  | host k =>
    simp only [rdSs, putSs, List.append_assoc, rdBool_put]
    exact rdMap_ok (rdNat2_put k r h)
  | slot k =>
    simp only [rdSs, putSs, List.append_assoc, rdBool_put]
    exact rdMap_ok (rdNat2_put k r h)

theorem rdOptHandle_none (r : List Byte) : rdOptHandle (putOptHandle none ++ r) = .ok (none, r) := rfl

theorem rdOptHandle_some (k : Nat) (r : List Byte) (h : fits16 k = true) :
    rdOptHandle (putOptHandle (some k) ++ r) = .ok (some k, r) := by
  simp only [rdOptHandle, putOptHandle, List.append_assoc, rdBool_put]
  exact rdMap_ok (rdNat2_put k r h)

theorem intOf_emod (i : Int) (h : fitsDelay i = true) : intOf (i % 18446744073709551616).toNat = i := by
  simp only [fitsDelay, Bool.and_eq_true, decide_eq_true_eq] at h
  unfold intOf
  split <;> omega

theorem rdInt_put (i : Int) (r : List Byte) (h : fitsDelay i = true) : rdInt (putInt i ++ r) = .ok (i, r) := by
  rw [rdInt, putInt, rdMap_ok (rdNat_putNat 8 _ r (by omega)), intOf_emod i h]

theorem rdFailCode_put (e : FailCode) (r : List Byte) : rdFailCode (failCodeByte e :: r) = .ok (e, r) := by
  cases e <;> rfl

theorem rdTransport_put (t : Transport) (r : List Byte) :
    rdMap transportOf rdBool (putBool (transportFlag t) ++ r) = .ok (t, r) := by cases t <;> rfl

theorem rdRemoveMode_put (m : RemoveMode) (r : List Byte) :
    rdMap removeModeOf rdBool (putBool (removeModeFlag m) ++ r) = .ok (m, r) := by cases m <;> rfl

theorem rdParamsFull_put (p : Params) (r : List Byte) (h : p.wf = true) :
    rdParamsFull (putParamsFull p ++ r) = .ok (p, r) := by
  simp only [Params.wf, Bool.and_eq_true] at h
  obtain ⟨⟨⟨⟨⟨⟨⟨⟨⟨⟨h1, h2⟩, h3⟩, h4⟩, h5⟩, h6⟩, h7⟩, h8⟩, h9⟩, h10⟩, h11⟩ := h
  simp only [rdParamsFull, putParamsFull, List.append_assoc]
  simp only [rdThen, rdPure, rdTransport_put, rdBool_put, rdRemoveMode_put, rdNat4_put _ _ h1, rdNat4_put _ _ h2,
    rdNat4_put _ _ h3, rdNat4_put _ _ h4, rdNat4_put _ _ h5, rdNat4_put _ _ h6, rdNat4_put _ _ h7, rdNat4_put _ _ h8,
    rdNat8_put _ _ h9, rdNat4_put _ _ h10, rdNat2_put _ _ h11]

theorem rdParams_put (p : Params) (r : List Byte) (h : p.wf = true) : rdParams (putParams p ++ r) = .ok (p, r) := by
  unfold putParams
  split
  · next hp => subst hp; rfl
  · simp only [rdParams, List.append_assoc, rdBool_put]
    exact rdParamsFull_put p r h

/-- The front of a command read through the operands of its class and number; `r` is what follows it. -/
theorem front_of_operands {i : Instr} {p : Reader Instr} {r : List Byte}
    (hop : operandsOf i.parts.2.1 i.parts.1 = some p) (hp : p (i.parts.2.2 ++ r) = .ok (i, r)) :
    decodeFront (encode i ++ r) = .ok (i, r) := by
  simp [decodeFront, encode, hop, hp]

/-- A command whose front reads back is decoded to its instruction, whatever zeros follow it. -/
theorem decode_of_front {i : Instr} {n : Nat}
    (h : decodeFront (encode i ++ List.replicate n 0#8) = .ok (i, List.replicate n 0#8)) :
    decode (encode i ++ List.replicate n 0#8) = .ok i := by
  simp [decode, h]

/-- Reading any row back: the class and number select `p`, and `p` reads the operand bytes. -/
theorem decode_of_operands {i : Instr} {p : Reader Instr} {n : Nat}
    (hop : operandsOf i.parts.2.1 i.parts.1 = some p)
    (hp : p (i.parts.2.2 ++ List.replicate n 0#8) = .ok (i, List.replicate n 0#8)) :
    decode (encode i ++ List.replicate n 0#8) = .ok i := decode_of_front (front_of_operands hop hp)

/-! ### What a reader gives -/

/-- Everything `q` reads satisfies `Q`. -/
def Reads {α : Type} (Q : α → Prop) (q : Reader α) : Prop := ∀ r a r', q r = .ok (a, r') → Q a

theorem Reads.pure {α : Type} {Q : α → Prop} {a : α} (h : Q a) : Reads Q (rdPure a) := by
  intro r b r' e; cases e; exact h

theorem Reads.comp {α β : Type} {A : α → Prop} {Q : β → Prop} {q : Reader α} {p : Reader (α → β)} (hq : Reads A q)
    (hp : Reads (fun f => ∀ a, A a → Q (f a)) p) : Reads Q (rdThen q p) := by
  intro r b r' e
  unfold rdThen at e
  split at e
  · cases e
  · next f r1 hf =>
    split at e
    · cases e
    · next a r2 ha => cases e; exact hp _ _ _ hf _ (hq _ _ _ ha)

theorem Reads.map {α β : Type} {A : α → Prop} {Q : β → Prop} {q : Reader α} {f : α → β} (hq : Reads A q)
    (hf : ∀ a, A a → Q (f a)) : Reads Q (rdMap f q) := Reads.comp hq (Reads.pure hf)

theorem Reads.any {α : Type} (q : Reader α) : Reads (fun _ => True) q := fun _ _ _ _ => trivial

theorem reads_natFrom (k acc : Nat) (r : List Byte) (v : Nat) (r' : List Byte) (e : rdNatFrom acc k r = .ok (v, r')) :
    v < (acc + 1) * 256 ^ k := by
  induction k generalizing acc r with
  | zero => cases e; simp
  | succ k ih =>
    cases r with
    | nil => cases e
    | cons b r =>
      have := ih _ r e
      have hb := b.isLt
      calc v < (256 * acc + b.toNat + 1) * 256 ^ k := this
        _ ≤ (256 * (acc + 1)) * 256 ^ k := Nat.mul_le_mul_right _ (by omega)
        _ = (acc + 1) * 256 ^ (k + 1) := by rw [Nat.pow_succ]; ring

theorem reads_nat (k : Nat) : Reads (fun v => v < 256 ^ k) (rdNat k) := by
  intro r v r' e; simpa using reads_natFrom k 0 r v r' e

theorem reads_nat1 : Reads (fun v => v < 256) (rdNat 1) := reads_nat 1

theorem reads_nat2 : Reads (fun v => fits16 v = true) (rdNat 2) := by
  intro r v r' e; simpa [fits16] using reads_nat 2 r v r' e

theorem reads_nat4 : Reads (fun v => fits32 v = true) (rdNat 4) := by
  intro r v r' e; simpa [fits32] using reads_nat 4 r v r' e

theorem reads_nat8 : Reads (fun v => fits64 v = true) (rdNat 8) := by
  intro r v r' e; simpa [fits64] using reads_nat 8 r v r' e

theorem reads_int : Reads (fun i => fitsDelay i = true) rdInt :=
  Reads.map (reads_nat 8) (fun n hn => by
    have hn : n < 18446744073709551616 := hn
    unfold intOf
    split <;> simp only [fitsDelay, Bool.and_eq_true, decide_eq_true_eq] <;> omega)

theorem reads_many {α : Type} {A : α → Prop} {q : Reader α} (hq : Reads A q) (n : Nat) :
    Reads (fun l => l.length = n ∧ ∀ a ∈ l, A a) (rdMany q n) := by
  induction n with
  | zero => intro r l r' e; cases e; simp
  | succ n ih =>
    intro r l r' e
    unfold rdMany at e
    split at e
    · cases e
    · next a r1 ha =>
      split at e
      · cases e
      · next as r2 has =>
        cases e
        obtain ⟨h1, h2⟩ := ih _ _ _ has
        simp only [List.length_cons, h1, List.mem_cons, true_and]
        rintro b (rfl | hb)
        · exact hq _ _ _ ha
        · exact h2 b hb

theorem reads_list {α : Type} {A : α → Prop} {q : Reader α} (hq : Reads A q) :
    Reads (fun l => fits16 l.length = true ∧ ∀ a ∈ l, A a) (rdList q) := by
  intro r l r' e
  unfold rdList at e
  split at e
  · cases e
  · next n r1 hn =>
    obtain ⟨h1, h2⟩ := reads_many hq n _ _ _ e
    exact ⟨by rw [h1]; exact reads_nat2 _ _ _ hn, h2⟩

theorem reads_bytes : Reads (fun l => fits16 l.length = true) rdBytes :=
  fun _ _ _ e => (reads_list (Reads.any rdByte) _ _ _ e).1

theorem reads_bits : Reads (fun l => fits16 l.length = true) (rdList rdBool) :=
  fun _ _ _ e => (reads_list (Reads.any rdBool) _ _ _ e).1

theorem reads_vals : Reads (fun ev => valsWf ev.1 ev.2 = true) rdVals := by
  intro r ev r' e
  unfold rdVals at e
  split at e
  · cases e
  · next es r1 hes =>
    refine Reads.map (Q := fun ev : Nat × List Nat => valsWf ev.1 ev.2 = true) (reads_list (reads_nat es)) (fun l hl => ?_) _ _ _ e
    have := reads_nat1 _ _ _ hes
    simp only [valsWf, Bool.and_eq_true, decide_eq_true_eq, List.all_eq_true]
    exact ⟨⟨this, hl.1⟩, hl.2⟩

theorem reads_target : Reads (fun t => t.wf = true) rdTarget := by
  intro r t r' e
  unfold rdTarget at e
  split at e
  · cases e
  · exact Reads.map (Q := fun t : Target => t.wf = true) (Reads.any rdByte) (fun _ _ => rfl) _ _ _ e
  · exact Reads.map (Q := fun t : Target => t.wf = true) reads_nat2 (fun _ h => by exact h) _ _ _ e

theorem reads_ss : Reads (fun t => t.wf = true) rdSs := by
  intro r t r' e
  unfold rdSs at e
  split at e
  · cases e
  · exact Reads.map (Q := fun t : SsRef => t.wf = true) reads_nat2 (fun _ h => by exact h) _ _ _ e
  · exact Reads.map (Q := fun t : SsRef => t.wf = true) reads_nat2 (fun _ h => by exact h) _ _ _ e

theorem reads_optHandle : Reads (fun o => (Instr.qAdd o).wf = true) rdOptHandle := by
  intro r t r' e
  unfold rdOptHandle at e
  split at e
  · cases e
  · cases e; rfl
  · exact Reads.map (Q := fun o : Option Nat => (Instr.qAdd o).wf = true) reads_nat2 (fun _ h => by exact h) _ _ _ e

theorem reads_paramsFull : Reads (fun p => p.wf = true) rdParamsFull := by
  unfold rdParamsFull
  refine reads_nat2.comp ((Reads.any _).comp (reads_nat4.comp ((Reads.any _).comp (reads_nat8.comp (reads_nat4.comp
    (reads_nat4.comp (reads_nat4.comp (reads_nat4.comp (reads_nat4.comp (reads_nat4.comp (reads_nat4.comp (reads_nat4.comp
    ((Reads.any _).comp (Reads.pure ?_))))))))))))))
  intros; simp_all [Params.wf]

theorem reads_params : Reads (fun p => p.wf = true) rdParams := by
  intro r t r' e
  unfold rdParams at e
  split at e
  · cases e
  · cases e; decide
  · exact reads_paramsFull _ _ _ e

/-- Every row of the table reads well-formed operations only. -/
theorem row_wf : ∀ row ∈ table, Reads (fun i => i.wf = true) row.operands := by
  simp only [table, buildRows, frameOpRows, ssRows, blockRows, responseRows, formatRows, List.cons_append, List.nil_append,
    List.forall_mem_cons, List.not_mem_nil, false_imp_iff, implies_true, and_true]
  repeat' apply And.intro
  all_goals
    repeat first
      | refine Reads.pure ?_
      | refine reads_nat1.comp ?_
      | refine reads_nat2.comp ?_
      | refine reads_nat8.comp ?_
      | refine reads_int.comp ?_
      | refine reads_target.comp ?_
      | refine reads_ss.comp ?_
      | refine reads_vals.comp ?_
      | refine reads_bytes.comp ?_
      | refine reads_bits.comp ?_
      | refine reads_optHandle.comp ?_
      | refine reads_params.comp ?_
      | refine (Reads.any _).comp ?_
  all_goals (intros; simp_all [Instr.wf])

theorem findRow_mem {cls num : Byte} {rows : List Row} {p : Reader Instr} (h : findRow cls num rows = some p) :
    ∃ row ∈ rows, row.operands = p := by
  induction rows with
  | nil => cases h
  | cons row rows ih =>
    unfold findRow at h
    split at h
    · cases h; exact ⟨row, by simp, rfl⟩
    · obtain ⟨r, hr, e⟩ := ih h; exact ⟨r, by simp [hr], e⟩

theorem operands_wf {cls num : Byte} {p : Reader Instr} (h : operandsOf cls num = some p) :
    Reads (fun i => i.wf = true) p := by
  unfold operandsOf at h
  split at h
  · split at h
    · cases h
    · next hs =>
      cases h
      exact reads_nat2.comp (reads_target.comp (Reads.pure (fun t ht k hk => by simp_all [Instr.wf])))
  · obtain ⟨row, hr, e⟩ := findRow_mem h
    rw [← e]; exact row_wf row hr

/-- The decoder gives well-formed operations only. -/
theorem decode_wf {l : List Byte} {i : Instr} (h : decode l = .ok i) : i.wf = true := by
  unfold decode at h
  split at h
  · cases h
  · next j r hf =>
    split at h
    · cases h
      unfold decodeFront at hf
      split at hf
      · split at hf
        · cases hf
        · next p hp => exact operands_wf hp _ _ _ hf
      · cases hf
    · cases h

end Sys2Proof
end

