-- ==== Sys2Proof/Laws/Operands.lean ====
section
/-! SUPPORT. The operand forms and the tests of the status: what each gives. -/

namespace Sys2Proof.Machine

/-! ### Numbers and byte sequences (R11, R12) -/

theorem uNbe_two (a b : Byte) : uNbe [a, b] = 256 * a.toNat + b.toNat := by simp [uNbe]

/-- R12: the value of two sequences, one behind the other. -/
theorem uNbe_append (l m : List Byte) : uNbe (l ++ m) = uNbe l * 256 ^ m.length + uNbe m := by
  unfold uNbe
  rw [List.foldl_append]
  generalize List.foldl (fun acc b => 256 * acc + b.toNat) 0 l = a
  induction m generalizing a with
  | nil => simp
  | cons b m ih =>
    simp only [List.foldl_cons, List.length_cons]
    rw [ih, ih (256 * 0 + b.toNat), Nat.pow_succ]
    ring

theorem length_beN (v n : Nat) : (beN v n).length = n := by induction n with
  | zero => rfl
  | succ n ih => simp [beN, ih]

/-- R12: `beN` and `uNbe` are inverse up to the width. -/
theorem uNbe_beN (v n : Nat) : uNbe (beN v n) = v % 256 ^ n := by
  induction n with
  | zero => simp [beN, uNbe, Nat.mod_one]
  | succ n ih =>
    rw [beN, show BitVec.ofNat 8 (v / 256 ^ n) :: beN v n = [BitVec.ofNat 8 (v / 256 ^ n)] ++ beN v n from rfl, uNbe_append, ih, length_beN]
    have h1 : uNbe [BitVec.ofNat 8 (v / 256 ^ n)] = v / 256 ^ n % 256 := by simp [uNbe]
    rw [h1, Nat.pow_succ, Nat.mod_mul, Nat.mul_comm, Nat.add_comm]

/-- The low bytes of an image are the image at the smaller width. -/
theorem drop_beN (v n p : Nat) (h : p ≤ n) : (beN v n).drop p = beN v (n - p) := by
  induction p generalizing n with
  | zero => simp
  | succ p ih =>
    cases n with
    | zero => omega
    | succ n => rw [beN, List.drop_succ_cons, ih n (by omega)]; congr 1; omega

/-- Two bytes are known by their big-endian value. -/
theorem pair_eq {a b c d : Byte} : 256 * a.toNat + b.toNat = 256 * c.toNat + d.toNat ↔ [a, b] = [c, d] := by
  have := a.isLt; have := b.isLt; have := c.isLt; have := d.isLt
  simp only [List.cons.injEq, and_true]
  constructor
  · intro h; constructor <;> apply BitVec.eq_of_toNat_eq <;> omega
  · rintro ⟨rfl, rfl⟩; rfl

theorem pair_zero {a b : Byte} : 256 * a.toNat + b.toNat = 0 ↔ [a, b] = [0#8, 0#8] := by
  have := pair_eq (a := a) (b := b) (c := 0#8) (d := 0#8); simpa using this

/-- A 16-bit field is its two bytes. -/
theorem half_split (c : Half) : c = ((hi8 c).setWidth 16 <<< 8) ^^^ (lo8 c).setWidth 16 := by
  apply BitVec.eq_of_getLsbD_eq
  intro i hi
  simp only [hi8, lo8, BitVec.getLsbD_xor, BitVec.getLsbD_shiftLeft, BitVec.getLsbD_setWidth, BitVec.getLsbD_extractLsb']
  by_cases h8 : i < 8
  · simp [h8, hi]
  · simp [h8, hi, show i - 8 < 8 by omega, show i - 8 < 16 by omega, show 8 + (i - 8) = i by omega]

theorem toNat_half (t : Half) : t.toNat = 256 * (hi8 t).toNat + (lo8 t).toNat := by
  have h1 : (lo8 t).toNat = t.toNat % 256 := by simp [lo8]
  have h2 : (hi8 t).toNat = t.toNat / 256 := by simp [hi8, Nat.shiftRight_eq_div_pow]; have := t.isLt; omega
  omega

/-- `u16le` reads back what `le16` writes. -/
theorem le16_iff (c : Half) (lo hi : Byte) : c.toNat = u16le [lo, hi] ↔ [lo, hi] = le16 c := by
  have hc := half_split c
  simp only [u16le, List.reverse_cons, List.reverse_nil, List.nil_append, List.cons_append, uNbe_two, le16, List.cons.injEq, and_true]
  have h1 : (lo8 c).toNat = c.toNat % 256 := by simp [lo8]
  have h2 : (hi8 c).toNat = c.toNat / 256 := by simp [hi8, Nat.shiftRight_eq_div_pow]; have := c.isLt; omega
  have a := lo.isLt; have b := hi.isLt
  constructor
  · intro h
    constructor <;> apply BitVec.eq_of_toNat_eq <;> omega
  · rintro ⟨rfl, rfl⟩; omega

/-! ### Slices -/

theorem length_slice {l : List Byte} {i j : Nat} (hij : i ≤ j) (hj : j ≤ l.length) :
    (slice l i j).length = j - i := by
  simp [slice]; omega

theorem drop_slice (l : List Byte) (i j p : Nat) (h : i + p ≤ j) : (slice l i j).drop p = slice l (i + p) j := by
  simp only [slice, List.drop_take, List.drop_drop]
  rw [show j - i - p = j - (i + p) by omega]

theorem slice_readBytes (m : Memory) (k n i j : Nat) (hij : i ≤ j) (hj : j ≤ n) :
    slice (readBytes m k n) i j = readBytes m (k + i) (j - i) := by
  apply List.ext_getElem?
  intro p
  simp only [slice]
  rw [List.getElem?_take, List.getElem?_drop, getElem?_readBytes, getElem?_readBytes]
  by_cases h : p < j - i
  · rw [if_pos h, if_pos h, if_pos (by omega), Nat.add_assoc]
  · rw [if_neg h, if_neg h]

/-- Block `k` of a concatenation of blocks of one size. -/
theorem slice_flatMap (f : Nat → List Byte) (es n k : Nat) (hf : ∀ j, j < n → (f j).length = es) (hk : k < n) :
    slice ((List.range n).flatMap f) (k * es) ((k + 1) * es) = f k := by
  have hlen : ∀ m, m ≤ n → ((List.range m).flatMap f).length = m * es := by
    intro m hm
    induction m with
    | zero => simp
    | succ m ih =>
      rw [List.range_succ, List.flatMap_append, List.length_append, ih (by omega)]
      simp [hf m (by omega), Nat.add_mul]
  have hsplit : ∃ rest, (List.range n).flatMap f = (List.range k).flatMap f ++ (f k ++ rest) := by
    obtain ⟨d, rfl⟩ : ∃ d, n = k + 1 + d := ⟨n - k - 1, by omega⟩
    refine ⟨(List.map (fun x => k + 1 + x) (List.range d)).flatMap f, ?_⟩
    rw [List.range_add, List.flatMap_append, List.range_succ, List.flatMap_append]
    simp
  obtain ⟨rest, hr⟩ := hsplit
  have h1 : (k + 1) * es - k * es = es := by rw [Nat.add_mul]; omega
  unfold slice
  rw [hr, h1, List.drop_append_of_le_length (by rw [hlen k (by omega)]), List.drop_of_length_le (by rw [hlen k (by omega)]),
    List.nil_append, List.take_append_of_le_length (by rw [hf k hk]), List.take_of_length_le (by rw [hf k hk])]

theorem flatMap_range {vals : List Nat} (f : Nat → List Byte) :
    vals.flatMap f = (List.range vals.length).flatMap (fun k => (vals[k]?).elim [] f) := by
  induction vals with
  | nil => rfl
  | cons v vals ih =>
    rw [List.flatMap_cons, List.length_cons, List.range_succ_eq_map, List.flatMap_cons, List.flatMap_map, ih]
    simp

/-- A byte written inside a range replaces that byte of the range. -/
theorem readBytes_write_one (m : Memory) (n k : Nat) (b : Byte) (hk : k < n) :
    readBytes (writeBytes m k [b]) 0 n = (readBytes m 0 n).take k ++ [b] ++ (readBytes m 0 n).drop (k + 1) := by
  obtain ⟨p, rfl⟩ : ∃ p, n = k + (1 + p) := ⟨n - k - 1, by omega⟩
  rw [readBytes_add, readBytes_add, readBytes_add, readBytes_add, readBytes_writeBytes_outside _ _ (by omega)]
  have h1 := readBytes_writeBytes_self m k [b]
  simp only [List.length_singleton] at h1
  simp only [Nat.zero_add]
  rw [h1, readBytes_writeBytes_outside _ _ (by simp)]
  rw [List.take_append_of_le_length (by simp), List.take_of_length_le (by simp)]
  simp [List.drop_append]

/-! ### Elements and coils (R121, R203, R206) -/

theorem es_le_ts (es : Nat) : es ≤ ts es := by
  unfold ts
  split
  · omega
  · split <;> omega

theorem length_image (es v : Nat) : (image es v).length = ts es := by unfold image; split <;> exact length_beN _ _

/-- R206: the image of a value of its type. -/
theorem image_eq {es v : Nat} (h : v < 256 ^ es) : image es v = beN v (ts es) := if_pos h

theorem length_encodeVals (es : Nat) (vals : List Nat) : (encodeVals es vals).length = vals.length * ts es := by
  unfold encodeVals
  induction vals with
  | nil => simp
  | cons v vals ih => simp [length_image, ih, Nat.add_mul, Nat.add_comm]

/-- R206: element `k` of an encoding is the image of value `k`. -/
theorem slice_encodeVals (es k v : Nat) (vals : List Nat) (hv : vals[k]? = some v) :
    slice (encodeVals es vals) (k * ts es) ((k + 1) * ts es) = image es v := by
  rw [encodeVals, flatMap_range]
  have hk := (List.getElem?_eq_some_iff.mp hv).1
  rw [slice_flatMap _ (ts es) vals.length k _ hk, hv]
  · rfl
  · intro j hj; simp [List.getElem?_eq_getElem hj, length_image]

theorem length_pack (bits : List Bool) : (pack bits).length = ceil8 bits.length := by simp [pack]

theorem packNat (l : List Bool) :
    (l.foldr (fun b acc => (if b then 1 else 0) + 2 * acc) 0 : Nat).testBit = fun i => (l[i]?).getD false := by
  induction l with
  | nil => funext i; simp
  | cons b l ih =>
    funext i
    have hpar : ∀ n : Nat, ((if b then 1 else 0) + 2 * n) / 2 = n := by intro n; cases b <;> simp <;> omega
    have hpar2 : ∀ n : Nat, decide (((if b then 1 else 0) + 2 * n) % 2 = 1) = b := by intro n; cases b <;> simp
    cases i with
    | zero => simp only [List.foldr_cons, Nat.testBit_zero, hpar2]; simp
    | succ i =>
      rw [List.foldr_cons, Nat.testBit_succ, hpar, ih]; simp

/-- R121: bit `i` of a packed byte is coil `i`. -/
theorem packByte_bit (l : List Bool) (i : Nat) (hi : i < 8) : (packByte l).getLsbD i = (l[i]?).getD false := by
  unfold packByte
  have := congrFun (packNat l) i
  rw [BitVec.getLsbD_ofNat, this]; simp [hi]

theorem getElem?_pack (bits : List Bool) (j : Nat) (hj : j < ceil8 bits.length) :
    (pack bits)[j]? = some (packByte ((bits.drop (8 * j)).take 8)) := by simp [pack, hj]

/-- R121: unpacking is the inverse of packing. -/
theorem coil_pack (bits : List Bool) (i : Nat) (b : Bool) (hb : bits[i]? = some b) : coil bits.length (pack bits) i = b := by
  have hi := (List.getElem?_eq_some_iff.mp hb).1
  have hj : i / 8 < ceil8 bits.length := by unfold ceil8; omega
  unfold coil
  rw [getElem?_pack bits _ hj]
  simp only
  rw [if_pos hi, packByte_bit _ _ (Nat.mod_lt _ (by omega)), List.getElem?_take, if_pos (Nat.mod_lt _ (by omega)),
    List.getElem?_drop, Nat.div_add_mod, hb]
  rfl

theorem length_hostOrder (be : Bool) (l : List Byte) : (hostOrder be l).length = l.length := by
  unfold hostOrder; split <;> simp

/-! ### Time (R14) -/

theorem span_pos (c : Cfg) : 0 < c.span := Nat.two_pow_pos _

theorem elapsed_lt (c : Cfg) (now past : Time) : elapsed c now past < c.span := Nat.mod_lt _ (span_pos c)

theorem stamp_lt (c : Cfg) (r : Time) : stamp c r < c.span := Nat.mod_lt _ (span_pos c)

/-- R14: the elapsed time is the difference of the readings modulo the span. -/
theorem elapsed_eq (c : Cfg) (now past : Time) : (elapsed c now past : Int) = ((now : Int) - past) % c.span := by
  have hp := span_pos c
  have hm := Nat.mod_lt past hp
  have hd := Nat.div_add_mod past c.span
  unfold elapsed
  rw [Int.natCast_emod, show ((now + (c.span - past % c.span) : Nat) : Int) = (now : Int) - past + c.span * ((past / c.span : Nat) + 1) by
    rw [Nat.cast_add, Nat.cast_sub (Nat.le_of_lt hm)]
    have : (past : Int) = c.span * (past / c.span : Nat) + (past % c.span : Nat) := by exact_mod_cast hd.symm
    rw [Int.mul_add, Int.mul_one]; omega, Int.add_mul_emod_self_left]

/-! ### Slots (R23, R25) -/

/-- R23: the length fields in their ranges. -/
theorem slotFits_iff (c : Cfg) (x : Slot) : slotFits c x = true ↔
    x.txlen ≤ c.bufCap ∧ x.rxlen ≤ c.bufCap ∧ x.explen ≤ c.bufCap ∧ x.winOff + x.winLen ≤ c.bufCap ∧ 1 ≤ x.tmpllen ∧
    x.tmpllen ≤ 7 ∧ (x.inuse = true → c.hdr + c.trl ≤ x.txlen) := by
  simp only [slotFits, lengthsFit, Bool.and_eq_true, decide_eq_true_eq, Bool.or_eq_true, Bool.not_eq_true']
  cases x.inuse <;> simp <;> tauto

theorem lengthsFit_iff (c : Cfg) (x : Slot) : lengthsFit c x = true ↔
    x.txlen ≤ c.bufCap ∧ x.rxlen ≤ c.bufCap ∧ x.explen ≤ c.bufCap ∧ 1 ≤ x.tmpllen ∧ x.tmpllen ≤ 7 := by
  simp only [lengthsFit, Bool.and_eq_true, decide_eq_true_eq, and_assoc]

theorem windowFits_iff (c : Cfg) (x : Slot) : windowFits c x = true ↔ x.winLen = 0 ∨ x.winOff + x.winLen ≤ c.bufCap := by
  simp [windowFits]

/-- A slot in all its ranges passes both guards. -/
theorem lengthsFit_of_fits {c : Cfg} {x : Slot} (h : slotFits c x = true) : lengthsFit c x = true := by
  simp only [slotFits, Bool.and_eq_true] at h; exact h.1.1

theorem windowFits_of_fits {c : Cfg} {x : Slot} (h : slotFits c x = true) : windowFits c x = true :=
  (windowFits_iff c x).mpr (.inr ((slotFits_iff c x).mp h).2.2.2.1)

theorem slotFits_cleared (c : Cfg) : slotFits c Slot.cleared = true := by simp [slotFits, lengthsFit, Slot.cleared]

theorem length_pduRx (c : Cfg) (x : Slot) : (pduRx c x).length = x.rxlen - c.trl - c.hdr := by simp [pduRx]

theorem length_tmplPdu (c : Cfg) (x : Slot) : (tmplPdu c x).length = x.tmpllen := by simp [tmplPdu]

theorem pduRx_get {c : Cfg} {x : Slot} {i : Nat} (h : i < (pduRx c x).length) :
    (pduRx c x)[i]? = some (readByte x.rx (c.hdr + i)) := by
  rw [length_pduRx] at h
  rw [pduRx, getElem?_readBytes, if_pos h]

theorem slice_pduRx {c : Cfg} {x : Slot} {i j : Nat} (hij : i ≤ j) (h : j ≤ (pduRx c x).length) :
    slice (pduRx c x) i j = readBytes x.rx (c.hdr + i) (j - i) := by
  rw [length_pduRx] at h
  exact slice_readBytes _ _ _ _ _ hij h

theorem bufCap_eq (c : Cfg) : c.bufCap = c.hdr + c.params.pduMax + c.trl := rfl

theorem length_dataOf (x : Slot) : (dataOf x).length = x.winLen := by simp [dataOf]

/-! ### The scan of addresses (R270, R271, R279) -/

/-- The scan finds the lowest index that passes. -/
theorem findFrom_some {p : Nat → Bool} {start n a : Nat} (h : findFrom p start n = some a) :
    start ≤ a ∧ a < start + n ∧ p a = true ∧ ∀ b, start ≤ b → b < a → p b = false := by
  induction n generalizing start with
  | zero => simp [findFrom] at h
  | succ n ih =>
    simp only [findFrom] at h
    split at h
    · next hp => cases h; exact ⟨Nat.le_refl _, by omega, hp, fun b h1 h2 => by omega⟩
    · next hp =>
      obtain ⟨h1, h2, h3, h4⟩ := ih h
      refine ⟨by omega, by omega, h3, fun b hb hb' => ?_⟩
      by_cases hbs : b = start
      · subst hbs; simpa using hp
      · exact h4 b (by omega) hb'

theorem findFrom_none {p : Nat → Bool} {start n : Nat} (h : findFrom p start n = none) :
    ∀ b, start ≤ b → b < start + n → p b = false := by
  induction n generalizing start with
  | zero => intro b h1 h2; omega
  | succ n ih =>
    simp only [findFrom] at h
    split at h
    · simp at h
    · next hp =>
      intro b hb hb'
      by_cases hbs : b = start
      · subst hbs; simpa using hp
      · exact ih h b (by omega) (by omega)

/-- R271 to R274: which bits a range sets. -/
theorem getLsbD_rangeBits (lo hi a : Nat) :
    (rangeBits lo hi).getLsbD a = decide (lo ≤ a ∧ a ≤ hi ∧ a ≤ 247) := by
  unfold rangeBits
  suffices H : ∀ (n : Nat), n ≤ 248 → ((List.range n).foldl (fun acc a => if lo ≤ a ∧ a ≤ hi then acc ||| (1#256 <<< a) else acc) 0#256).getLsbD a
      = decide (lo ≤ a ∧ a ≤ hi ∧ a < n) by
    rw [H 248 (Nat.le_refl _)]; simp [Nat.lt_succ_iff]
  intro n hn
  induction n with
  | zero => simp
  | succ n ih =>
    rw [List.range_succ, List.foldl_append]
    simp only [List.foldl_cons, List.foldl_nil]
    have h1 : (1#256 <<< n).getLsbD a = decide (a = n) := by
      simp [BitVec.getLsbD_shiftLeft, BitVec.getLsbD_one]
      by_cases h : a = n
      · subst h; simp; omega
      · simp [h]; omega
    split
    · next h =>
      rw [BitVec.getLsbD_or, ih (by omega), h1]
      by_cases han : a = n
      · subst han; simp [h]
      · rw [decide_eq_false han, Bool.or_false]; congr 1; apply propext; omega
    · next h =>
      rw [ih (by omega)]
      congr 1; apply propext; omega

theorem member_addMembers (x : SlaveSet) (lo hi a : Nat) :
    member (addMembers x lo hi) a = (member x a || decide (lo ≤ a ∧ a ≤ hi ∧ a ≤ 247)) := by
  simp [member, addMembers, getLsbD_rangeBits]

theorem member_dropMembers (x : SlaveSet) (lo hi a : Nat) :
    member (dropMembers x lo hi) a = (member x a && !decide (lo ≤ a ∧ a ≤ hi ∧ a ≤ 247)) := by
  have h := getLsbD_rangeBits lo hi a
  by_cases ha : a < 256
  · simp only [member, dropMembers, BitVec.getLsbD_and, BitVec.getLsbD_not, h, ha, decide_true, Bool.true_and]
  · simp only [member, dropMembers, BitVec.getLsbD_and, BitVec.getLsbD_of_ge x.bits a (Nat.not_lt.mp ha), Bool.false_and]

end Sys2Proof.Machine
end

