-- ==== Sys2Proof/Laws/Crc.lean ====
section
/-! SUPPORT. The CRC-16 of R221: linear, injective in the state and in the byte, its table form (R228). -/

namespace Sys2Proof.Machine

/-! ### One byte -/

theorem crc_append (l m : List Byte) : crc (l ++ m) = m.foldl crcByte (crc l) := by simp [crc]

theorem crc_snoc (l : List Byte) (b : Byte) : crc (l ++ [b]) = crcByte (crc l) b := by simp [crc]

theorem crcBit_eq (c : Half) : crcBit c = (c >>> 1) ^^^ (if c.getLsbD 0 then 0xA001#16 else 0#16) := by
  unfold crcBit; split <;> simp

/-- The inner step is linear. -/
theorem crcBit_xor (a b : Half) : crcBit (a ^^^ b) = crcBit a ^^^ crcBit b := by
  simp only [crcBit_eq, BitVec.ushiftRight_xor_distrib, BitVec.getLsbD_xor]
  have key : ∀ p q : Bool, (if (p ^^ q) then 0xA001#16 else 0#16) = (if p then 0xA001#16 else 0#16) ^^^ (if q then 0xA001#16 else 0#16) := by decide
  rw [key]
  generalize (if a.getLsbD 0 then 0xA001#16 else 0#16) = u
  generalize (if b.getLsbD 0 then 0xA001#16 else 0#16) = v
  ac_rfl

theorem crcEight_xor (a b : Half) : crcEight (a ^^^ b) = crcEight a ^^^ crcEight b := by simp [crcEight, crcBit_xor]

/-- The inner step loses nothing. -/
theorem crcBit_eq_zero {c : Half} (h : crcBit c = 0#16) : c = 0#16 := by
  have hb : ∀ i, (crcBit c).getLsbD i = false := by simp [h]
  unfold crcBit at hb
  split at hb
  · have := hb 15
    simp at this
  · next hc =>
    apply BitVec.eq_of_getLsbD_eq
    intro i hi
    cases i with
    | zero => simpa using hc
    | succ i => have := hb i; simp at this ⊢; rw [Nat.add_comm] at this; exact this

theorem crcEight_eq_zero {c : Half} (h : crcEight c = 0#16) : c = 0#16 := by
  unfold crcEight at h
  exact crcBit_eq_zero (crcBit_eq_zero (crcBit_eq_zero (crcBit_eq_zero (crcBit_eq_zero (crcBit_eq_zero (crcBit_eq_zero (crcBit_eq_zero h)))))))

theorem crcEight_inj {a b : Half} (h : crcEight a = crcEight b) : a = b := by
  have : crcEight (a ^^^ b) = 0#16 := by rw [crcEight_xor, h, BitVec.xor_self]
  have := crcEight_eq_zero this
  simpa [BitVec.xor_eq_zero_iff] using this

theorem setWidth_inj {a b : Byte} (h : a.setWidth 16 = b.setWidth 16) : a = b := by
  have := congrArg BitVec.toNat h; simp at this
  apply BitVec.eq_of_toNat_eq; have := a.isLt; have := b.isLt; omega

theorem crcByte_inj_state {a b : Half} {c : Byte} (h : crcByte a c = crcByte b c) : a = b := by
  have := crcEight_inj h; simpa using this

theorem crcByte_inj_byte {a : Half} {c d : Byte} (h : crcByte a c = crcByte a d) : c = d := by
  have := crcEight_inj h; exact setWidth_inj (BitVec.xor_right_inj _ |>.mp this)

theorem foldl_crcByte_inj {l : List Byte} {a b : Half} (h : l.foldl crcByte a = l.foldl crcByte b) : a = b := by
  induction l generalizing a b with
  | nil => exact h
  | cons c l ih => exact crcByte_inj_state (ih h)

/-! ### The table (R228) -/

theorem crcEight_high : ∀ h : Byte, crcEight (h.setWidth 16 <<< 8) = h.setWidth 16 := by decide +kernel

theorem hi8_eq (c : Half) : (hi8 c).setWidth 16 = c >>> 8 := by
  apply BitVec.eq_of_getLsbD_eq
  intro i hi
  simp only [hi8, BitVec.getLsbD_setWidth, BitVec.getLsbD_extractLsb', BitVec.getLsbD_ushiftRight]
  by_cases h8 : i < 8
  · simp [h8, hi]
  · simp [h8]; apply BitVec.getLsbD_of_ge; omega

/-- Eight shifts are one table look-up. -/
theorem crcEight_table (c : Half) : crcEight c = (c >>> 8) ^^^ crcTab (lo8 c) := by
  conv_lhs => rw [half_split c]
  rw [crcEight_xor, crcEight_high, hi8_eq]; rfl

theorem hi8_xor_low (c : Half) (b : Byte) : (c ^^^ b.setWidth 16) >>> 8 = c >>> 8 := by
  apply BitVec.eq_of_getLsbD_eq
  intro i hi
  simp

/-- No table entry but the first has a zero high byte. -/
theorem crcTab_high : ∀ j : Byte, (crcTab j).extractLsb' 8 8 = 0#8 → j = 0#8 := by decide +kernel

end Sys2Proof.Machine
end

