-- ==== Sys2Proof/Laws/Ops.lean ====
section
/-! SUPPORT. The shared operations: headers, builds, re-arms, and what every next state of an outcome satisfies. -/

namespace Sys2Proof.Machine

/-! ### The header (R140 step 7, R283) -/

/-- R241: the transaction id after a new header. -/
def tidAfter (s : State) : Half :=
  match s.cfg.params.transport with
  | .rtu => s.ctx.tid
  | .tcp => s.ctx.tid + 1#16

/-- R140 step 7 on the slot alone. -/
def headed (tr : Transport) (tid : Half) (u : Byte) (len : Nat) (x : Slot) : Slot :=
  match tr with
  | .rtu => rtuCrc len (rtuHead u x)
  | .tcp => tcpHead tid u len x

/-- A new header on the slot, the counter moved on, nothing else. -/
theorem setHeader_eq (h : Nat) (u : Byte) (len : Nat) (s : State) :
    setHeader h u len s =
      { updSlot s h (headed s.cfg.params.transport (tidAfter s) u len) with ctx := { s.ctx with tid := tidAfter s } } := by
  unfold setHeader tidAfter headed
  cases s.cfg.params.transport <;> rfl

theorem slotAt_setHeader (h : Nat) (u : Byte) (len : Nat) (s : State) (k : Nat) :
    slotAt (setHeader h u len s) k =
      if k = h then headed s.cfg.params.transport (tidAfter s) u len (slotAt s h) else slotAt s k := by
  rw [setHeader_eq]; exact slotAt_updSlot s h k _

@[simp] theorem setHeader_cfg (h : Nat) (u : Byte) (len : Nat) (s : State) : (setHeader h u len s).cfg = s.cfg := by
  rw [setHeader_eq]; rfl

@[simp] theorem setHeader_q (h : Nat) (u : Byte) (len : Nat) (s : State) : (setHeader h u len s).q = s.q := by
  rw [setHeader_eq]; rfl

@[simp] theorem setHeader_nowMs (h : Nat) (u : Byte) (len : Nat) (s : State) : (setHeader h u len s).nowMs = s.nowMs := by
  rw [setHeader_eq]; rfl

@[simp] theorem setHeader_events (h : Nat) (u : Byte) (len : Nat) (s : State) : (setHeader h u len s).events = s.events := by
  rw [setHeader_eq]; rfl

@[simp] theorem setHeader_ctx (h : Nat) (u : Byte) (len : Nat) (s : State) :
    (setHeader h u len s).ctx = { s.ctx with tid := tidAfter s } := by rw [setHeader_eq]

/-- A new header writes the transmit frame, the template's header and the length, nothing else of the slot. -/
theorem headed_frame (tr : Transport) (tid : Half) (u : Byte) (len : Nat) (x : Slot) :
    { headed tr tid u len x with tx := x.tx, tmpl := x.tmpl, txlen := x.txlen } = x := by
  cases tr <;> rfl

theorem headed_txlen (p : Params) (tid : Half) (u : Byte) (len : Nat) (x : Slot) :
    (headed p.transport tid u len x).txlen = Params.hdr p + len + Params.trl p := by
  unfold headed Params.hdr Params.trl
  cases p.transport <;> simp [rtuCrc, tcpHead]

theorem length_mbap (tid : Half) (u : Byte) (len : Nat) : (mbap tid u len).length = 7 := by simp [mbap, be16]

/-- All that `tcpSetMbapLong` changes: the counter, the free values' counter and the slot's header and `txlen`. -/
theorem tcpSetMbapLong_eq (h : Nat) (u : Byte) (len : Nat) (s : State) :
    tcpSetMbapLong h u len s =
      updSlot { s with ctx := { s.ctx with tid := s.ctx.tid + 1#16 }, freeCount := s.freeCount + 1 } h
        (fun x => { tcpHead (s.ctx.tid + 1#16) u (fieldLength len) x with
                      txlen := 7 + Config.freeLength s.freeCount len % (s.cfg.params.pduMax + 1) }) := rfl

/-- R241 with a PDU length above `PDU_MAX`: what the slots hold then. -/
theorem slotAt_tcpSetMbapLong (h : Nat) (u : Byte) (len : Nat) (s : State) (k : Nat) :
    slotAt (tcpSetMbapLong h u len s) k = if k = h then
      { tcpHead (s.ctx.tid + 1#16) u (fieldLength len) (slotAt s h) with
          txlen := 7 + Config.freeLength s.freeCount len % (s.cfg.params.pduMax + 1) }
    else slotAt s k := by
  rw [tcpSetMbapLong_eq, slotAt_updSlot]; rfl

theorem headed_tmpl (p : Params) (tid : Half) (u : Byte) (len n : Nat) (x : Slot) :
    readBytes (headed p.transport tid u len x).tmpl (Params.hdr p) n = readBytes x.tmpl (Params.hdr p) n := by
  unfold headed Params.hdr
  cases p.transport with
  | rtu => exact readBytes_writeBytes_outside _ _ (by simp)
  | tcp => exact readBytes_writeBytes_outside _ _ (by simp [length_mbap])

theorem headed_pdu (p : Params) (tid : Half) (u : Byte) (len : Nat) (x : Slot) :
    readBytes (headed p.transport tid u len x).tx (Params.hdr p) len = readBytes x.tx (Params.hdr p) len := by
  unfold headed Params.hdr
  cases p.transport with
  | rtu =>
    show readBytes (writeBytes (writeBytes x.tx 0 [u]) (1 + len) (le16 _)) 1 len = _
    rw [readBytes_writeBytes_outside _ _ (by omega), readBytes_writeBytes_outside _ _ (by simp)]
  | tcp => exact readBytes_writeBytes_outside _ _ (by simp [length_mbap])

theorem slotAt_framed (s : State) (h k : Nat) (y : Slot) (u : Byte) (len : Nat) (g : Slot → Slot) :
    slotAt (updSlot (setHeader h u len (setSlot s h y)) h g) k =
      if k = h then g (headed s.cfg.params.transport (tidAfter s) u len y) else slotAt s k := by
  rw [slotAt_updSlot, slotAt_setHeader, slotAt_setHeader, if_pos rfl, slotAt_setSlot_self]
  by_cases hk : k = h
  · rw [if_pos hk, if_pos hk]; rfl
  · rw [if_neg hk, if_neg hk, if_neg hk, slotAt_setSlot_ne _ _ hk]

/-! ### Builds and re-arms (R140, R283) -/

theorem buildFrame_slot (h : Nat) (t : Target) (handler : Nat) (r : Request) (s : State) (k : Nat) :
    slotAt (buildFrame h t handler r s) k = if k = h then
      { headed s.cfg.params.transport (tidAfter s) (firstUnit t (targetSet s t)).1 r.pdu.length
          { fillRequest s.cfg r (allocated s t handler) with ss := (firstUnit t (targetSet s t)).2 } with
        qtime := s.nowMs, delay := .ms 0 }
    else slotAt s k := by
  unfold buildFrame
  simp only [setHeader_nowMs]
  exact slotAt_framed s h k { fillRequest s.cfg r (allocated s t handler) with ss := (firstUnit t (targetSet s t)).2 }
    (firstUnit t (targetSet s t)).1 r.pdu.length (fun x => { x with qtime := s.nowMs, delay := .ms 0 })

theorem buildFrame_frame (h : Nat) (t : Target) (handler : Nat) (r : Request) (s : State) :
    { buildFrame h t handler r s with pool := s.pool } = { s with ctx := { s.ctx with tid := tidAfter s } } := by
  unfold buildFrame
  simp only [setHeader_eq]
  rfl

theorem rearmFrame_slot (h a : Nat) (s : State) (k : Nat) :
    slotAt (rearmFrame h a s) k = if k = h then
      { headed s.cfg.params.transport (tidAfter s) (BitVec.ofNat 8 a) ((slotAt s h).txlen - s.cfg.hdr - s.cfg.trl)
          (rearmed (slotAt s h)) with qtime := s.nowMs } else slotAt s k := by
  unfold rearmFrame
  simp only [setHeader_nowMs]
  exact slotAt_framed s h k (rearmed (slotAt s h)) _ _ (fun x => { x with qtime := s.nowMs })

theorem rearmFrame_frame (h a : Nat) (s : State) :
    { rearmFrame h a s with pool := s.pool } = { s with ctx := { s.ctx with tid := tidAfter s } } := by
  unfold rearmFrame
  simp only [setHeader_eq]
  rfl

theorem argsOk {c : Cfg} {r : Request} (hp : r.pdu.length ≤ c.params.pduMax) (he : r.pduExplen ≤ c.params.pduMax)
    (hck : ∀ ck ∈ r.checks, ck.1 = true) : checkArgs c r = .ok := by
  unfold checkArgs
  have : ∀ l : List (Bool × Err), (∀ ck ∈ l, ck.1 = true) → firstFailed (l ++ [sizeCheck c r]) = .ok := by
    intro l hl
    induction l with
    | nil => simp [firstFailed, sizeCheck, hp, he]
    | cons a l ih =>
      obtain ⟨b, e⟩ := a
      have hb : b = true := hl (b, e) (by simp)
      subst hb
      simp only [List.cons_append, firstFailed]
      exact ih (fun ck h => hl ck (by simp [h]))
  exact this _ hck

/-! ### Every next state of an outcome -/

/-- `P` holds of every next state of an outcome. -/
def AllNext (P : State → Prop) (o : Out) : Prop := ∀ t, o = .next t → P t

theorem allNext_ret {P : State → Prop} {r : Result} {s : State} (h : P (answer r s)) : AllNext P (ret r s) := by
  intro t ht; rw [ret_eq_next] at ht; rwa [ht]

theorem allNext_reject {P : State → Prop} {r : Reject} {s : State} (h : P (answer (.rejected r) s)) :
    AllNext P (reject r s) := allNext_ret h

theorem allNext_fault {P : State → Prop} {f : Fault} : AllNext P (.fault f) := by intro t h; cases h

theorem allNext_refused {P : State → Prop} {f : Refusal} : AllNext P (.refused f) := by intro t h; cases h

theorem allNext_onlyOn {P : State → Prop} {tr : Transport} {s : State} {k : Out} (h : s.cfg.params.transport = tr → AllNext P k) :
    AllNext P (onlyOn tr s k) := by
  unfold onlyOn; split
  · next hh => exact h hh
  · exact allNext_refused

theorem allNext_withSlot {P : State → Prop} {h : Nat} {s : State} {k : Out} (hk : slotExists s h = true → AllNext P k)
    (hr : P (answer (.rejected .noSuchSlot) s)) : AllNext P (withSlot h s k) := by
  unfold withSlot; split
  · next hh => exact hk hh
  · exact allNext_reject hr

theorem allNext_withDetached {P : State → Prop} {h : Nat} {s : State} {k : Out} (hk : detached s h = true → AllNext P k)
    (hr : P (answer (.rejected .handleNotFree) s)) : AllNext P (withDetached h s k) := by
  unfold withDetached; split
  · next hh => exact hk hh
  · exact allNext_reject hr

theorem allNext_checked {P : State → Prop} {h : Nat} {s : State} {k : Out} (hk : slotExists s h = true → lengthsFit s.cfg (slotAt s h) = true → AllNext P k) :
    AllNext P (checked h s k) := by
  unfold checked; split
  · next hh => simp only [Bool.and_eq_true] at hh; exact hk hh.1 hh.2
  · exact allNext_fault

theorem allNext_raise {P : State → Prop} {h : Nat} {e : Err} {s : State}
    (hk : windowFits s.cfg (slotAt s h) = true → P (answer .unit (complete h e s))) : AllNext P (raise h e s) :=
  fun _ ht => by
    obtain ⟨-, -, hw, rfl⟩ := raise_eq_next.mp ht
    exact hk hw

theorem allNext_ite {P : State → Prop} {c : Prop} [Decidable c] {a b : Out} (ha : c → AllNext P a) (hb : ¬ c → AllNext P b) :
    AllNext P (if c then a else b) := by
  split
  · next h => exact ha h
  · next h => exact hb h

theorem allNext_and {P Q : State → Prop} {o : Out} (hp : AllNext P o) (hq : AllNext Q o) :
    AllNext (fun t => P t ∧ Q t) o := fun t h => ⟨hp t h, hq t h⟩

end Sys2Proof.Machine
end

