-- ==== Sys2Proof/Laws/Response.lean ====
section
/-! SUPPORT. The arms and the normaliser: an arm writes the reply fields of its slot and the free-value counter, nothing else. -/

namespace Sys2Proof.Machine

/-! ### The normaliser (R203 to R205) -/

/-- R204: the normalised bytes, element by element. -/
theorem normalBytes_spec (be : Bool) (es : Nat) (raw : List Byte) :
    (normalBytes be es raw).length = raw.length / ts es * es ∧
    ∀ k, k < raw.length / ts es →
      slice (normalBytes be es raw) (k * es) ((k + 1) * es) =
        hostOrder be (slice raw (k * ts es + (ts es - es)) ((k + 1) * ts es)) := by
  set N := raw.length / ts es with hN
  have hle := es_le_ts es
  have hk' : ∀ k, k < N → (k + 1) * ts es ≤ raw.length := by
    intro k hk
    calc (k + 1) * ts es ≤ N * ts es := Nat.mul_le_mul_right _ hk
      _ ≤ raw.length := Nat.div_mul_le_self _ _
  have hb : ∀ k, k < N → (hostOrder be ((slice raw (k * ts es) ((k + 1) * ts es)).drop (ts es - es))).length = es := by
    intro k hk
    rw [length_hostOrder, List.length_drop, length_slice (Nat.mul_le_mul_right _ (Nat.le_add_right k 1)) (hk' k hk), Nat.add_mul]
    omega
  refine ⟨?_, fun k hk => ?_⟩
  · unfold normalBytes
    rw [List.length_flatMap]
    rw [show List.map (fun a => (hostOrder be ((slice raw (a * ts es) ((a + 1) * ts es)).drop (ts es - es))).length) (List.range (raw.length / ts es)) = List.map (fun _ => es) (List.range N) from
      List.map_congr_left (fun k hk => hb k (by simpa using hk))]
    simp [hN]
  · unfold normalBytes
    rw [slice_flatMap _ es N k hb hk, drop_slice _ _ _ _ (by rw [Nat.add_mul]; omega)]

theorem length_normalBytes (be : Bool) (es : Nat) (raw : List Byte) :
    (normalBytes be es raw).length = raw.length / ts es * es :=
  (normalBytes_spec be es raw).1

theorem normal_le (be : Bool) (es : Nat) (raw : List Byte) : (normalBytes be es raw).length ≤ raw.length := by
  rw [length_normalBytes]
  exact Nat.le_trans (Nat.mul_le_mul_left _ (es_le_ts es)) (Nat.div_mul_le_self _ _)

theorem length_freeBytes (a n : Nat) : (freeBytes a n).length = n := by simp [freeBytes]

theorem normalSlot_data (be : Bool) (st : Nat) (x : Slot) :
    dataOf (normalSlot be st x) = normalBytes be x.esize (dataOf x) := by
  show readBytes (writeBytes (writeBytes x.rx x.winOff (normalBytes be x.esize (dataOf x))) _ (freeBytes st _)) x.winOff (normalBytes be x.esize (dataOf x)).length = _
  rw [readBytes_writeBytes_outside _ _ (Or.inl (Nat.le_refl _)), readBytes_writeBytes_self]

theorem normalSlot_outside (be : Bool) (st : Nat) (x : Slot) (k : Nat) (hk : k < x.winOff ∨ x.winOff + x.winLen ≤ k) :
    readByte (normalSlot be st x).rx k = readByte x.rx k := by
  have hle := normal_le be x.esize (dataOf x)
  rw [length_dataOf] at hle
  show readByte (writeBytes (writeBytes x.rx x.winOff (normalBytes be x.esize (dataOf x))) _ (freeBytes st _)) k = _
  rw [readByte_writeBytes_outside _ _ (by rw [length_freeBytes]; omega), readByte_writeBytes_outside _ _ (by omega)]

theorem fits_normalSlot {c : Cfg} {x : Slot} (be : Bool) (st : Nat) (hf : slotFits c x = true) :
    slotFits c (normalSlot be st x) = true := by
  have hle := normal_le be x.esize (dataOf x)
  rw [length_dataOf] at hle
  rw [slotFits_iff] at hf ⊢
  refine ⟨hf.1, hf.2.1, hf.2.2.1, ?_, hf.2.2.2.2⟩
  show x.winOff + (normalBytes be x.esize (dataOf x)).length ≤ _
  omega

/-- R205: the guards in their order. -/
theorem normalErr_eq (c : Cfg) (x : Slot) : normalErr c x =
    if c.params.esMax < x.esize then .invalidArgument
    else if x.rxlen < x.winOff + x.winLen + c.trl ∨ x.winLen % ts x.esize ≠ 0 then .bufferTooSmall else .ok := by
  simp only [normalErr, firstFailed]
  by_cases h1 : c.params.esMax < x.esize
  · rw [if_pos h1, if_neg (by simp; omega)]
  · rw [if_neg h1, if_pos (by simp; omega)]
    by_cases h2 : x.rxlen < x.winOff + x.winLen + c.trl ∨ x.winLen % ts x.esize ≠ 0
    · rw [if_pos h2, if_neg]
      simp only [Bool.and_eq_true, decide_eq_true_eq]; omega
    · rw [if_neg h2, if_pos]
      simp only [Bool.and_eq_true, decide_eq_true_eq]; omega

theorem normalize_ok {h : Nat} {s : State} (hn : normalErr s.cfg (slotAt s h) = .ok) :
    normalizeSlot h s = ({ setSlot s h (normalSlot s.ctx.bigEndian s.freeCount (slotAt s h)) with
         freeCount := s.freeCount + ((slotAt s h).winLen - (normalBytes s.ctx.bigEndian (slotAt s h).esize (dataOf (slotAt s h))).length) }, .ok) := by
  simp [normalizeSlot, hn]

theorem normalize_bad {h : Nat} {s : State} (hn : normalErr s.cfg (slotAt s h) ≠ .ok) :
    normalizeSlot h s = (updSlot s h (fun x => { x with winLen := 0 }), normalErr s.cfg (slotAt s h)) := by
  simp [normalizeSlot, hn]

/-! ### What an arm may change -/

/-- A slot but for what the receiving side and the arms write. -/
def offReply (x : Slot) : Slot := { x with rx := [], rxlen := 0, winOff := 0, winLen := 0, err := .ok, exc := false }

/-- `s1` is `s` but for the reply fields of slot `h` and the free-value counter. -/
structure Ended (h : Nat) (s s1 : State) : Prop where
  slot  : offReply (slotAt s1 h) = offReply (slotAt s h)
  slots : ∀ k, k ≠ h → slotAt s1 k = slotAt s k
  frame : { s1 with pool := s.pool, freeCount := s.freeCount } = s

theorem Ended.refl (h : Nat) (s : State) : Ended h s s := ⟨rfl, fun _ _ => rfl, rfl⟩

theorem Ended.upd {h : Nat} {s s1 : State} (E : Ended h s s1) (f : Slot → Slot) (hf : ∀ x, offReply (f x) = offReply x) :
    Ended h s (updSlot s1 h f) := by
  refine ⟨?_, fun k hk => ?_, ?_⟩
  · rw [slotAt_updSlot_self, hf, E.slot]
  · rw [slotAt_updSlot_ne _ _ hk, E.slots k hk]
  · exact E.frame

theorem Ended.cfg {h : Nat} {s s1 : State} (E : Ended h s s1) : s1.cfg = s.cfg := by
  have := congrArg State.cfg E.frame
  exact this

theorem Ended.ctx {h : Nat} {s s1 : State} (E : Ended h s s1) : s1.ctx = s.ctx := by
  have := congrArg State.ctx E.frame
  exact this

theorem Ended.q {h : Nat} {s s1 : State} (E : Ended h s s1) : s1.q = s.q := by
  have := congrArg State.q E.frame
  exact this

theorem Ended.nowMs {h : Nat} {s s1 : State} (E : Ended h s s1) : s1.nowMs = s.nowMs := by
  have := congrArg State.nowMs E.frame
  exact this

theorem Ended.events {h : Nat} {s s1 : State} (E : Ended h s s1) : s1.events = s.events := by
  have := congrArg State.events E.frame
  exact this

theorem Ended.ss {h : Nat} {s s1 : State} (E : Ended h s s1) : (slotAt s1 h).ss = (slotAt s h).ss := by
  have := congrArg Slot.ss E.slot
  exact this

theorem Ended.tx {h : Nat} {s s1 : State} (E : Ended h s s1) : (slotAt s1 h).tx = (slotAt s h).tx := by
  have := congrArg Slot.tx E.slot
  exact this

theorem Ended.txlen {h : Nat} {s s1 : State} (E : Ended h s s1) : (slotAt s1 h).txlen = (slotAt s h).txlen := by
  have := congrArg Slot.txlen E.slot
  exact this

theorem Ended.tmpl {h : Nat} {s s1 : State} (E : Ended h s s1) : (slotAt s1 h).tmpl = (slotAt s h).tmpl := by
  have := congrArg Slot.tmpl E.slot
  exact this

theorem Ended.tmpllen {h : Nat} {s s1 : State} (E : Ended h s s1) : (slotAt s1 h).tmpllen = (slotAt s h).tmpllen := by
  have := congrArg Slot.tmpllen E.slot
  exact this

theorem Ended.explen {h : Nat} {s s1 : State} (E : Ended h s s1) : (slotAt s1 h).explen = (slotAt s h).explen := by
  have := congrArg Slot.explen E.slot
  exact this

theorem Ended.esize {h : Nat} {s s1 : State} (E : Ended h s s1) : (slotAt s1 h).esize = (slotAt s h).esize := by
  have := congrArg Slot.esize E.slot
  exact this

theorem Ended.handler {h : Nat} {s s1 : State} (E : Ended h s s1) : (slotAt s1 h).handler = (slotAt s h).handler := by
  have := congrArg Slot.handler E.slot
  exact this

theorem Ended.inuse {h : Nat} {s s1 : State} (E : Ended h s s1) : (slotAt s1 h).inuse = (slotAt s h).inuse := by
  have := congrArg Slot.inuse E.slot
  exact this

theorem Ended.trans {h : Nat} {s s1 s2 : State} (E : Ended h s s1) (F : Ended h s1 s2) : Ended h s s2 := by
  refine ⟨F.slot.trans E.slot, fun k hk => (F.slots k hk).trans (E.slots k hk), ?_⟩
  have e1 := congrArg (fun t : State => { t with pool := s.pool, freeCount := s.freeCount }) F.frame
  exact e1.trans E.frame

theorem ended_unreceived (h : Nat) (s : State) : Ended h s (unreceived h s) := by
  refine ⟨?_, fun k hk => ?_, rfl⟩
  · rw [slotAt_unreceived, if_pos rfl]; rfl
  · rw [slotAt_unreceived, if_neg hk]

theorem prepared_cases (reads : Nat → State → List (Nat × Nat × Bool)) (h : Nat) (s : State) :
    prepared reads h s = s ∨ prepared reads h s = unreceived h s := by
  unfold prepared; split
  · exact .inl rfl
  · exact .inr rfl

theorem ended_prepared (reads : Nat → State → List (Nat × Nat × Bool)) (h : Nat) (s : State) :
    Ended h s (prepared reads h s) := by
  rcases prepared_cases reads h s with e | e <;> rw [e]
  · exact Ended.refl h s
  · exact ended_unreceived h s

theorem ended_window (h off len : Nat) (s : State) :
    Ended h s (window h off len s) := (Ended.refl h s).upd _ (fun _ => rfl)

theorem ended_noWindow (h : Nat) (s : State) : Ended h s (noWindow h s) := (Ended.refl h s).upd _ (fun _ => rfl)

theorem ended_normalize {h : Nat} {s s1 : State} (E : Ended h s s1) : Ended h s (normalizeSlot h s1).1 := by
  by_cases hn : normalErr s1.cfg (slotAt s1 h) = .ok
  · rw [normalize_ok hn]
    refine ⟨?_, fun k hk => ?_, E.frame⟩
    · have : slotAt { setSlot s1 h (normalSlot s1.ctx.bigEndian s1.freeCount (slotAt s1 h)) with
         freeCount := s1.freeCount + ((slotAt s1 h).winLen - (normalBytes s1.ctx.bigEndian (slotAt s1 h).esize (dataOf (slotAt s1 h))).length) } h
         = normalSlot s1.ctx.bigEndian s1.freeCount (slotAt s1 h) := slotAt_setSlot_self _ _ _
      rw [this, ← E.slot]; rfl
    · exact (slotAt_setSlot_ne _ _ hk).trans (E.slots k hk)
  · rw [normalize_bad hn]; exact E.upd (fun x => { x with winLen := 0 }) (fun _ => rfl)

theorem ended_readCheck (h : Nat) (s : State) : Ended h s (readCheck h s).1 := by
  unfold readCheck; split
  · exact ended_window ..
  · exact Ended.refl h s

theorem ended_echo (h : Nat) (c : List (Bool × Err)) (s : State) : Ended h s (echoArm h c s).1 := by
  unfold echoArm; split
  · exact ended_noWindow ..
  · exact Ended.refl h s

theorem ended_regs (h : Nat) (s : State) : Ended h s (regsArm h s).1 := by
  unfold regsArm; split
  · exact ended_normalize (ended_readCheck h s)
  · exact ended_readCheck h s

theorem ended_diag (h : Nat) (s : State) : Ended h s (diagArm h s).1 := by
  unfold diagArm; split
  · exact ended_normalize (ended_window ..)
  · exact Ended.refl h s

theorem ended_ite {h : Nat} {s : State} {c : Prop} [Decidable c] {a b : State × Err} (ha : Ended h s a.1) (hb : Ended h s b.1) :
    Ended h s (if c then a else b).1 := by split <;> assumption

theorem ended_arm (fc : Byte) (h : Nat) (s : State) : Ended h s (arm fc h s).1 :=
  ended_ite (ended_readCheck h s) (ended_ite (ended_readCheck h s) (ended_ite (ended_regs h s) (ended_ite (ended_regs h s)
    (ended_ite (ended_echo h _ s) (ended_ite (ended_echo h _ s) (ended_ite (ended_window h _ 1 s) (ended_ite (ended_diag h s)
    (ended_ite (ended_echo h _ s) (ended_ite (ended_echo h _ s) (ended_ite (ended_echo h _ s) (ended_ite (ended_regs h s) (Ended.refl h s))))))))))))

theorem ended_exception (h : Nat) (s : State) : Ended h s (exceptionArm h s).1 := ended_window ..

theorem earlyReply_ended {h : Nat} {s : State} {p : State × Err} (he : earlyReply h s = some p) : Ended h s p.1 := by
  unfold earlyReply at he
  simp only at he
  repeat' split at he
  all_goals first
    | (cases he; exact Ended.refl h s)
    | (cases he; exact ended_exception h s)
    | cases he

/-- R180: every `INVOKE` is one `COMPLETE` after a change of the reply fields. -/
theorem invoke_shape (h : Nat) (s : State) : ∃ s' e, Ended h s s' ∧ invokeOp h s = raise h e s' := by
  unfold invokeOp
  split
  · next s' e he => exact ⟨s', e, earlyReply_ended he, rfl⟩
  · exact ⟨_, _, (ended_prepared _ h s).trans (ended_arm _ h _), rfl⟩

theorem hostArm_shape {h : Nat} {s : State} {reads : Nat → State → List (Nat × Nat × Bool)} {a : Nat → State → State × Err}
    (hE : ∀ s, Ended h s (a h s).1) {P : State → Prop}
    (hP : detached s h = true → lengthsFit s.cfg (slotAt s h) = true → ∀ s' e, Ended h s s' → AllNext P (raise h e s'))
    (hr : ∀ r, P (answer (.rejected r) s)) : AllNext P (hostArm h reads a s) :=
  allNext_withSlot (fun _ => allNext_withDetached (fun h1 => allNext_checked (fun _ h2 =>
    hP h1 h2 _ _ ((ended_prepared reads h s).trans (hE _)))) (hr _)) (hr _)

/-! ### The bytes an arm reads (U7, log 24) -/

theorem tmplByte_of_lt {s : State} {h i : Nat} (hi : i < (slotAt s h).tmpllen) :
    tmplByte s h i = readByte (slotAt s h).tmpl (s.cfg.hdr + i) := by
  unfold tmplByte tmplPdu
  rw [getElem?_readBytes, if_pos hi]; rfl

theorem replyByte_of_lt {s : State} {h i : Nat} (hi : i < (pduRx s.cfg (slotAt s h)).length) :
    replyByte s h i = readByte (slotAt s h).rx (s.cfg.hdr + i) := by
  unfold replyByte
  rw [pduRx_get hi]; rfl

/-- R186: two bytes of the reply against two of the template, where both have them. -/
theorem echoCheck_eq {s : State} {h k : Nat} {e : Err} (hp : k + 2 ≤ (pduRx s.cfg (slotAt s h)).length)
    (ht : k + 2 ≤ (slotAt s h).tmpllen) :
    (echoCheck h k e s).1 =
      decide (readBytes (slotAt s h).rx (s.cfg.hdr + k) 2 = readBytes (slotAt s h).tmpl (s.cfg.hdr + k) 2) := by
  unfold echoCheck
  rw [replyByte_of_lt (by omega), replyByte_of_lt (by omega), tmplByte_of_lt (by omega), tmplByte_of_lt (by omega)]
  simp [readBytes, ← Bool.decide_and, Nat.add_assoc]

theorem prepared_of_fits {reads : Nat → State → List (Nat × Nat × Bool)} {h : Nat} {s : State}
    (hf : fitsReads reads h s = true) : prepared reads h s = s := if_pos hf

/-- What an arm finds of the received PDU is what was received. -/
theorem pduRx_prepared (reads : Nat → State → List (Nat × Nat × Bool)) (h : Nat) (s : State) :
    pduRx s.cfg (slotAt (prepared reads h s) h) = pduRx s.cfg (slotAt s h) := by
  unfold prepared; split
  · rfl
  · have hl : (slotAt (unreceived h s) h).rxlen = (slotAt s h).rxlen := by rw [slotAt_unreceived, if_pos rfl]; rfl
    unfold pduRx
    rw [hl]
    by_cases h0 : (slotAt s h).rxlen - s.cfg.trl - s.cfg.hdr = 0
    · rw [h0]; rfl
    · exact readBytes_unreceived (by omega)

end Sys2Proof.Machine
end

