-- ==== Sys2Proof/Laws/SlaveSets.lean ====
section
/-! SUPPORT. The SlaveSet references: read after write, and what a write leaves alone. -/

namespace Sys2Proof.Machine

/-! ### References -/

/-- Read after write, for a host's set and for an embedded one. -/
theorem ssAt_setSs (s : State) (r r' : SsRef) (x : SlaveSet) :
    ssAt (setSs s r x) r' = if r' = r then x else ssAt s r' := by
  cases r with
  | host k =>
    cases r' with
    | host k' => simp [ssAt, setSs, cellAt_putCell]
    | slot h => simp [ssAt, setSs, slotAt]
  | slot h =>
    cases r' with
    | host k' => simp [ssAt, setSs]
    | slot h' =>
      simp only [ssAt, setSs, slotAt_updSlot]
      by_cases e : h' = h
      · subst e; simp
      · simp [e]

theorem events_setSs (s : State) (r : SsRef) (x : SlaveSet) : (setSs s r x).events = s.events := by cases r <;> rfl

@[simp] theorem ssAt_answer (r : SsRef) (res : Result) (s : State) : ssAt (answer res s) r = ssAt s r := by cases r <;> rfl

/-! ### R37, R271: what the SlaveSet operations keep of a set -/
theorem testBit_rangeBits (n lo hi a : Nat) :
    ((List.range n).foldl (fun acc a => if lo ≤ a ∧ a ≤ hi then acc ||| (1#256 <<< a) else acc) 0#256).getLsbD a = true → a < n := by
  induction n with
  | zero => simp
  | succ n ih =>
    rw [List.range_succ, List.foldl_append]
    simp only [List.foldl_cons, List.foldl_nil]
    split
    · intro hh
      rw [BitVec.getLsbD_or, Bool.or_eq_true] at hh
      rcases hh with hh | hh
      · have := ih hh; omega
      · simp only [BitVec.getLsbD_shiftLeft, BitVec.getLsbD_one, Bool.and_eq_true, decide_eq_true_eq, Bool.not_eq_true', decide_eq_false_iff_not] at hh
        omega
    · intro hh; have := ih hh; omega

theorem setOk_add {x : SlaveSet} (lo hi : Nat) (h : SetOk x) : SetOk (addMembers x lo hi) := by
  refine ⟨fun a ha => ?_, h.2⟩
  have h1 := h.1 a ha
  show (x.bits ||| rangeBits lo hi).getLsbD a = false
  rw [BitVec.getLsbD_or, show x.bits.getLsbD a = false from h1, Bool.false_or, Bool.eq_false_iff]
  intro hh; have := testBit_rangeBits 248 lo hi a hh; omega

theorem setOk_drop {x : SlaveSet} (lo hi : Nat) (h : SetOk x) : SetOk (dropMembers x lo hi) := by
  refine ⟨fun a ha => ?_, h.2⟩
  have h1 := h.1 a ha
  show (x.bits &&& ~~~ rangeBits lo hi).getLsbD a = false
  rw [BitVec.getLsbD_and, show x.bits.getLsbD a = false from h1, Bool.false_and]

theorem setOk_cleared : SetOk SlaveSet.cleared := by
  refine ⟨fun a _ => ?_, fun a h => by cases h⟩
  show (0#256).getLsbD a = false
  simp

theorem nextMember_le {x : SlaveSet} (hx : SetOk x) {a : Nat} (h : nextMember x = some a) : a ≤ 247 := by
  unfold nextMember at h
  split at h
  · cases h
  · cases h
  · have := findFrom_some h; omega
  · next c hc =>
    have := hx.2 c hc
    split at h
    · next b hb => have := findFrom_some hb; cases h; omega
    · split at h
      · have := findFrom_some h; omega
      · cases h

theorem setOk_advance {x : SlaveSet} (h : SetOk x) : SetOk (advance x) := by
  refine ⟨h.1, fun a ha => ?_⟩
  have ha : cursorOf (nextMember x) = .addr a := ha
  cases hn : nextMember x with
  | none => rw [hn] at ha; cases ha
  | some b => rw [hn] at ha; cases ha; exact nextMember_le h hn

end Sys2Proof.Machine
end

