-- ==== Sys2Proof/Laws/Ends.lean ====
section
/-! SUPPORT. The ends of an attempt as five shapes, and what an invariant needs to be kept by every operation: one
condition per shared operation, proved sufficient once over the dispatch. -/

namespace Sys2Proof.Machine

/-- How an attempt of slot `h` may end (R180 to R198): the state and the error `COMPLETE` is run with. -/
inductive Resp (h : Nat) (s : State) : State × Err → Prop
  | refl (e : Err) : Resp h s (s, e)
  | window (o l : Nat) (ho : o ≤ s.cfg.hdr + 3) : Resp h s (window h o l s, .ok)
  | noWin (e : Err) : Resp h s (noWindow h s, e)
  | exc (e : Err) : Resp h s (window h 0 0 s, e)
  | norm : Resp h s (normalizeSlot h s)
  | winNorm (o l : Nat) (ho : o ≤ s.cfg.hdr + 3) : Resp h s (normalizeSlot h (window h o l s))

theorem resp_readCheck (h : Nat) (s : State) : Resp h s (readCheck h s) := by
  unfold readCheck; split
  · exact .window _ _ (by omega)
  · exact .refl _

theorem resp_echo (h : Nat) (c : List (Bool × Err)) (s : State) : Resp h s (echoArm h c s) := by
  unfold echoArm; split
  · exact .noWin _
  · exact .refl _

theorem resp_regs (h : Nat) (s : State) : Resp h s (regsArm h s) := by
  unfold regsArm
  split
  · next hh =>
    have : readCheck h s = (window h (s.cfg.hdr + 2) (replyByte s h 1).toNat s, .ok) := by
      unfold readCheck at hh ⊢; split
      · rfl
      · next hn => rw [if_neg hn] at hh; cases hh
    rw [this]; exact .winNorm _ _ (by omega)
  · exact resp_readCheck h s

theorem resp_diag (h : Nat) (s : State) : Resp h s (diagArm h s) := by
  unfold diagArm; split
  · exact .winNorm _ _ (by omega)
  · exact .refl _

theorem resp_ite {h : Nat} {s : State} {c : Prop} [Decidable c] {a b : State × Err} (ha : Resp h s a) (hb : Resp h s b) :
    Resp h s (if c then a else b) := by split <;> assumption

theorem resp_arm (fc : Byte) (h : Nat) (s : State) : Resp h s (arm fc h s) :=
  resp_ite (resp_readCheck h s) (resp_ite (resp_readCheck h s) (resp_ite (resp_regs h s) (resp_ite (resp_regs h s)
    (resp_ite (resp_echo h _ s) (resp_ite (resp_echo h _ s) (resp_ite (.window _ 1 (by omega)) (resp_ite (resp_diag h s)
    (resp_ite (resp_echo h _ s) (resp_ite (resp_echo h _ s) (resp_ite (resp_echo h _ s) (resp_ite (resp_regs h s) (.refl _))))))))))))

theorem resp_exception (h : Nat) (s : State) : Resp h s (exceptionArm h s) := .exc _

theorem resp_early {h : Nat} {s : State} {p : State × Err} (he : earlyReply h s = some p) : Resp h s p := by
  unfold earlyReply at he
  simp only at he
  repeat' split at he
  all_goals first
    | (cases he; exact .refl _)
    | (cases he; exact resp_exception h s)
    | cases he

/-- Every `INVOKE` is one `COMPLETE` after one of these ends. -/
theorem resp_invoke (h : Nat) (s : State) :
    ∃ s' e, (Resp h s (s', e) ∨ Resp h (unreceived h s) (s', e)) ∧ invokeOp h s = raise h e s' := by
  unfold invokeOp
  split
  · next s' e he => exact ⟨s', e, .inl (resp_early he), rfl⟩
  · refine ⟨_, _, ?_, rfl⟩
    rcases prepared_cases (armReads (fcOf s.cfg (slotAt s h))) h s with e | e <;> rw [e]
    · exact .inl (resp_arm _ h s)
    · exact .inr (resp_arm _ h _)

/-- Every request of R150 to R162: its checks name an error, its template has one to seven bytes. -/
def ReqOk (r : Request) : Prop := (∀ c ∈ r.checks, c.2 ≠ .ok) ∧ 1 ≤ r.tmpl.length ∧ r.tmpl.length ≤ 7

theorem reqOk_readBits (fc : Byte) (a : Half) (q : Nat) : ReqOk (readBitsReq fc a q) :=
  ⟨by simp [readBitsReq, quantityIn, addressIn], by simp [readBitsReq], by simp [readBitsReq]⟩

theorem reqOk_readRegs (c : Cfg) (fc : Byte) (a : Half) (n es : Nat) : ReqOk (readRegsReq c fc a n es) :=
  ⟨by simp [readRegsReq, shapeOk, quantityIn, addressIn], by simp [readRegsReq], by simp [readRegsReq]⟩

theorem reqOk_writeOne (fc : Byte) (a v : Half) : ReqOk (writeOneReq fc a v) :=
  ⟨by simp [writeOneReq, addressIn], by simp [writeOneReq], by simp [writeOneReq, be16]⟩

theorem reqOk_rdExcStatus : ReqOk (rdExcStatusReq) :=
  ⟨by simp [rdExcStatusReq], by simp [rdExcStatusReq], by simp [rdExcStatusReq]⟩

theorem reqOk_diag (sub data : Half) : ReqOk (diagReq sub data) :=
  ⟨by simp [diagReq], by simp [diagReq], by simp [diagReq, be16]⟩

theorem reqOk_wrCoils (a : Half) (bits : List Bool) : ReqOk (wrCoilsReq a bits) :=
  ⟨by simp [wrCoilsReq, quantityIn, addressIn], by simp [wrCoilsReq], by simp [wrCoilsReq, be16]⟩

theorem reqOk_wrRegs (c : Cfg) (a : Half) (es : Nat) (vals : List Nat) : ReqOk (wrRegsReq c a es vals) :=
  ⟨by simp [wrRegsReq, shapeOk, quantityIn, addressIn], by simp [wrRegsReq], by simp [wrRegsReq, be16]⟩

theorem reqOk_maskWr (a am om : Half) : ReqOk (maskWrReq a am om) :=
  ⟨by simp [maskWrReq, addressIn], by simp [maskWrReq], by simp [maskWrReq, be16]⟩

theorem reqOk_rwRegs (c : Cfg) (ra : Half) (rn : Nat) (wa : Half) (es : Nat) (vals : List Nat) : ReqOk (rwRegsReq c ra rn wa es vals) :=
  ⟨by simp [rwRegsReq, shapeOk, quantityIn, addressIn], by simp [rwRegsReq], by simp [rwRegsReq]⟩

/-- `P` is kept by every shared operation that the dispatch reaches, under what the guards in front of it establish. -/
structure Keeps (P : State → Prop) : Prop where
  ans : ∀ r s, P s → P (answer r s)
  noSlot : ∀ e t hd fc s, P s → P (buildNoSlot e t hd fc s)
  build : ∀ t hd r s, P s → ReqOk r → AllNext P (build t hd r s)
  attempt : ∀ h s s' e, P s → detached s h = true → lengthsFit s.cfg (slotAt s h) = true → Resp h s (s', e) → AllNext P (raise h e s')
  fill : ∀ h s, P s → slotExists s h = true → P (unreceived h s)
  fail : ∀ h s e, P s → detached s h = true → AllNext P (raise h e s)
  head : ∀ h u s, P s → slotExists s h = true → s.cfg.params.transport = .rtu → P (updSlot s h (rtuHead u))
  crc : ∀ h len s, P s → slotExists s h = true → s.cfg.params.transport = .rtu → 1 + len + 2 ≤ s.cfg.bufCap → P (updSlot s h (rtuCrc len))
  mbap : ∀ h u len s, P s → slotExists s h = true → s.cfg.params.transport = .tcp → 7 + len ≤ s.cfg.bufCap → P (tcpSetMbap h u len s)
  mbapLong : ∀ h u len s, P s → slotExists s h = true → s.cfg.params.transport = .tcp → P (tcpSetMbapLong h u len s)
  receive : ∀ h f s, P s → detached s h = true → s.cfg.params.transport = .tcp → lengthsFit s.cfg (slotAt s h) = true → AllNext P (tcpReceive h f s)
  sbAdd : ∀ h i s, P s → s.cfg.params.transport = .tcp → sbFind s (fun v => decide (v = none)) = some i → detached s h = true →
    P (updSlot (sbPut s i (some h)) h (fun x => { x with stime := s.nowMs }))
  sbTake : ∀ p i s, P s → s.cfg.params.transport = .tcp → sbFind s p = some i → P (sbPut s i none)
  sets : ∀ r s x, P s → ssExists s r = true → (SetOk (ssAt s r) → SetOk x) → P (setSs s r x)
  rep : ∀ h s, P s → detached s h = true → lengthsFit s.cfg (slotAt s h) = true → P (repeatOrRelease h s)
  push : ∀ k s, P s → s.q.count ≠ s.cfg.params.queueCap → detached s k = true → P (qPush (some k) s).1
  pop : ∀ s, P s → P (qPop s).1
  popReady : ∀ s, P s → P (qPopReady s).1
  qClear : ∀ s, P s → P (clearQueue s)
  tick : ∀ s, P s → AllNext P (execTick s)
  clear : ∀ s, P s → P (clearAllOp s)
  be : ∀ b s, P s → P { s with ctx := { s.ctx with bigEndian := b } }
  norm : ∀ h s, P s → slotExists s h = true → lengthsFit s.cfg (slotAt s h) = true → (normalizeSlot h s).2 = .ok → P (normalizeSlot h s).1
  reset : ∀ p s, P s → legal p = true → P (resetWith p s)

variable {P : State → Prop}

theorem keeps_ss (K : Keeps P) (r : SsRef) (f : SlaveSet → SlaveSet) (s : State) (hs : P s) (hf : ∀ x, SetOk x → SetOk (f x)) : AllNext P (ssUpdate r f s) :=
  allNext_ite (fun he => allNext_ret (K.ans _ _ (K.sets r s _ hs he (hf _)))) (fun _ => allNext_reject (K.ans _ _ hs))

theorem slotExists_of_detached {s : State} {h : Nat} (hd : detached s h = true) : slotExists s h = true := by
  simp only [detached, Bool.and_eq_true] at hd; exact hd.1.1

/-- An attempt's end from a state that `P` holds in, or from the one with the bytes that were not received free. -/
theorem keeps_attempt (K : Keeps P) {h : Nat} {s s' : State} {e : Err} (hs : P s) (hd : detached s h = true)
    (hf : lengthsFit s.cfg (slotAt s h) = true) (hr : Resp h s (s', e) ∨ Resp h (unreceived h s) (s', e)) :
    AllNext P (raise h e s') := by
  rcases hr with hr | hr
  · exact K.attempt h s s' e hs hd hf hr
  · exact K.attempt h _ s' e (K.fill h s hs (slotExists_of_detached hd)) (by rw [detached_unreceived]; exact hd)
      (by rw [lengthsFit_unreceived]; exact hf) hr

theorem keeps_heard (K : Keeps P) {n h : Nat} {s : State} (hs : P s) (he : slotExists s h = true) : P (heard n h s) := by
  unfold heard; split
  · exact hs
  · exact K.fill h s hs he

theorem keeps_hostArm (K : Keeps P) {h : Nat} {s : State} (hs : P s) {reads : Nat → State → List (Nat × Nat × Bool)} {a : Nat → State → State × Err}
    (ha : ∀ s, Resp h s (a h s)) : AllNext P (hostArm h reads a s) := by
  refine allNext_withSlot (fun _ => allNext_withDetached (fun h1 => allNext_checked (fun _ h2 => ?_)) (K.ans _ _ hs)) (K.ans _ _ hs)
  unfold runArm
  rcases prepared_cases reads h s with e | e <;> rw [e]
  · exact keeps_attempt K hs h1 h2 (.inl (ha s))
  · exact keeps_attempt K hs h1 h2 (.inr (ha _))

/-- What every shared operation keeps, every operation keeps. -/
theorem exec_keeps (K : Keeps P) (i : Instr) (s : State) (hs : P s) : AllNext P (exec i s) := by
  have ret' : ∀ r, AllNext P (ret r s) := fun r => allNext_ret (K.ans _ _ hs)
  have rej : ∀ r, AllNext P (reject r s) := fun r => allNext_reject (K.ans _ _ hs)
  have no := fun r => K.ans r s hs
  have bld := fun t hd r => K.build t hd r s hs
  cases i with
  | rtuFrame u p => exact allNext_ite (fun _ => ret' _) (fun _ => rej _)
  | rtuExceptionFrame u f c => exact allNext_ite (fun _ => rej _) (fun _ => ret' _)
  | tcpFrame t u p => exact allNext_ite (fun _ => ret' _) (fun _ => rej _)
  | rdCoils => simp only [exec, execRdCoils]; exact bld _ _ _ (reqOk_readBits _ _ _)
  | rdDiscrete => simp only [exec, execRdDiscrete]; exact bld _ _ _ (reqOk_readBits _ _ _)
  | rdHolding => simp only [exec, execRdHolding]; exact bld _ _ _ (reqOk_readRegs _ _ _ _ _)
  | rdInput => simp only [exec, execRdInput]; exact bld _ _ _ (reqOk_readRegs _ _ _ _ _)
  | wrCoil => simp only [exec, execWrCoil]; exact bld _ _ _ (reqOk_writeOne _ _ _)
  | wrReg => simp only [exec, execWrReg]; exact bld _ _ _ (reqOk_writeOne _ _ _)
  | rdExcStatus => simp only [exec, execRdExcStatus]; exact bld _ _ _ reqOk_rdExcStatus
  | diag => simp only [exec, execDiag]; exact bld _ _ _ (reqOk_diag _ _)
  | wrCoils => simp only [exec, execWrCoils]; exact bld _ _ _ (reqOk_wrCoils _ _)
  | wrRegs => simp only [exec, execWrRegs]; exact bld _ _ _ (reqOk_wrRegs _ _ _ _)
  | maskWr => simp only [exec, execMaskWr]; exact bld _ _ _ (reqOk_maskWr _ _ _)
  | rwRegs => simp only [exec, execRwRegs]; exact bld _ _ _ (reqOk_rwRegs _ _ _ _ _ _)
  | buildRaw fc t hd => exact allNext_ite (fun _ => rej _) (fun _ => allNext_ret (K.ans _ _ (K.noSlot _ _ _ _ _ hs)))
  | rspRdCoils h => exact keeps_hostArm K hs (resp_readCheck h)
  | rspRdDiscrete h => exact keeps_hostArm K hs (resp_readCheck h)
  | rspRdHolding h => exact keeps_hostArm K hs (resp_regs h)
  | rspRdInput h => exact keeps_hostArm K hs (resp_regs h)
  | rspWrCoil h => exact keeps_hostArm K hs (fun s => resp_echo h _ s)
  | rspWrReg h => exact keeps_hostArm K hs (fun s => resp_echo h _ s)
  | rspRdExcStatus h => exact keeps_hostArm K hs (fun _ => .window _ 1 (by omega))
  | rspDiag h => exact keeps_hostArm K hs (resp_diag h)
  | rspWrCoils h => exact keeps_hostArm K hs (fun s => resp_echo h _ s)
  | rspWrRegs h => exact keeps_hostArm K hs (fun s => resp_echo h _ s)
  | rspMaskWr h => exact keeps_hostArm K hs (fun s => resp_echo h _ s)
  | rspRwRegs h => exact keeps_hostArm K hs (resp_regs h)
  | rspException h => exact keeps_hostArm K hs (resp_exception h)
  | rspWrongFunction h => exact keeps_hostArm K (a := fun _ s => (s, .invalidFunction)) hs (fun _ => .refl _)
  | rspNotSupported h => exact keeps_hostArm K (a := fun _ s => (s, .notSupported)) hs (fun _ => .refl _)
  | rtuSetHead h u => exact allNext_onlyOn (fun ht => allNext_withSlot (fun he => allNext_ret (K.ans _ _ (K.head h u s hs he ht))) (no _))
  | rtuSetCrc h len => exact allNext_onlyOn (fun ht => allNext_withSlot (fun he => allNext_ite (fun hl => allNext_ret (K.ans _ _ (K.crc h len s hs he ht hl))) (fun _ => allNext_fault)) (no _))
  | rtuCheckHead h => exact allNext_onlyOn (fun _ => allNext_withSlot (fun _ => ret' _) (no _))
  | rtuCheckCrc h => exact allNext_onlyOn (fun _ => allNext_withSlot (fun _ => allNext_checked (fun _ _ => ret' _)) (no _))
  | crc16 l => exact ret' _
  | tcpSetMbap h u len =>
    refine allNext_onlyOn (fun ht => allNext_withSlot (fun he => allNext_ret (K.ans _ _ ?_)) (no _))
    split
    · next hl => exact K.mbap h u len s hs he ht hl
    · exact K.mbapLong h u len s hs he ht
  | tcpCheckMbap h => exact allNext_onlyOn (fun _ => allNext_withSlot (fun he => allNext_ret (K.ans _ _ (keeps_heard K hs he))) (no _))
  | tcpPayloadLen h => exact allNext_onlyOn (fun _ => allNext_withSlot (fun he => allNext_ret (K.ans _ _ (keeps_heard K hs he))) (no _))
  | tcpReceive h f => exact allNext_onlyOn (fun ht => allNext_withSlot (fun _ => allNext_withDetached (fun hd => allNext_checked (fun _ hf => K.receive h f s hs hd ht hf)) (no _)) (no _))
  | sbAdd h =>
    refine allNext_onlyOn (fun ht => ?_)
    split
    · exact ret' _
    · next i hi => exact allNext_withSlot (fun _ => allNext_withDetached (fun hd => allNext_ret (K.ans _ _ (K.sbAdd h i s hs ht hi hd))) (no _)) (no _)
  | sbRead t =>
    refine allNext_onlyOn (fun ht => ?_)
    unfold Machine.sbTake; split
    · exact ret' _
    · next i hi => exact allNext_ret (K.ans _ _ (K.sbTake _ i s hs ht hi))
  | sbReadNextTimeout t =>
    refine allNext_onlyOn (fun ht => ?_)
    unfold Machine.sbTake; split
    · exact ret' _
    · next i hi => exact allNext_ret (K.ans _ _ (K.sbTake _ i s hs ht hi))
  | tcpFail h e => exact allNext_onlyOn (fun _ => allNext_withSlot (fun _ => allNext_withDetached (fun hd => K.fail h s _ hs hd) (no _)) (no _))
  | ssSet r a => simp only [exec, execSsSet]; exact keeps_ss K r _ s hs (fun _ => setOk_add _ _)
  | ssSetRange r a b => simp only [exec, execSsSetRange]; exact keeps_ss K r _ s hs (fun _ => setOk_add _ _)
  | ssRemove r a => simp only [exec, execSsRemove]; exact keeps_ss K r _ s hs (fun _ => setOk_drop _ _)
  | ssRemoveRange r a b => simp only [exec, execSsRemoveRange]; exact keeps_ss K r _ s hs (fun _ => setOk_drop _ _)
  | ssGetNext r => exact allNext_ite (fun he => allNext_ret (K.ans _ _ (K.sets r s _ hs he setOk_advance))) (fun _ => rej _)
  | ssPeek r => exact allNext_ite (fun _ => ret' _) (fun _ => rej _)
  | ssClear r => simp only [exec, execSsClear]; exact keeps_ss K r _ s hs (fun _ _ => setOk_cleared)
  | ssSetDelays r a b => simp only [exec, execSsSetDelays]; exact keeps_ss K r _ s hs (fun _ h => h)
  | repeatIfNeeded h => exact allNext_withSlot (fun _ => allNext_withDetached (fun hd => allNext_checked (fun _ hf => allNext_ret (K.ans _ _ (K.rep h s hs hd hf)))) (no _)) (no _)
  | qAdd o => cases o with
    | none => exact ret' _
    | some k => simp only [exec, execQAdd]; exact allNext_ite (fun _ => ret' _) (fun hc => allNext_withSlot (fun _ => allNext_withDetached (fun hd => allNext_ret (K.ans _ _ (K.push k s hs hc hd))) (no _)) (no _))
  | qRead => exact allNext_ret (K.ans _ _ (K.pop s hs))
  | qPeek => exact ret' _
  | qReadReady => exact allNext_ret (K.ans _ _ (K.popReady s hs))
  | qHasReady => exact ret' _
  | qClear => exact allNext_ret (K.ans _ _ (K.qClear s hs))
  | tick => exact K.tick s hs
  | clearAll => exact allNext_ret (K.ans _ _ (K.clear s hs))
  | setBigEndian b => exact allNext_ret (K.ans _ _ (K.be b s hs))
  | invoke h =>
    refine allNext_withSlot (fun _ => allNext_withDetached (fun hd => allNext_checked (fun _ hf => ?_)) (no _)) (no _)
    obtain ⟨s', e, hE, he⟩ := resp_invoke h s
    rw [he]; exact keeps_attempt K hs hd hf hE
  | normalize h =>
    exact allNext_withSlot (fun he => allNext_checked (fun _ hf => allNext_ite (fun hn => allNext_ret (K.ans _ _ (K.norm h s hs he hf hn)))
      (fun _ => allNext_withDetached (fun hd => K.attempt h s _ _ hs hd hf .norm) (no _)))) (no _)
  | encodeElems es v => exact ret' _
  | reset p => exact allNext_ite (fun hl => allNext_ret (K.ans _ _ (K.reset p s hs hl))) (fun _ => rej _)

end Sys2Proof.Machine
end

