-- ==== Sys2Proof/Laws/Engine.lean ====
section
/-! SUPPORT. The transmission and the receiving side of the engine. -/

namespace Sys2Proof.Machine

/-! ### Sending and taking -/

theorem slotAt_sendFrame (h : Nat) (s : State) (k : Nat) :
    slotAt (sendFrame h s) k = if k = h then { slotAt s h with stime := s.nowMs } else slotAt s k := by
  unfold sendFrame
  exact slotAt_updSlot (emit (emit (emit s .txBegin) (.serWrite (readBytes (slotAt s h).tx 0 (slotAt s h).txlen))) .txEnd) h k
    (fun x => { x with stime := s.nowMs })

theorem sendFrame_frame (h : Nat) (s : State) : { sendFrame h s with pool := s.pool } =
    { s with events := s.events ++ [.txBegin, .serWrite (readBytes (slotAt s h).tx 0 (slotAt s h).txlen), .txEnd], eng := { s.eng with idleT := s.nowUs } } := by
  have : s.events ++ [.txBegin, .serWrite (readBytes (slotAt s h).tx 0 (slotAt s h).txlen), .txEnd] =
    ((s.events ++ [.txBegin]) ++ [.serWrite (readBytes (slotAt s h).tx 0 (slotAt s h).txlen)]) ++ [.txEnd] := by simp
  rw [this]; rfl

theorem length_taken (h limit : Nat) (s : State) :
    (slotAt s h).rxlen + (taken s h limit).length ≤ max (slotAt s h).rxlen limit := by
  unfold taken; rw [List.length_take]; omega

end Sys2Proof.Machine
end

