-- ==== Sys2Proof/Laws/PerInstr.lean ====
section
/-! SUPPORT. The round trip of every operation, one lemma per constructor of `Instr`: a well-formed operation is what the
decoder reads from its command. -/

namespace Sys2Proof.Laws.RoundTrip

/-- `i`, if well formed, is read back from its command, whatever zero bytes follow the command. -/
def Statement (i : Instr) : Prop :=
  i.wf = true → ∀ n, decode (encode i ++ List.replicate n 0#8) = .ok i

theorem rtuFrame (unit : Byte) (pdu : List Byte) : Statement (.rtuFrame unit pdu) := by
  intro hw n
  refine decode_of_operands rfl ?_
  simp only [Instr.wf] at hw
  simp only [Instr.parts, rdThen, rdPure, List.cons_append, rdByte_put, rdBytes_put, hw]

theorem rtuExceptionFrame (unit fc code : Byte) : Statement (.rtuExceptionFrame unit fc code) := by
  intro hw n
  refine decode_of_operands rfl ?_
  simp only [Instr.parts, rdThen, rdPure, List.cons_append, List.nil_append, rdByte_put]

theorem tcpFrame (tid : Half) (unit : Byte) (pdu : List Byte) : Statement (.tcpFrame tid unit pdu) := by
  intro hw n
  refine decode_of_operands rfl ?_
  simp only [Instr.wf] at hw
  simp only [Instr.parts, rdThen, rdPure, List.append_assoc, List.cons_append, rdHalf_put, rdByte_put, rdBytes_put, hw]

theorem rdCoils (target : Target) (a : Half) (q handler : Nat) : Statement (.rdCoils target a q handler) := by
  intro hw n
  refine decode_of_operands rfl ?_
  simp only [Instr.wf, Bool.and_eq_true] at hw
  simp only [Instr.parts, rdThen, rdPure, List.append_assoc, rdTarget_put, rdHalf_put, rdNat2_put, hw]

theorem rdDiscrete (target : Target) (a : Half) (q handler : Nat) : Statement (.rdDiscrete target a q handler) := by
  intro hw n
  refine decode_of_operands rfl ?_
  simp only [Instr.wf, Bool.and_eq_true] at hw
  simp only [Instr.parts, rdThen, rdPure, List.append_assoc, rdTarget_put, rdHalf_put, rdNat2_put, hw]

theorem rdHolding (target : Target) (a : Half) (n esize handler : Nat) : Statement (.rdHolding target a n esize handler) := by
  intro hw n
  refine decode_of_operands rfl ?_
  simp only [Instr.wf, Bool.and_eq_true, decide_eq_true_eq] at hw
  simp only [Instr.parts, rdThen, rdPure, List.append_assoc, rdTarget_put, rdHalf_put, rdNat1_put, rdNat2_put, hw]

theorem rdInput (target : Target) (a : Half) (n esize handler : Nat) : Statement (.rdInput target a n esize handler) := by
  intro hw n
  refine decode_of_operands rfl ?_
  simp only [Instr.wf, Bool.and_eq_true, decide_eq_true_eq] at hw
  simp only [Instr.parts, rdThen, rdPure, List.append_assoc, rdTarget_put, rdHalf_put, rdNat1_put, rdNat2_put, hw]

theorem wrCoil (target : Target) (a : Half) (on : Bool) (handler : Nat) : Statement (.wrCoil target a on handler) := by
  intro hw n
  refine decode_of_operands rfl ?_
  simp only [Instr.wf, Bool.and_eq_true] at hw
  simp only [Instr.parts, rdThen, rdPure, List.append_assoc, rdTarget_put, rdHalf_put, rdBool_put, rdNat2_put, hw]

theorem wrReg (target : Target) (a v : Half) (handler : Nat) : Statement (.wrReg target a v handler) := by
  intro hw n
  refine decode_of_operands rfl ?_
  simp only [Instr.wf, Bool.and_eq_true] at hw
  simp only [Instr.parts, rdThen, rdPure, List.append_assoc, rdTarget_put, rdHalf_put, rdNat2_put, hw]

theorem rdExcStatus (target : Target) (handler : Nat) : Statement (.rdExcStatus target handler) := by
  intro hw n
  refine decode_of_operands rfl ?_
  simp only [Instr.wf, Bool.and_eq_true] at hw
  simp only [Instr.parts, rdThen, rdPure, List.append_assoc, rdTarget_put, rdNat2_put, hw]

theorem diag (target : Target) (sub data : Half) (handler : Nat) : Statement (.diag target sub data handler) := by
  intro hw n
  refine decode_of_operands rfl ?_
  simp only [Instr.wf, Bool.and_eq_true] at hw
  simp only [Instr.parts, rdThen, rdPure, List.append_assoc, rdTarget_put, rdHalf_put, rdNat2_put, hw]

theorem wrCoils (target : Target) (a : Half) (bits : List Bool) (handler : Nat) : Statement (.wrCoils target a bits handler) := by
  intro hw n
  refine decode_of_operands rfl ?_
  simp only [Instr.wf, Bool.and_eq_true] at hw
  simp only [Instr.parts, rdThen, rdPure, List.append_assoc, rdTarget_put, rdHalf_put, rdBits_put, rdNat2_put, hw]

theorem wrRegs (target : Target) (a : Half) (esize : Nat) (vals : List Nat) (handler : Nat) : Statement (.wrRegs target a esize vals handler) := by
  intro hw n
  refine decode_of_operands rfl ?_
  simp only [Instr.wf, Bool.and_eq_true] at hw
  simp only [Instr.parts, rdThen, rdPure, List.append_assoc, rdTarget_put, rdHalf_put, rdVals_put, rdNat2_put, hw]

theorem maskWr (target : Target) (a andMask orMask : Half) (handler : Nat) : Statement (.maskWr target a andMask orMask handler) := by
  intro hw n
  refine decode_of_operands rfl ?_
  simp only [Instr.wf, Bool.and_eq_true] at hw
  simp only [Instr.parts, rdThen, rdPure, List.append_assoc, rdTarget_put, rdHalf_put, rdNat2_put, hw]

theorem rwRegs (target : Target) (ra : Half) (rn : Nat) (wa : Half) (esize : Nat) (wvals : List Nat) (handler : Nat) : Statement (.rwRegs target ra rn wa esize wvals handler) := by
  intro hw n
  refine decode_of_operands rfl ?_
  simp only [Instr.wf, Bool.and_eq_true] at hw
  simp only [Instr.parts, rdThen, rdPure, List.append_assoc, rdTarget_put, rdHalf_put, rdVals_put, rdNat2_put, hw]

theorem buildRaw (fc : Byte) (target : Target) (handler : Nat) : Statement (.buildRaw fc target handler) := by
  intro hw n
  simp only [Instr.wf, Bool.and_eq_true, Bool.not_eq_true'] at hw
  refine decode_of_operands (p := rdPure (Instr.buildRaw fc) |> rdThen rdTarget |> rdThen (rdNat 2))
    (by simp [operandsOf, Instr.parts, hw]) ?_
  simp only [Instr.parts, rdThen, rdPure, List.append_assoc, rdTarget_put, rdNat2_put, hw]

theorem rspRdCoils (h : Nat) : Statement (.rspRdCoils h) := by
  intro hw n
  refine decode_of_operands rfl ?_
  simp only [Instr.wf] at hw
  simp only [Instr.parts, rdThen, rdPure, rdMap, rdNat2_put, hw]

theorem rspRdDiscrete (h : Nat) : Statement (.rspRdDiscrete h) := by
  intro hw n
  refine decode_of_operands rfl ?_
  simp only [Instr.wf] at hw
  simp only [Instr.parts, rdThen, rdPure, rdMap, rdNat2_put, hw]

theorem rspRdHolding (h : Nat) : Statement (.rspRdHolding h) := by
  intro hw n
  refine decode_of_operands rfl ?_
  simp only [Instr.wf] at hw
  simp only [Instr.parts, rdThen, rdPure, rdMap, rdNat2_put, hw]

theorem rspRdInput (h : Nat) : Statement (.rspRdInput h) := by
  intro hw n
  refine decode_of_operands rfl ?_
  simp only [Instr.wf] at hw
  simp only [Instr.parts, rdThen, rdPure, rdMap, rdNat2_put, hw]

theorem rspWrCoil (h : Nat) : Statement (.rspWrCoil h) := by
  intro hw n
  refine decode_of_operands rfl ?_
  simp only [Instr.wf] at hw
  simp only [Instr.parts, rdThen, rdPure, rdMap, rdNat2_put, hw]

theorem rspWrReg (h : Nat) : Statement (.rspWrReg h) := by
  intro hw n
  refine decode_of_operands rfl ?_
  simp only [Instr.wf] at hw
  simp only [Instr.parts, rdThen, rdPure, rdMap, rdNat2_put, hw]

theorem rspRdExcStatus (h : Nat) : Statement (.rspRdExcStatus h) := by
  intro hw n
  refine decode_of_operands rfl ?_
  simp only [Instr.wf] at hw
  simp only [Instr.parts, rdThen, rdPure, rdMap, rdNat2_put, hw]

theorem rspDiag (h : Nat) : Statement (.rspDiag h) := by
  intro hw n
  refine decode_of_operands rfl ?_
  simp only [Instr.wf] at hw
  simp only [Instr.parts, rdThen, rdPure, rdMap, rdNat2_put, hw]

theorem rspWrCoils (h : Nat) : Statement (.rspWrCoils h) := by
  intro hw n
  refine decode_of_operands rfl ?_
  simp only [Instr.wf] at hw
  simp only [Instr.parts, rdThen, rdPure, rdMap, rdNat2_put, hw]

theorem rspWrRegs (h : Nat) : Statement (.rspWrRegs h) := by
  intro hw n
  refine decode_of_operands rfl ?_
  simp only [Instr.wf] at hw
  simp only [Instr.parts, rdThen, rdPure, rdMap, rdNat2_put, hw]

theorem rspMaskWr (h : Nat) : Statement (.rspMaskWr h) := by
  intro hw n
  refine decode_of_operands rfl ?_
  simp only [Instr.wf] at hw
  simp only [Instr.parts, rdThen, rdPure, rdMap, rdNat2_put, hw]

theorem rspRwRegs (h : Nat) : Statement (.rspRwRegs h) := by
  intro hw n
  refine decode_of_operands rfl ?_
  simp only [Instr.wf] at hw
  simp only [Instr.parts, rdThen, rdPure, rdMap, rdNat2_put, hw]

theorem rspException (h : Nat) : Statement (.rspException h) := by
  intro hw n
  refine decode_of_operands rfl ?_
  simp only [Instr.wf] at hw
  simp only [Instr.parts, rdThen, rdPure, rdMap, rdNat2_put, hw]

theorem rspWrongFunction (h : Nat) : Statement (.rspWrongFunction h) := by
  intro hw n
  refine decode_of_operands rfl ?_
  simp only [Instr.wf] at hw
  simp only [Instr.parts, rdThen, rdPure, rdMap, rdNat2_put, hw]

theorem rspNotSupported (h : Nat) : Statement (.rspNotSupported h) := by
  intro hw n
  refine decode_of_operands rfl ?_
  simp only [Instr.wf] at hw
  simp only [Instr.parts, rdThen, rdPure, rdMap, rdNat2_put, hw]

theorem rtuSetHead (h : Nat) (u : Byte) : Statement (.rtuSetHead h u) := by
  intro hw n
  refine decode_of_operands rfl ?_
  simp only [Instr.wf] at hw
  simp only [Instr.parts, rdThen, rdPure, List.append_assoc, List.cons_append, List.nil_append, rdByte_put, rdNat2_put, hw]

theorem rtuSetCrc (h len : Nat) : Statement (.rtuSetCrc h len) := by
  intro hw n
  refine decode_of_operands rfl ?_
  simp only [Instr.wf, Bool.and_eq_true] at hw
  simp only [Instr.parts, rdThen, rdPure, List.append_assoc, rdNat2_put, hw]

theorem rtuCheckHead (h : Nat) : Statement (.rtuCheckHead h) := by
  intro hw n
  refine decode_of_operands rfl ?_
  simp only [Instr.wf] at hw
  simp only [Instr.parts, rdThen, rdPure, rdMap, rdNat2_put, hw]

theorem rtuCheckCrc (h : Nat) : Statement (.rtuCheckCrc h) := by
  intro hw n
  refine decode_of_operands rfl ?_
  simp only [Instr.wf] at hw
  simp only [Instr.parts, rdThen, rdPure, rdMap, rdNat2_put, hw]

theorem crc16 (bytes : List Byte) : Statement (.crc16 bytes) := by
  intro hw n
  refine decode_of_operands rfl ?_
  simp only [Instr.wf] at hw
  simp only [Instr.parts, rdThen, rdPure, rdMap, rdBytes_put, hw]

theorem tcpSetMbap (h : Nat) (u : Byte) (len : Nat) : Statement (.tcpSetMbap h u len) := by
  intro hw n
  refine decode_of_operands rfl ?_
  simp only [Instr.wf, Bool.and_eq_true] at hw
  simp only [Instr.parts, rdThen, rdPure, List.append_assoc, List.cons_append, rdByte_put, rdNat2_put, hw]

theorem tcpCheckMbap (h : Nat) : Statement (.tcpCheckMbap h) := by
  intro hw n
  refine decode_of_operands rfl ?_
  simp only [Instr.wf] at hw
  simp only [Instr.parts, rdThen, rdPure, rdMap, rdNat2_put, hw]

theorem tcpPayloadLen (h : Nat) : Statement (.tcpPayloadLen h) := by
  intro hw n
  refine decode_of_operands rfl ?_
  simp only [Instr.wf] at hw
  simp only [Instr.parts, rdThen, rdPure, rdMap, rdNat2_put, hw]

theorem tcpReceive (h : Nat) (frame : List Byte) : Statement (.tcpReceive h frame) := by
  intro hw n
  refine decode_of_operands rfl ?_
  simp only [Instr.wf, Bool.and_eq_true] at hw
  simp only [Instr.parts, rdThen, rdPure, List.append_assoc, rdBytes_put, rdNat2_put, hw]

theorem sbAdd (h : Nat) : Statement (.sbAdd h) := by
  intro hw n
  refine decode_of_operands rfl ?_
  simp only [Instr.wf] at hw
  simp only [Instr.parts, rdThen, rdPure, rdMap, rdNat2_put, hw]

theorem sbRead (tid : Half) : Statement (.sbRead tid) := by
  intro hw n
  refine decode_of_operands rfl ?_
  simp only [Instr.parts, rdThen, rdPure, rdMap, rdHalf_put]

theorem sbReadNextTimeout (threshold : Nat) : Statement (.sbReadNextTimeout threshold) := by
  intro hw n
  refine decode_of_operands rfl ?_
  simp only [Instr.wf] at hw
  simp only [Instr.parts, rdThen, rdPure, rdMap, rdNat8_put, hw]

theorem tcpFail (h : Nat) (e : FailCode) : Statement (.tcpFail h e) := by
  intro hw n
  refine decode_of_operands rfl ?_
  simp only [Instr.wf] at hw
  simp only [Instr.parts, rdThen, rdPure, List.append_assoc, List.cons_append, List.nil_append, rdFailCode_put, rdNat2_put, hw]

theorem ssSet (ss : SsRef) (a : Byte) : Statement (.ssSet ss a) := by
  intro hw n
  refine decode_of_operands rfl ?_
  simp only [Instr.wf] at hw
  simp only [Instr.parts, rdThen, rdPure, List.append_assoc, List.cons_append, List.nil_append, rdSs_put, rdByte_put, hw]

theorem ssSetRange (ss : SsRef) (lo hi : Byte) : Statement (.ssSetRange ss lo hi) := by
  intro hw n
  refine decode_of_operands rfl ?_
  simp only [Instr.wf] at hw
  simp only [Instr.parts, rdThen, rdPure, List.append_assoc, List.cons_append, List.nil_append, rdSs_put, rdByte_put, hw]

theorem ssRemove (ss : SsRef) (a : Byte) : Statement (.ssRemove ss a) := by
  intro hw n
  refine decode_of_operands rfl ?_
  simp only [Instr.wf] at hw
  simp only [Instr.parts, rdThen, rdPure, List.append_assoc, List.cons_append, List.nil_append, rdSs_put, rdByte_put, hw]

theorem ssRemoveRange (ss : SsRef) (lo hi : Byte) : Statement (.ssRemoveRange ss lo hi) := by
  intro hw n
  refine decode_of_operands rfl ?_
  simp only [Instr.wf] at hw
  simp only [Instr.parts, rdThen, rdPure, List.append_assoc, List.cons_append, List.nil_append, rdSs_put, rdByte_put, hw]

theorem ssGetNext (ss : SsRef) : Statement (.ssGetNext ss) := by
  intro hw n
  refine decode_of_operands rfl ?_
  simp only [Instr.wf] at hw
  simp only [Instr.parts, rdThen, rdPure, rdMap, rdSs_put, hw]

theorem ssPeek (ss : SsRef) : Statement (.ssPeek ss) := by
  intro hw n
  refine decode_of_operands rfl ?_
  simp only [Instr.wf] at hw
  simp only [Instr.parts, rdThen, rdPure, rdMap, rdSs_put, hw]

theorem ssClear (ss : SsRef) : Statement (.ssClear ss) := by
  intro hw n
  refine decode_of_operands rfl ?_
  simp only [Instr.wf] at hw
  simp only [Instr.parts, rdThen, rdPure, rdMap, rdSs_put, hw]

theorem ssSetDelays (ss : SsRef) (itemDelay repeatDelay : Int) : Statement (.ssSetDelays ss itemDelay repeatDelay) := by
  intro hw n
  refine decode_of_operands rfl ?_
  simp only [Instr.wf, Bool.and_eq_true] at hw
  simp only [Instr.parts, rdThen, rdPure, List.append_assoc, rdSs_put, rdInt_put, hw]

theorem repeatIfNeeded (h : Nat) : Statement (.repeatIfNeeded h) := by
  intro hw n
  refine decode_of_operands rfl ?_
  simp only [Instr.wf] at hw
  simp only [Instr.parts, rdThen, rdPure, rdMap, rdNat2_put, hw]

theorem qAdd (h : Option Nat) : Statement (.qAdd h) := by
  intro hw n
  refine decode_of_operands rfl ?_
  cases h with
  | none => rfl
  | some k => simp only [Instr.parts, rdMap, rdThen, rdPure, rdOptHandle_some k _ hw]

theorem qRead : Statement .qRead := by
  intro hw n; exact decode_of_operands rfl rfl

theorem qPeek : Statement .qPeek := by
  intro hw n; exact decode_of_operands rfl rfl

theorem qReadReady : Statement .qReadReady := by
  intro hw n; exact decode_of_operands rfl rfl

theorem qHasReady : Statement .qHasReady := by
  intro hw n; exact decode_of_operands rfl rfl

theorem qClear : Statement .qClear := by
  intro hw n; exact decode_of_operands rfl rfl

theorem tick : Statement .tick := by
  intro hw n; exact decode_of_operands rfl rfl

theorem clearAll : Statement .clearAll := by
  intro hw n; exact decode_of_operands rfl rfl

theorem setBigEndian (b : Bool) : Statement (.setBigEndian b) := by
  intro hw n
  refine decode_of_operands rfl ?_
  simp only [Instr.parts, rdThen, rdPure, rdMap, rdBool_put]

theorem invoke (h : Nat) : Statement (.invoke h) := by
  intro hw n
  refine decode_of_operands rfl ?_
  simp only [Instr.wf] at hw
  simp only [Instr.parts, rdThen, rdPure, rdMap, rdNat2_put, hw]

theorem normalize (h : Nat) : Statement (.normalize h) := by
  intro hw n
  refine decode_of_operands rfl ?_
  simp only [Instr.wf] at hw
  simp only [Instr.parts, rdThen, rdPure, rdMap, rdNat2_put, hw]

theorem encodeElems (esize : Nat) (vals : List Nat) : Statement (.encodeElems esize vals) := by
  intro hw n
  refine decode_of_operands rfl ?_
  simp only [Instr.wf] at hw
  simp only [Instr.parts, rdThen, rdPure, rdMap, rdVals_put, hw]

theorem reset (params : Params) : Statement (.reset params) := by
  intro hw n
  refine decode_of_operands rfl ?_
  simp only [Instr.wf] at hw
  simp only [Instr.parts, rdThen, rdPure, rdMap, rdParams_put, hw]

end Sys2Proof.Laws.RoundTrip
end

