-- ==== Sys2Proof/Laws/Sound.lean ====
section
/-! SUPPORT. What the shared operations keep of `Sound`: a slot replaced, the queue replaced, a re-arm, a completion, the
end of an attempt. -/

namespace Sys2Proof.Machine

/-- One slot's part of `BoundsOk`. -/
structure SlotOk (c : Cfg) (x : Slot) : Prop where
  fits : slotFits c x = true
  tx : below c.bufCap x.tx = true
  rx : below c.bufCap x.rx = true
  tmpl : below (c.hdr + 7) x.tmpl = true

theorem BoundsOk.at {s : State} (hb : BoundsOk s) (h : Nat) : SlotOk s.cfg (slotAt s h) := ⟨hb.lengths h, hb.tx h, hb.rx h, hb.tmpl h⟩

/-- `h` stands in no container (R24). -/
structure Free (h : Nat) (s : State) : Prop where
  q : ∀ p, ¬ InQueue s p h
  sb : ∀ i, ¬ InSent s i h
  pend : ¬ IsPending s h

theorem held_q {s : State} {p h : Nat} (hq : InQueue s p h) : held s h = true := by
  have hm := mem_of_cellAt_some hq
  have : s.q.arr.any (fun c => decide (c.2 = some h)) = true := List.any_eq_true.mpr ⟨_, hm, by simp⟩
  simp [held, this]

theorem held_sb {s : State} {p h : Nat} (hq : InSent s p h) : held s h = true := by
  have hm := mem_of_cellAt_some hq
  have : s.sb.any (fun c => decide (c.2 = some h)) = true := List.any_eq_true.mpr ⟨_, hm, by simp⟩
  simp [held, this]

theorem free_of_detached {s : State} {h : Nat} (hd : detached s h = true) : h < s.cfg.params.poolCap ∧ (slotAt s h).inuse = true ∧ Free h s := by
  simp only [detached, Bool.and_eq_true, Bool.not_eq_true', slotExists, decide_eq_true_eq] at hd
  obtain ⟨⟨h1, h2⟩, h3⟩ := hd
  refine ⟨h1, h2, fun p hq => ?_, fun p hq => ?_, fun hq => ?_⟩
  · rw [held_q hq] at h3; cases h3
  · rw [held_sb hq] at h3; cases h3
  · simp [held, show s.eng.pending = some h from hq] at h3

/-- The containers read of a slot nothing but `inuse`. -/
theorem containers_congr {s t : State} (hc : ContainersOk s) (hcfg : t.cfg = s.cfg) (hq : t.q = s.q) (hsb : t.sb = s.sb) (heng : t.eng = s.eng)
    (hold : ∀ h, ¬ Free h s → Holdable s h → Holdable t h) : ContainersOk t := by
  have q' : ∀ {p h}, InQueue t p h → InQueue s p h := fun {p h} e => by unfold InQueue at *; rwa [hq] at e
  have s' : ∀ {p h}, InSent t p h → InSent s p h := fun {p h} e => by unfold InSent at *; rwa [hsb] at e
  have e' : ∀ {h}, IsPending t h → IsPending s h := fun {h} e => by unfold IsPending at *; rwa [heng] at e
  constructor
  · exact fun p h e => hold h (fun F => F.q p (q' e)) (hc.queueHolds p h (q' e))
  · exact fun p h e => hold h (fun F => F.sb p (s' e)) (hc.sentHolds p h (s' e))
  · exact fun h e => hold h (fun F => F.pend (e' e)) (hc.pendingHolds h (e' e))
  · exact fun p p' h a b => hc.queueOnce p p' h (q' a) (q' b)
  · exact fun p p' h a b => hc.sentOnce p p' h (s' a) (s' b)
  · exact fun p i h a b => hc.queueNotSent p i h (q' a) (s' b)
  · exact fun p h a b => hc.queueNotPend p h (q' a) (e' b)
  · exact fun p h a b => hc.sentNotPend p h (s' a) (e' b)
  · rw [hcfg, hsb]; exact hc.sentTcp
  · rw [hcfg, heng]; exact hc.pendingRtu
  · rw [heng]; exact hc.awaiting

theorem free_congr {s t : State} {h : Nat} (hf : Free h s) (hq : t.q = s.q) (hsb : t.sb = s.sb) (heng : t.eng.pending = s.eng.pending) : Free h t :=
  ⟨fun p e => hf.q p (by unfold InQueue at *; rwa [hq] at e), fun p e => hf.sb p (by unfold InSent at *; rwa [hsb] at e),
    fun e => hf.pend (by unfold IsPending at *; rwa [heng] at e)⟩

/-- A sound state with one slot replaced by one that fits, free or as much in use as before, is sound. -/
theorem sound_slot {s t : State} {h : Nat} (hs : Sound s) (hcfg : t.cfg = s.cfg) (hq : t.q = s.q) (hsb : t.sb = s.sb) (heng : t.eng = s.eng)
    (hp : below s.cfg.params.poolCap t.pool = true) (hk : ∀ k, k ≠ h → slotAt t k = slotAt s k) (hx : SlotOk s.cfg (slotAt t h))
    (hi : Free h s ∨ (slotAt t h).inuse = (slotAt s h).inuse) : Sound t := by
  have hslot : ∀ k, SlotOk t.cfg (slotAt t k) := fun k => by
    rw [hcfg]
    by_cases e : k = h
    · rw [e]; exact hx
    · rw [hk k e]; exact hs.bounds.at k
  refine ⟨?_, queueOk_congr hq hcfg hs.queue, ?_, ?_⟩
  · have := hs.cfg; unfold CfgOk at *; rwa [hcfg]
  · refine containers_congr hs.containers hcfg hq hsb heng (fun k hk' hh => ?_)
    unfold Holdable slotExists at *
    rw [hcfg]
    by_cases e : k = h
    · subst e
      rcases hi with hi | hi
      · exact absurd hi hk'
      · rw [hi]; exact hh
    · rw [hk k e]; exact hh
  · exact ⟨fun k => (hslot k).fits, fun k => (hslot k).tx, fun k => (hslot k).rx, fun k => (hslot k).tmpl, by rw [hcfg]; exact hp, by rw [hcfg, hsb]; exact hs.bounds.sent⟩

theorem sound_frame {s t : State} (hs : Sound s) (hcfg : t.cfg = s.cfg) (hq : t.q = s.q) (hsb : t.sb = s.sb) (heng : t.eng = s.eng) (hp : t.pool = s.pool) : Sound t :=
  sound_slot (h := 0) hs hcfg hq hsb heng (by rw [hp]; exact hs.bounds.pool) (fun k _ => slotAt_congr hp k) (by rw [slotAt_congr hp]; exact hs.bounds.at 0) (.inr (by rw [slotAt_congr hp]))

theorem sound_set {s : State} {h : Nat} {x : Slot} (hs : Sound s) (hh : h < s.cfg.params.poolCap) (hx : SlotOk s.cfg x)
    (hi : Free h s ∨ x.inuse = (slotAt s h).inuse) : Sound (setSlot s h x) :=
  sound_slot hs rfl rfl rfl rfl (below_putCell hh hs.bounds.pool) (fun k hk => slotAt_setSlot_ne _ _ hk) (by simpa using hx) (by simpa using hi)

theorem sound_upd {s : State} {h : Nat} (f : Slot → Slot) (hs : Sound s) (hh : h < s.cfg.params.poolCap) (hf : SlotOk s.cfg (slotAt s h) → SlotOk s.cfg (f (slotAt s h)))
    (hi : (f (slotAt s h)).inuse = (slotAt s h).inuse) : Sound (updSlot s h f) := sound_set hs hh (hf (hs.bounds.at h)) (.inr hi)

theorem slotOk_cleared (c : Cfg) : SlotOk c Slot.cleared := ⟨by simp [slotFits, lengthsFit, Slot.cleared], rfl, rfl, rfl⟩

theorem sound_release {s : State} {h : Nat} (hs : Sound s) (hf : Free h s) : Sound (release h s) :=
  sound_slot hs rfl rfl rfl rfl (by show below _ (putCell Slot.cleared s.pool h Slot.cleared) = true; exact below_putCell_default hs.bounds.pool) (fun k hk => slotAt_setSlot_ne _ _ hk) (by rw [slotAt_release, if_pos rfl]; exact slotOk_cleared _) (.inl hf)

theorem rtu_caps {s : State} (ht : s.cfg.params.transport = .rtu) : s.cfg.hdr = 1 ∧ s.cfg.trl = 2 ∧ s.cfg.bufCap = 1 + s.cfg.params.pduMax + 2 := by
  simp [Cfg.bufCap, Params.bufCap, Cfg.hdr, Params.hdr, Cfg.trl, Params.trl, ht]

theorem tcp_caps {s : State} (ht : s.cfg.params.transport = .tcp) : s.cfg.hdr = 7 ∧ s.cfg.trl = 0 ∧ s.cfg.bufCap = 7 + s.cfg.params.pduMax := by
  simp [Cfg.bufCap, Params.bufCap, Cfg.hdr, Params.hdr, Cfg.trl, Params.trl, ht]

theorem pdu_ge {s : State} (hs : Sound s) : 8 ≤ s.cfg.params.pduMax := by
  have := hs.cfg.1
  simp only [legal, Bool.and_eq_true, decide_eq_true_eq] at this
  omega

/-- A slot that fits but for its transmit length, as a build or a re-arm leaves it before the header. -/
structure Pre (c : Cfg) (x : Slot) : Prop where
  tx : below c.bufCap x.tx = true
  rx : below c.bufCap x.rx = true
  tmpl : below (c.hdr + 7) x.tmpl = true
  rxlen : x.rxlen ≤ c.bufCap
  explen : x.explen ≤ c.bufCap
  win : x.winOff + x.winLen ≤ c.bufCap
  t1 : 1 ≤ x.tmpllen
  t7 : x.tmpllen ≤ 7

theorem SlotOk.pre {c : Cfg} {x : Slot} (h : SlotOk c x) : Pre c x := by
  have := (slotFits_iff c x).mp h.fits
  exact ⟨h.tx, h.rx, h.tmpl, this.2.1, this.2.2.1, this.2.2.2.1, this.2.2.2.2.1, this.2.2.2.2.2.1⟩

theorem Pre.ok {c : Cfg} {x : Slot} (h : Pre c x) (h1 : x.txlen ≤ c.bufCap) (h2 : x.inuse = true → c.hdr + c.trl ≤ x.txlen) : SlotOk c x :=
  ⟨(slotFits_iff c x).mpr ⟨h1, h.rxlen, h.explen, h.win, h.t1, h.t7, h2⟩, h.tx, h.rx, h.tmpl⟩

theorem slotOk_rtuHead {s : State} {x : Slot} {u : Byte} (ht : s.cfg.params.transport = .rtu) (h : SlotOk s.cfg x) : SlotOk s.cfg (rtuHead u x) := by
  have hc := rtu_caps ht
  exact ⟨h.fits, below_writeBytes (by simp; omega) h.tx, h.rx, below_writeBytes (by simp) h.tmpl⟩

theorem pre_rtuHead {s : State} {x : Slot} {u : Byte} (ht : s.cfg.params.transport = .rtu) (h : Pre s.cfg x) : Pre s.cfg (rtuHead u x) := by
  have hc := rtu_caps ht
  exact ⟨below_writeBytes (by simp; omega) h.tx, h.rx, below_writeBytes (by simp) h.tmpl, h.rxlen, h.explen, h.win, h.t1, h.t7⟩

theorem slotOk_rtuCrc {s : State} {x : Slot} {len : Nat} (ht : s.cfg.params.transport = .rtu) (hl : 1 + len + 2 ≤ s.cfg.bufCap) (h : Pre s.cfg x) :
    SlotOk s.cfg (rtuCrc len x) := by
  have hc := rtu_caps ht
  have p : Pre s.cfg (rtuCrc len x) := ⟨below_writeBytes (by simp [le16]; omega) h.tx, h.rx, h.tmpl, h.rxlen, h.explen, h.win, h.t1, h.t7⟩
  exact p.ok hl (fun _ => by show _ ≤ 1 + len + 2; omega)

theorem slotOk_tcpHead {s : State} {x : Slot} {tid : Half} {u : Byte} {len : Nat} (ht : s.cfg.params.transport = .tcp) (hl : 7 + len ≤ s.cfg.bufCap) (h : Pre s.cfg x) :
    SlotOk s.cfg (tcpHead tid u len x) := by
  have hc := tcp_caps ht
  have p : Pre s.cfg (tcpHead tid u len x) := ⟨below_writeBytes (by rw [length_mbap]; omega) h.tx, h.rx, below_writeBytes (by rw [length_mbap]; omega) h.tmpl, h.rxlen, h.explen, h.win, h.t1, h.t7⟩
  exact p.ok hl (fun _ => by show _ ≤ 7 + len; omega)

/-- The header of an overlong PDU leaves a slot in its ranges. -/
theorem slotOk_tcpHeadLong {s : State} {x : Slot} {tid : Half} {u : Byte} {len n : Nat} (ht : s.cfg.params.transport = .tcp)
    (hn : n ≤ s.cfg.params.pduMax) (h : Pre s.cfg x) : SlotOk s.cfg { tcpHead tid u len x with txlen := 7 + n } := by
  have hc := tcp_caps ht
  have p : Pre s.cfg { tcpHead tid u len x with txlen := 7 + n } :=
    ⟨below_writeBytes (by rw [length_mbap]; omega) h.tx, h.rx, below_writeBytes (by rw [length_mbap]; omega) h.tmpl, h.rxlen, h.explen, h.win, h.t1, h.t7⟩
  exact p.ok (by show 7 + n ≤ _; omega) (fun _ => by show _ ≤ 7 + n; omega)

theorem slotOk_headed {s : State} {x : Slot} {tid : Half} {u : Byte} {len : Nat} (hl : len ≤ s.cfg.params.pduMax) (h : Pre s.cfg x) :
    SlotOk s.cfg (headed s.cfg.params.transport tid u len x) := by
  cases ht : s.cfg.params.transport with
  | rtu => exact slotOk_rtuCrc ht (by rw [(rtu_caps ht).2.2]; omega) (pre_rtuHead ht h)
  | tcp => exact slotOk_tcpHead ht (by rw [(tcp_caps ht).2.2]; omega) h

theorem headed_inuse (tr : Transport) (tid : Half) (u : Byte) (len : Nat) (x : Slot) : (headed tr tid u len x).inuse = x.inuse := by cases tr <;> rfl

/-! ### The queue -/

theorem mem_content {s : State} (hq : QueueOk s) {h : Nat} : some h ∈ qContent s ↔ ∃ p, InQueue s p h := by
  constructor
  · intro hm
    simp only [qContent, List.mem_map, List.mem_range] at hm
    obtain ⟨i, _, hi⟩ := hm
    exact ⟨qPos s i, hi⟩
  · rintro ⟨p, hp⟩
    by_contra hn
    have : ∀ i, i < s.q.count → qPos s i ≠ p := by
      intro i hi e
      apply hn
      simp only [qContent, List.mem_map, List.mem_range]
      exact ⟨i, hi, by unfold qItem; rw [e]; exact hp⟩
    have := hq.free p this
    unfold InQueue at hp; rw [hp] at this; cases this

theorem nodup_iff {s : State} (hq : QueueOk s) : (qContent s).Nodup ↔ ∀ p p' h, InQueue s p h → InQueue s p' h → p = p' := by
  have hc := hq.count
  have idx : ∀ {p h}, InQueue s p h → ∃ i, i < s.q.count ∧ qPos s i = p := by
    intro p h hp
    by_contra hn
    have := hq.free p (fun i hi e => hn ⟨i, hi, e⟩)
    unfold InQueue at hp; rw [hp] at this; cases this
  unfold qContent
  constructor
  · intro hn p p' h a b
    obtain ⟨i, hi, e⟩ := idx a
    obtain ⟨j, hj, e'⟩ := idx b
    have : i = j := by
      have inj := List.inj_on_of_nodup_map hn
      refine inj (List.mem_range.mpr hi) (List.mem_range.mpr hj) ?_
      unfold qItem; rw [e, e', show cellAt none s.q.arr p = some h from a, show cellAt none s.q.arr p' = some h from b]
    rw [← e, ← e', this]
  · intro ho
    refine List.Nodup.map_on ?_ List.nodup_range
    intro i hi j hj e
    rw [List.mem_range] at hi hj
    obtain ⟨h, hh⟩ := hq.occupied i hi
    exact qPos_inj (by omega) (by omega) (ho _ _ h hh (by show qItem s j = some h; rw [← e]; exact hh))

/-- A sound state with another queue is sound, if that queue holds no handle twice and only handles it may hold. -/
theorem sound_queue {s t : State} (hs : Sound s) (ht : QueueOk t) (hfr : { t with q := s.q } = s) (hn : (qContent t).Nodup)
    (hsub : ∀ h, some h ∈ qContent t → Holdable s h ∧ (∀ i, ¬ InSent s i h) ∧ ¬ IsPending s h) : Sound t := by
  have hcfg : t.cfg = s.cfg := by have := congrArg State.cfg hfr; exact this
  have hpool : t.pool = s.pool := by have := congrArg State.pool hfr; exact this
  have hsb : t.sb = s.sb := by have := congrArg State.sb hfr; exact this
  have heng : t.eng = s.eng := by have := congrArg State.eng hfr; exact this
  have hold : ∀ {h}, Holdable s h → Holdable t h := fun {h} hh => by unfold Holdable slotExists at *; rw [hcfg, slotAt_congr hpool]; exact hh
  have q' : ∀ {p h}, InQueue t p h → Holdable s h ∧ (∀ i, ¬ InSent s i h) ∧ ¬ IsPending s h := fun {p h} e => hsub h ((mem_content ht).mpr ⟨p, e⟩)
  have s' : ∀ {p h}, InSent t p h → InSent s p h := fun {p h} e => by unfold InSent at *; rwa [hsb] at e
  have e' : ∀ {h}, IsPending t h → IsPending s h := fun {h} e => by unfold IsPending at *; rwa [heng] at e
  have hc := hs.containers
  refine ⟨by have := hs.cfg; unfold CfgOk at *; rwa [hcfg], ht, ?_, ?_⟩
  · constructor
    · exact fun p h e => hold (q' e).1
    · exact fun p h e => hold (hc.sentHolds p h (s' e))
    · exact fun h e => hold (hc.pendingHolds h (e' e))
    · exact (nodup_iff ht).mp hn
    · exact fun p p' h a b => hc.sentOnce p p' h (s' a) (s' b)
    · exact fun p i h a b => (q' a).2.1 i (s' b)
    · exact fun p h a b => (q' a).2.2 (e' b)
    · exact fun p h a b => hc.sentNotPend p h (s' a) (e' b)
    · rw [hcfg, hsb]; exact hc.sentTcp
    · rw [hcfg, heng]; exact hc.pendingRtu
    · rw [heng]; exact hc.awaiting
  · have hb := hs.bounds
    exact ⟨fun h => by rw [hcfg, slotAt_congr hpool]; exact hb.lengths h, fun h => by rw [hcfg, slotAt_congr hpool]; exact hb.tx h,
      fun h => by rw [hcfg, slotAt_congr hpool]; exact hb.rx h, fun h => by rw [hcfg, slotAt_congr hpool]; exact hb.tmpl h,
      by rw [hcfg, hpool]; exact hb.pool, by rw [hcfg, hsb]; exact hb.sent⟩

theorem sub_content {s : State} (hs : Sound s) {h : Nat} (hm : some h ∈ qContent s) : Holdable s h ∧ (∀ i, ¬ InSent s i h) ∧ ¬ IsPending s h := by
  obtain ⟨p, hp⟩ := (mem_content hs.queue).mp hm
  exact ⟨hs.containers.queueHolds p h hp, fun i => hs.containers.queueNotSent p i h hp, hs.containers.queueNotPend p h hp⟩

theorem content_nodup {s : State} (hs : Sound s) : (qContent s).Nodup := (nodup_iff hs.queue).mpr hs.containers.queueOnce
/-- A handle of the queue is free once the queue no longer holds it. -/
theorem free_after {s t : State} (hs : Sound s) (ht : QueueOk t) (hfr : { t with q := s.q } = s) {h : Nat} (hm : some h ∈ qContent s) (hn : some h ∉ qContent t) :
    Free h t ∧ h < t.cfg.params.poolCap ∧ (slotAt t h).inuse = true := by
  obtain ⟨a, b, c⟩ := sub_content hs hm
  have hsb : t.sb = s.sb := by have := congrArg State.sb hfr; exact this
  have heng : t.eng = s.eng := by have := congrArg State.eng hfr; exact this
  have hcfg : t.cfg = s.cfg := by have := congrArg State.cfg hfr; exact this
  have hpool : t.pool = s.pool := by have := congrArg State.pool hfr; exact this
  refine ⟨⟨fun p hp => hn ((mem_content ht).mpr ⟨p, hp⟩), fun i hi => b i (by unfold InSent at *; rwa [hsb] at hi), fun e => c (by unfold IsPending at *; rwa [heng] at e)⟩, ?_, ?_⟩
  · rw [hcfg]; have := a.1; simpa [slotExists] using this
  · rw [slotAt_congr hpool]; exact a.2

theorem qPush_frame (o : Option Nat) (s : State) : { (qPush o s).1 with q := s.q } = s := by
  unfold qPush; split
  · rfl
  · split <;> rfl

theorem sound_push {s : State} {h : Nat} (hs : Sound s) (hf : Free h s) (hh : h < s.cfg.params.poolCap) (hi : (slotAt s h).inuse = true) :
    Sound (qPush (some h) s).1 := by
  by_cases hc : s.q.count = s.cfg.params.queueCap
  · rw [qPush_full h hc]; exact hs
  have hlt : s.q.count < s.cfg.params.queueCap := by have := hs.queue.count; omega
  refine sound_queue hs (queueOk_qPush hs.queue h hlt) (qPush_frame _ s) ?_ ?_
  · rw [qContent_qPush hs.queue h hlt]
    have : some h ∉ qContent s := fun hm => by obtain ⟨p, hp⟩ := (mem_content hs.queue).mp hm; exact hf.q p hp
    rw [List.nodup_append]
    refine ⟨content_nodup hs, by simp, fun a ha b hb e => ?_⟩
    simp at hb; subst hb; subst e; exact this ha
  · intro k hk
    rw [qContent_qPush hs.queue h hlt, List.mem_append] at hk
    rcases hk with hk | hk
    · exact sub_content hs hk
    · simp at hk; subst hk
      exact ⟨⟨by simp [slotExists, hh], hi⟩, hf.sb, hf.pend⟩

theorem qPop_q (s : State) : { (qPop s).1 with q := s.q } = s := qPop_frame s s

theorem sound_pop {s : State} (hs : Sound s) : Sound (qPop s).1 := by
  by_cases hc : s.q.count = 0
  · simp [qPop, hc]; exact hs
  refine sound_queue hs (queueOk_qPop hs.queue) (qPop_q s) ?_ (fun h hm => sub_content hs ?_)
  · rw [qContent_qPop hs.queue hc]; exact (List.drop_sublist _ _).nodup (content_nodup hs)
  · rw [qContent_qPop hs.queue hc] at hm; exact List.mem_of_mem_drop hm

theorem swap_facts {α : Type} [DecidableEq α] (l : List α) (d : α) (hn : l.Nodup) (j : Nat) (hj : j < l.length) :
    ((l.set j (l.getD 0 d)).drop 1).Nodup ∧ (∀ x ∈ (l.set j (l.getD 0 d)).drop 1, x ∈ l) ∧ l[j] ∉ (l.set j (l.getD 0 d)).drop 1 := by
  cases l with
  | nil => simp at hj
  | cons a l =>
    rw [List.nodup_cons] at hn
    cases j with
    | zero => simp only [List.getD_cons_zero, List.set_cons_zero, List.drop_one, List.tail_cons, List.getElem_cons_zero]; exact ⟨hn.2, fun x hx => List.mem_cons_of_mem _ hx, hn.1⟩
    | succ k =>
      simp only [List.getD_cons_zero, List.set_cons_succ, List.drop_one, List.tail_cons, List.getElem_cons_succ]
      simp only [List.length_cons, Nat.add_lt_add_iff_right] at hj
      have key : ∀ x, x ∈ l.set k a → x = a ∨ (x ∈ l ∧ x ≠ l[k]) := by
        intro x hx
        obtain ⟨i, hi, e⟩ := List.mem_iff_getElem.mp hx
        rw [List.getElem_set] at e
        simp only [List.length_set] at hi
        split at e
        · exact .inl e.symm
        · next hik => exact .inr ⟨by rw [← e]; exact List.getElem_mem _, fun e2 => hik (((List.Nodup.getElem_inj_iff hn.2).mp (e.trans e2)).symm)⟩
      refine ⟨?_, ?_, ?_⟩
      · exact List.Nodup.set hn.2 hn.1
      · intro x hx
        rcases key x hx with h | h
        · rw [h]; exact List.mem_cons_self
        · exact List.mem_cons_of_mem _ h.1
      · intro hx
        rcases key _ hx with h | h
        · exact hn.1 (h ▸ List.getElem_mem _)
        · exact h.2 rfl

theorem erase_facts {α : Type} (l : List α) (hn : l.Nodup) (j : Nat) (hj : j < l.length) :
    (l.eraseIdx j).Nodup ∧ (∀ x ∈ l.eraseIdx j, x ∈ l) ∧ l[j] ∉ l.eraseIdx j := by
  refine ⟨(List.eraseIdx_sublist _ _).nodup hn, fun x hx => List.mem_of_mem_eraseIdx hx, fun hm => ?_⟩
  rw [List.mem_eraseIdx_iff_getElem] at hm
  obtain ⟨i, hi, hne, e⟩ := hm
  exact hne ((List.Nodup.getElem_inj_iff hn).mp e)

theorem sound_popReady {s : State} (hs : Sound s) : Sound (qPopReady s).1 ∧
    ∀ h, (qPopReady s).2 = some h → Free h (qPopReady s).1 ∧ h < (qPopReady s).1.cfg.params.poolCap ∧ (slotAt (qPopReady s).1 h).inuse = true := by
  cases hsel : selectReady s with
  | none => rw [qPopReady_none hsel]; exact ⟨hs, fun h e => by cases e⟩
  | some j =>
    obtain ⟨h1, h2, h3, h4⟩ := qPopReady_some hs.queue hsel
    have hj := (selectReady_some hsel).1
    have hlen : j < (qContent s).length := by simpa using hj
    have hget : (qContent s)[j] = qItem s j := by
      have := getElem?_qContent s j
      rw [List.getElem?_eq_getElem hlen, if_pos hj] at this
      simpa using this
    have hd := content_nodup hs
    have facts : (qContent (qPopReady s).1).Nodup ∧ (∀ x ∈ qContent (qPopReady s).1, x ∈ qContent s) ∧ qItem s j ∉ qContent (qPopReady s).1 := by
      rw [h3, ← hget]
      split
      · exact swap_facts _ none hd j hlen
      · exact erase_facts _ hd j hlen
    refine ⟨sound_queue hs h2 h4 facts.1 (fun h hm => sub_content hs (facts.2.1 _ hm)), fun h e => ?_⟩
    rw [h1] at e
    refine free_after hs h2 h4 ?_ ?_
    · rw [← e, ← hget]; exact List.getElem_mem _
    · rw [← e]; exact facts.2.2

/-! ### Ends of attempts -/

theorem sound_ans {s : State} {r : Result} (hs : Sound s) : Sound (answer r s) := sound_frame hs rfl rfl rfl rfl rfl

theorem sound_emit {s : State} {e : Event} (hs : Sound s) : Sound (emit s e) := sound_frame hs rfl rfl rfl rfl rfl

theorem sound_rearm {s : State} {h u : Nat} (hs : Sound s) (hf : Free h s) (hh : h < s.cfg.params.poolCap) (hi : (slotAt s h).inuse = true) : Sound (rearm h u s) := by
  have hb := hs.bounds.at h
  have hfit := (slotFits_iff _ _).mp hb.fits
  have hpre := hb.pre
  have hfr := rearmFrame_frame h u s
  have hcfg : (rearmFrame h u s).cfg = s.cfg := by have := congrArg State.cfg hfr; exact this
  have hq : (rearmFrame h u s).q = s.q := by have := congrArg State.q hfr; exact this
  have hsb : (rearmFrame h u s).sb = s.sb := by have := congrArg State.sb hfr; exact this
  have heng : (rearmFrame h u s).eng = s.eng := by have := congrArg State.eng hfr; exact this
  have hin : (slotAt (rearmFrame h u s) h).inuse = true := by
    rw [rearmFrame_slot, if_pos rfl]; show (headed _ _ _ _ _).inuse = true; rw [headed_inuse]; exact hi
  have h1 : Sound (rearmFrame h u s) := by
    refine sound_slot (h := h) hs hcfg hq hsb heng ?_ (fun k hk => by rw [rearmFrame_slot, if_neg hk]) ?_ (.inl hf)
    · unfold rearmFrame
      simp only [setHeader_eq]
      exact below_putCell hh (below_putCell hh (below_putCell hh hs.bounds.pool))
    · rw [rearmFrame_slot, if_pos rfl]
      have hp : Pre s.cfg (rearmed (slotAt s h)) := ⟨hpre.tx, hpre.rx, hpre.tmpl, Nat.zero_le _, hpre.explen, Nat.zero_le _, hpre.t1, hpre.t7⟩
      have := slotOk_headed (s := s) (tid := tidAfter s) (u := BitVec.ofNat 8 u) (len := (slotAt s h).txlen - s.cfg.hdr - s.cfg.trl)
        (by have := bufCap_eq s.cfg; omega) hp
      exact ⟨this.fits, this.tx, this.rx, this.tmpl⟩
  have hf1 : Free h (rearmFrame h u s) := free_congr hf hq hsb (by rw [heng])
  have hh1 : h < (rearmFrame h u s).cfg.params.poolCap := by rw [hcfg]; exact hh
  have h2 := sound_push h1 hf1 hh1 hin
  unfold rearm
  simp only
  split
  · next s' he => rw [he] at h2; exact h2
  · next s' he =>
    have hc : (rearmFrame h u s).q.count = (rearmFrame h u s).cfg.params.queueCap := by
      by_contra hc; rw [qPush_some h hc] at he; cases he
    rw [qPush_full h hc] at he
    cases he
    unfold rearmFull
    refine sound_release (sound_emit (sound_upd _ h1 hh1 (fun x => ⟨x.fits, x.tx, x.rx, x.tmpl⟩) rfl)) ?_
    exact free_congr hf1 rfl rfl rfl

theorem sound_repeat {s : State} {h : Nat} (hs : Sound s) (hf : Free h s) (hh : h < s.cfg.params.poolCap) (hi : (slotAt s h).inuse = true) : Sound (repeatOrRelease h s) := by
  have hb := hs.bounds.at h
  unfold repeatOrRelease
  simp only
  split
  · split
    · exact sound_release hs hf
    · exact sound_rearm (sound_set hs hh ⟨hb.fits, hb.tx, hb.rx, hb.tmpl⟩ (.inl hf)) (free_congr hf rfl rfl rfl) hh (by simp; exact hi)
  · exact sound_release hs hf

theorem sound_complete {s : State} {h : Nat} {e : Err} (hs : Sound s) (hf : Free h s) (hh : h < s.cfg.params.poolCap) (hi : (slotAt s h).inuse = true) : Sound (complete h e s) := by
  unfold complete
  refine sound_repeat (sound_emit (sound_upd _ hs hh (fun x => ⟨x.fits, x.tx, x.rx, x.tmpl⟩) rfl)) (free_congr hf rfl rfl rfl) hh ?_
  simp; exact hi

/-- `s'` is `s` but for the window and the received bytes of slot `h`, whose window may end outside the buffer. -/
structure Off (h : Nat) (s s' : State) : Prop where
  frame : { s' with pool := s.pool, freeCount := s.freeCount } = s
  pool : below s.cfg.params.poolCap s'.pool = true
  other : ∀ k, k ≠ h → slotAt s' k = slotAt s k
  slot : { slotAt s' h with rx := (slotAt s h).rx, winOff := (slotAt s h).winOff, winLen := (slotAt s h).winLen } = slotAt s h
  rx : below s.cfg.bufCap (slotAt s' h).rx = true
  off : (slotAt s' h).winOff ≤ s.cfg.bufCap

theorem Off.inuse {h : Nat} {s s' : State} (E : Off h s s') : (slotAt s' h).inuse = (slotAt s h).inuse := by
  rw [← E.slot]

theorem Off.refl {h : Nat} {s : State} (hs : Sound s) : Off h s s :=
  ⟨rfl, hs.bounds.pool, fun _ _ => rfl, rfl, hs.bounds.rx h, by have := (hs.bounds.at h).pre.win; omega⟩

/-- An update of the window and the received bytes alone. -/
theorem Off.upd {h : Nat} {s s' : State} (E : Off h s s') (hh : h < s.cfg.params.poolCap) (f : Slot → Slot)
    (hf : ∀ x : Slot, { f x with rx := x.rx, winOff := x.winOff, winLen := x.winLen } = x)
    (hr : below s.cfg.bufCap (f (slotAt s' h)).rx = true) (ho : (f (slotAt s' h)).winOff ≤ s.cfg.bufCap) :
    Off h s (updSlot s' h f) := by
  refine ⟨E.frame, below_putCell hh E.pool, fun k hk => by rw [slotAt_updSlot_ne _ _ hk]; exact E.other k hk, ?_, ?_, ?_⟩
  · have := congrArg (fun x : Slot => { x with rx := (slotAt s h).rx, winOff := (slotAt s h).winOff, winLen := (slotAt s h).winLen })
      (hf (slotAt s' h))
    rw [slotAt_updSlot_self]; exact this.trans E.slot
  · rw [slotAt_updSlot_self]; exact hr
  · rw [slotAt_updSlot_self]; exact ho

theorem Off.win {h o l : Nat} {s s' : State} (E : Off h s s') (hh : h < s.cfg.params.poolCap) (ho : o ≤ s.cfg.bufCap) :
    Off h s (window h o l s') := E.upd hh _ (fun _ => rfl) E.rx ho

theorem Off.noWin {h : Nat} {s s' : State} (E : Off h s s') (hh : h < s.cfg.params.poolCap) :
    Off h s (updSlot s' h (fun x => { x with winLen := 0 })) := E.upd hh _ (fun _ => rfl) E.rx E.off

theorem below_normal {c : Cfg} {be : Bool} {st : Nat} {x : Slot} (hx : below c.bufCap x.rx = true) (hw : x.winOff + x.winLen ≤ c.bufCap) :
    below c.bufCap (normalSlot be st x).rx = true := by
  have hle := normal_le be x.esize (dataOf x)
  rw [length_dataOf] at hle
  exact below_writeBytes (by rw [length_freeBytes]; omega) (below_writeBytes (by omega) hx)

theorem normalErr_win {c : Cfg} {x : Slot} (h : normalErr c x = .ok) : x.winOff + x.winLen + c.trl ≤ x.rxlen := by
  rw [normalErr_eq] at h
  split at h
  · cases h
  · split at h
    · cases h
    · next hn => omega

theorem Off.norm {h : Nat} {s s' : State} (hs : Sound s) (E : Off h s s') (hh : h < s.cfg.params.poolCap) : Off h s (normalizeSlot h s').1 := by
  have hcfg : s'.cfg = s.cfg := by have := congrArg State.cfg E.frame; exact this
  by_cases hn : normalErr s'.cfg (slotAt s' h) = .ok
  · rw [normalize_ok hn]
    have hw := normalErr_win hn
    have hr := hs.bounds.at h |>.pre.rxlen
    have hrl : (slotAt s' h).rxlen = (slotAt s h).rxlen := by rw [← E.slot]
    have hn := E.upd hh (normalSlot s'.ctx.bigEndian s'.freeCount) (fun _ => rfl) (below_normal E.rx (by omega)) E.off
    exact ⟨hn.frame, hn.pool, hn.other, hn.slot, hn.rx, hn.off⟩
  · rw [normalize_bad hn]; exact E.noWin hh

theorem sound_fill {s : State} {h : Nat} (hs : Sound s) (hh : h < s.cfg.params.poolCap) : Sound (unreceived h s) := by
  refine sound_frame (s := updSlot s h (fillRx s.cfg s.freeCount)) (sound_upd _ hs hh (fun x => ?_) rfl) rfl rfl rfl rfl rfl
  have hb := (slotFits_iff _ _).mp x.fits
  exact ⟨x.fits, x.tx, below_writeBytes (by rw [length_freeRxBytes]; omega) x.rx, x.tmpl⟩

/-- Every window an arm sets begins inside the buffer. -/
theorem bufCap_ge {s : State} (hs : Sound s) : s.cfg.hdr + 3 ≤ s.cfg.bufCap := by
  have := pdu_ge hs
  show Params.hdr _ + 3 ≤ Params.hdr _ + s.cfg.params.pduMax + Params.trl _
  omega

theorem off_resp {h : Nat} {s : State} {p : State × Err} (hs : Sound s) (hh : h < s.cfg.params.poolCap) (hr : Resp h s p) : Off h s p.1 := by
  cases hr with
  | refl => exact Off.refl hs
  | window o l ho => exact (Off.refl hs).win hh (by have := bufCap_ge hs; omega)
  | noWin => exact (Off.refl hs).noWin hh
  | exc => exact (Off.refl hs).win hh (Nat.zero_le _)
  | norm => exact (Off.refl hs).norm hs hh
  | winNorm o l ho => exact ((Off.refl hs).win hh (by have := bufCap_ge hs; omega)).norm hs hh

theorem Off.sound {h : Nat} {s s' : State} (E : Off h s s') (hs : Sound s) (hw : windowFits s'.cfg (slotAt s' h) = true) : Sound s' := by
  have a1 : s'.cfg = s.cfg := by have := congrArg State.cfg E.frame; exact this
  have a2 : s'.q = s.q := by have := congrArg State.q E.frame; exact this
  have a3 : s'.sb = s.sb := by have := congrArg State.sb E.frame; exact this
  have a4 : s'.eng = s.eng := by have := congrArg State.eng E.frame; exact this
  refine sound_slot (h := h) hs a1 a2 a3 a4 E.pool E.other ?_ (.inr E.inuse)
  rw [a1, windowFits_iff] at hw
  have hb := (hs.bounds.at h)
  have hfit := (slotFits_iff _ _).mp hb.fits
  rw [← E.slot] at hfit
  refine ⟨(slotFits_iff _ _).mpr ⟨hfit.1, hfit.2.1, hfit.2.2.1, ?_, hfit.2.2.2.2⟩, ?_, E.rx, ?_⟩
  · have := E.off; omega
  · have := hb.tx; rw [← E.slot] at this; exact this
  · have := hb.tmpl; rw [← E.slot] at this; exact this

theorem Off.free {h : Nat} {s s' : State} (E : Off h s s') (hf : Free h s) : Free h s' :=
  free_congr hf (by have := congrArg State.q E.frame; exact this) (by have := congrArg State.sb E.frame; exact this) (by have := congrArg (fun s => s.eng.pending) E.frame; exact this)

theorem sound_raise {h : Nat} {e : Err} {s s' : State} (hs : Sound s) (E : Off h s s') (hf : Free h s) (hh : h < s.cfg.params.poolCap) (hi : (slotAt s h).inuse = true) :
    AllNext Sound (raise h e s') := by
  have a1 : s'.cfg = s.cfg := by have := congrArg State.cfg E.frame; exact this
  refine allNext_raise (fun hw => sound_ans ?_)
  exact sound_complete (E.sound hs hw) (E.free hf) (by rw [a1]; exact hh) (by rw [E.inuse]; exact hi)

theorem sound_invoke {h : Nat} {s : State} (hs : Sound s) (hf : Free h s) (hh : h < s.cfg.params.poolCap) (hi : (slotAt s h).inuse = true) : AllNext Sound (invokeOp h s) := by
  obtain ⟨s', e, hE, he⟩ := resp_invoke h s
  rw [he]
  rcases hE with hE | hE
  · exact sound_raise hs (off_resp hs hh hE) hf hh hi
  · exact sound_raise (sound_fill hs hh) (off_resp (sound_fill hs hh) hh hE) (free_congr hf rfl rfl rfl) hh
      (by rw [slotAt_unreceived, if_pos rfl]; exact hi)

theorem sound_raise0 {h : Nat} {e : Err} {s : State} (hs : Sound s) (hf : Free h s) (hh : h < s.cfg.params.poolCap) (hi : (slotAt s h).inuse = true) :
    AllNext Sound (raise h e s) := sound_raise hs (Off.refl hs) hf hh hi

end Sys2Proof.Machine
end

