-- ==== Sys2Proof/Tests/Slice0.lean ====
section
/-! SUPPORT. The model's own tests. Expected values: the worked examples and vectors of spec/95_test_vectors.md (named by
their numbers S, V and P), or written out from the rule named. Three parts: commands, single steps, and for every statement
with hypotheses a state and operands that meet them. -/

namespace Sys2Proof.Tests

set_option Elab.async false

open Sys2Proof.Machine Sys2Proof.Claims

/-- A byte sequence from its values. -/
def b (l : List Nat) : List Byte := l.map (BitVec.ofNat 8)

/-- What a command reads as. -/
def read (l : List Nat) : Option Instr := (decode (b l)).toOption

/-- Why a command is refused. -/
def refusal (l : List Nat) : Option DecodeError :=
  match decode (b l) with
  | .ok _ => none
  | .error e => some e

/-! ### Well-formedness -/

theorem test_wf_function_code : (Instr.buildRaw 0x03#8 (.unit 1#8) 0).wf = false ∧
    (Instr.buildRaw 0x17#8 (.unit 1#8) 0).wf = false := by decide

theorem test_wf_counts : (Instr.rdCoils (.unit 1#8) 0#16 65536 0).wf = false ∧
    (Instr.rdCoils (.unit 1#8) 0#16 1 65536).wf = false ∧ (Instr.rdCoils (.set 65536) 0#16 1 0).wf = false ∧
    (Instr.rspWrReg 65536).wf = false ∧ (Instr.rtuSetCrc 0 65536).wf = false ∧
    (Instr.tcpSetMbap 0 0#8 65536).wf = false ∧ (Instr.qAdd (some 65536)).wf = false ∧
    (Instr.ssSet (.host 65536) 0#8).wf = false ∧ (Instr.ssSet (.slot 65536) 0#8).wf = false := by decide

theorem test_wf_elements : (Instr.rdHolding (.unit 1#8) 0#16 1 256 0).wf = false ∧
    (Instr.wrRegs (.unit 1#8) 0#16 256 [] 0).wf = false ∧ (Instr.wrRegs (.unit 1#8) 0#16 1 [256] 0).wf = false ∧
    (Instr.rwRegs (.unit 1#8) 0#16 1 0#16 2 [65536] 0).wf = false ∧ (Instr.encodeElems 3 [16777216]).wf = false := by
  decide

theorem test_wf_wide : (Instr.sbReadNextTimeout 18446744073709551616).wf = false ∧
    (Instr.ssSetDelays (.host 0) 9223372036854775808 0).wf = false ∧
    (Instr.ssSetDelays (.host 0) 0 (-9223372036854775809)).wf = false ∧
    (Instr.reset { Params.default with pduMax := 4294967296 }).wf = false ∧
    (Instr.reset { Params.default with respTimeoutMs := 18446744073709551616 }).wf = false ∧
    (Instr.reset { Params.default with wTime := 65536 }).wf = false := by decide

theorem test_wf_long_list (l : List Byte) (bits : List Bool) (vals : List Nat) (hl : l.length = 65536)
    (hb : bits.length = 65536) (hv : vals.length = 65536) : (Instr.crc16 l).wf = false ∧
    (Instr.tcpReceive 0 l).wf = false ∧ (Instr.wrCoils (.unit 1#8) 0#16 bits 0).wf = false ∧
    (Instr.encodeElems 1 vals).wf = false := by simp [Instr.wf, fits16, valsWf, hl, hb, hv]

/-! ### Commands written out from R125, R126, R129 (first byte) and log 1 (the bytes behind it) -/

theorem test_decode_build_reads :
    read [0x01, 0, 0, 17, 0, 0x13, 0, 0x13, 0, 7] = some (.rdCoils (.unit 17#8) 0x13#16 19 7) ∧
    read [0x02, 0, 0, 17, 0, 0xC4, 0, 0x16, 0, 7] = some (.rdDiscrete (.unit 17#8) 0xC4#16 22 7) ∧
    read [0x03, 0, 1, 0, 2, 0, 0x10, 0, 1, 4, 0, 7] = some (.rdHolding (.set 2) 0x10#16 1 4 7) ∧
    read [0x04, 0, 0, 1, 0, 8, 1, 1, 2, 3, 4] = some (.rdInput (.unit 1#8) 8#16 257 2 772) ∧
    read [0x07, 0, 0, 1, 0, 7] = some (.rdExcStatus (.unit 1#8) 7) ∧
    read [0x08, 0, 0, 1, 0, 0, 0xA5, 0x37, 0, 7] = some (.diag (.unit 1#8) 0#16 0xA537#16 7) := by decide +kernel

theorem test_decode_build_writes :
    read [0x05, 0, 0, 1, 0, 0xAC, 1, 0, 7] = some (.wrCoil (.unit 1#8) 0xAC#16 true 7) ∧
    read [0x06, 0, 0, 1, 0, 100, 0x12, 0x34, 0, 7] = some (.wrReg (.unit 1#8) 100#16 0x1234#16 7) ∧
    read [0x0F, 0, 0, 1, 0, 0x13, 0, 3, 1, 0, 1, 0, 7] = some (.wrCoils (.unit 1#8) 0x13#16 [true, false, true] 7) ∧
    read [0x10, 0, 0, 1, 0, 0x20, 3, 0, 1, 0xAB, 0xCD, 0xEF, 0, 7] =
      some (.wrRegs (.unit 1#8) 0x20#16 3 [0xABCDEF] 7) ∧
    read [0x16, 0, 0, 1, 0, 4, 0, 0xF2, 0, 0x25, 0, 7] = some (.maskWr (.unit 1#8) 4#16 0xF2#16 0x25#16 7) ∧
    read [0x17, 0, 0, 1, 0, 3, 0, 6, 0, 14, 2, 0, 2, 0, 255, 1, 2, 0, 7] =
      some (.rwRegs (.unit 1#8) 3#16 6 14#16 2 [255, 258] 7) ∧
    read [0x2B, 1, 0, 1, 0, 7] = some (.buildRaw 0x2B#8 (.unit 1#8) 7) := by decide +kernel

theorem test_decode_responses :
    read [0x01, 2, 0, 3] = some (.rspRdCoils 3) ∧ read [0x02, 2, 0, 3] = some (.rspRdDiscrete 3) ∧
    read [0x03, 2, 0, 3] = some (.rspRdHolding 3) ∧ read [0x04, 2, 0, 3] = some (.rspRdInput 3) ∧
    read [0x05, 2, 0, 3] = some (.rspWrCoil 3) ∧ read [0x06, 2, 0, 3] = some (.rspWrReg 3) ∧
    read [0x07, 2, 0, 3] = some (.rspRdExcStatus 3) ∧ read [0x08, 2, 0, 3] = some (.rspDiag 3) ∧
    read [0x0F, 2, 0, 3] = some (.rspWrCoils 3) ∧ read [0x10, 2, 0, 3] = some (.rspWrRegs 3) ∧
    read [0x16, 2, 0, 3] = some (.rspMaskWr 3) ∧ read [0x17, 2, 1, 3] = some (.rspRwRegs 259) ∧
    read [0x80, 0, 0, 3] = some (.rspException 3) ∧ read [0x00, 2, 0, 3] = some (.rspWrongFunction 3) ∧
    read [0xFF, 2, 0, 3] = some (.rspNotSupported 3) := by decide +kernel

theorem test_decode_frames :
    read [0x00, 3, 17, 0, 2, 3, 4] = some (.rtuFrame 17#8 (b [3, 4])) ∧
    read [0x80, 3, 1, 3, 2] = some (.rtuExceptionFrame 1#8 3#8 2#8) ∧
    read [0x01, 3, 1, 2, 17, 0, 1, 7] = some (.tcpFrame 0x0102#16 17#8 (b [7])) ∧
    read [0x20, 0, 0, 1, 17] = some (.rtuSetHead 1 17#8) ∧ read [0x21, 0, 0, 1, 0, 5] = some (.rtuSetCrc 1 5) ∧
    read [0x22, 0, 0, 1] = some (.rtuCheckHead 1) ∧ read [0x23, 0, 0, 1] = some (.rtuCheckCrc 1) ∧
    read [0x24, 0, 0, 2, 1, 3] = some (.crc16 (b [1, 3])) := by decide +kernel

theorem test_decode_tcp :
    read [0x28, 0, 0, 1, 255, 0, 5] = some (.tcpSetMbap 1 255#8 5) ∧ read [0x29, 0, 0, 1] = some (.tcpCheckMbap 1) ∧
    read [0x2A, 0, 0, 1] = some (.tcpPayloadLen 1) ∧ read [0x2B, 0, 0, 1, 0, 2, 9, 8] = some (.tcpReceive 1 (b [9, 8])) ∧
    read [0x2C, 0, 0, 1] = some (.sbAdd 1) ∧ read [0x2D, 0, 1, 2] = some (.sbRead 0x0102#16) ∧
    read [0x2E, 0, 0, 0, 0, 0, 0, 0, 3, 0xE8] = some (.sbReadNextTimeout 1000) ∧
    read [0x2F, 0, 0, 1, 4] = some (.tcpFail 1 .noClientForSlave) := by decide +kernel

theorem test_decode_slave_sets :
    read [0x30, 0, 0, 0, 9, 247] = some (.ssSet (.host 9) 247#8) ∧
    read [0x31, 0, 1, 0, 2, 3, 9] = some (.ssSetRange (.slot 2) 3#8 9#8) ∧
    read [0x32, 0, 0, 0, 0, 5] = some (.ssRemove (.host 0) 5#8) ∧
    read [0x33, 0, 0, 0, 0, 0, 5] = some (.ssRemoveRange (.host 0) 0#8 5#8) ∧
    read [0x34, 0, 0, 0, 0] = some (.ssGetNext (.host 0)) ∧ read [0x35, 0, 1, 0, 3] = some (.ssPeek (.slot 3)) ∧
    read [0x36, 0, 0, 0, 0] = some (.ssClear (.host 0)) ∧
    read [0x37, 0, 0, 0, 0, 0, 0, 0, 0, 0, 0, 0, 10, 255, 255, 255, 255, 255, 255, 255, 255] =
      some (.ssSetDelays (.host 0) 10 (-1)) ∧
    read [0x38, 0, 0, 3] = some (.repeatIfNeeded 3) := by decide +kernel

theorem test_decode_block :
    read [0x40, 0, 1, 0, 3] = some (.qAdd (some 3)) ∧ read [0x40, 0, 0] = some (.qAdd none) ∧
    read [0x41, 0] = some .qRead ∧ read [0x42, 0] = some .qPeek ∧ read [0x43, 0] = some .qReadReady ∧
    read [0x44, 0] = some .qHasReady ∧ read [0x45, 0] = some .qClear ∧ read [0x50, 0] = some .tick ∧
    read [0x51, 0] = some .clearAll ∧ read [0x52, 0, 1] = some (.setBigEndian true) ∧
    read [0x53, 0, 0, 3] = some (.invoke 3) ∧ read [0x54, 0, 0, 3] = some (.normalize 3) ∧
    read [0x55, 0, 2, 0, 1, 1, 2] = some (.encodeElems 2 [258]) ∧
    read [0x5F, 0, 0] = some (.reset Params.default) := by decide +kernel

/-- `RESET` with every parameter written: TCP, PDU_MAX 8, POOL_CAP 2, QUEUE_CAP 3, SENT_CAP 1, 19200 baud, 7 data bits, parity,
2 stop bits, 500 ms, big-endian host, ES_MAX 4, rotate, W_TIME 16. -/
theorem test_decode_reset :
    read ([0x5F, 0, 1, 1, 0, 0, 0, 8, 0, 0, 0, 2, 0, 0, 0, 3, 0, 0, 0, 1, 0, 0, 0x4B, 0] ++
      [0, 0, 0, 7, 0, 0, 0, 1, 0, 0, 0, 2, 0, 0, 0, 0, 0, 0, 1, 0xF4, 1, 0, 0, 0, 4, 1, 0, 16]) =
    some (.reset { transport := .tcp, pduMax := 8, poolCap := 2, queueCap := 3, sentCap := 1, baud := 19200,
                   dataBits := 7, parityBits := 1, stopBits := 2, respTimeoutMs := 500, hostBe := true, esMax := 4,
                   removeMode := .rotate, wTime := 16 }) := by decide +kernel

/-- R125, R126, R129: what no row has is refused, and so is what does not fit an operation. -/
theorem test_decode_refuses :
    refusal [0x56, 0] = some .unknownNumber ∧ refusal [0x2B, 2, 0, 0] = some .unknownNumber ∧
    refusal [0x50, 4] = some .unknownNumber ∧ refusal [0x03, 1, 0, 1, 0, 0] = some .unknownNumber ∧ refusal [0x50] = some .truncated ∧ refusal [0x53, 0, 0] = some .truncated ∧
    refusal [0x52, 0, 2] = some .badFlag ∧ refusal [0x2F, 0, 0, 0, 5] = some .badFlag ∧
    refusal [0x50, 0, 0, 1] = some .trailingBytes := by decide +kernel

/-! ### Single steps -/

def nextOf (o : Out) : Option State :=
  match o with
  | .next t => some t
  | _ => none

theorem eq_next {o : Out} {t : State} (h : nextOf o = some t) : o = .next t := by
  cases o <;> simp_all [nextOf]

/-- The state after an operation. -/
def after (i : Instr) (s : State) : State := (nextOf (exec i s)).getD s

/-- The result and the events of an operation. -/
def answerOf (i : Instr) (s : State) : Option (Result × List Event) := (nextOf (exec i s)).map (fun t => (t.result, t.events))

def resultOf (i : Instr) (s : State) : Option Result := (nextOf (exec i s)).map State.result

/-- The clock moves, bytes arrive, the last answer is gone. -/
def clock (ms us : Nat) (bytes : List Nat) (s : State) : State :=
  { s with clockMs := ms, clockUs := us, serial := s.serial ++ b bytes, result := .unit,
           events := [] }

def one : Target := .unit 1#8

/-- The vectors' instances: RTU with the defaults; TCP with two places in the SentBuffer; RTU with `PDU_MAX` = 8. -/
def rtu : State := State.reset
def tcp : State := after (.reset { Params.default with transport := .tcp, sentCap := 2 }) State.reset
def small : State := after (.reset { Params.default with pduMax := 8 }) State.reset

/-- Slot `h` holds a request and stands in no container. -/
def taken (i : Instr) (s : State) : State := clock 0 0 [] (after .qRead (after i s))

/-- Slot 0 has received these bytes. -/
def got (bytes : List Nat) (s : State) : State :=
  updSlot s 0 (fun x => { x with rx := writeBytes [] 0 (b bytes), rxlen := bytes.length })

def rd2 : Instr := .rdHolding one 0#16 2 2 7

/-! V1: the checksum. -/

theorem test_crc : crc (b [0x31, 0x32, 0x33, 0x34, 0x35, 0x36, 0x37, 0x38, 0x39]) = 0x4B37#16 ∧ crc [] = 0xFFFF#16 ∧
    crc (b [0]) = 0x40BF#16 ∧ crc (b [1]) = 0x807E#16 ∧ crc (b [255]) = 0x00FF#16 ∧ crc (b [1, 3]) = 0x2140#16 ∧
    crc (b [1, 3, 4, 0, 1, 0, 2]) = 0x322A#16 ∧ crc (b [1, 3, 4, 0, 1, 0, 2, 0x2A, 0x32]) = 0#16 := by decide +kernel

theorem test_crc16 : resultOf (.crc16 (b [1, 6])) rtu = some (.crc 0x2280#16) ∧ crcTab 4#8 = 0xC301#16 ∧
    crcTab 0x80#8 = 0xA001#16 ∧ crcTab 0xFE#8 = 0x8081#16 := by decide +kernel

/-! R100, R102, R104: the formats, with V2's and V7's frames. -/

theorem test_formats :
    resultOf (.rtuFrame 1#8 (b [6, 0, 0x64, 0x12, 0x34])) rtu =
      some (.bytes (b [1, 6, 0, 0x64, 0x12, 0x34, 0xC5, 0x62])) ∧
    resultOf (.rtuExceptionFrame 1#8 3#8 2#8) rtu = some (.bytes (b [1, 0x83, 2, 0xC0, 0xF1])) ∧
    resultOf (.tcpFrame 1#16 17#8 (b [1, 0, 0x13, 0, 0x13])) rtu =
      some (.bytes (b [0, 1, 0, 0, 0, 6, 17, 1, 0, 0x13, 0, 0x13])) ∧
    resultOf (.rtuFrame 1#8 []) rtu = some (.rejected .outOfRange) := by decide +kernel

/-! V2. -/

theorem test_rtu_set_head : (fun t => (readBytes (slotAt t 0).tx 0 2, readBytes (slotAt t 0).tmpl 0 2))
    (after (.rtuSetHead 0 17#8) (taken rd2 rtu)) = (b [17, 3], b [17, 3]) := by decide +kernel

theorem test_rtu_set_crc : (fun t => (readBytes (slotAt t 0).tx 0 8, (slotAt t 0).txlen))
    (after (.rtuSetCrc 0 5) (after (.rtuSetHead 0 5#8) (taken rd2 rtu))) = (b [5, 3, 0, 0, 0, 2, 0xC5, 0x8F], 8) := by
  decide +kernel

theorem test_rtu_check_head : resultOf (.rtuCheckHead 0) (got [1] (taken rd2 rtu)) = some (.bool true) ∧
    resultOf (.rtuCheckHead 0) (got [2] (taken rd2 rtu)) = some (.bool false) := by decide +kernel

theorem test_rtu_check_crc :
    resultOf (.rtuCheckCrc 0) (got [1, 3, 4, 0, 1, 0, 2, 0x2A, 0x32] (taken rd2 rtu)) = some (.bool true) ∧
    resultOf (.rtuCheckCrc 0) (got [1, 3, 4, 0, 1, 0, 3, 0x2A, 0x32] (taken rd2 rtu)) = some (.bool false) ∧
    resultOf (.rtuCheckCrc 0) (got [1, 0x83, 0x0B, 0, 0xF7] (taken rd2 rtu)) = some (.bool true) ∧
    resultOf (.rtuCheckCrc 0) (got [1, 3] (taken rd2 rtu)) = some (.bool false) := by decide +kernel

/-! V3: builds. The frame, the expected length, the template with its header, the element size. -/

def frameAt (h : Nat) (s : State) : List Byte × Nat × List Byte × Nat :=
  let x := slotAt s h
  (readBytes x.tx 0 x.txlen, x.explen, readBytes x.tmpl 0 (s.cfg.hdr + x.tmpllen), x.esize)

def built (i : Instr) (s : State) : List Byte × Nat × List Byte × Nat := frameAt 0 (after i s)

theorem test_rd_coils : built (.rdCoils (.unit 17#8) 19#16 19 7) rtu =
    (b [0x11, 1, 0, 0x13, 0, 0x13, 0x8E, 0x92], 8, b [0x11, 1, 3], 1) ∧
    (fun x => (x.2.1, x.2.2.1)) (built (.rdCoils one 0#16 2000 7) rtu) = (255, b [1, 1, 0xFA]) := by decide +kernel

theorem test_rd_discrete : built (.rdDiscrete (.unit 17#8) 196#16 22 7) rtu =
    (b [0x11, 2, 0, 0xC4, 0, 0x16, 0xBA, 0xA9], 8, b [0x11, 2, 3], 1) := by decide +kernel

theorem test_rd_holding : built (.rdHolding one 0x10#16 1 3 7) rtu =
    (b [1, 3, 0, 0x10, 0, 2, 0xC5, 0xCE], 9, b [1, 3, 4], 3) ∧
    built (.rdHolding one 65535#16 1 2 7) rtu = (b [1, 3, 0xFF, 0xFF, 0, 1, 0x84, 0x2E], 7, b [1, 3, 2], 2) := by
  decide +kernel

theorem test_rd_input : built (.rdInput one 8#16 1 2 7) rtu = (b [1, 4, 0, 8, 0, 1, 0xB0, 8], 7, b [1, 4, 2], 2) := by
  decide +kernel

theorem test_wr_coil : built (.wrCoil one 172#16 true 7) rtu =
    (b [1, 5, 0, 0xAC, 0xFF, 0, 0x4C, 0x1B], 8, b [1, 5, 0, 0xAC, 0xFF, 0], 1) ∧
    built (.wrCoil one 172#16 false 7) rtu = (b [1, 5, 0, 0xAC, 0, 0, 0x0D, 0xEB], 8, b [1, 5, 0, 0xAC, 0, 0], 1) := by
  decide +kernel

theorem test_wr_reg : built (.wrReg one 100#16 0x1234#16 7) rtu =
    (b [1, 6, 0, 0x64, 0x12, 0x34, 0xC5, 0x62], 8, b [1, 6, 0, 0x64, 0x12, 0x34], 1) := by decide +kernel

theorem test_rd_exc_status : built (.rdExcStatus one 7) rtu = (b [1, 7, 0x41, 0xE2], 5, b [1, 7], 1) := by decide +kernel

theorem test_diag : built (.diag one 0#16 0xA537#16 7) rtu =
    (b [1, 8, 0, 0, 0xA5, 0x37, 0xDA, 0x8D], 8, b [1, 8, 0, 0], 2) := by decide +kernel

theorem test_wr_coils :
    built (.wrCoils one 19#16 [true, false, true, true, false, false, true, true, true, false] 7) rtu =
    (b [1, 0x0F, 0, 0x13, 0, 0x0A, 2, 0xCD, 1, 0x72, 0xCB], 8, b [1, 0x0F, 0, 0x13, 0, 0x0A], 1) := by decide +kernel

theorem test_wr_regs : built (.wrRegs one 0x20#16 3 [0xABCDEF] 7) rtu =
    (b [1, 0x10, 0, 0x20, 0, 2, 4, 0, 0xAB, 0xCD, 0xEF, 0x95, 0x4B], 8, b [1, 0x10, 0, 0x20, 0, 2], 3) ∧
    built (.wrRegs one 0x20#16 1 [0x11, 0x22] 7) rtu =
    (b [1, 0x10, 0, 0x20, 0, 1, 2, 0x11, 0x22, 0x2D, 0x79], 8, b [1, 0x10, 0, 0x20, 0, 1], 1) := by decide +kernel

theorem test_mask_wr : built (.maskWr one 4#16 0xF2#16 0x25#16 7) rtu =
    (b [1, 0x16, 0, 4, 0, 0xF2, 0, 0x25, 0x67, 0xEE], 10, b [1, 0x16, 0, 4, 0, 0xF2, 0, 0x25], 1) := by decide +kernel

theorem test_rw_regs : built (.rwRegs one 3#16 6 14#16 2 [0xFF, 0xFF, 0xFF] 7) rtu =
    (b [1, 0x17, 0, 3, 0, 6, 0, 0x0E, 0, 3, 6, 0, 0xFF, 0, 0xFF, 0, 0xFF, 0x46, 0x91], 17, b [1, 0x17, 0x0C], 2) := by
  decide +kernel

/-- A build answers its slot, queues it and emits nothing. -/
theorem test_build_answer : answerOf rd2 rtu = some (.handle (some 0), []) ∧ qContent (after rd2 rtu) = [some 0] := by
  decide +kernel

/-- V7: TCP headers; the transaction id wraps. -/
theorem test_build_tcp : built (.rdCoils (.unit 17#8) 19#16 19 7) tcp =
    (b [0, 1, 0, 0, 0, 6, 0x11, 1, 0, 0x13, 0, 0x13], 12, b [0, 1, 0, 0, 0, 6, 0x11, 1, 3], 1) ∧
    (fun t => (readBytes (slotAt t 0).tx 0 12, t.ctx.tid))
      (after (.wrReg (.unit 255#8) 1#16 3#16 7) { tcp with ctx := { tcp.ctx with tid := 0xFFFF#16 } }) =
    (b [0, 0, 0, 0, 0, 6, 0xFF, 6, 0, 1, 0, 3], 0#16) := by decide +kernel

/-! V4: builds that fail. -/

def refused (h : Option Nat) (e : Err) (fc unit : Byte) : Option (Result × List Event) :=
  some (.handle none, [.done (some 7) { slot := h, err := e, fc := fc, unit := unit, esize := 1, data := [] }])

theorem test_build_raw : answerOf (.buildRaw 0x2B#8 one 7) rtu = refused none .notSupported 0x2B#8 1#8 ∧
    resultOf (.buildRaw 0x03#8 one 7) rtu = some (.rejected .outOfRange) := by decide +kernel

theorem test_build_fails_target : answerOf (.rdHolding (.unit 248#8) 0#16 1 2 7) rtu = refused (some 0) .invalidSlave 3#8 248#8 ∧
    answerOf (.rdHolding (.set 5) 0#16 1 2 7) rtu = refused (some 0) .invalidArgument 3#8 0#8 ∧
    (built (.rdHolding (.unit 248#8) 0#16 1 2 7) tcp).1 = b [0, 1, 0, 0, 0, 6, 0xF8, 3, 0, 0, 0, 1] := by decide +kernel

theorem test_build_fails_args :
    answerOf (.rdHolding one 0#16 3 1 7) rtu = refused (some 0) .invalidArgument 3#8 1#8 ∧
    answerOf (.rdHolding one 0xFFFF#16 126 9 7) rtu = refused (some 0) .invalidArgument 3#8 1#8 ∧
    answerOf (.rdHolding one 0xFFFF#16 126 2 7) rtu = refused (some 0) .invalidQuantity 3#8 1#8 ∧
    answerOf (.rdHolding one 0xFFFF#16 2 2 7) rtu = refused (some 0) .invalidAddress 3#8 1#8 ∧
    answerOf (.rdHolding one 0xFFFF#16 4 2 7) small = refused (some 0) .invalidAddress 3#8 1#8 ∧
    answerOf (.rdHolding one 0#16 4 2 7) small = refused (some 0) .tooManyData 3#8 1#8 ∧
    answerOf (.rdCoils one 0#16 49 7) small = refused (some 0) .tooManyData 1#8 1#8 ∧
    answerOf (.wrRegs one 0#16 2 [1, 2] 7) small = refused (some 0) .tooManyData 0x10#8 1#8 := by decide +kernel

theorem manyErr (r : Request) : buildErr rtu one r = firstFailed (r.checks ++ [sizeCheck rtu.cfg r]) := by
  rw [buildErr, if_pos (by decide +kernel)]; rfl

/-- R147, R160: an element size above `ES_MAX`, whatever the number of values; an odd number of bytes; too many registers. -/
theorem test_wr_regs_many (vals : List Nat) :
    answerOf (.wrRegs one 0#16 256 vals 7) rtu = refused (some 0) .invalidArgument 0x10#8 1#8 ∧
    (vals.length = 65537 → answerOf (.wrRegs one 0#16 1 vals 7) rtu = refused (some 0) .invalidArgument 0x10#8 1#8) ∧
    (vals.length = 65536 → answerOf (.wrRegs one 0#16 1 vals 7) rtu = refused (some 0) .invalidQuantity 0x10#8 1#8) := by
  have key : ∀ es e, buildErr rtu one (wrRegsReq rtu.cfg 0#16 es vals) = e → e ≠ .ok →
      answerOf (.wrRegs one 0#16 es vals 7) rtu = refused (some 0) e 0x10#8 1#8 := by
    rintro es e rfl hne
    show (nextOf (build one 7 (wrRegsReq rtu.cfg 0#16 es vals) rtu)).map _ = _
    rw [build, show freeSlot rtu = some 0 by decide +kernel]
    simp only [if_neg hne]
    rfl
  refine ⟨key _ _ ?_ (by decide), fun h => key _ _ ?_ (by decide), fun h => key _ _ ?_ (by decide)⟩
  · rw [manyErr]; simp [wrRegsReq, shapeOk, firstFailed, rtu, State.reset, Params.default]
  · rw [manyErr]; simp [wrRegsReq, shapeOk, firstFailed, rtu, State.reset, Params.default, ts, h]
  · rw [manyErr]; simp [wrRegsReq, shapeOk, quantityIn, regsOf, firstFailed, rtu, State.reset, Params.default, ts, h]

/-- The same two refusals of R162. -/
theorem test_rw_regs_many (vals : List Nat) (h : vals.length = 65536) :
    buildErr rtu one (rwRegsReq rtu.cfg 0#16 1 0#16 256 vals) = .invalidArgument ∧
    buildErr rtu one (rwRegsReq rtu.cfg 0#16 2 0#16 1 vals) = .invalidQuantity := by
  constructor
  · rw [manyErr]; simp [rwRegsReq, shapeOk, firstFailed, rtu, State.reset, Params.default]
  · rw [manyErr]; simp [rwRegsReq, shapeOk, quantityIn, regsOf, firstFailed, rtu, State.reset, Params.default, ts, h]

theorem test_build_fits_small : built (.rdCoils one 0#16 48 7) small =
    (b [1, 1, 0, 0, 0, 0x30, 0x3C, 0x1E], 11, b [1, 1, 6], 1) ∧
    (built (.wrRegs one 0#16 2 [1] 7) small).1 = b [1, 0x10, 0, 0, 0, 1, 2, 0, 1, 0x67, 0x90] := by decide +kernel

def narrow (pool queue : Nat) : State :=
  let s := after (.reset { Params.default with poolCap := pool, queueCap := queue }) State.reset
  clock 0 0 [] (after (.wrReg one 1#16 2#16 7) (after (.wrReg one 1#16 1#16 7) s))

theorem test_build_finds_no_room :
    answerOf (.wrReg one 1#16 3#16 7) (narrow 2 4) = refused none .poolExhausted 6#8 1#8 ∧
    answerOf (.wrReg one 1#16 3#16 7) (narrow 4 2) = refused (some 2) .queueFull 6#8 1#8 ∧
    qContent (after (.wrReg one 1#16 3#16 7) (narrow 4 2)) = [some 0, some 1] := by decide +kernel

/-! V5: the received frame, on a little-endian host; the record's error and data. -/

def doneOf (t : Option State) : List (Err × List Byte) :=
  match t with
  | none => []
  | some t => t.events.filterMap (fun e => match e with
      | .done _ rec => some (rec.err, rec.data)
      | _ => none)

def replied (req : Instr) (frame : List Nat) : List (Err × List Byte) :=
  doneOf (nextOf (exec (.invoke 0) (got frame (taken req rtu))))

theorem test_invoke : replied rd2 [1, 3, 4, 0, 1, 0, 2, 0x2A, 0x32] = [(.ok, b [1, 0, 2, 0])] ∧
    replied rd2 [1, 4, 4, 0, 1, 0, 2, 0x2B, 0x85] = [(.invalidFunction, [])] ∧
    replied rd2 [1, 3, 4, 0, 1, 0, 0] = [(.tooFewData, [])] ∧
    replied rd2 [1, 3, 4, 0, 1, 0, 2, 0, 0, 0] = [(.tooManyData, [])] ∧ replied rd2 [1, 3, 0, 0] = [(.tooFewData, [])] := by
  decide +kernel

/-- The same arm issued by its own row. -/
def armed (i req : Instr) (frame : List Nat) : List (Err × List Byte) :=
  doneOf (nextOf (exec i (got frame (taken req rtu))))

theorem test_rsp_rd_coils : armed (.rspRdCoils 0) (.rdCoils (.unit 17#8) 19#16 19 7) [0x11, 1, 3, 0xCD, 0x6B, 5, 0x40, 0x12] =
    [(.ok, b [0xCD, 0x6B, 5])] ∧
    armed (.rspRdCoils 0) (.rdCoils (.unit 17#8) 19#16 19 7) [0x11, 1, 2, 0xCD, 0x6B, 5, 0, 0] = [(.invalidByteLength, [])] := by
  decide +kernel

theorem test_rsp_rd_discrete :
    armed (.rspRdDiscrete 0) (.rdDiscrete (.unit 17#8) 196#16 22 7) [0x11, 2, 3, 0xAC, 0xDB, 0x35, 0x20, 0x18] =
    [(.ok, b [0xAC, 0xDB, 0x35])] := by decide +kernel

theorem test_rsp_rd_holding :
    armed (.rspRdHolding 0) (.rdHolding one 0x10#16 1 4 7) [1, 3, 4, 0x12, 0x34, 0x56, 0x78, 0x81, 7] =
    [(.ok, b [0x78, 0x56, 0x34, 0x12])] ∧
    armed (.rspRdHolding 0) rd2 [1, 3, 2, 0, 1, 0, 2, 0xA2, 0x32] = [(.invalidByteLength, [])] := by decide +kernel

theorem test_rsp_rd_input : armed (.rspRdInput 0) (.rdInput one 8#16 1 2 7) [1, 4, 2, 0, 0x0A, 0x39, 0x37] =
    [(.ok, b [0x0A, 0])] := by decide +kernel

theorem test_rsp_wr_coil : armed (.rspWrCoil 0) (.wrCoil one 172#16 true 7) [1, 5, 0, 0xAC, 0xFF, 0, 0x4C, 0x1B] = [(.ok, [])] ∧
    armed (.rspWrCoil 0) (.wrCoil one 172#16 true 7) [1, 5, 0, 0xAC, 0, 0, 0x0D, 0xEB] = [(.invalidData, [])] := by
  decide +kernel

theorem test_rsp_wr_reg :
    armed (.rspWrReg 0) (.wrReg one 100#16 0x1234#16 7) [1, 6, 0, 0x65, 0x12, 0x34, 0x94, 0xA2] = [(.invalidAddress, [])] ∧
    armed (.rspWrReg 0) (.wrReg one 100#16 0x1234#16 7) [1, 6, 0, 0x64, 0x12, 0x35, 4, 0xA2] = [(.invalidData, [])] := by
  decide +kernel

theorem test_rsp_rd_exc_status : armed (.rspRdExcStatus 0) (.rdExcStatus one 7) [1, 7, 0x6D, 0xE3, 0xDD] = [(.ok, b [0x6D])] := by
  decide +kernel

theorem test_rsp_diag : armed (.rspDiag 0) (.diag one 0#16 0xA537#16 7) [1, 8, 0, 0, 0xA5, 0x37, 0xDA, 0x8D] =
    [(.ok, b [0x37, 0xA5])] ∧
    armed (.rspDiag 0) (.diag one 0#16 0xA537#16 7) [1, 8, 0, 1, 0xA5, 0x37, 0, 0] = [(.invalidSubfunction, [])] := by
  decide +kernel

def tenCoils : List Bool := [true, false, true, true, false, false, true, true, true, false]

theorem test_rsp_wr_coils : armed (.rspWrCoils 0) (.wrCoils one 19#16 tenCoils 7) [1, 0x0F, 0, 0x13, 0, 0x0A, 0x24, 9] =
    [(.ok, [])] ∧
    armed (.rspWrCoils 0) (.wrCoils one 19#16 tenCoils 7) [1, 0x0F, 0, 0x13, 0, 9, 0, 0] = [(.invalidQuantity, [])] := by
  decide +kernel

theorem test_rsp_wr_regs : armed (.rspWrRegs 0) (.wrRegs one 1#16 2 [10, 0x102] 7) [1, 0x10, 0, 1, 0, 2, 0x10, 8] = [(.ok, [])] ∧
    armed (.rspWrRegs 0) (.wrRegs one 1#16 2 [10, 0x102] 7) [1, 0x10, 0, 2, 0, 3, 0, 0] = [(.invalidAddress, [])] := by
  decide +kernel

theorem test_rsp_mask_wr :
    armed (.rspMaskWr 0) (.maskWr one 4#16 0xF2#16 0x25#16 7) [1, 0x16, 0, 4, 0, 0xF2, 0, 0x25, 0x67, 0xEE] = [(.ok, [])] ∧
    armed (.rspMaskWr 0) (.maskWr one 4#16 0xF2#16 0x25#16 7) [1, 0x16, 0, 4, 0, 0xF2, 0, 0x26, 0, 0] = [(.invalidData, [])] := by
  decide +kernel

theorem test_rsp_rw_regs : armed (.rspRwRegs 0) (.rwRegs one 3#16 6 14#16 2 [0xFF, 0xFF, 0xFF] 7)
      [1, 0x17, 0x0C, 0, 0xFE, 0x0A, 0xCD, 0, 1, 0, 3, 0, 0x0D, 0, 0xFF, 0x1D, 0x79] =
    [(.ok, b [0xFE, 0, 0xCD, 0x0A, 1, 0, 3, 0, 0x0D, 0, 0xFF, 0])] := by decide +kernel

theorem test_rsp_exception : replied rd2 [1, 0x83, 2, 0xC0, 0xF1] = [(.protocol 2#8, [])] ∧
    armed (.rspException 0) rd2 [1, 0x83, 0x0B, 0, 0xF7] = [(.invalidExceptionCode, [])] ∧
    replied rd2 [1, 0x83, 2, 0, 0, 0] = [(.tooManyData, [])] := by decide +kernel

/-- R193, U7: a response without the byte an arm reads still ends the attempt. -/
theorem test_rsp_short : (armed (.rspRdExcStatus 0) (.rdExcStatus one 7) []).map (fun r => (r.1, r.2.length)) = [(.ok, 1)] ∧
    (armed (.rspException 0) rd2 []).length = 1 := by decide +kernel

theorem test_rsp_fall_through : armed (.rspWrongFunction 0) rd2 [] = [(.invalidFunction, [])] ∧
    armed (.rspNotSupported 0) rd2 [] = [(.notSupported, [])] := by decide +kernel

/-! V6: the normaliser (an odd element size frees bytes of free value, so only the window's bytes are tested there). -/

/-- R121 on the data of V5's coil read, CD 6B 05: coils 1 to 4 and 17 of 19. -/
theorem test_coil : [0, 1, 2, 3, 16, 17, 18].map (coil 19 (b [0xCD, 0x6B, 0x05])) = [true, false, true, true, true, false, true] := by
  decide +kernel

theorem test_normal_bytes : normalBytes false 3 (b [0, 0, 0, 1, 0x7F, 0x12, 0x34, 0x56]) = b [1, 0, 0, 0x56, 0x34, 0x12] ∧
    normalBytes true 3 (b [0, 0xAB, 0xCD, 0xEF]) = b [0xAB, 0xCD, 0xEF] ∧
    normalBytes false 8 (b [1, 2, 3, 4, 5, 6, 7, 8]) = b [8, 7, 6, 5, 4, 3, 2, 1] ∧
    elemOf false 3 (b [1, 0, 0, 0x56, 0x34, 0x12]) 1 = 0x123456 := by decide +kernel

def windowed (es off len : Nat) (bytes : List Nat) : State :=
  updSlot (got bytes (taken rd2 rtu)) 0 (fun x => { x with winOff := off, winLen := len, esize := es })

theorem test_normalize : (fun t => (dataOf (slotAt t 0), (slotAt t 0).winLen, readByte (slotAt t 0).rx 3))
      (after (.normalize 0) (windowed 4 3 8 [1, 3, 8, 0x12, 0x34, 0x56, 0x78, 0x9A, 0xBC, 0xDE, 0xF0, 0, 0])) =
    (b [0x78, 0x56, 0x34, 0x12, 0xF0, 0xDE, 0xBC, 0x9A], 8, 0x78#8) := by decide +kernel

theorem test_normalize_fails :
    doneOf (nextOf (exec (.normalize 0) (windowed 9 3 4 [1, 3, 4, 0, 1, 0, 2, 0, 0]))) = [(.invalidArgument, [])] ∧
    doneOf (nextOf (exec (.normalize 0) (windowed 4 3 6 [1, 3, 6, 0, 1, 0, 2, 0, 3, 0, 0]))) = [(.bufferTooSmall, [])] ∧
    doneOf (nextOf (exec (.normalize 0) (windowed 2 3 6 [1, 3, 4, 0, 1, 0, 2, 0, 0]))) = [(.bufferTooSmall, [])] := by
  decide +kernel

/-- R205, V6: a window past the buffer itself raises as well; R189, R180: an arm that sets the window runs whatever it was. -/
theorem test_window_past_buffer :
    doneOf (nextOf (exec (.normalize 0) (windowed 2 200 100 [1, 3, 4, 0, 1, 0, 2, 0, 0]))) = [(.bufferTooSmall, [])] ∧
    doneOf (nextOf (exec (.normalize 0) (windowed 9 300 0 [1, 3, 4, 0, 1, 0, 2, 0, 0]))) = [(.invalidArgument, [])] ∧
    doneOf (nextOf (exec (.rspRdHolding 0) (windowed 2 200 100 [1, 3, 4, 0, 1, 0, 2, 0, 0]))) = [(.ok, b [1, 0, 2, 0])] := by
  decide +kernel

theorem test_encode_elems : resultOf (.encodeElems 3 [0xABCDEF]) rtu = some (.bytes (b [0, 0xAB, 0xCD, 0xEF])) ∧
    resultOf (.encodeElems 8 [1]) rtu = some (.bytes (b [0, 0, 0, 0, 0, 0, 0, 1])) ∧
    resultOf (.encodeElems 2 []) rtu = some (.bytes []) := by decide +kernel

theorem test_set_big_endian : (after (.setBigEndian true) rtu).ctx.bigEndian = true := by decide +kernel

/-! V7: the TCP wrapper, on the request built with transaction id 4. -/

def tcp4 : State := taken rd2 { tcp with ctx := { tcp.ctx with tid := 3#16 } }

def received4 (f : List Nat) : List (Err × List Byte) := doneOf (nextOf (exec (.tcpReceive 0 (b f)) tcp4))

theorem test_tcp_receive : received4 [0, 4, 0, 0, 0, 7, 1, 3, 4, 0x12, 0x34, 0x56, 0x78] = [(.ok, b [0x34, 0x12, 0x78, 0x56])] ∧
    received4 [0, 4, 0, 0, 0, 3, 1, 0x83, 2] = [(.protocol 2#8, [])] ∧
    received4 [0, 4, 0, 0, 0, 5, 1, 3, 4, 0, 1] = [(.tooFewData, [])] := by decide +kernel

theorem test_tcp_receive_refuses : received4 [0, 5, 0, 1, 0, 7, 2, 3, 4, 0, 1, 0, 2] = [(.invalidTransactionId, [])] ∧
    received4 [0, 4, 0, 1, 0, 7, 1, 3, 4, 0, 1, 0, 2] = [(.invalidProtocolId, [])] ∧
    received4 [0, 4, 0, 0, 0, 7, 2, 3, 4, 0, 1, 0, 2] = [(.invalidUnitId, [])] ∧
    received4 [0, 4, 0, 0, 0, 1, 1] = [(.invalidLength, [])] ∧ received4 [0, 4, 0, 0, 0, 255, 1, 3] = [(.invalidLength, [])] ∧
    received4 [0, 4, 0, 0, 0, 7, 1, 3, 4, 0, 1] = [(.tooFewData, [])] ∧ received4 [0, 4, 0, 0] = [(.invalidMbapHeader, [])] := by
  decide +kernel

theorem test_tcp_payload_len : resultOf (.tcpPayloadLen 0) (got [0, 4, 0, 0, 0, 254, 1] tcp4) = some (.length 253) ∧
    resultOf (.tcpPayloadLen 0) (got [0, 4, 0, 0, 0, 255, 1] tcp4) = some (.err .invalidLength) ∧
    resultOf (.tcpPayloadLen 0) (got [0, 4, 0, 0, 0, 2, 1] tcp4) = some (.length 1) ∧
    resultOf (.tcpPayloadLen 0) (got [0, 4, 0, 0, 0, 1, 1] tcp4) = some (.err .invalidLength) := by decide +kernel

theorem test_tcp_check_mbap : resultOf (.tcpCheckMbap 0) (got [0, 4, 0, 0, 0, 7, 1] tcp4) = some (.err .ok) ∧
    resultOf (.tcpCheckMbap 0) (got [0, 4, 0, 0, 0, 7, 2] tcp4) = some (.err .invalidUnitId) := by decide +kernel

/-- R241, R104, log 28: a length above PDU_MAX (`be16` of 301 is 01 2D); only `txlen` is open. -/
theorem test_tcp_set_mbap_long : (fun t => (readBytes (slotAt t 0).tx 0 7, readBytes (slotAt t 0).tmpl 0 7, t.ctx.tid))
    (after (.tcpSetMbap 0 0xFF#8 300) tcp4) = (b [0, 5, 0, 0, 1, 0x2D, 0xFF], b [0, 5, 0, 0, 1, 0x2D, 0xFF], 5#16) := by
  decide +kernel

theorem test_tcp_set_mbap : (fun t => (readBytes (slotAt t 0).tx 0 7, readBytes (slotAt t 0).tmpl 0 7, (slotAt t 0).txlen))
    (after (.tcpSetMbap 0 0xFF#8 5) tcp4) = (b [0, 5, 0, 0, 0, 6, 0xFF], b [0, 5, 0, 0, 0, 6, 0xFF], 12) := by decide +kernel

theorem test_tcp_fail : answerOf (.tcpFail 0 .tcpSendBufferFull) tcp4 = some (.unit, [.done (some 7)
    { slot := some 0, err := .tcpSendBufferFull, fc := 3#8, unit := 1#8, esize := 2, data := [] }]) := by decide +kernel

/-! S5: the SentBuffer of two places; slots 0, 1 and 2 carry the ids 1, 2 and 3. -/

def three : State := taken rd2 (after .qRead (after rd2 (after .qRead (after rd2 tcp))))

theorem test_sb_add : resultOf (.sbAdd 1) (after (.sbAdd 0) three) = some (.bool true) ∧
    resultOf (.sbAdd 2) (after (.sbAdd 1) (after (.sbAdd 0) three)) = some (.bool false) := by decide +kernel

def sentTwo : State := after (.sbAdd 1) (after (.sbAdd 0) (clock 101 0 [] three))

theorem test_sb_read : resultOf (.sbRead 2#16) sentTwo = some (.handle (some 1)) ∧
    (after (.sbRead 2#16) sentTwo).sb = [(0, some 0)] ∧ resultOf (.sbRead 9#16) sentTwo = some (.handle none) := by
  decide +kernel

theorem test_sb_read_next_timeout : resultOf (.sbReadNextTimeout 1000) (clock 1100 0 [] sentTwo) = some (.handle none) ∧
    resultOf (.sbReadNextTimeout 1000) (clock 1101 0 [] sentTwo) = some (.handle (some 0)) := by decide +kernel

/-! S3, V8: SlaveSets. -/

def setOf (as : List Nat) (c : Cursor) (rep : Int) : SlaveSet :=
  { bits := as.foldl (fun acc a => acc ||| (1#256 <<< a)) 0#256, active := c, itemDelay := 10, repeatDelay := rep }

/-- The host's own set 0. -/
def withSet (x : SlaveSet) (s : State) : State := setSs s (.host 0) x

def setAfter (i : Instr) (x : SlaveSet) : SlaveSet := ssAt (after i (withSet x rtu)) (.host 0)

theorem test_ss_get_next :
    answerOf (.ssGetNext (.host 0)) (withSet (setOf [2, 5, 9] .start (-1)) rtu) = some (.cursor (.addr 2), []) ∧
    resultOf (.ssGetNext (.host 0)) (withSet (setOf [2, 5, 9] (.addr 9) (-1)) rtu) = some (.cursor .finish) ∧
    resultOf (.ssGetNext (.host 0)) (withSet (setOf [2, 5, 9] (.addr 9) 0) rtu) = some (.cursor (.addr 2)) ∧
    resultOf (.ssGetNext (.host 0)) (withSet (setOf [5] (.addr 5) 0) rtu) = some (.cursor (.addr 5)) ∧
    setAfter (.ssGetNext (.host 0)) (setOf [0, 247] (.addr 0) 0) = setOf [0, 247] (.addr 247) 0 := by decide +kernel

theorem test_ss_peek : resultOf (.ssPeek (.host 0)) (withSet (setOf [2, 5, 9] (.addr 5) (-1)) rtu) = some (.cursor (.addr 9)) ∧
    setAfter (.ssPeek (.host 0)) (setOf [2, 5, 9] (.addr 5) (-1)) = setOf [2, 5, 9] (.addr 5) (-1) := by decide +kernel

theorem test_ss_set : setAfter (.ssSet (.host 0) 250#8) (setOf [] .start 0) = setOf [] .start 0 ∧
    setAfter (.ssSet (.host 0) 247#8) (setOf [9] .start 0) = setOf [9, 247] .start 0 := by decide +kernel

theorem test_ss_set_range : setAfter (.ssSetRange (.host 0) 245#8 250#8) (setOf [] .start 0) = setOf [245, 246, 247] .start 0 ∧
    setAfter (.ssSetRange (.host 0) 9#8 2#8) (setOf [] .start 0) = setOf [] .start 0 := by decide +kernel

theorem test_ss_remove : setAfter (.ssRemove (.host 0) 5#8) (setOf [2, 5, 9] (.addr 5) 0) = setOf [2, 9] (.addr 5) 0 := by
  decide +kernel

theorem test_ss_remove_range : setAfter (.ssRemoveRange (.host 0) 0#8 5#8) (setOf [2, 5, 9] .start 0) = setOf [9] .start 0 := by
  decide +kernel

theorem test_ss_clear : setAfter (.ssClear (.host 0)) (setOf [2, 5, 9] (.addr 5) 500) =
    { bits := 0#256, active := .start, itemDelay := 0, repeatDelay := -1 } := by decide +kernel

theorem test_ss_set_delays : setAfter (.ssSetDelays (.host 0) 10 (-1)) (setOf [2] .start 7) = setOf [2] .start (-1) := by
  decide +kernel

/-- V8: the attempt to `u` of a request to {2, 5, 9} is over. -/
def attempt (u : Nat) (rep : Int) : State :=
  updSlot (clock 9 0 [] (taken (.rdHolding (.set 0) 0#16 2 2 7) (withSet (setOf [2, 5, 9] .start rep) rtu))) 0
    (fun x => { x with ss := { x.ss with active := .addr u } })

theorem test_repeat_if_needed : frameAt 0 (after (.repeatIfNeeded 0) (attempt 2 500)) =
      (b [5, 3, 0, 0, 0, 2, 0xC5, 0x8F], 9, b [5, 3, 4], 2) ∧
    (slotAt (after (.repeatIfNeeded 0) (attempt 2 500)) 0).delay = .ms 10 ∧
    (slotAt (after (.repeatIfNeeded 0) (attempt 9 500)) 0).delay = .ms 500 ∧
    qContent (after (.repeatIfNeeded 0) (attempt 9 500)) = [some 0] := by decide +kernel

theorem test_repeat_releases : slotAt (after (.repeatIfNeeded 0) (attempt 9 (-1))) 0 = Slot.cleared := by decide +kernel

/-! S4, V9: the queue. -/

def delays (l : List Nat) (s : State) : State :=
  (List.range l.length).foldl (fun s h => updSlot s h (fun x => { x with delay := .ms ((l[h]?).getD 0) })) s

/-- Four slots queued in order, with delays 50, 20, 10, 10. -/
def four (mode : RemoveMode) : State :=
  delays [50, 20, 10, 10] (after rd2 (after rd2 (after rd2 (after rd2
    (after (.reset { Params.default with removeMode := mode }) rtu)))))

theorem test_q_read_ready : (fun t => (t.result, qContent t)) (after .qReadReady (clock 30 0 [] (four .swap))) =
      (.handle (some 2), [some 1, some 0, some 3]) ∧
    (fun t => (t.result, qContent t)) (after .qReadReady (clock 30 0 [] (four .rotate))) =
      (.handle (some 2), [some 0, some 1, some 3]) := by decide +kernel

theorem test_q_has_ready : resultOf .qHasReady (clock 5 0 [] (four .swap)) = some (.bool false) ∧
    resultOf .qHasReady (clock 10 0 [] (four .swap)) = some (.bool true) ∧
    resultOf .qReadReady (clock 5 0 [] (four .swap)) = some (.handle none) := by decide +kernel

/-- V9: the clock wraps between the queued-time and the delay. -/
theorem test_ready_wraps :
    let s := updSlot (after rd2 (clock 0xFFFFFFF0 0 [] rtu)) 0 (fun x => { x with delay := .ms 32 })
    resultOf .qHasReady (clock 0x0F 0 [] s) = some (.bool false) ∧ resultOf .qHasReady (clock 0x10 0 [] s) = some (.bool true) := by
  decide +kernel

theorem test_q_read : (fun t => (t.result, qContent t)) (after .qRead (four .swap)) =
    (.handle (some 0), [some 1, some 2, some 3]) ∧ resultOf .qRead rtu = some (.handle none) := by decide +kernel

theorem test_q_peek : resultOf .qPeek (four .swap) = some (.handle (some 0)) ∧ resultOf .qPeek rtu = some (.handle none) := by
  decide +kernel

theorem test_q_add : resultOf (.qAdd (some 0)) (taken rd2 rtu) = some (.bool true) ∧
    resultOf (.qAdd none) rtu = some (.bool false) ∧ resultOf (.qAdd (some 0)) (four .swap) = some (.bool false) ∧
    resultOf (.qAdd (some 0)) (after rd2 rtu) = some (.rejected .handleNotFree) ∧
    resultOf (.qAdd (some 4)) rtu = some (.rejected .noSuchSlot) := by decide +kernel

theorem test_q_clear : (fun t => (t.pool, t.q, t.events)) (after .qClear (clock 0 0 [] (four .swap))) =
    ([], { arr := [], head := 0, tail := 0, count := 0 }, []) := by decide +kernel

/-! V10: the timing constants. -/

def timing (baud data parity stop : Nat) : Nat × Nat :=
  (fun p => (byteTo p, frameTo p))
    { Params.default with baud := baud, dataBits := data, parityBits := parity, stopBits := stop }

theorem test_timing : timing 300 8 1 2 = (60000, 140000) ∧ timing 1200 8 1 1 = (13750, 32084) ∧
    timing 9600 5 0 1 = (1094, 2553) ∧ timing 9600 8 0 1 = (1563, 3646) ∧ timing 19200 8 0 1 = (782, 1823) ∧
    timing 19200 8 1 1 = (860, 2006) ∧ timing 19201 8 0 1 = (750, 1750) := by decide +kernel

/-! P1, P4, V11: ticks. The request is sent at 4 ms, 4000 µs. -/

def ready2 : State := clock 4 4000 [] (after rd2 rtu)
def sent : State := after .tick ready2

def engOf (s : State) : EngState × Option Nat × Time × Time := (s.eng.state, s.eng.pending, s.eng.idleT, s.eng.byteT)

theorem test_tick_transmits : answerOf .tick ready2 =
      some (.unit, [.txBegin, .serWrite (b [1, 3, 0, 0, 0, 2, 0xC4, 0x0B]), .txEnd]) ∧
    engOf sent = (.receive, some 0, 4000, 4000) ∧ (slotAt sent 0).stime = 4 ∧
    answerOf .tick (clock 3 3645 [] (after rd2 rtu)) = some (.unit, []) := by decide +kernel

theorem test_tick_whole_frame : answerOf .tick (clock 10 10000 [1, 3, 4, 0, 1, 0, 2, 0x2A, 0x32] sent) =
    some (.unit, [.done (some 7) { slot := some 0, err := .ok, fc := 3#8, unit := 1#8, esize := 2, data := b [1, 0, 2, 0] }]) ∧
    engOf (after .tick (clock 10 10000 [1, 3, 4, 0, 1, 0, 2, 0x2A, 0x32] sent)) = (.idle, none, 10000, 10000) := by
  decide +kernel

theorem test_tick_response_timeout : answerOf .tick (clock 1003 1003000 [] sent) = some (.unit, []) ∧
    doneOf (nextOf (exec .tick (clock 1004 1004000 [] sent))) = [(.responseTimeout, [])] := by decide +kernel

def headed : State := after .tick (clock 20 20000 [1, 3, 4, 0] sent)

theorem test_tick_byte_timeout : engOf headed = (.headChecked, some 0, 20000, 20000) ∧
    answerOf .tick (clock 21 21562 [] headed) = some (.unit, []) ∧
    doneOf (nextOf (exec .tick (clock 21 21563 [] headed))) = [(.responseTimeout, [])] := by decide +kernel

theorem test_tick_crc_failure :
    doneOf (nextOf (exec .tick (clock 10 10000 [1, 4, 4, 0, 1, 0, 2, 0x2A, 0x32] sent))) = [(.crcFailure, [])] ∧
    doneOf (nextOf (exec .tick (clock 21 21000 [1, 0, 3, 0x2A, 0x32] headed))) = [(.crcFailure, [])] := by decide +kernel

theorem test_tick_wrong_address :
    let s := clock 10 10000 [2, 3, 4, 0, 1, 0, 2, 0x19, 0x32] sent
    doneOf (nextOf (exec .tick s)) = [(.invalidSlave, [])] ∧ (after .tick s).eng.state = .idle ∧
    (after .tick (clock 10 10000 [0] s)).eng.state = .bufferClear := by decide +kernel

/-- V11 (d), (e): an exception frame completes at five bytes; a sixth byte keeps it from completing. -/
theorem test_tick_exception : doneOf (nextOf (exec .tick (clock 10 10000 [1, 0x83, 2, 0xC0, 0xF1] sent))) = [(.protocol 2#8, [])] ∧
    (fun t => (t.eng.state, (slotAt t 0).rxlen, t.events)) (after .tick (clock 10 10000 [1, 0x83, 2, 0xC0, 0xF1, 0] sent)) =
      (.headChecked, 6, []) := by decide +kernel

def clearing : State := { clock 32 32000 [0, 2] rtu with eng := { rtu.eng with state := .bufferClear } }

theorem test_tick_buffer_clear :
    (fun t => (t.eng.state, t.eng.idleT, t.serial)) (after .tick (clock 33 33000 [] clearing)) = (.bufferClear, 33000, []) ∧
    (after .tick (clock 36 36645 [] (after .tick (clock 33 33000 [] clearing)))).eng.state = .bufferClear ∧
    (after .tick (clock 36 36646 [] (after .tick (clock 33 33000 [] clearing)))).eng.state = .idle := by decide +kernel

theorem test_tick_idle_empty : (after .tick (clock 37 37000 [] rtu)).eng.idleT = 33354 := by decide +kernel

/-- P5 step 7: a broadcast ends at its transmission. -/
def broadcast : State := clock 12 12000 [] (after (.wrReg (.unit 0#8) 1#16 3#16 7) (clock 8 8000 [] rtu))

theorem test_tick_broadcast : answerOf .tick broadcast = some (.unit, [.txBegin, .serWrite (b [0, 6, 0, 1, 0, 3, 0x99, 0xDA]),
      .txEnd, .done (some 7) { slot := some 0, err := .ok, fc := 6#8, unit := 0#8, esize := 1, data := [] }]) ∧
    engOf (after .tick broadcast) = (.idle, none, 12000, 0) := by decide +kernel

/-! V12. -/

def cleared : State := after .clearAll (clock 5 5000 [9] (after rd2 headed))

theorem test_clear_all : engOf cleared = (.idle, none, 5000, 20000) ∧ cleared.pool = [] ∧ cleared.q.count = 0 ∧
    cleared.events = [] ∧ cleared.serial = b [9] := by decide +kernel

def renewed : State := after (.reset { Params.default with hostBe := true, pduMax := 8 }) (clock 1 777 [1, 2, 3] headed)

theorem test_reset : engOf renewed = (.idle, none, 777, 777) ∧ renewed.serial = [] ∧ renewed.pool = [] ∧
    renewed.ctx = { bigEndian := true, tid := 0#16 } ∧ renewed.cfg.bufCap = 11 := by decide +kernel

theorem test_reset_refuses : [{ Params.default with pduMax := 7 }, { Params.default with pduMax := 254 },
    { Params.default with poolCap := 0 }, { Params.default with poolCap := 65536 }, { Params.default with queueCap := 0 },
    { Params.default with esMax := 1 }, { Params.default with transport := .tcp, sentCap := 0 },
    { Params.default with dataBits := 9 }, { Params.default with dataBits := 4 }, { Params.default with parityBits := 2 },
    { Params.default with stopBits := 3 }, { Params.default with stopBits := 0 }, { Params.default with baud := 0 }].all
    (fun p => decide (resultOf (.reset p) rtu = some (.rejected .illegalConfiguration))) = true := by decide +kernel

/-- R412 bounds BAUD on RTU only (log 25): a TCP instance may have none. -/
theorem test_reset_tcp_without_baud : (fun t => (t.result, t.ctx.tid, t.eng.state))
    (after (.reset { Params.default with transport := .tcp, baud := 0 }) rtu) = (.unit, 0#16, .idle) := by decide +kernel

/-! D3: an instance with `W_TIME` = 8. -/

def narrowClock : State := after (.reset { Params.default with wTime := 8, respTimeoutMs := 255 }) (clock 300 511 [] rtu)

theorem test_narrow_clock : narrowClock.result = .unit ∧ narrowClock.nowMs = 44 ∧ narrowClock.eng.idleT = 255 ∧
    (let s := delays [10] (after rd2 (clock 250 0 [] narrowClock))
     resultOf .qHasReady (clock 3 0 [] s) = some (.bool false) ∧ resultOf .qHasReady (clock 4 0 [] s) = some (.bool true)) ∧
    resultOf (.reset { Params.default with wTime := 8, respTimeoutMs := 256 }) rtu = some (.rejected .illegalConfiguration) := by
  decide +kernel

/-- R410: a `RESET` that widens `W_TIME` reads the clock in the new width: no silence has passed at that reading. -/
theorem test_wide_clock :
    (let s := after (.reset { Params.default with wTime := 48 }) (clock 0 4294967301 [] rtu)
     (s.eng.idleT, s.eng.byteT, elapsed s.cfg s.nowUs s.eng.idleT)) = (4294967301, 4294967301, 0) := by decide +kernel

/-- R428: a delay of `2^W_TIME` ms is never reached. -/
theorem test_delay_never : nextDelay narrowClock.cfg { SlaveSet.cleared with itemDelay := 255 } 5 = .ms 255 ∧
    nextDelay narrowClock.cfg { SlaveSet.cleared with itemDelay := 256 } 5 = .never ∧
    nextDelay rtu.cfg { SlaveSet.cleared with itemDelay := 256 } 5 = .ms 256 ∧ Delay.reached 255 .never = false := by
  decide +kernel

/-- Log 7: a TCP operation on an RTU instance. -/
theorem test_absent : (match exec (.tcpFail 0 .responseTimeout) rtu with
    | .refused r => decide (r = .absentOperation)
    | _ => false) = true := by decide +kernel

/-- R9: a step takes one command; with none it changes nothing. -/
theorem test_step : (nextOf (step (rtu.withFetchWord 8 0x44))).map State.result = some (.bool false) ∧
    nextOf (step rtu) = some rtu ∧
    (nextOf (step { narrowClock with host := [{ bytes := b [0x44, 0], clockMs := 259, clockUs := 513, arrived := [] }] })).map
      (fun t => (t.nowMs, t.nowUs)) = some (3, 1) := by decide +kernel

/-! ### Witnesses: for every statement with hypotheses, a state and operands that meet them, clause by clause -/

def awaitingNow (s : State) (h : Nat) : Bool :=
  queueCheck s && decide (h < s.cfg.params.poolCap) && (slotAt s h).inuse && !held s h && lengthsFit s.cfg (slotAt s h) &&
  decide (s.cfg.hdr + s.cfg.trl < (slotAt s h).txlen) && decide ((slotAt s h).winLen = 0)

theorem awaiting_of {s : State} {h : Nat} (e : awaitingNow s h = true) : Awaiting s h := by
  simp only [awaitingNow, Bool.and_eq_true, decide_eq_true_eq, Bool.not_eq_true'] at e
  obtain ⟨⟨⟨⟨⟨⟨h1, h2⟩, h3⟩, h4⟩, h5⟩, h6⟩, h7⟩ := e
  exact ⟨queueOk_of_check h1, h2, h3, h4, h5, h6, h7⟩

def cfgNow (s : State) : Bool := legal s.cfg.params && decide (s.cfg = cfgOf s.cfg.params)

theorem cfgOk_of {s : State} (e : cfgNow s = true) : CfgOk s := by
  simpa only [CfgOk, cfgNow, Bool.and_eq_true, decide_eq_true_eq] using e

def lowestNow (s : State) (h : Nat) : Bool := decide (freeSlot s = some h)

theorem findFrom_spec (p : Nat → Bool) (n start h : Nat) (e : findFrom p start n = some h) :
    start ≤ h ∧ h < start + n ∧ p h = true ∧ ∀ k, start ≤ k → k < h → p k = false := by
  induction n generalizing start with
  | zero => cases e
  | succ n ih =>
    rw [findFrom] at e
    by_cases hp : p start = true
    · rw [if_pos hp] at e; cases e
      exact ⟨Nat.le_refl _, by omega, hp, fun k h1 h2 => by omega⟩
    · rw [if_neg hp] at e
      obtain ⟨h1, h2, h3, h4⟩ := ih _ e
      refine ⟨by omega, by omega, h3, fun k hk hl => ?_⟩
      by_cases hs : k = start
      · subst hs; simpa using hp
      · exact h4 k (by omega) hl

theorem lowest_of {s : State} {h : Nat} (e : lowestNow s h = true) : Lowest s h := by
  obtain ⟨-, h2, h3, h4⟩ := findFrom_spec _ _ _ _ (of_decide_eq_true e)
  exact ⟨by simpa using h2, by simpa using h3, fun k hk => by simpa using h4 k (Nat.zero_le _) hk⟩

theorem canBuild_of {s : State} {h : Nat} {target : Target}
    (e : (cfgNow s && queueCheck s && decide (s.q.count < s.cfg.params.queueCap) && lowestNow s h) = true)
    (ht : TargetOk s target) : CanBuild s h target := by
  simp only [Bool.and_eq_true, decide_eq_true_eq] at e
  obtain ⟨⟨⟨h1, h2⟩, h3⟩, h4⟩ := e
  exact ⟨cfgOk_of h1, queueOk_of_check h2, h3, lowest_of h4, ht⟩

theorem since_elapsed (s : State) (now past : Time) : since s now past = elapsed s.cfg now past := by
  have h := elapsed_eq s.cfg now past
  unfold since
  rw [show ((2 ^ s.cfg.params.wTime : Nat) : Int) = (s.cfg.span : Int) from rfl, ← h]
  simp

theorem readyAt_of {s : State} {i h : Nat} (r : ReadyAt s i h) :
    ready s h = true ∧ ∃ d, (slotAt s h).delay = .ms d ∧ readyDelay s i = some d := by
  obtain ⟨-, hq, d, hd, hle⟩ := r
  have hr : ready s h = true := by rw [ready, hd, Delay.reached, ← since_elapsed]; exact decide_eq_true hle
  exact ⟨hr, d, hd, readyDelay_some.mpr ⟨h, hq, hr, hd⟩⟩

theorem noneReady_of {s : State} (e : selectReady s = none) : ∀ i h, ¬ ReadyAt s i h := by
  intro i h r
  obtain ⟨-, d, -, hs⟩ := readyAt_of r
  rw [selectReady_none e i r.1] at hs; cases hs

theorem wins_of {s : State} {j h : Nat} (e : selectReady s = some j) (hq : qItem s j = some h) : Wins s j h := by
  obtain ⟨h1, d, h2, h3⟩ := selectReady_some e
  obtain ⟨k, hk, hr, hd⟩ := readyDelay_some.mp h2
  rw [hq] at hk; cases hk
  have hle : d ≤ since s s.nowMs (slotAt s h).qtime := by
    rw [ready, hd, Delay.reached, ← since_elapsed] at hr; exact of_decide_eq_true hr
  refine ⟨⟨h1, hq, d, hd, hle⟩, fun i k r d' e' hd' he' => ?_⟩
  obtain ⟨-, e2, he2, hk2⟩ := readyAt_of r
  have hdd : d = d' := Delay.ms.inj (hd.symm.trans hd')
  have hee : e2 = e' := Delay.ms.inj (he2.symm.trans he')
  subst hdd hee
  exact h3 i _ r.1 hk2

theorem waits_of {s : State} {st : EngState} {h : Nat}
    (e : (soundCheck s && canonicalCheck s && decide (s.cfg.params.transport = .rtu) && decide (s.eng.state = st) &&
      decide (s.eng.pending = some h) && decide (s.cfg.hdr + s.cfg.trl < (slotAt s h).txlen) &&
      decide ((slotAt s h).winLen = 0)) = true) : WaitsFor s st h := by
  simp only [Bool.and_eq_true, decide_eq_true_eq] at e
  obtain ⟨⟨⟨⟨⟨⟨h1, h2⟩, h3⟩, h4⟩, h5⟩, h6⟩, h7⟩ := e
  exact ⟨sound_of_check h1, canonical_of_check h2, h3, h4, h5, h6, h7⟩

/-! Steps, commands, reset. -/

def command (l : List Nat) : HostCmd := { bytes := b l, clockMs := 5, clockUs := 6, arrived := b [9] }
def issued (l : List Nat) (s : State) : State := { s with host := [command l] }

theorem witness_StepRunsCommand : (issued [0x41, 0] rtu).host = command [0x41, 0] :: [] ∧
    decode (command [0x41, 0]).bytes = .ok .qRead ∧ rtu.host = [] ∧ (issued [0x56, 0] rtu).host = command [0x56, 0] :: [] ∧
    decode (command [0x56, 0]).bytes = .error .unknownNumber := ⟨rfl, rfl, rfl, rfl, rfl⟩

theorem witness_DecodeEncodeAgree : (Instr.rdHolding (.set 65535) 0xFFFF#16 65535 255 65535).wf = true ∧
    (Instr.wrRegs (.unit 255#8) 0#16 3 [0, 16777215] 0).wf = true ∧
    (Instr.ssSetDelays (.slot 65535) (-9223372036854775808) 9223372036854775807).wf = true ∧
    (Instr.reset { Params.default with baud := 4294967295 }).wf = true := by decide

def edgeRtu : Params := { Params.default with pduMax := 8, poolCap := 65535, queueCap := 1, esMax := 2, baud := 19200, dataBits := 5,
                                              stopBits := 2, parityBits := 1, respTimeoutMs := 4294967295, sentCap := 0 }
def edgeTcp : Params := { Params.default with transport := .tcp, pduMax := 253, poolCap := 1, sentCap := 1, baud := 19201, dataBits := 0 }

theorem witness_ResetLeavesResetValues : LegalParams edgeRtu ∧ edgeRtu.transport = .rtu ∧ 1 ≤ edgeRtu.baud ∧
    edgeRtu.baud ≤ 19200 ∧ LegalParams edgeTcp ∧ edgeTcp.transport = .tcp ∧ 19200 < edgeTcp.baud ∧
    LegalParams { edgeTcp with baud := 0, wTime := 10 } := by
  unfold LegalParams
  refine ⟨?_, ?_, ?_, ?_, ?_, ?_, ?_, ?_⟩ <;> decide

/-! Frames. -/

def good : State := got [1, 3, 4, 0, 1, 0, 2, 0x2A, 0x32] (taken rd2 rtu)

theorem witness_OneByteErrorDetected : good.cfg.params.transport = .rtu ∧ 0 < good.cfg.params.poolCap ∧
    lengthsFit good.cfg (slotAt good 0) = true ∧ exec (.rtuCheckCrc 0) good = .next { good with result := .bool true } ∧
    8 < (slotAt good 0).rxlen ∧ 0xB2#8 ≠ readByte (slotAt good 0).rx 8 ∧ 0#8 ≠ readByte (slotAt good 0).rx 0 := by
  refine ⟨by decide +kernel, by decide +kernel, by decide +kernel, eq_next ?_, by decide +kernel, by decide +kernel,
    by decide +kernel⟩
  decide +kernel

theorem witness_WireFormats : 1 ≤ (List.replicate 1 0#8).length ∧ 1 ≤ (List.replicate 253 0#8).length ∧
    (List.replicate 253 0#8).length ≤ rtu.cfg.params.pduMax ∧ (127#8).toNat < 128 ∧ 128 ≤ (128#8).toNat ∧
    ¬ (1 ≤ ([] : List Byte).length ∧ ([] : List Byte).length ≤ rtu.cfg.params.pduMax) ∧
    ¬ (1 ≤ (List.replicate 254 0#8).length ∧ (List.replicate 254 0#8).length ≤ rtu.cfg.params.pduMax) := by decide +kernel

theorem witness_RtuSetHeadAndCrc : rtu.cfg.params.transport = .rtu ∧ 3 < rtu.cfg.params.poolCap ∧
    0 ≤ rtu.cfg.params.pduMax ∧ 1 ≤ rtu.cfg.params.pduMax ∧ 253 ≤ rtu.cfg.params.pduMax := by decide +kernel

theorem witness_RtuChecksAnswer : good.cfg.params.transport = .rtu ∧ 0 < good.cfg.params.poolCap ∧
    lengthsFit good.cfg (slotAt good 0) = true ∧ lengthsFit rtu.cfg (slotAt rtu 3) = true := by decide +kernel

theorem witness_TcpSetMbapWritesHeader : tcp.cfg.params.transport = .tcp ∧ 3 < tcp.cfg.params.poolCap ∧
    0 ≤ tcp.cfg.params.pduMax ∧ 1 ≤ tcp.cfg.params.pduMax ∧ 253 ≤ tcp.cfg.params.pduMax ∧ tcp.cfg.params.pduMax < 254 ∧
    65534 + 1 < 65536 ∧ ¬ 65535 + 1 < 65536 := by decide +kernel

/-- The header bytes of slot 0 against its template. -/
def sameAt (s : State) (k n : Nat) : Bool := decide (readBytes (slotAt s 0).rx k n = readBytes (slotAt s 0).tmpl k n)

/-- Seven bytes with each of the four answers; the edges of the length field; headers of six, five and no bytes. -/
theorem witness_TcpChecksAnswer : tcp4.cfg.params.transport = .tcp ∧ 0 < tcp4.cfg.params.poolCap ∧
    (7 ≤ (slotAt (got [0, 5, 0, 0, 0, 2, 1] tcp4) 0).rxlen ∧ sameAt (got [0, 5, 0, 0, 0, 2, 1] tcp4) 0 2 = false) ∧
    (sameAt (got [0, 4, 0, 1, 0, 2, 1] tcp4) 0 2 = true ∧
      readBytes (slotAt (got [0, 4, 0, 1, 0, 2, 1] tcp4) 0).rx 2 2 ≠ [0#8, 0#8]) ∧
    (sameAt (got [0, 4, 0, 0, 0, 2, 2] tcp4) 0 4 = true ∧ sameAt (got [0, 4, 0, 0, 0, 2, 2] tcp4) 6 1 = false) ∧
    (sameAt (got [0, 4, 0, 0, 0, 2, 1] tcp4) 0 4 = true ∧ sameAt (got [0, 4, 0, 0, 0, 2, 1] tcp4) 6 1 = true) ∧
    ((slotAt (got [0, 4, 0, 0, 0, 2] tcp4) 0).rxlen < 7 ∧ 6 ≤ (slotAt (got [0, 4, 0, 0, 0, 2] tcp4) 0).rxlen) ∧
    ((slotAt (got [0, 4, 0, 0, 0] tcp4) 0).rxlen < 6 ∧ (slotAt (got [] tcp4) 0).rxlen < 6) ∧
    (1 < 2 ∧ ¬ 1 < 1 ∧ 2 ≤ 2 ∧ 2 - 1 ≤ tcp4.cfg.params.pduMax ∧ 254 - 1 ≤ tcp4.cfg.params.pduMax ∧
      tcp4.cfg.params.pduMax < 255 - 1) := by decide +kernel

theorem witness_Awaiting_tcp : tcp4.cfg.params.transport = .tcp ∧ Awaiting tcp4 0 :=
  ⟨by decide +kernel, awaiting_of (by decide +kernel)⟩

/-- The frames of V7 against the template of `tcp4`, one for each answer of R249, at the edges of its length tests. -/
theorem witness_TcpReceiveRefuses : readBytes (slotAt tcp4 0).tmpl 0 2 = b [0, 4] ∧ readByte (slotAt tcp4 0).tmpl 6 = 1#8 ∧
    (b [0, 4, 0, 0, 0, 2]).length < 7 ∧
    (7 ≤ (b [0, 5, 0, 0, 0, 2, 1]).length ∧ (b [0, 5, 0, 0, 0, 2, 1]).take 2 ≠ b [0, 4]) ∧
    ((b [0, 4, 0, 1, 0, 2, 1]).take 2 = b [0, 4] ∧ slice (b [0, 4, 0, 1, 0, 2, 1]) 2 4 ≠ [0#8, 0#8]) ∧
    (slice (b [0, 4, 0, 0, 0, 2, 2]) 2 4 = [0#8, 0#8] ∧ slice (b [0, 4, 0, 0, 0, 2, 2]) 6 7 ≠ [1#8]) ∧
    (slice (b [0, 4, 0, 0, 0, 1, 1]) 6 7 = [1#8] ∧ uNbe (slice (b [0, 4, 0, 0, 0, 1, 1]) 4 6) < 2) ∧
    tcp4.cfg.params.pduMax < uNbe (slice (b [0, 4, 0, 0, 0, 255, 1]) 4 6) - 1 ∧
    (2 ≤ uNbe (slice (b [0, 4, 0, 0, 0, 2, 1]) 4 6) ∧ (b [0, 4, 0, 0, 0, 2, 1]).length <
      6 + uNbe (slice (b [0, 4, 0, 0, 0, 2, 1]) 4 6)) := by decide +kernel

def tcpStatus : State := taken (.rdExcStatus one 7) { tcp with ctx := { tcp.ctx with tid := 3#16 } }

theorem witness_TcpReceiveAccepts : tcpStatus.cfg.params.transport = .tcp ∧ Awaiting tcpStatus 0 ∧
    7 + 2 ≤ (b [0, 4, 0, 0, 0, 3, 1, 7, 0x6D]).length ∧ 2 ≤ tcpStatus.cfg.params.pduMax ∧
    (b [0, 4, 0, 0, 0, 3, 1, 7, 0x6D]).take 2 = readBytes (slotAt tcpStatus 0).tmpl 0 2 ∧
    slice (b [0, 4, 0, 0, 0, 3, 1, 7, 0x6D]) 2 4 = [0#8, 0#8] ∧ uNbe (slice (b [0, 4, 0, 0, 0, 3, 1, 7, 0x6D]) 4 6) = 2 + 1 ∧
    slice (b [0, 4, 0, 0, 0, 3, 1, 7, 0x6D]) 6 7 = [readByte (slotAt tcpStatus 0).tmpl 6] ∧
    (slotAt tcpStatus 0).err = .ok ∧ fcOf tcpStatus.cfg (slotAt tcpStatus 0) = 7#8 ∧ (slotAt tcpStatus 0).explen = 9 ∧
    slice (b [0, 4, 0, 0, 0, 3, 1, 7, 0x6D]) 7 9 = [7#8, 0x6D#8] := by
  refine ⟨by decide +kernel, awaiting_of (by decide +kernel), ?_⟩
  decide +kernel

theorem witness_TcpFailEnds : tcp4.cfg.params.transport = .tcp ∧ Awaiting tcp4 0 := witness_Awaiting_tcp

theorem witness_SentBufferAdd :
    (∀ s, s = after (.sbAdd 0) three → s.cfg.params.transport = .tcp ∧ 1 < s.cfg.params.poolCap ∧ (slotAt s 1).inuse = true ∧
      held s 1 = false ∧ 1 < s.cfg.params.sentCap ∧ cellAt none s.sb 1 = none ∧ ∀ k, k < 1 → cellAt none s.sb k ≠ none) ∧
    sentTwo.cfg.params.transport = .tcp ∧ ∀ k, k < sentTwo.cfg.params.sentCap → cellAt none sentTwo.sb k ≠ none := by
  refine ⟨?_, by decide +kernel, by decide +kernel⟩
  rintro s rfl; decide +kernel

/-- `SB_READ(2)` and `SB_READ_NEXT_TIMEOUT(0)` find a slot of `sentTwo`, `SB_READ(9)` and a threshold not reached do not. -/
theorem witness_SentBufferTake : sentTwo.cfg.params.transport = .tcp ∧
    (1 < sentTwo.cfg.params.sentCap ∧ cellAt none sentTwo.sb 1 = some 1 ∧ readBytes (slotAt sentTwo 1).tx 0 2 = be16 2#16 ∧
      ∀ k g, k < 1 → cellAt none sentTwo.sb k = some g → readBytes (slotAt sentTwo g).tx 0 2 ≠ be16 2#16) ∧
    (∀ i h, i < sentTwo.cfg.params.sentCap → cellAt none sentTwo.sb i = some h →
      readBytes (slotAt sentTwo h).tx 0 2 ≠ be16 9#16) ∧
    (cellAt none sentTwo.sb 0 = some 0 ∧ 0 ≤ since sentTwo sentTwo.nowMs (slotAt sentTwo 0).stime) ∧
    (∀ i h, i < sentTwo.cfg.params.sentCap → cellAt none sentTwo.sb i = some h →
      ¬ 1 ≤ since sentTwo sentTwo.nowMs (slotAt sentTwo h).stime) := by
  have two : ∀ {P : Nat → Prop} {n : Nat}, n = sentTwo.cfg.params.sentCap → P 0 → P 1 →
      ∀ i h, i < n → cellAt none sentTwo.sb i = some h → P h := by
    intro P n hn h0 h1 i h hi hc
    have h2 : sentTwo.cfg.params.sentCap = 2 := by decide +kernel
    have c0 : cellAt none sentTwo.sb 0 = some 0 := by decide +kernel
    have c1 : cellAt none sentTwo.sb 1 = some 1 := by decide +kernel
    rcases (show i = 0 ∨ i = 1 by omega) with rfl | rfl
    · rw [c0] at hc; cases hc; exact h0
    · rw [c1] at hc; cases hc; exact h1
  refine ⟨by decide +kernel, ⟨by decide +kernel, by decide +kernel, by decide +kernel, ?_⟩, ?_,
    ⟨by decide +kernel, by decide +kernel⟩, ?_⟩
  · intro k g hk hc
    obtain rfl : k = 0 := by omega
    have c0 : cellAt none sentTwo.sb 0 = some 0 := by decide +kernel
    rw [c0] at hc; cases hc; decide +kernel
  · exact two (P := fun h => readBytes (slotAt sentTwo h).tx 0 2 ≠ be16 9#16) rfl (by decide +kernel) (by decide +kernel)
  · exact two (P := fun h => ¬ 1 ≤ since sentTwo sentTwo.nowMs (slotAt sentTwo h).stime) rfl (by decide +kernel)
      (by decide +kernel)

/-! SlaveSets. -/

theorem witness_SlaveSets : (∀ h, SsRef.slot 3 = SsRef.slot h → h < rtu.cfg.params.poolCap) ∧
    (∀ h, SsRef.host 9 = SsRef.slot h → h < rtu.cfg.params.poolCap) :=
  ⟨fun h e => by cases e; decide +kernel, fun h e => by cases e⟩

theorem witness_SlaveSetMembership (r : SsRef) (lo hi : Byte) :
    (∃ op hi' add, op = Instr.ssSet r lo ∧ hi' = lo ∧ add = true) ∧ (∃ op add, op = Instr.ssSetRange r lo hi ∧ add = true) ∧
    (∃ op hi' add, op = Instr.ssRemove r lo ∧ hi' = lo ∧ add = false) ∧
    (∃ op add, op = Instr.ssRemoveRange r lo hi ∧ add = false) :=
  ⟨⟨_, _, _, rfl, rfl, rfl⟩, ⟨_, _, rfl, rfl⟩, ⟨_, _, _, rfl, rfl, rfl⟩, ⟨_, _, rfl, rfl⟩⟩

/-- The attempt to 2 of a request to {2, 5, 9}, while one more transaction fills a queue of one place. -/
def crowded : State :=
  let s := withSet (setOf [2, 5, 9] .start 500) (after (.reset { Params.default with queueCap := 1 }) rtu)
  after rd2 (taken (.rdHolding (.set 0) 0#16 2 2 7) s)

/-- An item delay of `n` ms. -/
def slow (n : Nat) : State := updSlot (attempt 2 500) 0 (fun x => { x with ss := { x.ss with itemDelay := n } })

/-- A next target with a place in the queue, the same with the queue full, no next target, no members; a delay that fits and
one that does not. -/
theorem witness_RepeatReleasesOrRearms :
    (Awaiting (attempt 2 500) 0 ∧ nextMember (slotAt (attempt 2 500) 0).ss = some 5 ∧
      (attempt 2 500).q.count ≠ (attempt 2 500).cfg.params.queueCap) ∧
    (Awaiting crowded 0 ∧ nextMember (slotAt crowded 0).ss = some 5 ∧ crowded.q.count = crowded.cfg.params.queueCap) ∧
    (Awaiting (attempt 9 (-1)) 0 ∧ nextMember (slotAt (attempt 9 (-1)) 0).ss = none) ∧
    (Awaiting (taken rd2 rtu) 0 ∧ nonempty (slotAt (taken rd2 rtu) 0).ss = false) ∧
    (Awaiting (slow 4294967295) 0 ∧ (max 0 (slotAt (slow 4294967295) 0).ss.itemDelay).toNat < 2 ^ (slow 0).cfg.params.wTime) ∧
    (Awaiting (slow 4294967296) 0 ∧ 2 ^ (slow 0).cfg.params.wTime ≤ (max 0 (slotAt (slow 4294967296) 0).ss.itemDelay).toNat) := by
  refine ⟨⟨awaiting_of ?_, ?_⟩, ⟨awaiting_of ?_, ?_⟩, ⟨awaiting_of ?_, ?_⟩, ⟨awaiting_of ?_, ?_⟩, ⟨awaiting_of ?_, ?_⟩,
    awaiting_of ?_, ?_⟩ <;> decide +kernel

theorem test_repeat_queue_full : (fun t => (t.events, slotAt t 0, qContent t)) (after (.repeatIfNeeded 0) crowded) =
    ([.done (some 7) { slot := some 0, err := .queueFull, fc := 3#8, unit := 5#8, esize := 1, data := [] }],
      Slot.cleared, [some 1]) := by decide +kernel

/-! The queue. -/

theorem witness_QueueIsFifo :
    (QueueOk (taken rd2 rtu) ∧ (taken rd2 rtu).q.count < (taken rd2 rtu).cfg.params.queueCap ∧
      0 < (taken rd2 rtu).cfg.params.poolCap ∧ (slotAt (taken rd2 rtu) 0).inuse = true ∧ held (taken rd2 rtu) 0 = false) ∧
    (four .swap).q.count = (four .swap).cfg.params.queueCap ∧
    (QueueOk (four .swap) ∧ qContent (four .swap) = some 0 :: [some 1, some 2, some 3]) ∧ qContent rtu = [] := by
  refine ⟨⟨queueOk_of_check (by decide +kernel), ?_⟩, by decide +kernel, ⟨queueOk_of_check (by decide +kernel), ?_⟩, rfl⟩ <;>
    decide +kernel

theorem witness_QueueSelectsReady :
    (QueueOk (clock 30 0 [] (four .swap)) ∧ Wins (clock 30 0 [] (four .swap)) 2 2) ∧
    (QueueOk (clock 9 0 [] (four .rotate)) ∧ ∀ i h, ¬ ReadyAt (clock 9 0 [] (four .rotate)) i h) :=
  ⟨⟨queueOk_of_check (by decide +kernel), wins_of (by decide +kernel) (by decide +kernel)⟩,
    queueOk_of_check (by decide +kernel), noneReady_of (by decide +kernel)⟩

theorem witness_QueueClearReleases : QueueOk (four .swap) ∧ some 3 ∈ qContent (four .swap) ∧
    some 0 ∉ qContent (after .qRead (four .swap)) :=
  ⟨queueOk_of_check (by decide +kernel), by decide +kernel, by decide +kernel⟩

/-! Builds. -/

def withThree : State := withSet (setOf [3, 247] .start 0) rtu

theorem witness_CanBuild : CanBuild rtu 0 (.unit 247#8) ∧ CanBuild withThree 0 (.set 0) ∧ CanBuild tcp 0 (.unit 255#8) ∧
    CanBuild (after rd2 rtu) 1 one := by
  refine ⟨canBuild_of (by decide +kernel) ?_, canBuild_of (by decide +kernel) ⟨247, by decide +kernel, by decide +kernel⟩,
    canBuild_of (by decide +kernel) ?_, canBuild_of (by decide +kernel) ?_⟩
  · unfold TargetOk; decide +kernel
  · unfold TargetOk; decide +kernel
  · unfold TargetOk one; decide +kernel

theorem witness_BuildReadBits : CanBuild rtu 0 (.unit 247#8) ∧ 1 ≤ 1 ∧ 1 ≤ 2000 ∧ 2000 ≤ 2000 ∧ (0xFFFF#16).toNat + 1 ≤ 65536 ∧
    (63536#16).toNat + 2000 ≤ 65536 ∧ 2 + ceil8 2000 ≤ rtu.cfg.params.pduMax := by
  refine ⟨witness_CanBuild.1, ?_⟩; decide +kernel

theorem witness_BuildReadRegisters : CanBuild rtu 0 (.unit 247#8) ∧
    (1 ≤ 8 ∧ 8 ≤ rtu.cfg.params.esMax ∧ 31 * ts 8 = 2 * 124 ∧ 124 ≤ 125 ∧ (65412#16).toNat + 124 ≤ 65536) ∧
    (1 ≤ 1 ∧ 250 * ts 1 = 2 * 125 ∧ 2 + 2 * 125 ≤ rtu.cfg.params.pduMax) ∧ (1 * ts 2 = 2 * 1 ∧ 1 ≤ 1) := by
  refine ⟨witness_CanBuild.1, ?_⟩; decide +kernel

theorem witness_BuildWithoutLimits : CanBuild withThree 0 (.set 0) := witness_CanBuild.2.1

theorem witness_BuildWriteCoils : CanBuild rtu 0 (.unit 247#8) ∧ 1 ≤ (List.replicate 1968 true).length ∧
    (List.replicate 1968 true).length ≤ 1968 ∧ (63568#16).toNat + (List.replicate 1968 true).length ≤ 65536 ∧
    6 + ceil8 (List.replicate 1968 true).length ≤ rtu.cfg.params.pduMax ∧ 1 ≤ [true].length := by
  refine ⟨witness_CanBuild.1, ?_⟩
  rw [List.length_replicate]; decide +kernel

theorem witness_BuildWriteRegisters : CanBuild tcp 0 (.unit 255#8) ∧
    (1 ≤ 2 ∧ 2 ≤ tcp.cfg.params.esMax ∧ (List.replicate 123 65535).length * ts 2 = 2 * 123 ∧
      (65413#16).toNat + 123 ≤ 65536 ∧ 6 + 2 * 123 ≤ tcp.cfg.params.pduMax) ∧
    (0xABCDEF < 256 ^ 3 ∧ [0xABCDEF].length * ts 3 = 2 * 2 ∧ ¬ 0x1000000 < 256 ^ 3) := by
  refine ⟨witness_CanBuild.2.2.1, ?_⟩; decide +kernel

theorem witness_BuildReadWriteRegisters : CanBuild tcp 0 (.unit 255#8) ∧ 1 ≤ 2 ∧ 2 ≤ tcp.cfg.params.esMax ∧
    125 * ts 2 = 2 * 125 ∧ (List.replicate 121 65535).length * ts 2 = 2 * 121 ∧ (65411#16).toNat + 125 ≤ 65536 ∧
    (65415#16).toNat + 121 ≤ 65536 ∧ 10 + 2 * 121 ≤ tcp.cfg.params.pduMax ∧ 2 + 2 * 125 ≤ tcp.cfg.params.pduMax := by
  refine ⟨witness_CanBuild.2.2.1, ?_⟩; decide +kernel

theorem witness_BuildWithoutSlot : supportedCode 0x2B#8 = false ∧ supportedCode 0x09#8 = false ∧ supportedCode 0x17#8 = true ∧
    IsBuild one 7 0x03#8 rd2 ∧ ∀ h, h < (narrow 2 4).cfg.params.poolCap → (slotAt (narrow 2 4) h).inuse = true := by
  refine ⟨by decide, by decide, by decide, .rdHolding .., ?_⟩; decide +kernel

theorem witness_BuildRefusesTarget : IsBuild (.unit 248#8) 7 0x06#8 (.wrReg (.unit 248#8) 1#16 1#16 7) ∧
    IsBuild (.set 5) 7 0x07#8 (.rdExcStatus (.set 5) 7) ∧ Lowest rtu 0 ∧ ¬ TargetOk rtu (.unit 248#8) ∧
    ¬ TargetOk rtu (.set 5) := by
  refine ⟨.wrReg .., .rdExcStatus, lowest_of (by decide +kernel), by unfold TargetOk; decide +kernel, ?_⟩
  rintro ⟨a, -, ha⟩
  simp [rtu, State.reset, member, SlaveSet.cleared] at ha

/-- Each clause, at the edge of its condition; `small` has `PDU_MAX` = 8. -/
theorem witness_BuildRefusesArguments :
    (CfgOk rtu ∧ Lowest rtu 0 ∧ TargetOk rtu one) ∧ (CfgOk small ∧ Lowest small 0 ∧ TargetOk small one) ∧
    (∃ sh q a z, BuildArgs rtu.cfg one 7 0x03#8 (.rdHolding one 0#16 3 1 7) sh q a z ∧ ¬ sh) ∧
    (∃ sh q a z, BuildArgs rtu.cfg one 7 0x04#8 (.rdInput one 0#16 1 9 7) sh q a z ∧ ¬ sh) ∧
    (∃ sh q a z, BuildArgs rtu.cfg one 7 0x10#8 (.wrRegs one 0x20#16 1 [0x11] 7) sh q a z ∧ ¬ sh) ∧
    (∃ sh q a z, BuildArgs rtu.cfg one 7 0x01#8 (.rdCoils one 0#16 2001 7) sh q a z ∧ sh ∧ ¬ q) ∧
    (∃ sh q a z, BuildArgs rtu.cfg one 7 0x0F#8 (.wrCoils one 0#16 [] 7) sh q a z ∧ sh ∧ ¬ q) ∧
    (∃ sh q a z, BuildArgs rtu.cfg one 7 0x17#8 (.rwRegs one 0#16 1 0#16 2 (List.replicate 122 0) 7) sh q a z ∧ sh ∧ ¬ q) ∧
    (∃ sh q a z, BuildArgs rtu.cfg one 7 0x02#8 (.rdDiscrete one 0xFFFF#16 2 7) sh q a z ∧ sh ∧ q ∧ ¬ a) ∧
    (∃ sh q a z, BuildArgs rtu.cfg one 7 0x03#8 (.rdHolding one 0xFFFF#16 2 2 7) sh q a z ∧ sh ∧ q ∧ ¬ a) ∧
    (∃ sh q a z, BuildArgs small.cfg one 7 0x01#8 (.rdCoils one 0#16 49 7) sh q a z ∧ sh ∧ q ∧ a ∧ ¬ z) ∧
    (∃ sh q a z, BuildArgs small.cfg one 7 0x10#8 (.wrRegs one 0#16 2 [1, 2] 7) sh q a z ∧ sh ∧ q ∧ a ∧ ¬ z) := by
  refine ⟨⟨cfgOk_of (by decide +kernel), lowest_of (by decide +kernel), ?_⟩,
    ⟨cfgOk_of (by decide +kernel), lowest_of (by decide +kernel), ?_⟩,
    ⟨_, _, _, _, .rdHolding 0#16 3 1 1 (by decide), ?_⟩, ⟨_, _, _, _, .rdInput 0#16 1 9 5 (by decide), ?_⟩,
    ⟨_, _, _, _, .wrRegs 0x20#16 1 [0x11] 0 (by decide), ?_⟩, ⟨_, _, _, _, .rdCoils .., ?_⟩,
    ⟨_, _, _, _, .wrCoils .., ?_⟩,
    ⟨_, _, _, _, .rwRegs 0#16 1 0#16 2 (List.replicate 122 0) 1 122 (by decide) (by decide +kernel), ?_⟩,
    ⟨_, _, _, _, .rdDiscrete .., ?_⟩, ⟨_, _, _, _, .rdHolding 0xFFFF#16 2 2 2 (by decide), ?_⟩,
    ⟨_, _, _, _, .rdCoils .., ?_⟩, ⟨_, _, _, _, .wrRegs 0#16 2 [1, 2] 2 (by decide), ?_⟩⟩
  all_goals first
    | decide +kernel
    | (unfold TargetOk one; decide +kernel)

/-- An element of no bytes, and a value of 65537 bytes in all. -/
theorem witness_BuildRefusesArguments_shape (vals : List Nat) (h : vals.length = 65537) :
    (∃ sh q a z, BuildArgs rtu.cfg one 7 0x03#8 (.rdHolding one 0#16 1 0 7) sh q a z ∧ ¬ sh) ∧
    (∃ sh q a z, BuildArgs rtu.cfg one 7 0x10#8 (.wrRegs one 0#16 1 vals 7) sh q a z ∧ ¬ sh) :=
  ⟨⟨_, _, _, _, .rdHolding 0#16 1 0 _ rfl, fun e => absurd e.1 (by decide)⟩,
    _, _, _, _, .wrRegs 0#16 1 vals _ rfl, fun e => by simp [h, ts] at e⟩

def fullQueue : State := narrow 4 2

theorem witness_BuildFindsQueueFull : CfgOk fullQueue ∧ IsBuild one 7 0x06#8 (.wrReg one 1#16 3#16 7) ∧
    fullQueue.q.count = fullQueue.cfg.params.queueCap ∧
    ∃ t₀, exec (.wrReg one 1#16 3#16 7) { fullQueue with q := { arr := [], head := 0, tail := 0, count := 0 } } = .next t₀ ∧
      t₀.result = .handle (some 2) := by
  refine ⟨cfgOk_of (by decide +kernel), .wrReg .., by decide +kernel,
    after (.wrReg one 1#16 3#16 7) { fullQueue with q := { arr := [], head := 0, tail := 0, count := 0 } }, eq_next ?_, ?_⟩ <;>
    decide +kernel

/-! Responses. -/

def reply (req : Instr) (frame : List Nat) : State := got frame (taken req rtu)

/-- The received PDU and the template's PDU part of slot 0. -/
def pdus (s : State) : List Byte × List Byte := (pduRx s.cfg (slotAt s 0), tmplPdu s.cfg (slotAt s 0))

def coils (frame : List Nat) : State := reply (.rdCoils (.unit 17#8) 19#16 19 7) frame

/-- A response to a template whose byte count no build leaves. -/
def coils255 : State := updSlot (coils [0x11, 1, 255, 0, 0, 0]) 0 (fun x => { x with tmpl := writeBytes x.tmpl 2 [255#8] })

/-- The count, all received; another count; the count with a byte missing; a count past the buffer; no count in the response, and
none in the template. -/
theorem witness_ResponseReadBits :
    (Awaiting (coils [0x11, 1, 3, 0xCD, 0x6B, 5, 0x40, 0x12]) 0 ∧
      pdus (coils [0x11, 1, 3, 0xCD, 0x6B, 5, 0x40, 0x12]) = (b [1, 3, 0xCD, 0x6B, 5], b [1, 3])) ∧
    (Awaiting (coils [0x11, 1, 2, 0xCD, 0x6B, 5, 0, 0]) 0 ∧
      pdus (coils [0x11, 1, 2, 0xCD, 0x6B, 5, 0, 0]) = (b [1, 2, 0xCD, 0x6B, 5], b [1, 3])) ∧
    (Awaiting (coils [0x11, 1, 3, 0xCD, 0, 0]) 0 ∧ pdus (coils [0x11, 1, 3, 0xCD, 0, 0]) = (b [1, 3, 0xCD], b [1, 3]) ∧
      rtu.cfg.hdr + 2 + 3 ≤ rtu.cfg.bufCap) ∧
    (Awaiting coils255 0 ∧ pdus coils255 = (b [1, 255, 0], b [1, 255]) ∧ rtu.cfg.bufCap < rtu.cfg.hdr + 2 + 255) ∧
    (Awaiting (coils [0x11, 1, 0, 0]) 0 ∧ (pdus (coils [0x11, 1, 0, 0])).1.length < 2) ∧
    (∀ s, s = updSlot (coils [0x11, 1, 3, 0, 0]) 0 (fun x => { x with tmpllen := 1 }) → Awaiting s 0 ∧ (slotAt s 0).tmpllen < 2) := by
  refine ⟨⟨awaiting_of ?_, ?_⟩, ⟨awaiting_of ?_, ?_⟩, ⟨awaiting_of ?_, ?_⟩, ⟨awaiting_of ?_, ?_⟩, ⟨awaiting_of ?_, ?_⟩, ?_⟩
  case refine_11 => rintro s rfl; exact ⟨awaiting_of (by decide +kernel), by decide +kernel⟩
  all_goals decide +kernel

/-- The wrong count; all received; a byte short; a remainder; an element size above the host's limit; no count. -/
theorem witness_ResponseReadRegisters :
    (Awaiting (reply rd2 [1, 3, 2, 0, 1, 0, 0]) 0 ∧ pdus (reply rd2 [1, 3, 2, 0, 1, 0, 0]) = (b [3, 2, 0, 1], b [3, 4])) ∧
    (Awaiting good 0 ∧ pdus good = (b [3, 4, 0, 1, 0, 2], b [3, 4]) ∧ (slotAt good 0).esize ≤ good.cfg.params.esMax ∧
      4 % ts (slotAt good 0).esize = 0) ∧
    (Awaiting (reply rd2 [1, 3, 4, 0, 1, 0, 0, 0]) 0 ∧ (pdus (reply rd2 [1, 3, 4, 0, 1, 0, 0, 0])).1 = b [3, 4, 0, 1, 0]) ∧
    (Awaiting (windowed 3 0 0 [1, 3, 4, 0, 1, 0, 2, 0, 0]) 0 ∧ Awaiting (windowed 9 0 0 [1, 3, 4, 0, 1, 0, 2, 0, 0]) 0 ∧
      (windowed 9 0 0 []).cfg.params.esMax < 9) ∧
    (CfgOk (reply rd2 [1, 3, 0, 0]) ∧ Awaiting (reply rd2 [1, 3, 0, 0]) 0 ∧ (pdus (reply rd2 [1, 3, 0, 0])).1.length < 2) := by
  refine ⟨⟨awaiting_of ?_, ?_⟩, ⟨awaiting_of ?_, ?_⟩, ⟨awaiting_of ?_, ?_⟩, ⟨awaiting_of ?_, awaiting_of ?_, ?_⟩, cfgOk_of ?_,
    awaiting_of ?_, ?_⟩ <;>
    decide +kernel

def regReply (frame : List Nat) : State := reply (.wrReg one 100#16 0x1234#16 7) frame
def maskReply (frame : List Nat) : State := reply (.maskWr one 4#16 0xF2#16 0x25#16 7) frame

theorem witness_ResponseEchoes :
    (Awaiting (regReply [1, 6, 0, 0x64, 0x12, 0x34, 0xC5, 0x62]) 0 ∧
      pdus (regReply [1, 6, 0, 0x64, 0x12, 0x34, 0xC5, 0x62]) = (b [6, 0, 0x64, 0x12, 0x34], b [6, 0, 0x64, 0x12, 0x34])) ∧
    (Awaiting (regReply [1, 6, 0, 0x65, 0x12, 0x34, 0, 0]) 0 ∧ Awaiting (regReply [1, 6, 0, 0x64, 0x12, 0x35, 0, 0]) 0) ∧
    (Awaiting (maskReply [1, 0x16, 0, 4, 0, 0xF2, 0, 0x25, 0, 0]) 0 ∧
      pdus (maskReply [1, 0x16, 0, 4, 0, 0xF2, 0, 0x25, 0, 0]) =
        (b [0x16, 0, 4, 0, 0xF2, 0, 0x25], b [0x16, 0, 4, 0, 0xF2, 0, 0x25])) ∧
    Awaiting (maskReply [1, 0x16, 0, 4, 0, 0xF2, 0, 0x26, 0, 0]) 0 ∧ Awaiting (regReply [1, 6, 0]) 0 := by
  refine ⟨⟨awaiting_of ?_, ?_⟩, ⟨awaiting_of ?_, awaiting_of ?_⟩, ⟨awaiting_of ?_, ?_⟩, awaiting_of ?_, awaiting_of ?_⟩ <;>
    decide +kernel

def diagReply (frame : List Nat) : State := reply (.diag one 0#16 0xA537#16 7) frame

theorem witness_ResponseStatusAndDiagnostics :
    (Awaiting (reply (.rdExcStatus one 7) [1, 7, 0x6D, 0xE3, 0xDD]) 0 ∧
      (pdus (reply (.rdExcStatus one 7) [1, 7, 0x6D, 0xE3, 0xDD])).1 = b [7, 0x6D]) ∧
    (Awaiting (diagReply [1, 8, 0, 0, 0xA5, 0x37, 0xDA, 0x8D]) 0 ∧
      pdus (diagReply [1, 8, 0, 0, 0xA5, 0x37, 0xDA, 0x8D]) = (b [8, 0, 0, 0xA5, 0x37], b [8, 0, 0])) ∧
    (Awaiting (diagReply [1, 8, 0, 1, 0, 0]) 0 ∧ (pdus (diagReply [1, 8, 0, 1, 0, 0])).1 = b [8, 0, 1]) ∧
    (CfgOk (diagReply []) ∧ Awaiting (diagReply []) 0 ∧ (pdus (diagReply [])).1 = []) := by
  refine ⟨⟨awaiting_of ?_, ?_⟩, ⟨awaiting_of ?_, ?_⟩, ⟨awaiting_of ?_, ?_⟩, cfgOk_of ?_, awaiting_of ?_, ?_⟩ <;> decide +kernel

/-- Codes 10 and 11, a third byte, no code. -/
theorem witness_ResponseExceptionAndFallThrough :
    (Awaiting (reply rd2 [1, 0x83, 10, 0, 0]) 0 ∧ (pdus (reply rd2 [1, 0x83, 10, 0, 0])).1 = b [0x83, 10]) ∧
    (Awaiting (reply rd2 [1, 0x83, 11, 0, 0]) 0 ∧ (pdus (reply rd2 [1, 0x83, 11, 0, 0])).1 = b [0x83, 11]) ∧
    (Awaiting (reply rd2 [1, 0x83, 1, 0, 0, 0]) 0 ∧ 2 < (pdus (reply rd2 [1, 0x83, 1, 0, 0, 0])).1.length) ∧
    (Awaiting (reply rd2 [1, 0x83, 0, 0]) 0 ∧ (pdus (reply rd2 [1, 0x83, 0, 0])).1.length < 2) := by
  refine ⟨⟨awaiting_of ?_, ?_⟩, ⟨awaiting_of ?_, ?_⟩, ⟨awaiting_of ?_, ?_⟩, awaiting_of ?_, ?_⟩ <;> decide +kernel

/-- A recorded error; one byte; an exception; another function code; a byte short; a byte long. -/
theorem witness_InvokeGuards :
    (∀ s, s = updSlot good 0 (fun x => { x with err := .crcFailure }) → Awaiting s 0 ∧ (slotAt s 0).err ≠ .ok) ∧
    (Awaiting (reply rd2 [1, 3, 0, 0]) 0 ∧ (pdus (reply rd2 [1, 3, 0, 0])).1.length < 2) ∧
    (Awaiting (reply rd2 [1, 0x83, 2, 0, 0]) 0 ∧ (pdus (reply rd2 [1, 0x83, 2, 0, 0])).1 = 0x83#8 :: [2#8]) ∧
    (Awaiting (reply rd2 [1, 4, 2, 0, 0]) 0 ∧ (pdus (reply rd2 [1, 4, 2, 0, 0])).1 = 4#8 :: [2#8]) ∧
    (Awaiting (reply rd2 [1, 3, 4, 0, 1, 0, 0, 0]) 0 ∧ (slotAt (reply rd2 [1, 3, 4, 0, 1, 0, 0, 0]) 0).explen = 9) ∧
    (Awaiting (reply rd2 [1, 3, 4, 0, 1, 0, 2, 0, 0, 0]) 0 ∧ (pdus (reply rd2 [1, 3, 4, 0, 1, 0, 2, 0, 0, 0])).1.length = 7) := by
  refine ⟨?_, ⟨awaiting_of ?_, ?_⟩, ⟨awaiting_of ?_, ?_⟩, ⟨awaiting_of ?_, ?_⟩, ⟨awaiting_of ?_, ?_⟩, ⟨awaiting_of ?_, ?_⟩⟩
  · rintro s rfl; exact ⟨awaiting_of (by decide +kernel), by decide +kernel⟩
  all_goals decide +kernel

def status : State := reply (.rdExcStatus one 7) [1, 7, 0x6D, 0xE3, 0xDD]

theorem witness_InvokeDispatches :
    (Awaiting good 0 ∧ (slotAt good 0).err = .ok ∧
      pduRx good.cfg (slotAt good 0) = fcOf good.cfg (slotAt good 0) :: b [4, 0, 1, 0, 2] ∧
      (slotAt good 0).explen = good.cfg.hdr + (1 + (b [4, 0, 1, 0, 2]).length) + good.cfg.trl) ∧
    (Awaiting status 0 ∧ (slotAt status 0).err = .ok ∧ fcOf status.cfg (slotAt status 0) = 7#8 ∧
      pduRx status.cfg (slotAt status 0) = fcOf status.cfg (slotAt status 0) :: [0x6D#8] ∧
      (slotAt status 0).explen = status.cfg.hdr + (1 + [0x6D#8].length) + status.cfg.trl) := by
  refine ⟨⟨awaiting_of ?_, ?_⟩, ⟨awaiting_of ?_, ?_⟩⟩ <;> decide +kernel

/-! The normaliser. -/

def window4 : State := windowed 4 3 4 [1, 3, 4, 0x12, 0x34, 0x56, 0x78, 0, 0]

/-- The same window on a slot that stands in the queue. -/
def queuedWindow : State := updSlot (after (.qAdd (some 0)) (taken rd2 rtu)) 0 (fun x => { x with esize := 9 })

theorem witness_NormalizeRewritesWindow :
    (0 < window4.cfg.params.poolCap ∧ lengthsFit window4.cfg (slotAt window4 0) = true ∧
      (slotAt window4 0).esize ≤ window4.cfg.params.esMax ∧
      (slotAt window4 0).winOff + (slotAt window4 0).winLen + window4.cfg.trl ≤ (slotAt window4 0).rxlen ∧
      (slotAt window4 0).winLen % ts (slotAt window4 0).esize = 0) ∧
    (∀ s, s = windowed 9 3 4 [1, 3, 4, 0, 1, 0, 2, 0, 0] → s.cfg.params.esMax < (slotAt s 0).esize ∧ detached s 0 = true ∧
      QueueOk s ∧ s.cfg.hdr + s.cfg.trl < (slotAt s 0).txlen ∧ lengthsFit s.cfg (slotAt s 0) = true) ∧
    (∀ s, s = windowed 2 200 100 [1, 3, 4, 0, 1, 0, 2, 0, 0] → s.cfg.bufCap < (slotAt s 0).winOff + (slotAt s 0).winLen ∧
      (slotAt s 0).rxlen < (slotAt s 0).winOff + (slotAt s 0).winLen + s.cfg.trl ∧ detached s 0 = true ∧
      QueueOk s ∧ s.cfg.hdr + s.cfg.trl < (slotAt s 0).txlen ∧ lengthsFit s.cfg (slotAt s 0) = true) ∧
    (queuedWindow.cfg.params.esMax < (slotAt queuedWindow 0).esize ∧ detached queuedWindow 0 = false ∧
      lengthsFit queuedWindow.cfg (slotAt queuedWindow 0) = true) := by
  refine ⟨by decide +kernel, ?_, ?_, by decide +kernel⟩
  · rintro s rfl
    refine ⟨?_, ?_, queueOk_of_check ?_, ?_, ?_⟩ <;> decide +kernel
  · rintro s rfl
    refine ⟨?_, ?_, ?_, queueOk_of_check ?_, ?_, ?_⟩ <;> decide +kernel

theorem witness_ElementsReadBack : Normalised false 3 (b [0, 0xAB, 0xCD, 0xEF]) (b [0xEF, 0xCD, 0xAB]) ∧
    Normalised true 3 (b [0, 0xAB, 0xCD, 0xEF]) (b [0xAB, 0xCD, 0xEF]) ∧ 0 < (b [0, 0xAB, 0xCD, 0xEF]).length / ts 3 ∧
    b [0, 0xAB, 0xCD, 0xEF] = [0xABCDEF].flatMap (fun v => beN v (ts 3)) ∧ ∀ v ∈ [0xABCDEF], v < 256 ^ 3 := by
  unfold Normalised; decide +kernel

theorem witness_EncodeElementsAnswers : 1 ≤ 3 ∧ [0xABCDEF, 0, 16777215][2]? = some 16777215 ∧ 16777215 < 256 ^ 3 ∧ 1 ≤ 2 ∧
    [255, 65535][1]? = some 65535 ∧ 65535 < 256 ^ 2 := by decide

/-! The engine and the whole block. -/

theorem witness_ClearAllReleasesAll :
    (QueueOk (after rd2 headed) ∧ ContainersOk (after rd2 headed) ∧ Canonical (after rd2 headed) ∧
      (after rd2 headed).cfg.params.transport = .rtu ∧ (slotAt (after rd2 headed) 0).inuse = true) ∧
    (QueueOk sentTwo ∧ ContainersOk sentTwo ∧ Canonical sentTwo) := by
  refine ⟨⟨queueOk_of_check ?_, containersOk_of_check ?_, canonical_of_check ?_, ?_, ?_⟩,
    ⟨queueOk_of_check ?_, containersOk_of_check ?_, canonical_of_check ?_⟩⟩ <;> decide +kernel

theorem witness_TickWaits :
    (clearing.cfg.params.transport = .rtu ∧ clearing.eng.state = .bufferClear ∧ clearing.serial ≠ []) ∧
    (∀ s, s = { clearing with serial := [], clockUs := 3645 } →
      s.serial = [] ∧ since s s.nowUs s.eng.idleT < s.cfg.frameToUs) ∧
    (∀ s, s = { clearing with serial := [], clockUs := 3646 } → s.cfg.frameToUs ≤ since s s.nowUs s.eng.idleT) ∧
    (rtu.eng.state = .idle ∧ rtu.q.count = 0) ∧
    (∀ s, s = clock 3 3645 [] (after rd2 rtu) → s.eng.state = .idle ∧ s.q.count ≠ 0 ∧
      since s s.nowUs s.eng.idleT < s.cfg.frameToUs) ∧
    (∀ s, s = clock 3 3646 [] (delays [4] (after rd2 rtu)) → QueueOk s ∧ s.q.count ≠ 0 ∧
      s.cfg.frameToUs ≤ since s s.nowUs s.eng.idleT ∧ ∀ i h, ¬ ReadyAt s i h) := by
  refine ⟨by decide +kernel, ?_, ?_, by decide +kernel, ?_, ?_⟩ <;> rintro s rfl
  · decide +kernel
  · decide +kernel
  · decide +kernel
  · exact ⟨queueOk_of_check (by decide +kernel), by decide +kernel, by decide +kernel, noneReady_of (by decide +kernel)⟩

theorem witness_TickTransmits : ∀ s, (s = clock 4 3646 [] (after rd2 rtu) ∨ s = broadcast) →
    Sound s ∧ s.cfg.params.transport = .rtu ∧ s.eng.state = .idle ∧ s.cfg.frameToUs ≤ since s s.nowUs s.eng.idleT ∧
    Wins s 0 0 ∧ s.cfg.hdr + s.cfg.trl < (slotAt s 0).txlen ∧ (slotAt s 0).winLen = 0 := by
  rintro s (rfl | rfl) <;>
    refine ⟨sound_of_check ?_, ?_, ?_, ?_, wins_of ?_ ?_, ?_, ?_⟩ <;> decide +kernel

theorem witness_TickTransmits_both : readByte (slotAt broadcast 0).tx 0 = 0#8 ∧
    readByte (slotAt (clock 4 3646 [] (after rd2 rtu)) 0).tx 0 ≠ 0#8 := by decide +kernel

/-- What a tick of the waiting engine finds when these bytes arrive. -/
def arriving (us : Nat) (bytes : List Nat) : State := clock (us / 1000) us bytes sent

/-- The number of bytes then received, whether the head and the checksum are right, whether it is an exception. -/
def seen (s : State) (limit : Nat) : Nat × Bool × Bool × Bool :=
  let m := received 0 limit s
  let x := slotAt m 0
  (x.rxlen, decide (readByte x.rx 0 = readByte x.tmpl 0), rtuCrcOk x, decide ((readByte x.rx 1).toNat = 0x83))

theorem witness_TickReceives_waits : ∀ s, s ∈ [arriving 1004000 [], arriving 1003000 [], arriving 10000 [1],
      arriving 10000 [2, 3], arriving 10000 [1, 3, 4], arriving 10000 [1, 3, 4, 0, 1, 0, 2, 0x2A, 0x32],
      arriving 10000 [1, 3, 4, 0, 1, 0, 3, 0x2A, 0x32], arriving 10000 [1, 0x83], arriving 10000 [1, 0x83, 2, 0xC0, 0xF1],
      arriving 10000 [1, 0x83, 2, 0xC0, 0xF2]] →
    WaitsFor s .receive 0 ∧ (slotAt s 0).explen = 9 ∧ (slotAt s 0).exc = false ∧ (slotAt s 0).err = .ok := by
  have h : [arriving 1004000 [], arriving 1003000 [], arriving 10000 [1],
      arriving 10000 [2, 3], arriving 10000 [1, 3, 4], arriving 10000 [1, 3, 4, 0, 1, 0, 2, 0x2A, 0x32],
      arriving 10000 [1, 3, 4, 0, 1, 0, 3, 0x2A, 0x32], arriving 10000 [1, 0x83], arriving 10000 [1, 0x83, 2, 0xC0, 0xF1],
      arriving 10000 [1, 0x83, 2, 0xC0, 0xF2]].all (fun s => soundCheck s && canonicalCheck s &&
        decide (s.cfg.params.transport = .rtu) && decide (s.eng.state = .receive) && decide (s.eng.pending = some 0) &&
        decide (s.cfg.hdr + s.cfg.trl < (slotAt s 0).txlen) && decide ((slotAt s 0).winLen = 0) &&
        decide ((slotAt s 0).explen = 9 ∧ (slotAt s 0).exc = false ∧ (slotAt s 0).err = .ok)) = true := by decide +kernel
  intro s hs
  have := List.all_eq_true.mp h s hs
  rw [Bool.and_eq_true] at this
  exact ⟨waits_of this.1, by simpa using this.2⟩

/-- The cases of the arm on those states: too few bytes (silent at 1000 ms, silent at 999 ms, not silent); a wrong address;
incomplete; complete with a good and with a bad checksum; an exception incomplete, complete good, complete bad. -/
theorem witness_TickReceives_cases :
    (seen (arriving 1004000 []) 9).1 < 2 ∧ Silent 0 9 (arriving 1004000 []) ∧
    since (arriving 1004000 []) (arriving 1004000 []).nowMs (slotAt (arriving 1004000 []) 0).stime = 1000 ∧
    since (arriving 1003000 []) (arriving 1003000 []).nowMs (slotAt (arriving 1003000 []) 0).stime = 999 ∧
    ¬ Silent 0 9 (arriving 10000 [1]) ∧ (seen (arriving 10000 [1]) 9).1 = 1 ∧
    seen (arriving 10000 [2, 3]) 9 = (2, false, false, false) ∧ seen (arriving 10000 [1, 3, 4]) 9 = (3, true, false, false) ∧
    seen (arriving 10000 [1, 3, 4, 0, 1, 0, 2, 0x2A, 0x32]) 9 = (9, true, true, false) ∧
    seen (arriving 10000 [1, 3, 4, 0, 1, 0, 3, 0x2A, 0x32]) 9 = (9, true, false, false) ∧
    seen (arriving 10000 [1, 0x83]) 9 = (2, true, false, true) ∧
    seen (arriving 10000 [1, 0x83, 2, 0xC0, 0xF1]) 9 = (5, true, true, true) ∧
    seen (arriving 10000 [1, 0x83, 2, 0xC0, 0xF2]) 9 = (5, true, false, true) := by
  unfold Silent; decide +kernel

/-- Four bytes of nine received; and the head of an exception. -/
def later (us : Nat) (bytes : List Nat) : State := clock 21 us bytes headed
def flaggedHead : State := clock 21 21000 [2, 0xC0, 0xF1] (after .tick (arriving 20000 [1, 0x83]))

theorem witness_TickCollects :
    WaitsFor (later 21000 [1, 0, 2, 0x2A, 0x32]) .headChecked 0 ∧ WaitsFor (later 21563 []) .headChecked 0 ∧
    WaitsFor flaggedHead .headChecked 0 ∧ (slotAt (later 21563 []) 0).exc = false ∧ (slotAt flaggedHead 0).exc = true ∧
    seen (later 21000 [1, 0, 2, 0x2A, 0x32]) 9 = (9, true, true, false) ∧
    seen (later 21000 [1, 0, 3, 0x2A, 0x32]) 9 = (9, true, false, false) ∧ seen flaggedHead 5 = (5, true, true, true) ∧
    (seen (later 21563 []) 9).1 = 4 ∧ Silent 0 9 (later 21563 []) ∧
    since (later 21563 []) (later 21563 []).nowUs (later 21563 []).eng.byteT = (later 21563 []).cfg.byteToUs ∧
    since (later 21562 []) (later 21562 []).nowUs (later 21562 []).eng.byteT < (later 21562 []).cfg.byteToUs ∧
    ¬ Silent 0 9 (later 21563 [1]) := by
  refine ⟨waits_of ?_, waits_of ?_, waits_of ?_, ?_⟩
  · decide +kernel
  · decide +kernel
  · decide +kernel
  · unfold Silent; decide +kernel

theorem witness_EventsOfOneOperation : ∃ t, exec .tick broadcast = .next t ∧ t.events.length = 4 :=
  ⟨after .tick broadcast, eq_next (by decide +kernel), by decide +kernel⟩

theorem witness_WhoWritesWhat : ∃ t, exec (.sbAdd 0) three = .next t ∧ t.sb ≠ three.sb :=
  ⟨after (.sbAdd 0) three, eq_next (by decide +kernel), by decide +kernel⟩

/-- A free slot, a queued slot, the pending slot, a slot in the SentBuffer. -/
theorem witness_OutOfContractRejected : ¬ LegalParams { Params.default with pduMax := 7 } ∧
    ¬ LegalParams { Params.default with transport := .tcp, sentCap := 0 } ∧ NeedsDetached 3 (.invoke 3) ∧
    3 < rtu.cfg.params.poolCap ∧ detached rtu 3 = false ∧ detached (after rd2 rtu) 0 = false ∧ detached sent 0 = false ∧
    sentTwo.cfg.params.transport = .tcp ∧ detached sentTwo 0 = false ∧ three.cfg.params.transport = .tcp ∧
    detached three 3 = false ∧ (∃ i, i < three.cfg.params.sentCap ∧ cellAt none three.sb i = none) ∧
    rtu.q.count ≠ rtu.cfg.params.queueCap := by
  unfold LegalParams
  refine ⟨by decide, by decide, .invoke, by decide +kernel, by decide +kernel, by decide +kernel, by decide +kernel,
    by decide +kernel, by decide +kernel, by decide +kernel, by decide +kernel, ⟨0, by decide +kernel, by decide +kernel⟩,
    by decide +kernel⟩

theorem witness_OtherTransportRefused : rtu.cfg.params.transport = .rtu ∧ IsTcpOnly (.sbAdd 0) ∧
    tcp.cfg.params.transport = .tcp := ⟨rfl, trivial, by decide +kernel⟩

/-! Invariants of every step: a waiting engine whose next tick ends an attempt with an error. -/

def lastTick : State :=
  { sent with host := [{ bytes := b [0x50, 0], clockMs := 1004, clockUs := 1004000, arrived := [] }] }

def afterTick : State := (nextOf (step lastTick)).getD lastTick

theorem witness_StepKeeps : Sound lastTick ∧ TimesOk lastTick ∧ Canonical lastTick ∧ SetsOk lastTick ∧ WindowsClosed lastTick ∧
    step lastTick = .next afterTick :=
  ⟨sound_of_check (by decide +kernel), timesOk_of_check (by decide +kernel), canonical_of_check (by decide +kernel), setsOk_of_check (by decide +kernel),
    windowsClosed_of_check (by decide +kernel), eq_next (by decide +kernel)⟩

theorem witness_NoDataOnError : lastTick.host ≠ [] ∧ ∃ handler rec, .done handler rec ∈ afterTick.events ∧ rec.err ≠ .ok :=
  ⟨by decide, some 7, { slot := some 0, err := .responseTimeout, fc := 3#8, unit := 1#8, esize := 2, data := [] },
    by decide +kernel, by decide⟩

/-- A sound state waiting for the response to a coil read of slot 0, whose byte count fits as its build left it. -/
def coilSent : State := after .tick (clock 4 4000 [] (after (.rdCoils (.unit 17#8) 19#16 2000 7) rtu))

theorem witness_NoOverrun : Sound lastTick ∧ Sound sentTwo ∧ 253 ≤ rtu.cfg.params.pduMax ∧
    (Sound coilSent ∧ ReadsCoils .tick coilSent 0 ∧ CountFits coilSent 0) :=
  ⟨witness_StepKeeps.1, sound_of_check (by decide +kernel), by decide +kernel, sound_of_check (by decide +kernel),
    .inr (.inr ⟨.inl (by decide +kernel), .inr (.inr ⟨rfl, by decide +kernel⟩)⟩), by unfold CountFits; decide +kernel⟩

end Sys2Proof.Tests
end

section
/-! What `fetch`, the clock and `step` do, and the proof about one step (spec 00 R9, 20 R76). -/

namespace Sys2Proof.Machine

@[simp] theorem fetch_of_host_nil {s : State} (hh : s.host = []) : fetch s = none := by
  simp [fetch, hh]

@[simp] theorem fetch_of_host_cons {s : State} {c : HostCmd} {rest : List HostCmd} (hh : s.host = c :: rest) :
    fetch s = some (c.bytes, { s with host := rest, clockMs := c.clockMs, clockUs := c.clockUs,
                                      serial := s.serial ++ c.arrived, result := .unit, events := [] }) := by
  simp [fetch, hh]

theorem nowMs_eq_mod (s : State) : s.nowMs = s.clockMs % 2 ^ s.cfg.params.wTime := rfl

theorem nowUs_eq_mod (s : State) : s.nowUs = s.clockUs % 2 ^ s.cfg.params.wTime := rfl

theorem step_of_fetch_none {s : State} (hf : fetch s = none) : step s = .next s := by
  simp [step, hf]

theorem step_of_decode_ok {s s' : State} {bytes : List Byte} {i : Instr} (hf : fetch s = some (bytes, s'))
    (hd : decode bytes = .ok i) : step s = exec i s' := by
  simp [step, hf, hd]

theorem step_of_decode_error {s s' : State} {bytes : List Byte} {e : DecodeError} (hf : fetch s = some (bytes, s'))
    (hd : decode bytes = .error e) : step s = .refused (.undecodable e) := by
  simp [step, hf, hd]

end Sys2Proof.Machine

open Sys2Proof Sys2Proof.Machine

/-- Settles O1: `fetch` takes the command off the stream with its clock and its bytes, and `step` is `exec` of what
`decode` makes of it. -/
theorem stepRunsCommand : Obligations.StepRunsCommand := by
  refine ⟨?runs, ?clock, ?noCommand, ?undecodable⟩
  case runs => exact fun s c rest i hh hd => step_of_decode_ok (fetch_of_host_cons hh) hd
  case clock => exact fun s => ⟨nowMs_eq_mod s, nowUs_eq_mod s⟩
  case noCommand => exact fun s hh => step_of_fetch_none (fetch_of_host_nil hh)
  case undecodable => exact fun s c rest e hh hd => step_of_decode_error (fetch_of_host_cons hh) hd

end

section
/-! The state after reset is sound (10 R42), and the operations of the other transport are refused (files 43, 46). -/

namespace Sys2Proof.Machine

open Sys2Proof.Claims

theorem onlyOn_absent {tr : Transport} {s : State} (ht : s.cfg.params.transport ≠ tr) (k : Out) :
    onlyOn tr s k = .refused .absentOperation := if_neg ht

/-- File 43: on another transport than TCP none of its operations exists. -/
theorem exec_tcpOnly_absent {s : State} {i : Instr} (ht : s.cfg.params.transport ≠ .tcp) (hi : IsTcpOnly i) :
    exec i s = .refused .absentOperation := by
  cases i with
  | tcpSetMbap | tcpCheckMbap | tcpPayloadLen | tcpReceive | sbAdd | sbRead | sbReadNextTimeout | tcpFail =>
    exact onlyOn_absent ht _
  | _ => exact hi.elim

end Sys2Proof.Machine

open Sys2Proof Sys2Proof.Machine

/-- Settles O5: each invariant of the reset state by its computation (Laws/Check.lean). -/
theorem resetStateIsSound : Obligations.ResetStateIsSound :=
  ⟨sound_of_check (by decide), timesOk_of_check (by decide), canonical_of_check (by decide), setsOk_of_check (by decide),
    windowsClosed_of_check (by decide)⟩

/-- Settles O55: every one of these operations stands behind `onlyOn`. -/
theorem otherTransportRefused : Obligations.OtherTransportRefused := by
  refine ⟨fun s i ht hi => exec_tcpOnly_absent (by simp [ht]) hi, fun s ht => ?_⟩
  have notRtu : s.cfg.params.transport ≠ .rtu := by simp [ht]
  have absent := onlyOn_absent notRtu
  exact ⟨absent _, fun h => ⟨fun u => absent _, fun len => absent _, absent _, absent _⟩⟩

end

section
/-! What the end of an attempt, a build, a tick and `CLEAR_ALL` leave unchanged of everything but the pool, the queue, the
transaction id and the answer (`offAttempt`), and which operation writes which record (10 R21). -/

namespace Sys2Proof.Machine

open Sys2Proof.Claims

/-! ### The shared operations -/

@[simp] theorem offAttempt_answer (r : Result) (s : State) : offAttempt (answer r s) = offAttempt s := rfl
@[simp] theorem offAttempt_emit (s : State) (e : Event) : offAttempt (emit s e) = offAttempt s := rfl
@[simp] theorem offAttempt_setSlot (s : State) (h : Nat) (x : Slot) : offAttempt (setSlot s h x) = offAttempt s := rfl
@[simp] theorem offAttempt_updSlot (s : State) (h : Nat) (f : Slot → Slot) : offAttempt (updSlot s h f) = offAttempt s := rfl
@[simp] theorem offAttempt_release (h : Nat) (s : State) : offAttempt (release h s) = offAttempt s := rfl

@[simp] theorem offAttempt_heard (n h : Nat) (s : State) : offAttempt (heard n h s) = offAttempt s := by
  unfold heard; split <;> rfl

/-- A state that differs in its queue alone. -/
theorem offAttempt_of_q {s t : State} (hq : { t with q := s.q } = s) : offAttempt t = offAttempt s :=
  (congrArg offAttempt hq :)

theorem qPopReady_frame (s : State) : { (qPopReady s).1 with q := s.q } = s := by
  unfold qPopReady
  split
  · rfl
  · split
    · exact (qPop_frame _ s).trans rfl
    · rfl

@[simp] theorem offAttempt_qPush (o : Option Nat) (s : State) : offAttempt (qPush o s).1 = offAttempt s :=
  offAttempt_of_q (qPush_frame o s)

@[simp] theorem offAttempt_qPop (s : State) : offAttempt (qPop s).1 = offAttempt s := offAttempt_of_q (qPop_q s)

@[simp] theorem offAttempt_qPopReady (s : State) : offAttempt (qPopReady s).1 = offAttempt s :=
  offAttempt_of_q (qPopReady_frame s)

@[simp] theorem offAttempt_releaseAll (hs : List Nat) (s : State) : offAttempt (releaseAll hs s) = offAttempt s :=
  (congrArg offAttempt (releaseAll_eq hs s) :)

@[simp] theorem offAttempt_clearQueue (s : State) : offAttempt (clearQueue s) = offAttempt s :=
  offAttempt_releaseAll _ s

theorem Ended.offAttempt {h : Nat} {s t : State} (E : Ended h s t) : offAttempt t = offAttempt s :=
  (congrArg Claims.offAttempt E.frame :)

@[simp] theorem offAttempt_normalizeSlot (h : Nat) (s : State) : offAttempt (normalizeSlot h s).1 = offAttempt s :=
  (ended_normalize (Ended.refl h s)).offAttempt

/-! ### The ends of an attempt and the builds -/

@[simp] theorem offAttempt_rearmFull (h u : Nat) (s : State) : offAttempt (rearmFull h u s) = offAttempt s := rfl

@[simp] theorem offAttempt_rearmFrame (h u : Nat) (s : State) : offAttempt (rearmFrame h u s) = offAttempt s :=
  (congrArg offAttempt (rearmFrame_frame h u s) :)

@[simp] theorem offAttempt_buildFrame (h : Nat) (t : Target) (hd : Nat) (r : Request) (s : State) :
    offAttempt (buildFrame h t hd r s) = offAttempt s := (congrArg offAttempt (buildFrame_frame h t hd r s) :)

@[simp] theorem offAttempt_rearm (h u : Nat) (s : State) : offAttempt (rearm h u s) = offAttempt s := by
  have pushed := offAttempt_qPush (some h) (rearmFrame h u s)
  simp only [rearm]
  split <;> next he => rw [he] at pushed; simpa using pushed

@[simp] theorem offAttempt_repeatOrRelease (h : Nat) (s : State) : offAttempt (repeatOrRelease h s) = offAttempt s := by
  simp only [repeatOrRelease]
  split
  · split <;> simp
  · rfl

@[simp] theorem offAttempt_complete (h : Nat) (e : Err) (s : State) : offAttempt (complete h e s) = offAttempt s := by
  simp [complete]

@[simp] theorem offAttempt_buildFail (h : Nat) (e : Err) (t : Target) (hd : Nat) (fc : Byte) (s : State) :
    offAttempt (buildFail h e t hd fc s) = offAttempt s := rfl

/-- Every next state of the outcome is `s` but for what an attempt may write. -/
def Quiet (s : State) (o : Out) : Prop := AllNext (fun t => offAttempt t = offAttempt s) o

theorem quiet_ret {s s' : State} (h : offAttempt s' = offAttempt s) (r : Result) : Quiet s (ret r s') := allNext_ret h

theorem quiet_reject (s : State) (r : Reject) : Quiet s (reject r s) := allNext_reject rfl

theorem quiet_raise {h : Nat} {e : Err} {s s' : State} (hs : offAttempt s' = offAttempt s) : Quiet s (raise h e s') :=
  allNext_raise fun _ => (offAttempt_complete h e s').trans hs

theorem quiet_invokeOp {h : Nat} {s s' : State} (hs : offAttempt s' = offAttempt s) : Quiet s (invokeOp h s') := by
  obtain ⟨s1, e, hE, he⟩ := invoke_shape h s'
  rw [he]
  exact quiet_raise (hE.offAttempt.trans hs)

theorem quiet_onlyOn {tr : Transport} {s : State} {k : Out} (hk : Quiet s k) : Quiet s (onlyOn tr s k) :=
  allNext_onlyOn fun _ => hk

theorem quiet_withSlot {h : Nat} {s : State} {k : Out} (hk : Quiet s k) : Quiet s (withSlot h s k) :=
  allNext_withSlot (fun _ => hk) rfl

theorem quiet_withDetached {h : Nat} {s : State} {k : Out} (hk : Quiet s k) : Quiet s (withDetached h s k) :=
  allNext_withDetached (fun _ => hk) rfl

/-- The guards in front of an operation that ends an attempt. -/
theorem quiet_guarded {h : Nat} {s : State} {k : Out} (hk : Quiet s k) :
    Quiet s (withSlot h s (withDetached h s (checked h s k))) :=
  quiet_withSlot (quiet_withDetached (allNext_checked fun _ _ => hk))

theorem quiet_hostArm {h : Nat} {s : State} {reads : Nat → State → List (Nat × Nat × Bool)}
    {a : Nat → State → State × Err} (ha : ∀ s, Ended h s (a h s).1) : Quiet s (hostArm h reads a s) :=
  hostArm_shape ha (fun _ _ _ _ hE => quiet_raise hE.offAttempt) (fun _ => rfl)

theorem quiet_build (t : Target) (hd : Nat) (r : Request) (s : State) : Quiet s (build t hd r s) := by
  unfold build
  split
  · exact quiet_ret rfl _
  · next h _ =>
    refine allNext_ite (fun _ => ?_) (fun _ => quiet_ret rfl _)
    have pushed := offAttempt_qPush (some h) (buildFrame h t hd r s)
    split <;> next he => rw [he] at pushed; exact quiet_ret (by simpa using pushed) _

theorem quiet_tcpReceive (h : Nat) (f : List Byte) (s : State) : Quiet s (tcpReceive h f s) := by
  unfold tcpReceive
  refine allNext_ite (fun _ => quiet_raise rfl) (fun _ => allNext_ite (fun _ => quiet_raise rfl) (fun _ => ?_))
  split
  · exact quiet_raise rfl
  · exact allNext_ite (fun _ => quiet_raise rfl) (fun _ => quiet_invokeOp rfl)

/-! ### A tick (file 46) -/

theorem allNext_withPending {P : State → Prop} {s : State} {k : Nat → Out}
    (hk : ∀ h, s.eng.pending = some h → AllNext P (k h)) : AllNext P (withPending s k) := by
  unfold withPending
  split
  · exact allNext_fault
  · next h hp => exact allNext_checked fun _ _ => hk h hp

/-- R323: what holds after each of the engine's four arms holds after every tick. -/
theorem allNext_execTick {P : State → Prop} {s : State}
    (clear : s.eng.state = .bufferClear → AllNext P (ret .unit (tickBufferClear s)))
    (idle : s.cfg.params.transport = .rtu → s.eng.state = .idle → AllNext P (tickIdle s))
    (receive : ∀ h, s.eng.pending = some h → AllNext P (tickReceive h s))
    (headChecked : ∀ h, s.eng.pending = some h → AllNext P (tickHeadChecked h s)) : AllNext P (execTick s) := by
  refine allNext_onlyOn fun ht => ?_
  cases hst : s.eng.state with
  | bufferClear => exact clear hst
  | idle => exact idle ht hst
  | receive => exact allNext_withPending receive
  | headChecked => exact allNext_withPending headChecked

/-- `P` is kept by every part of a tick, whatever the engine awaits. -/
structure TickKeeps (P : State → Prop) : Prop where
  ans : ∀ r s, P s → P (answer r s)
  clear : ∀ s, P s → P (tickBufferClear s)
  wait : ∀ s, P s → P { s with eng := { s.eng with idleT := elapsed s.cfg s.nowUs s.cfg.frameToUs } }
  popReady : ∀ s, P s → P (qPopReady s).1
  send : ∀ h s, P s → P (sendFrame h s)
  await : ∀ h s, P s → P (awaitReply h s)
  append : ∀ h limit s, P s → P (append h limit s)
  head : ∀ h s, P s → P (headGood h s)
  wrongHead : ∀ h s, P s → P (updSlot s h (fun x => { x with rxlen := 0 }))
  verdict : ∀ h s, P s → P (crcVerdict h s)
  settle : ∀ s, P s → P (settle s)
  raise : ∀ h e s, P s → AllNext P (raise h e s)
  invoke : ∀ h s, P s → AllNext P (invokeOp h s)

namespace TickKeeps

variable {P : State → Prop}

theorem finishFrame (K : TickKeeps P) {h : Nat} {s : State} (hs : P s) : AllNext P (finishFrame h s) :=
  K.invoke h _ (K.settle _ (K.verdict h s hs))

theorem tickIdle (K : TickKeeps P) {s : State} (hs : P s) : AllNext P (tickIdle s) := by
  have popped := K.popReady s hs
  unfold Machine.tickIdle
  refine allNext_ite (fun _ => allNext_ret (K.ans _ _ (K.wait s hs)))
    (fun _ => allNext_ite (fun _ => allNext_ret (K.ans _ s hs)) (fun _ => ?_))
  split
  · next s' he => rw [he] at popped; exact allNext_ret (K.ans _ s' popped)
  · next s' h he =>
    rw [he] at popped
    have sent := K.send h s' popped
    exact allNext_checked fun _ _ => allNext_ite (fun _ => K.raise h _ _ sent)
      (fun _ => allNext_ret (K.ans _ _ (K.await h _ sent)))

theorem tickReceive (K : TickKeeps P) {h : Nat} {s : State} (hs : P s) : AllNext P (tickReceive h s) := by
  have appended := K.append h (slotAt s h).explen s hs
  have good := K.head h _ appended
  unfold Machine.tickReceive
  refine allNext_ite (fun _ => allNext_ite (fun _ => ?_) (fun _ => ?_)) (fun _ => allNext_ite (fun _ => ?_) (fun _ => ?_))
  · exact allNext_ite (fun _ => K.finishFrame good) (fun _ => allNext_ret (K.ans _ _ good))
  · exact K.raise h _ _ (K.settle _ (K.wrongHead h _ appended))
  · exact K.raise h _ _ (K.settle _ appended)
  · exact allNext_ret (K.ans _ _ appended)

theorem tickHeadChecked (K : TickKeeps P) {h : Nat} {s : State} (hs : P s) : AllNext P (tickHeadChecked h s) := by
  have appended := K.append h (needOf (slotAt s h)) s hs
  unfold Machine.tickHeadChecked
  refine allNext_ite (fun _ => K.finishFrame appended) (fun _ => allNext_ite (fun _ => ?_) (fun _ => ?_))
  · exact K.raise h _ _ (K.settle _ appended)
  · exact allNext_ret (K.ans _ _ appended)

/-- What every part of a tick keeps, every tick keeps. -/
theorem execTick (K : TickKeeps P) {s : State} (hs : P s) : AllNext P (execTick s) :=
  allNext_execTick (fun _ => allNext_ret (K.ans _ _ (K.clear s hs))) (fun _ _ => K.tickIdle hs)
    (fun _ _ => K.tickReceive hs) (fun _ _ => K.tickHeadChecked hs)

end TickKeeps

/-- `t` is `s` but for the engine record, the serial source and what an attempt may write. -/
def OnlyLine (s t : State) : Prop := offAttempt t = offAttempt { s with eng := t.eng, serial := t.serial }

theorem OnlyLine.trans {s t u : State} (h1 : OnlyLine s t) (h2 : OnlyLine t u) : OnlyLine s u :=
  Eq.trans h2 (congrArg (fun v : State => { v with eng := u.eng, serial := u.serial }) h1 :)

theorem OnlyLine.of_quiet {s t u : State} (h1 : OnlyLine s t) (h2 : offAttempt u = offAttempt t) : OnlyLine s u := by
  unfold OnlyLine
  rw [show u.eng = t.eng from (congrArg State.eng h2 :), show u.serial = t.serial from (congrArg State.serial h2 :), h2]
  exact h1

theorem onlyLine_append (h limit : Nat) (s : State) : OnlyLine s (append h limit s) := by
  simp only [append]; split <;> rfl

theorem onlyLine_tickBufferClear (s : State) : OnlyLine s (tickBufferClear s) := by
  unfold tickBufferClear
  split
  · split <;> rfl
  · rfl

theorem offAttempt_crcVerdict (h : Nat) (s : State) : offAttempt (crcVerdict h s) = offAttempt s := by
  unfold crcVerdict; split <;> rfl

theorem onlyLine_tickKeeps (s : State) : TickKeeps (OnlyLine s) where
  ans _ _ ht := ht.of_quiet rfl
  clear t ht := ht.trans (onlyLine_tickBufferClear t)
  wait _ ht := ht.trans rfl
  popReady t ht := ht.of_quiet (offAttempt_qPopReady t)
  send _ _ ht := ht.trans rfl
  await _ _ ht := ht.trans rfl
  append h limit t ht := ht.trans (onlyLine_append h limit t)
  head _ _ ht := ht.trans rfl
  wrongHead _ _ ht := ht.of_quiet rfl
  verdict h t ht := ht.of_quiet (offAttempt_crcVerdict h t)
  settle _ ht := ht.trans rfl
  raise _ _ _ ht u hu := ht.of_quiet (quiet_raise rfl u hu)
  invoke _ _ ht u hu := ht.of_quiet (quiet_invokeOp rfl u hu)

/-! ### `CLEAR_ALL` (60 R390) -/

/-- All of a state but the engine record, the SentBuffer and what an attempt may write. -/
def offHolders (s : State) : State := { offAttempt s with eng := State.reset.eng, sb := [] }

theorem offHolders_congr {s t : State} (h : offAttempt t = offAttempt s) : offHolders t = offHolders s :=
  (congrArg (fun u : State => { u with eng := State.reset.eng, sb := [] }) h :)

theorem offHolders_clearContainers (s : State) : offHolders (clearContainers s) = offHolders s := by
  unfold clearContainers
  split
  · exact (offHolders_congr (offAttempt_releaseAll _ s) :)
  · exact (offHolders_congr (offAttempt_releaseAll _ s) :)

theorem offHolders_clearAllOp (s : State) : offHolders (clearAllOp s) = offHolders s := calc
  offHolders (clearAllOp s) = offHolders (clearContainers (clearQueue s)) := offHolders_congr (offAttempt_releaseAll _ _)
  _ = offHolders (clearQueue s) := offHolders_clearContainers _
  _ = offHolders s := offHolders_congr (offAttempt_clearQueue s)

/-! ### Which operation writes which record (R21, R33, R34, R36, R39) -/

/-- `s` with what the operation `i` may write of the records outside an attempt (`offAttempt`) as it is in `t`. -/
def granted (i : Instr) (s t : State) : State :=
  match i with
  | .reset _ => { t with hostSets := s.hostSets, clockMs := s.clockMs, clockUs := s.clockUs, host := s.host }
  | .tick => { s with eng := t.eng, serial := t.serial }
  | .clearAll => { s with eng := t.eng, sb := t.sb }
  | .setBigEndian _ => { s with ctx := t.ctx }
  | .sbAdd _ | .sbRead _ | .sbReadNextTimeout _ => { s with sb := t.sb }
  | .ssSet (.host _) _ | .ssSetRange (.host _) _ _ | .ssRemove (.host _) _ | .ssRemoveRange (.host _) _ _
  | .ssGetNext (.host _) | .ssClear (.host _) | .ssSetDelays (.host _) _ _ => { s with hostSets := t.hostSets }
  | _ => s

/-- Every next state of `o` differs from `s`, outside an attempt, only in what `i` may write. -/
def WritesOnly (i : Instr) (s : State) (o : Out) : Prop := AllNext (fun t => offAttempt t = offAttempt (granted i s t)) o

theorem granted_cfg {i : Instr} {s t : State} (hreset : ∀ p, i ≠ .reset p) : (granted i s t).cfg = s.cfg := by
  unfold granted; split <;> simp_all

theorem granted_eng {i : Instr} {s t : State} (hreset : ∀ p, i ≠ .reset p) (htick : i ≠ .tick) (hclear : i ≠ .clearAll) :
    (granted i s t).eng = s.eng := by
  unfold granted; split <;> simp_all

theorem granted_bigEndian {i : Instr} {s t : State} (hreset : ∀ p, i ≠ .reset p) (hflag : ∀ b, i ≠ .setBigEndian b) :
    (granted i s t).ctx.bigEndian = s.ctx.bigEndian := by
  unfold granted; split <;> simp_all

theorem granted_sb {i : Instr} {s t : State} (hreset : ∀ p, i ≠ .reset p) (hclear : i ≠ .clearAll) (hadd : ∀ h, i ≠ .sbAdd h)
    (hread : ∀ w, i ≠ .sbRead w) (htimeout : ∀ n, i ≠ .sbReadNextTimeout n) : (granted i s t).sb = s.sb := by
  unfold granted; split <;> simp_all

theorem granted_serial {i : Instr} {s t : State} (hreset : ∀ p, i ≠ .reset p) (htick : i ≠ .tick) :
    (granted i s t).serial = s.serial := by
  unfold granted; split <;> simp_all

theorem granted_hostSets {i : Instr} {s t : State} (hset : ∀ k a, i ≠ .ssSet (.host k) a)
    (hsetRange : ∀ k a b, i ≠ .ssSetRange (.host k) a b) (hremove : ∀ k a, i ≠ .ssRemove (.host k) a)
    (hremoveRange : ∀ k a b, i ≠ .ssRemoveRange (.host k) a b) (hnext : ∀ k, i ≠ .ssGetNext (.host k))
    (hclear : ∀ k, i ≠ .ssClear (.host k)) (hdelays : ∀ k a b, i ≠ .ssSetDelays (.host k) a b) :
    (granted i s t).hostSets = s.hostSets := by
  unfold granted; split <;> simp_all

theorem granted_environment (i : Instr) (s t : State) : (granted i s t).clockMs = s.clockMs ∧
    (granted i s t).clockUs = s.clockUs ∧ (granted i s t).host = s.host := by
  unfold granted; split <;> exact ⟨rfl, rfl, rfl⟩

theorem writesOnly_tick (s : State) : WritesOnly .tick s (execTick s) := (onlyLine_tickKeeps s).execTick rfl

theorem writesOnly_clearAll (s : State) : WritesOnly .clearAll s (execClearAll s) :=
  allNext_ret (congrArg (fun t : State => { t with eng := (clearAllOp s).eng, sb := (clearAllOp s).sb })
    (offHolders_clearAllOp s) :)

theorem writesOnly_reset (p : Params) (s : State) : WritesOnly (.reset p) s (execReset p s) :=
  allNext_ite (fun _ => allNext_ret rfl) (fun _ => allNext_reject rfl)

/-- Taking a handle out of the SentBuffer writes the SentBuffer. -/
theorem sbTake_frame (s : State) (p : Nat → Bool) :
    AllNext (fun t => offAttempt t = offAttempt { s with sb := t.sb }) (sbTake s p) := by
  unfold sbTake
  split
  · exact allNext_ret rfl
  · exact allNext_ret rfl

theorem sbAdd_frame (h : Nat) (s : State) :
    AllNext (fun t => offAttempt t = offAttempt { s with sb := t.sb }) (execSbAdd h s) := by
  refine allNext_onlyOn fun _ => ?_
  split
  · exact allNext_ret rfl
  · exact allNext_withSlot (fun _ => allNext_withDetached (fun _ => allNext_ret rfl) rfl) rfl

theorem quiet_ssUpdate (h : Nat) (f : SlaveSet → SlaveSet) (s : State) : Quiet s (ssUpdate (.slot h) f s) :=
  allNext_ite (fun _ => allNext_ret rfl) (fun _ => quiet_reject s _)

theorem ssUpdate_frame (k : Nat) (f : SlaveSet → SlaveSet) (s : State) :
    AllNext (fun t => offAttempt t = offAttempt { s with hostSets := t.hostSets }) (ssUpdate (.host k) f s) :=
  allNext_ite (fun _ => allNext_ret rfl) (fun _ => allNext_reject rfl)

theorem ssGetNext_frame (k : Nat) (s : State) :
    AllNext (fun t => offAttempt t = offAttempt { s with hostSets := t.hostSets }) (execSsGetNext (.host k) s) := by
  unfold execSsGetNext
  exact allNext_ite (fun _ => allNext_ret rfl) (fun _ => allNext_reject rfl)

theorem quiet_ite {c : Prop} [Decidable c] {s : State} {a b : Out} (ha : Quiet s a) (hb : Quiet s b) :
    Quiet s (if c then a else b) := allNext_ite (fun _ => ha) (fun _ => hb)

/-- The operations one by one: most write nothing outside an attempt, the others what `granted` names. -/
theorem exec_writesOnly (i : Instr) (s : State) : WritesOnly i s (exec i s) := by
  have answers := fun r => quiet_ret (s := s) rfl r
  have rejects := quiet_reject s
  cases i with
  | rtuFrame | tcpFrame => exact quiet_ite (answers _) (rejects _)
  | rtuExceptionFrame => exact quiet_ite (rejects _) (answers _)
  | rdCoils | rdDiscrete | rdHolding | rdInput | wrCoil | wrReg | rdExcStatus | diag | wrCoils | wrRegs | maskWr | rwRegs =>
    exact quiet_build _ _ _ s
  | buildRaw => exact quiet_ite (rejects _) (quiet_ret rfl _)
  | rspRdCoils h | rspRdDiscrete h => exact quiet_hostArm (ended_readCheck h)
  | rspRdHolding h | rspRdInput h | rspRwRegs h => exact quiet_hostArm (ended_regs h)
  | rspWrCoil h | rspWrReg h | rspWrCoils h | rspWrRegs h | rspMaskWr h => exact quiet_hostArm fun s => ended_echo h _ s
  | rspRdExcStatus h => exact quiet_hostArm fun s => ended_window h _ 1 s
  | rspDiag h => exact quiet_hostArm (ended_diag h)
  | rspException h => exact quiet_hostArm (ended_exception h)
  | rspWrongFunction h | rspNotSupported h => exact quiet_hostArm fun s => Ended.refl h s
  | rtuSetHead => exact quiet_onlyOn (quiet_withSlot (quiet_ret rfl _))
  | rtuSetCrc => exact quiet_onlyOn (quiet_withSlot (quiet_ite (quiet_ret rfl _) allNext_fault))
  | rtuCheckHead => exact quiet_onlyOn (quiet_withSlot (answers _))
  | rtuCheckCrc => exact quiet_onlyOn (quiet_withSlot (allNext_checked fun _ _ => answers _))
  | crc16 | qPeek | qHasReady | encodeElems => exact answers _
  | tcpSetMbap => exact quiet_onlyOn (quiet_withSlot (quiet_ret (by split <;> rfl) _))
  | tcpCheckMbap h => exact quiet_onlyOn (quiet_withSlot (quiet_ret (offAttempt_heard 7 h s) _))
  | tcpPayloadLen h => exact quiet_onlyOn (quiet_withSlot (quiet_ret (offAttempt_heard 6 h s) _))
  | tcpReceive h f => exact quiet_onlyOn (quiet_guarded (quiet_tcpReceive h f s))
  | tcpFail => exact quiet_onlyOn (quiet_withSlot (quiet_withDetached (quiet_raise rfl)))
  | sbAdd h => exact sbAdd_frame h s
  | sbRead | sbReadNextTimeout => exact allNext_onlyOn fun _ => sbTake_frame s _
  | ssSet r | ssSetRange r | ssRemove r | ssRemoveRange r | ssClear r | ssSetDelays r =>
    simp only [exec, execSsSet, execSsSetRange, execSsRemove, execSsRemoveRange, execSsClear, execSsSetDelays]
    cases r with
    | host k => exact ssUpdate_frame k _ s
    | slot h => exact quiet_ssUpdate h _ s
  | ssGetNext r =>
    cases r with
    | host k => exact ssGetNext_frame k s
    | slot => exact quiet_ite (quiet_ret rfl _) (rejects _)
  | ssPeek => exact quiet_ite (answers _) (rejects _)
  | repeatIfNeeded h => exact quiet_guarded (quiet_ret (offAttempt_repeatOrRelease h s) _)
  | qAdd o =>
    cases o with
    | none => exact answers _
    | some k =>
      exact quiet_ite (answers _) (quiet_withSlot (quiet_withDetached (quiet_ret (offAttempt_qPush (some k) s) _)))
  | qRead => exact quiet_ret (offAttempt_qPop s) _
  | qReadReady => exact quiet_ret (offAttempt_qPopReady s) _
  | qClear => exact quiet_ret (offAttempt_clearQueue s) _
  | tick => exact writesOnly_tick s
  | clearAll => exact writesOnly_clearAll s
  | setBigEndian => exact allNext_ret rfl
  | invoke => exact quiet_guarded (quiet_invokeOp rfl)
  | normalize h =>
    exact quiet_withSlot (allNext_checked fun _ _ => quiet_ite (quiet_ret (offAttempt_normalizeSlot h s) _)
      (quiet_withDetached (quiet_raise (offAttempt_normalizeSlot h s))))
  | reset p => exact writesOnly_reset p s

end Sys2Proof.Machine

open Sys2Proof Sys2Proof.Machine Sys2Proof.Claims

/-- Settles O53: what an operation may write (`granted`) covers all that it changes outside an attempt. -/
theorem whoWritesWhat : Obligations.WhoWritesWhat := by
  intro i s t ht
  have written := exec_writesOnly i s t ht
  have field : ∀ {α : Type} (f : State → α), (∀ u, f (offAttempt u) = f u) → f t = f (granted i s t) := fun f hf => by
    rw [← hf t, ← hf (granted i s t), written]
  obtain ⟨ms, us, host⟩ := granted_environment i s t
  exact ⟨fun hr => (field State.cfg fun _ => rfl).trans (granted_cfg hr),
    fun hr ht hc => (field State.eng fun _ => rfl).trans (granted_eng hr ht hc),
    fun hr hb => (field (fun u => u.ctx.bigEndian) fun _ => rfl).trans (granted_bigEndian hr hb),
    fun hr hc ha hd hn => (field State.sb fun _ => rfl).trans (granted_sb hr hc ha hd hn),
    fun hr ht => (field State.serial fun _ => rfl).trans (granted_serial hr ht),
    fun hset hrange hremove hremoveRange hnext hclear hdelays => (field State.hostSets fun _ => rfl).trans
      (granted_hostSets hset hrange hremove hremoveRange hnext hclear hdelays),
    (field State.clockMs fun _ => rfl).trans ms, (field State.clockUs fun _ => rfl).trans us,
    (field State.host fun _ => rfl).trans host⟩

end

section
/-! Every step keeps the invariant of the block, part 1: what each operation keeps of `Sound` (10 R24, R34, R35, R38). -/

namespace Sys2Proof.Machine

/-! ### A step keeps what every operation keeps -/

/-- What `fetch` changes, and what every operation keeps, gives what every step keeps. -/
theorem step_keeps {P : State → Prop} (K : Keeps P) (fetched : ∀ s s' bytes, fetch s = some (bytes, s') → P s → P s')
    {s t : State} (hs : P s) (ht : step s = .next t) : P t := by
  unfold step at ht
  split at ht
  · cases ht; exact hs
  · next bytes s' hf =>
    split at ht
    · cases ht
    · next i _ => exact exec_keeps K i s' (fetched s s' bytes hf hs) t ht

/-- A command is taken off the stream, the clock sampled, the arrived bytes appended; the block itself stays as it is. -/
theorem fetch_frame {s s' : State} {bytes : List Byte} (hf : fetch s = some (bytes, s')) :
    s'.cfg = s.cfg ∧ s'.pool = s.pool ∧ s'.q = s.q ∧ s'.sb = s.sb ∧ s'.eng = s.eng := by
  unfold fetch at hf
  split at hf
  · cases hf
  · cases hf; exact ⟨rfl, rfl, rfl, rfl, rfl⟩

/-! ### One slot replaced -/

theorem slot_lt {s : State} {h : Nat} (he : slotExists s h = true) : h < s.cfg.params.poolCap := of_decide_eq_true he

theorem below_setSlot {s : State} {n h : Nat} {x : Slot} (hh : h < n) (hp : below n s.pool = true) :
    below n (setSlot s h x).pool = true := below_putCell hh hp

theorem below_updSlot {s : State} {n h : Nat} {f : Slot → Slot} (hh : h < n) (hp : below n s.pool = true) :
    below n (updSlot s h f).pool = true := below_putCell hh hp

/-! ### One container replaced -/

theorem sound_serial {s : State} (l : List Byte) (hs : Sound s) : Sound { s with serial := l } :=
  sound_frame hs rfl rfl rfl rfl rfl

/-- A sound state with another engine record is sound, if that record awaits only a handle it may hold. -/
theorem sound_eng {s : State} {e : Eng} (hs : Sound s)
    (holds : ∀ h, e.pending = some h → Holdable s h ∧ (∀ p, ¬ InQueue s p h) ∧ ∀ i, ¬ InSent s i h)
    (rtu : s.cfg.params.transport = .tcp → e.pending = none)
    (awaiting : e.pending.isSome = true ↔ (e.state = .receive ∨ e.state = .headChecked)) : Sound { s with eng := e } := by
  have hc := hs.containers
  have hb := hs.bounds
  refine ⟨hs.cfg, queueOk_congr (s := s) rfl rfl hs.queue, ?_, ⟨hb.lengths, hb.tx, hb.rx, hb.tmpl, hb.pool, hb.sent⟩⟩
  exact { queueHolds := hc.queueHolds, sentHolds := hc.sentHolds, pendingHolds := fun h hp => (holds h hp).1,
          queueOnce := hc.queueOnce, sentOnce := hc.sentOnce, queueNotSent := hc.queueNotSent,
          queueNotPend := fun p h hq hp => (holds h hp).2.1 p hq, sentNotPend := fun i h hi hp => (holds h hp).2.2 i hi,
          sentTcp := hc.sentTcp, pendingRtu := rtu, awaiting := awaiting }

/-- The engine awaits what it awaited, in whatever state that fits. -/
theorem sound_samePending {s : State} {e : Eng} (hs : Sound s) (hp : e.pending = s.eng.pending)
    (awaiting : e.pending.isSome = true ↔ (e.state = .receive ∨ e.state = .headChecked)) : Sound { s with eng := e } := by
  have hc := hs.containers
  refine sound_eng hs (fun h he => ?_) (fun ht => hp.trans (hc.pendingRtu ht)) awaiting
  have pend : IsPending s h := hp.symm.trans he
  exact ⟨hc.pendingHolds h pend, fun p hq => hc.queueNotPend p h hq pend, fun i hi => hc.sentNotPend i h hi pend⟩

/-- Only the times of the engine change. -/
theorem sound_engTimes {s : State} {e : Eng} (hs : Sound s) (hp : e.pending = s.eng.pending) (hst : e.state = s.eng.state) :
    Sound { s with eng := e } :=
  sound_samePending hs hp (by rw [hp, hst]; exact hs.containers.awaiting)

/-- The engine awaits nothing. -/
theorem sound_noPending {s : State} {e : Eng} (hs : Sound s) (hp : e.pending = none)
    (hst : e.state = .idle ∨ e.state = .bufferClear) : Sound { s with eng := e } := by
  refine sound_eng hs (fun h he => ?_) (fun _ => hp) ?_
  · rw [hp] at he; cases he
  · rcases hst with hst | hst <;> simp [hp, hst]

/-- A sound state with another SentBuffer is sound, if that holds no handle twice and only handles it may hold. -/
theorem sound_sent {s : State} {m : SMap (Option Nat)} (hs : Sound s)
    (holds : ∀ i h, cellAt none m i = some h → Holdable s h ∧ (∀ p, ¬ InQueue s p h) ∧ ¬ IsPending s h)
    (once : ∀ i i' h, cellAt none m i = some h → cellAt none m i' = some h → i = i')
    (tcp : s.cfg.params.transport = .rtu → ∀ i, cellAt none m i = none)
    (hm : below s.cfg.params.sentCap m = true) : Sound { s with sb := m } := by
  have hc := hs.containers
  have hb := hs.bounds
  refine ⟨hs.cfg, queueOk_congr (s := s) rfl rfl hs.queue, ?_, ⟨hb.lengths, hb.tx, hb.rx, hb.tmpl, hb.pool, hm⟩⟩
  exact { queueHolds := hc.queueHolds, sentHolds := fun i h hi => (holds i h hi).1, pendingHolds := hc.pendingHolds,
          queueOnce := hc.queueOnce, sentOnce := once, queueNotSent := fun p i h hq hi => (holds i h hi).2.1 p hq,
          queueNotPend := hc.queueNotPend, sentNotPend := fun i h hi => (holds i h hi).2.2,
          sentTcp := tcp, pendingRtu := hc.pendingRtu, awaiting := hc.awaiting }

/-- A SentBuffer that holds nothing but what it held at the same places. -/
theorem sound_sent_sub {s : State} {m : SMap (Option Nat)} (hs : Sound s)
    (sub : ∀ i h, cellAt none m i = some h → InSent s i h) (hm : below s.cfg.params.sentCap m = true) : Sound { s with sb := m } := by
  have hc := hs.containers
  refine sound_sent hs (fun i h hi => ?_) (fun i i' h hi hi' => hc.sentOnce i i' h (sub i h hi) (sub i' h hi'))
    (fun ht i => ?_) hm
  · exact ⟨hc.sentHolds i h (sub i h hi), fun p hq => hc.queueNotSent p i h hq (sub i h hi), hc.sentNotPend i h (sub i h hi)⟩
  · refine Option.eq_none_iff_forall_ne_some.mpr fun h hi => ?_
    have hn := hc.sentTcp ht i
    rw [show cellAt none s.sb i = some h from sub i h hi] at hn
    cases hn

/-! ### The SentBuffer (R255 to R257) -/

/-- The position that `SB_ADD`, `SB_READ` or `SB_READ_NEXT_TIMEOUT` finds lies in the buffer. -/
theorem sbFind_lt {s : State} {p : Option Nat → Bool} {i : Nat} (hi : sbFind s p = some i) : i < s.cfg.params.sentCap := by
  have found := findFrom_some hi
  omega

theorem sound_sbTake {s : State} {i : Nat} (hs : Sound s) : Sound (sbPut s i none) := by
  refine sound_sent_sub hs (fun j h hj => ?_) (below_putCell_default hs.bounds.sent)
  rw [cellAt_putCell] at hj
  split at hj
  · cases hj
  · exact hj

theorem sound_sbPut {s : State} {h i : Nat} (hs : Sound s) (ht : s.cfg.params.transport = .tcp)
    (hi : i < s.cfg.params.sentCap) (hd : detached s h = true) : Sound (sbPut s i (some h)) := by
  obtain ⟨hh, hin, free⟩ := free_of_detached hd
  have hc := hs.containers
  have read : ∀ j k, cellAt none (putCell none s.sb i (some h)) j = some k → (j = i ∧ k = h) ∨ (k ≠ h ∧ InSent s j k) := by
    intro j k hj
    rw [cellAt_putCell] at hj
    split at hj
    · next e => cases hj; exact .inl ⟨e, rfl⟩
    · exact .inr ⟨fun e => free.sb j (e ▸ hj), hj⟩
  refine sound_sent hs (fun j k hj => ?_) (fun j j' k hj hj' => ?_) (fun hr => by rw [ht] at hr; cases hr)
    (below_putCell hi hs.bounds.sent)
  · rcases read j k hj with ⟨-, rfl⟩ | ⟨-, hk⟩
    · exact ⟨⟨slotExists_of_detached hd, hin⟩, free.q, free.pend⟩
    · exact ⟨hc.sentHolds j k hk, fun p hq => hc.queueNotSent p j k hq hk, hc.sentNotPend j k hk⟩
  · rcases read j k hj with ⟨e, hk⟩ | ⟨hk, old⟩ <;> rcases read j' k hj' with ⟨e', hk'⟩ | ⟨hk', old'⟩
    · rw [e, e']
    · exact absurd hk hk'
    · exact absurd hk' hk
    · exact hc.sentOnce j j' k old old'

/-! ### Builds (R140) -/

theorem firstFailed_ok {l : List (Bool × Err)} (hl : ∀ c ∈ l, c.2 ≠ .ok) (h : firstFailed l = .ok) :
    ∀ c ∈ l, c.1 = true := by
  induction l with
  | nil => simp
  | cons c l ih =>
    obtain ⟨passed, e⟩ := c
    cases passed with
    | false => exact absurd h (hl _ List.mem_cons_self)
    | true =>
      intro c hc
      rcases List.mem_cons.mp hc with rfl | hc
      · rfl
      · exact ih (fun c hc => hl c (List.mem_cons_of_mem _ hc)) h c hc

/-- R146: a request that passes all checks fits the PDU, and so does its response. -/
theorem sizes_of_checkArgs {c : Cfg} {r : Request} (hr : ReqOk r) (h : checkArgs c r = .ok) :
    r.pdu.length ≤ c.params.pduMax ∧ r.pduExplen ≤ c.params.pduMax := by
  have errs : ∀ ck ∈ r.checks ++ [sizeCheck c r], ck.2 ≠ .ok := by
    intro ck hck
    rcases List.mem_append.mp hck with hck | hck
    · exact hr.1 ck hck
    · rw [List.mem_singleton.mp hck]; simp [sizeCheck]
  have passed := firstFailed_ok errs h (sizeCheck c r) (by simp)
  simpa [sizeCheck] using passed

/-- R140 step 2: the slot of a build exists, is not in use and stands in no container. -/
theorem freeSlot_free {s : State} {h : Nat} (hs : Sound s) (hf : freeSlot s = some h) :
    h < s.cfg.params.poolCap ∧ Free h s := by
  obtain ⟨-, hlt, hin, -⟩ := findFrom_some hf
  have hin : (slotAt s h).inuse = false := by simpa using hin
  have unheld : ¬ Holdable s h := fun hh => by rw [hh.2] at hin; cases hin
  have hc := hs.containers
  exact ⟨by omega, fun p hq => unheld (hc.queueHolds p h hq), fun i hi => unheld (hc.sentHolds i h hi),
    fun hp => unheld (hc.pendingHolds h hp)⟩

theorem pre_fillRequest {s : State} {r : Request} {t : Target} {hd : Nat} (hr : ReqOk r)
    (hp : r.pdu.length ≤ s.cfg.params.pduMax) (he : r.pduExplen ≤ s.cfg.params.pduMax) (ss : SlaveSet) :
    Pre s.cfg { fillRequest s.cfg r (allocated s t hd) with ss := ss } := by
  have cap := bufCap_eq s.cfg
  exact { tx := below_writeBytes (by omega) rfl, rx := rfl, tmpl := below_writeBytes (by have := hr.2.2; omega) rfl,
          rxlen := Nat.zero_le _, explen := by show _ + _ + _ ≤ _; omega, win := Nat.zero_le _, t1 := hr.2.1, t7 := hr.2.2 }

theorem buildFrame_inuse (h : Nat) (t : Target) (hd : Nat) (r : Request) (s : State) :
    (slotAt (buildFrame h t hd r s) h).inuse = true := by
  rw [buildFrame_slot, if_pos rfl]
  exact headed_inuse ..

theorem sound_buildFrame {s : State} {h : Nat} {t : Target} {hd : Nat} {r : Request} (hs : Sound s) (hr : ReqOk r)
    (hh : h < s.cfg.params.poolCap) (hf : Free h s) (hp : r.pdu.length ≤ s.cfg.params.pduMax)
    (he : r.pduExplen ≤ s.cfg.params.pduMax) : Sound (buildFrame h t hd r s) := by
  have frame := buildFrame_frame h t hd r s
  refine sound_slot (h := h) hs (congrArg State.cfg frame :) (congrArg State.q frame :) (congrArg State.sb frame :)
    (congrArg State.eng frame :) ?_ (fun k hk => by rw [buildFrame_slot, if_neg hk]) ?_ (.inl hf)
  · simp only [buildFrame, setHeader_eq]
    exact below_updSlot hh (below_updSlot hh (below_setSlot hh hs.bounds.pool))
  · have headedOk := slotOk_headed (tid := tidAfter s) (u := (firstUnit t (targetSet s t)).1) hp
      (pre_fillRequest (t := t) (hd := hd) hr hp he (firstUnit t (targetSet s t)).2)
    rw [buildFrame_slot, if_pos rfl]
    exact ⟨headedOk.fits, headedOk.tx, headedOk.rx, headedOk.tmpl⟩

theorem slotAt_buildFail (h : Nat) (e : Err) (t : Target) (hd : Nat) (fc : Byte) (s : State) (k : Nat) :
    slotAt (buildFail h e t hd fc s) k = if k = h then Slot.cleared else slotAt s k := by
  unfold buildFail
  rw [slotAt_release]
  split
  · rfl
  · next hk => exact slotAt_updSlot_ne s (fun x => { x with err := e }) hk

/-- R149: a build that fails leaves its slot cleared, whatever it had put there. -/
theorem sound_buildFail {s s' : State} {h : Nat} {e : Err} {t : Target} {hd : Nat} {fc : Byte} (hs : Sound s)
    (hh : h < s.cfg.params.poolCap) (hf : Free h s) (hcfg : s'.cfg = s.cfg) (hq : s'.q = s.q) (hsb : s'.sb = s.sb)
    (heng : s'.eng = s.eng) (hp : below s.cfg.params.poolCap s'.pool = true) (hk : ∀ k, k ≠ h → slotAt s' k = slotAt s k) :
    Sound (buildFail h e t hd fc s') := by
  refine sound_slot (h := h) hs hcfg hq hsb heng ?_ (fun k hk' => ?_) ?_ (.inl hf)
  · show below _ (putCell Slot.cleared (updSlot s' h fun x => { x with err := e }).pool h Slot.cleared) = true
    exact below_putCell_default (below_updSlot hh hp)
  · rw [slotAt_buildFail, if_neg hk']
    exact hk k hk'
  · rw [slotAt_buildFail, if_pos rfl]
    exact slotOk_cleared _

theorem sound_build {s : State} {t : Target} {hd : Nat} {r : Request} (hs : Sound s) (hr : ReqOk r) :
    AllNext Sound (build t hd r s) := by
  unfold build
  split
  · exact allNext_ret (sound_ans (sound_emit hs))
  · next h hfree =>
    obtain ⟨hh, hf⟩ := freeSlot_free hs hfree
    refine allNext_ite (fun herr => ?_) (fun _ => allNext_ret (sound_ans ?_))
    · have args : checkArgs s.cfg r = .ok := by
        unfold buildErr at herr
        split at herr
        · exact herr
        · exact absurd herr ‹_›
      obtain ⟨hp, he⟩ := sizes_of_checkArgs hr args
      have frame := buildFrame_frame h t hd r s
      have hcfg : (buildFrame h t hd r s).cfg = s.cfg := (congrArg State.cfg frame :)
      have hfree' : Free h (buildFrame h t hd r s) := free_congr hf (congrArg State.q frame :) (congrArg State.sb frame :)
        (congrArg (fun u : State => u.eng.pending) frame :)
      have built := sound_buildFrame (t := t) (hd := hd) hs hr hh hf hp he
      have pushed := sound_push built hfree' (by rw [hcfg]; exact hh) (buildFrame_inuse h t hd r s)
      split
      · next s' hpush => rw [hpush] at pushed; exact allNext_ret (sound_ans pushed)
      · next s' hpush =>
        have full : (buildFrame h t hd r s).q.count = (buildFrame h t hd r s).cfg.params.queueCap := by
          by_contra hc; rw [qPush_some h hc] at hpush; cases hpush
        rw [qPush_full h full] at hpush
        cases hpush
        exact allNext_ret (sound_ans (sound_buildFail built (by rw [hcfg]; exact hh) hfree' rfl rfl rfl rfl built.bounds.pool
          (fun _ _ => rfl)))
    · exact sound_buildFail hs hh hf rfl rfl rfl rfl (below_setSlot hh hs.bounds.pool) (fun k hk => slotAt_setSlot_ne _ _ hk)

/-! ### What the TCP channel receives (R249) -/

theorem payloadLen_le {c : Cfg} {x : Slot} {n : Nat} (hn : payloadLen c x = some n) : n ≤ c.params.pduMax := by
  simp only [payloadLen] at hn
  split at hn
  · cases hn
  · cases hn; omega

/-- Bytes received at offset `k`, the received length set. -/
theorem slotOk_received {c : Cfg} {x : Slot} {k n : Nat} {bs : List Byte} (hx : SlotOk c x)
    (hb : k + bs.length ≤ c.bufCap) (hn : n ≤ c.bufCap) : SlotOk c { x with rx := writeBytes x.rx k bs, rxlen := n } := by
  obtain ⟨htx, -, hexp, hwin, h1, h7, hframe⟩ := (slotFits_iff _ _).mp hx.fits
  exact ⟨(slotFits_iff _ _).mpr ⟨htx, hn, hexp, hwin, h1, h7, hframe⟩, hx.tx, below_writeBytes hb hx.rx, hx.tmpl⟩

/-- R327, R326: the received bytes forgotten. -/
theorem slotOk_unreceive {c : Cfg} {x : Slot} (hx : SlotOk c x) : SlotOk c { x with rxlen := 0 } :=
  slotOk_received (k := 0) (bs := []) hx (Nat.zero_le _) (Nat.zero_le _)

theorem sound_receive {s : State} {h k n : Nat} {bs : List Byte} (hs : Sound s) (hh : h < s.cfg.params.poolCap)
    (hb : k + bs.length ≤ s.cfg.bufCap) (hn : n ≤ s.cfg.bufCap) :
    Sound (updSlot s h (fun x => { x with rx := writeBytes x.rx k bs, rxlen := n })) :=
  sound_upd _ hs hh (fun x => slotOk_received x hb hn) rfl

theorem sound_tcpReceive {s : State} {h : Nat} {f : List Byte} (hs : Sound s) (hd : detached s h = true)
    (ht : s.cfg.params.transport = .tcp) : AllNext Sound (tcpReceive h f s) := by
  obtain ⟨hh, hin, free⟩ := free_of_detached hd
  obtain ⟨-, -, cap⟩ := tcp_caps ht
  have header : Sound (storeHeader h f s) := sound_receive hs hh (by rw [List.length_take]; omega) (by omega)
  have hin' : (slotAt (storeHeader h f s) h).inuse = true := by simpa [storeHeader] using hin
  have free' : Free h (storeHeader h f s) := free_congr free rfl rfl rfl
  have raises : ∀ e, AllNext Sound (raise h e (storeHeader h f s)) := fun e => sound_raise0 header free' hh hin'
  unfold tcpReceive
  refine allNext_ite (fun _ => sound_raise0 hs free hh hin) (fun _ => allNext_ite (fun _ => raises _) (fun _ => ?_))
  split
  · exact raises _
  · next n hn =>
    refine allNext_ite (fun _ => raises _) (fun hlen => sound_invoke ?_ (free_congr free' rfl rfl rfl) hh ?_)
    · have := payloadLen_le hn
      have hcap : 7 + n ≤ (storeHeader h f s).cfg.bufCap := by
        show 7 + n ≤ s.cfg.bufCap
        rw [cap]
        exact Nat.add_le_add_left this 7
      exact sound_receive header hh (by rw [length_slice (by omega) (by omega)]; omega) hcap
    · simpa [storePayload] using hin'

/-! ### Releasing (R308, R390) -/

/-- `RELEASE` touches the pool alone. -/
theorem releaseAll_pool (l : List Nat) (s : State) :
    releaseAll l s = { s with pool := l.foldl (fun p h => putCell Slot.cleared p h Slot.cleared) s.pool } := by
  induction l generalizing s with
  | nil => rfl
  | cons h l ih => exact ih (release h s)

theorem sound_releaseAll {l : List Nat} {s : State} (hs : Sound s) (hf : ∀ h ∈ l, Free h s) : Sound (releaseAll l s) := by
  induction l generalizing s with
  | nil => exact hs
  | cons h l ih =>
    have first := sound_release hs (hf h List.mem_cons_self)
    exact ih first fun k hk => free_congr (hf k (List.mem_cons_of_mem _ hk)) rfl rfl rfl

/-- `CLEAR_ALL` and `Q_CLEAR` leave the queue like this (R308). -/
def emptyQueue : Queue := { arr := [], head := 0, tail := 0, count := 0 }

theorem sound_emptyQueue {s : State} (hs : Sound s) : Sound { s with q := emptyQueue } :=
  sound_queue hs (queueOk_of_empty hs.queue.cap rfl) rfl List.nodup_nil fun h hm => by cases hm

theorem sound_clearQueue {s : State} (hs : Sound s) : Sound (clearQueue s) := by
  have emptied := sound_emptyQueue hs
  have released : Sound (releaseAll ((qContent s).filterMap id) { s with q := emptyQueue }) := by
    refine sound_releaseAll emptied fun h hm => ?_
    have held : some h ∈ qContent s := by simpa using hm
    exact (free_after hs emptied.queue rfl held (by simp [qContent, emptyQueue])).1
  rw [releaseAll_pool] at released
  unfold clearQueue
  rw [releaseAll_pool]
  exact released

theorem free_of_emptyQueue {s : State} (hq : s.q = emptyQueue) (hsb : ∀ i, cellAt none s.sb i = none)
    (hp : s.eng.pending = none) (h : Nat) : Free h s := by
  refine ⟨fun p hp => ?_, fun i hi => ?_, fun he => ?_⟩
  · unfold InQueue at hp; rw [hq] at hp; cases hp
  · unfold InSent at hi; rw [hsb i] at hi; cases hi
  · unfold IsPending at he; rw [hp] at he; cases he

/-- R390: with the queue emptied, no container holds a handle any more. -/
theorem sound_clearContainers {s : State} (hs : Sound s) (hq : s.q = emptyQueue) :
    Sound (clearContainers s) ∧ ∀ h, Free h (clearContainers s) := by
  unfold clearContainers
  split
  · next ht =>
    have sent : Sound { s with sb := [] } := sound_sent_sub hs (fun i h hi => by cases hi) rfl
    have free : ∀ h, Free h { s with sb := [] } := free_of_emptyQueue hq (fun _ => rfl) (hs.containers.pendingRtu ht)
    have released := sound_releaseAll (l := s.sb.filterMap (fun c => c.2)) sent fun h _ => free h
    rw [releaseAll_pool] at released ⊢
    exact ⟨released, fun h => free_congr (free h) rfl rfl rfl⟩
  · next ht =>
    have idle : Sound { s with eng := { s.eng with pending := none, state := .idle, idleT := s.nowUs } } :=
      sound_noPending hs rfl (.inl rfl)
    have free := free_of_emptyQueue (s := { s with eng := { s.eng with pending := none, state := .idle, idleT := s.nowUs } })
      hq (hs.containers.sentTcp ht) rfl
    have released := sound_releaseAll (l := s.eng.pending.toList) idle fun h _ => free h
    simp only [releaseAll_pool] at released ⊢
    exact ⟨released, fun h => free_congr (free h) rfl rfl rfl⟩

theorem sound_clearAllOp {s : State} (hs : Sound s) : Sound (clearAllOp s) := by
  obtain ⟨cleared, free⟩ := sound_clearContainers (sound_clearQueue hs) rfl
  exact sound_releaseAll cleared fun h _ => free h

/-! ### The engine (R321 to R332) -/

/-- The transaction that the engine awaits stands in no other container (R24, R38). -/
theorem pending_facts {s : State} {h : Nat} (hs : Sound s) (hp : s.eng.pending = some h) :
    h < s.cfg.params.poolCap ∧ (slotAt s h).inuse = true ∧ (∀ p, ¬ InQueue s p h) ∧ ∀ i, ¬ InSent s i h := by
  have hc := hs.containers
  obtain ⟨hex, hin⟩ := hc.pendingHolds h hp
  exact ⟨by simpa [slotExists] using hex, hin, fun p hq => hc.queueNotPend p h hq hp, fun i hi => hc.sentNotPend i h hi hp⟩

theorem pending_none {s : State} (hs : Sound s) (hst : s.eng.state = .idle ∨ s.eng.state = .bufferClear) :
    s.eng.pending = none := by
  have awaiting := hs.containers.awaiting
  cases hp : s.eng.pending with
  | none => rfl
  | some h => rcases hst with hst | hst <;> simp [hp, hst] at awaiting

theorem sound_tickBufferClear {s : State} (hs : Sound s) (hst : s.eng.state = .bufferClear) : Sound (tickBufferClear s) := by
  unfold tickBufferClear
  split
  · split
    · exact sound_noPending hs (pending_none hs (.inr hst)) (.inl rfl)
    · exact hs
  · exact sound_engTimes (sound_serial [] hs) rfl rfl

theorem sound_settle {s : State} {h : Nat} (hs : Sound s) (hp : s.eng.pending = some h) :
    Sound (settle s) ∧ Free h (settle s) := by
  obtain ⟨-, -, hq, hsb⟩ := pending_facts hs hp
  refine ⟨sound_noPending hs rfl ?_, hq, hsb, fun e => by cases e⟩
  unfold restState
  split
  · exact .inl rfl
  · exact .inr rfl

theorem sound_engFail {s : State} {h : Nat} {e : Err} (hs : Sound s) (hp : s.eng.pending = some h) :
    AllNext Sound (engFail h e s) := by
  obtain ⟨hh, hin, -⟩ := pending_facts hs hp
  obtain ⟨settled, free⟩ := sound_settle hs hp
  exact sound_raise0 settled free hh hin

theorem sound_finishFrame {s : State} {h : Nat} (hs : Sound s) (hp : s.eng.pending = some h) :
    AllNext Sound (finishFrame h s) := by
  have verdict : Sound (crcVerdict h s) ∧ (crcVerdict h s).eng = s.eng := by
    unfold crcVerdict
    split
    · exact ⟨hs, rfl⟩
    · exact ⟨sound_upd _ hs (pending_facts hs hp).1 (fun x => ⟨x.fits, x.tx, x.rx, x.tmpl⟩) rfl, rfl⟩
  obtain ⟨sound, heng⟩ := verdict
  have hp' : (crcVerdict h s).eng.pending = some h := by rw [heng, hp]
  obtain ⟨hh, hin, -⟩ := pending_facts sound hp'
  obtain ⟨settled, free⟩ := sound_settle sound hp'
  exact sound_invoke settled free hh hin

theorem sound_append {s : State} {h limit : Nat} (hs : Sound s) (hh : h < s.cfg.params.poolCap)
    (hl : limit ≤ s.cfg.bufCap) : Sound (append h limit s) := by
  have room : (slotAt s h).rxlen + (taken s h limit).length ≤ s.cfg.bufCap := by
    have taken := length_taken h limit s
    have := (hs.bounds.at h).pre.rxlen
    omega
  have stored := sound_serial (s.serial.drop (taken s h limit).length)
    (sound_receive (k := (slotAt s h).rxlen) (bs := taken s h limit) hs hh room room)
  simp only [append]
  split
  · exact stored
  · exact sound_engTimes stored rfl rfl

theorem append_eng (h limit : Nat) (s : State) :
    (append h limit s).eng.pending = s.eng.pending ∧ (append h limit s).eng.state = s.eng.state := by
  simp only [append]
  split <;> exact ⟨rfl, rfl⟩

theorem sound_headGood {s : State} {h : Nat} (hs : Sound s) (hp : s.eng.pending = some h) : Sound (headGood h s) := by
  have flagged : Sound (updSlot s h (fun x => { x with exc := x.exc || isExceptionOf (fcOf s.cfg x) (readByte x.rx 1) })) :=
    sound_upd _ hs (pending_facts hs hp).1 (fun x => ⟨x.fits, x.tx, x.rx, x.tmpl⟩) rfl
  exact sound_samePending flagged rfl (by simp [hp])

theorem sound_tickReceive {s : State} {h : Nat} (hs : Sound s) (hp : s.eng.pending = some h) :
    AllNext Sound (tickReceive h s) := by
  obtain ⟨hh, -⟩ := pending_facts hs hp
  have appended := sound_append hs hh (hs.bounds.at h).pre.explen
  have hp1 : (append h (slotAt s h).explen s).eng.pending = some h := by rw [(append_eng ..).1, hp]
  obtain ⟨hh1, -⟩ := pending_facts appended hp1
  unfold tickReceive
  refine allNext_ite (fun _ => allNext_ite (fun _ => ?_) (fun _ => ?_)) (fun _ => allNext_ite (fun _ => ?_) (fun _ => ?_))
  · have good := sound_headGood appended hp1
    exact allNext_ite (fun _ => sound_finishFrame good hp1) (fun _ => allNext_ret (sound_ans good))
  · exact sound_engFail (sound_upd _ appended hh1 slotOk_unreceive rfl) hp1
  · exact sound_engFail appended hp1
  · exact allNext_ret (sound_ans appended)

theorem needOf_le {s : State} (hs : Sound s) (h : Nat) : needOf (slotAt s h) ≤ s.cfg.bufCap := by
  have := pdu_ge hs
  have := bufCap_eq s.cfg
  unfold needOf
  split
  · omega
  · exact (hs.bounds.at h).pre.explen

theorem sound_tickHeadChecked {s : State} {h : Nat} (hs : Sound s) (hp : s.eng.pending = some h) :
    AllNext Sound (tickHeadChecked h s) := by
  have appended := sound_append hs (pending_facts hs hp).1 (needOf_le hs h)
  have hp1 : (append h (needOf (slotAt s h)) s).eng.pending = some h := by rw [(append_eng ..).1, hp]
  unfold tickHeadChecked
  refine allNext_ite (fun _ => sound_finishFrame appended hp1) (fun _ => allNext_ite (fun _ => ?_) (fun _ => ?_))
  · exact sound_engFail appended hp1
  · exact allNext_ret (sound_ans appended)

theorem sound_sendFrame {s : State} {h : Nat} (hs : Sound s) (hh : h < s.cfg.params.poolCap) : Sound (sendFrame h s) := by
  have begun := sound_emit (e := .txBegin) hs
  have written := sound_emit (e := .serWrite (readBytes (slotAt s h).tx 0 (slotAt s h).txlen)) begun
  have stamped := sound_upd (fun x => { x with stime := s.nowMs }) (sound_emit (e := .txEnd) written) hh
    (fun x => ⟨x.fits, x.tx, x.rx, x.tmpl⟩) rfl
  exact sound_engTimes stamped rfl rfl

theorem sound_awaitReply {s : State} {h : Nat} (hs : Sound s) (ht : s.cfg.params.transport = .rtu)
    (hh : h < s.cfg.params.poolCap) (hf : Free h s) (hin : (slotAt s h).inuse = true) : Sound (awaitReply h s) := by
  have emptied : Sound (updSlot s h (fun x => { x with rxlen := 0, exc := false })) :=
    sound_upd _ hs hh (fun x => ⟨(slotOk_unreceive x).fits, x.tx, x.rx, x.tmpl⟩) rfl
  refine sound_eng emptied (fun k hk => ?_) (fun ht' => by rw [updSlot_cfg, ht] at ht'; cases ht') (by simp)
  cases hk
  exact ⟨⟨decide_eq_true hh, by simpa using hin⟩, hf.q, hf.sb⟩

theorem sound_transmit {s : State} {h : Nat} (hs : Sound s) (ht : s.cfg.params.transport = .rtu)
    (hh : h < s.cfg.params.poolCap) (hf : Free h s) (hin : (slotAt s h).inuse = true) : AllNext Sound (transmit h s) := by
  have sent := sound_sendFrame hs hh
  have free : Free h (sendFrame h s) := free_congr hf rfl rfl rfl
  have hin' : (slotAt (sendFrame h s) h).inuse = true := by rw [slotAt_sendFrame, if_pos rfl]; exact hin
  exact allNext_ite (fun _ => sound_raise0 sent free hh hin')
    (fun _ => allNext_ret (sound_ans (sound_awaitReply sent ht hh free hin')))

theorem sound_tickIdle {s : State} (hs : Sound s) (ht : s.cfg.params.transport = .rtu) : AllNext Sound (tickIdle s) := by
  obtain ⟨popped, winner⟩ := sound_popReady hs
  have hcfg : (qPopReady s).1.cfg = s.cfg := (congrArg State.cfg (qPopReady_frame s) :)
  unfold tickIdle
  refine allNext_ite (fun _ => allNext_ret (sound_ans (sound_engTimes hs rfl rfl)))
    (fun _ => allNext_ite (fun _ => allNext_ret (sound_ans hs)) (fun _ => ?_))
  split
  · next s' he => rw [he] at popped; exact allNext_ret (sound_ans popped)
  · next s' h he =>
    rw [he] at popped winner hcfg
    obtain ⟨free, hh, hin⟩ := winner h rfl
    exact allNext_checked fun _ _ => sound_transmit popped (by rw [hcfg]; exact ht) hh free hin

theorem sound_execTick {s : State} (hs : Sound s) : AllNext Sound (execTick s) :=
  allNext_execTick (fun hst => allNext_ret (sound_ans (sound_tickBufferClear hs hst))) (fun ht _ => sound_tickIdle hs ht)
    (fun _ hp => sound_tickReceive hs hp) (fun _ hp => sound_tickHeadChecked hs hp)

/-! ### `RESET` (R410) and every operation -/

theorem sound_resetWith {s : State} {p : Params} (hl : legal p = true) : Sound (resetWith p s) := by
  have cap : 0 < p.queueCap := by simp only [legal, Bool.and_eq_true, decide_eq_true_eq] at hl; omega
  have free := free_of_emptyQueue (s := resetWith p s) rfl (fun _ => rfl) rfl
  refine ⟨⟨hl, rfl⟩, queueOk_of_empty cap rfl, ?_, ?_⟩
  · exact { queueHolds := fun q h hq => absurd hq ((free h).q q), sentHolds := fun i h hi => absurd hi ((free h).sb i),
            pendingHolds := fun h hp => absurd hp (free h).pend, queueOnce := fun q _ h hq => absurd hq ((free h).q q),
            sentOnce := fun i _ h hi => absurd hi ((free h).sb i), queueNotSent := fun q _ h hq => absurd hq ((free h).q q),
            queueNotPend := fun q h hq => absurd hq ((free h).q q), sentNotPend := fun i h hi => absurd hi ((free h).sb i),
            sentTcp := fun _ _ => rfl, pendingRtu := fun _ => rfl, awaiting := by simp [resetWith] }
  · have cleared := slotOk_cleared (cfgOf p)
    exact ⟨fun _ => cleared.fits, fun _ => cleared.tx, fun _ => cleared.rx, fun _ => cleared.tmpl, rfl, rfl⟩

theorem sound_normalizeSlot {s : State} {h : Nat} (hs : Sound s) (hh : h < s.cfg.params.poolCap)
    (hn : (normalizeSlot h s).2 = .ok) : Sound (normalizeSlot h s).1 := by
  have hok : normalErr s.cfg (slotAt s h) = .ok := by
    by_contra hbad
    rw [normalize_bad hbad] at hn
    exact hbad hn
  have hb := hs.bounds.at h
  have normal : SlotOk s.cfg (normalSlot s.ctx.bigEndian s.freeCount (slotAt s h)) :=
    ⟨fits_normalSlot _ _ hb.fits, hb.tx, below_normal hb.rx hb.pre.win, hb.tmpl⟩
  have written : Sound (setSlot s h (normalSlot s.ctx.bigEndian s.freeCount (slotAt s h))) := sound_set hs hh normal (.inr rfl)
  rw [normalize_ok hok]
  exact sound_frame written rfl rfl rfl rfl rfl

theorem sound_setSs {s : State} {r : SsRef} {x : SlaveSet} (hs : Sound s) (he : ssExists s r = true) :
    Sound (setSs s r x) := by
  cases r with
  | host k => exact sound_frame hs rfl rfl rfl rfl rfl
  | slot h =>
    exact sound_upd (fun y => { y with ss := x }) hs (slot_lt he) (fun y => ⟨y.fits, y.tx, y.rx, y.tmpl⟩) rfl

theorem sound_tcpSetMbap {s : State} {h : Nat} {u : Byte} {len : Nat} (hs : Sound s) (hh : h < s.cfg.params.poolCap)
    (ht : s.cfg.params.transport = .tcp) (hl : 7 + len ≤ s.cfg.bufCap) : Sound (tcpSetMbap h u len s) := by
  have counted : Sound { s with ctx := { s.ctx with tid := s.ctx.tid + 1#16 } } := sound_frame hs rfl rfl rfl rfl rfl
  exact sound_upd _ counted hh (fun x => slotOk_tcpHead (s := s) ht hl x.pre) rfl

theorem sound_tcpSetMbapLong {s : State} {h : Nat} {u : Byte} {len : Nat} (hs : Sound s) (hh : h < s.cfg.params.poolCap)
    (ht : s.cfg.params.transport = .tcp) : Sound (tcpSetMbapLong h u len s) := by
  have counted : Sound { s with ctx := { s.ctx with tid := s.ctx.tid + 1#16 }, freeCount := s.freeCount + 1 } :=
    sound_frame hs rfl rfl rfl rfl rfl
  have short := Nat.mod_lt (Config.freeLength s.freeCount len) (Nat.succ_pos s.cfg.params.pduMax)
  rw [tcpSetMbapLong_eq]
  exact sound_upd _ counted hh (fun x => slotOk_tcpHeadLong (s := s) ht (Nat.le_of_lt_succ short) x.pre) rfl

/-- Every operation keeps the invariant of the block. -/
theorem keeps_sound : Keeps Sound where
  ans _ _ hs := sound_ans hs
  noSlot _ _ _ _ _ hs := sound_emit hs
  build _ _ _ _ hs hr := sound_build hs hr
  attempt h s s' e hs hd _ hr := by
    obtain ⟨hh, hin, free⟩ := free_of_detached hd
    exact sound_raise hs (off_resp hs hh hr) free hh hin
  fill _ _ hs he := sound_fill hs (slot_lt he)
  fail h s e hs hd := by
    obtain ⟨hh, hin, free⟩ := free_of_detached hd
    exact sound_raise0 hs free hh hin
  head _ _ _ hs he ht := sound_upd _ hs (slot_lt he) (slotOk_rtuHead ht) rfl
  crc _ _ _ hs he ht hl := sound_upd _ hs (slot_lt he) (fun x => slotOk_rtuCrc ht hl x.pre) rfl
  mbap _ _ _ _ hs he ht hl := sound_tcpSetMbap hs (slot_lt he) ht hl
  mbapLong _ _ _ _ hs he ht := sound_tcpSetMbapLong hs (slot_lt he) ht
  receive _ _ _ hs hd ht _ := sound_tcpReceive hs hd ht
  sbAdd _ _ _ hs ht hi hd := sound_upd _ (sound_sbPut hs ht (sbFind_lt hi) hd) (free_of_detached hd).1
    (fun x => ⟨x.fits, x.tx, x.rx, x.tmpl⟩) rfl
  sbTake _ _ _ hs _ _ := sound_sbTake hs
  sets _ _ _ hs he _ := sound_setSs hs he
  rep h s hs hd _ := by
    obtain ⟨hh, hin, free⟩ := free_of_detached hd
    exact sound_repeat hs free hh hin
  push k s hs _ hd := by
    obtain ⟨hh, hin, free⟩ := free_of_detached hd
    exact sound_push hs free hh hin
  pop _ hs := sound_pop hs
  popReady _ hs := (sound_popReady hs).1
  qClear _ hs := sound_clearQueue hs
  tick _ hs := sound_execTick hs
  clear _ hs := sound_clearAllOp hs
  be _ _ hs := sound_frame hs rfl rfl rfl rfl rfl
  norm _ _ hs he _ hn := sound_normalizeSlot hs (slot_lt he) hn
  reset _ _ _ hl := sound_resetWith hl

theorem sound_fetch {s s' : State} {bytes : List Byte} (hf : fetch s = some (bytes, s')) (hs : Sound s) : Sound s' := by
  obtain ⟨hcfg, hpool, hq, hsb, heng⟩ := fetch_frame hf
  exact sound_frame hs hcfg hq hsb heng hpool

end Sys2Proof.Machine
end

section
/-! Every step keeps the invariant of the block, part 2: what each operation keeps of `TimesOk` (00 R7, R14), and the
statement about a step. -/

namespace Sys2Proof.Machine

/-! ### One slot or the engine record replaced -/

/-- One slot's part of `TimesOk`. -/
def SlotTimes (c : Cfg) (x : Slot) : Prop := x.qtime < c.span ∧ x.stime < c.span ∧ ∀ d, x.delay = .ms d → d < c.span

/-- The clock is read in `W_TIME` bits whatever it is; the engine record and the slots are what the invariant asks for. -/
theorem timesOk_iff {s : State} :
    TimesOk s ↔ (s.eng.idleT < s.cfg.span ∧ s.eng.byteT < s.cfg.span) ∧ ∀ k, SlotTimes s.cfg (slotAt s k) := by
  constructor
  · exact fun hs => ⟨hs.engine, fun k => ⟨(hs.slots k).1, (hs.slots k).2, hs.delays k⟩⟩
  · exact fun ⟨he, hk⟩ => ⟨⟨stamp_lt _ _, stamp_lt _ _⟩, he, fun k => ⟨(hk k).1, (hk k).2.1⟩, fun k => (hk k).2.2⟩

theorem TimesOk.at {s : State} (hs : TimesOk s) (k : Nat) : SlotTimes s.cfg (slotAt s k) := (timesOk_iff.mp hs).2 k

theorem nowMs_lt (s : State) : s.nowMs < s.cfg.span := stamp_lt _ _

theorem nowUs_lt (s : State) : s.nowUs < s.cfg.span := stamp_lt _ _

theorem slotTimes_cleared (c : Cfg) : SlotTimes c Slot.cleared :=
  ⟨span_pos c, span_pos c, fun d hd => by cases hd; exact span_pos c⟩

theorem times_slot {s t : State} {h : Nat} (hs : TimesOk s) (hcfg : t.cfg = s.cfg) (heng : t.eng = s.eng)
    (hk : ∀ k, k ≠ h → slotAt t k = slotAt s k) (hx : SlotTimes s.cfg (slotAt t h)) : TimesOk t := by
  refine timesOk_iff.mpr ⟨by rw [hcfg, heng]; exact hs.engine, fun k => ?_⟩
  rw [hcfg]
  by_cases e : k = h
  · rw [e]; exact hx
  · rw [hk k e]; exact hs.at k

theorem times_frame {s t : State} (hs : TimesOk s) (hcfg : t.cfg = s.cfg) (heng : t.eng = s.eng) (hp : t.pool = s.pool) :
    TimesOk t :=
  times_slot (h := 0) hs hcfg heng (fun k _ => slotAt_congr hp k) (by rw [slotAt_congr hp]; exact hs.at 0)

theorem times_set {s : State} {h : Nat} {x : Slot} (hs : TimesOk s) (hx : SlotTimes s.cfg x) : TimesOk (setSlot s h x) :=
  times_slot (h := h) hs rfl rfl (fun _ hk => slotAt_setSlot_ne _ _ hk) (by simpa using hx)

theorem times_upd {s : State} {h : Nat} (f : Slot → Slot) (hs : TimesOk s)
    (hf : SlotTimes s.cfg (slotAt s h) → SlotTimes s.cfg (f (slotAt s h))) : TimesOk (updSlot s h f) :=
  times_set hs (hf (hs.at h))

theorem times_release {s : State} {h : Nat} (hs : TimesOk s) : TimesOk (release h s) := times_set hs (slotTimes_cleared _)

theorem times_releaseAll {l : List Nat} {s : State} (hs : TimesOk s) : TimesOk (releaseAll l s) := by
  induction l generalizing s with
  | nil => exact hs
  | cons h l ih => exact ih (times_release hs)

theorem times_eng {s : State} {e : Eng} (hs : TimesOk s) (hi : e.idleT < s.cfg.span) (hb : e.byteT < s.cfg.span) :
    TimesOk { s with eng := e } := timesOk_iff.mpr ⟨⟨hi, hb⟩, hs.at⟩

theorem times_answer {s : State} {r : Result} (hs : TimesOk s) : TimesOk (answer r s) := times_frame hs rfl rfl rfl

theorem times_emit {s : State} {e : Event} (hs : TimesOk s) : TimesOk (emit s e) := times_frame hs rfl rfl rfl

/-- A state that differs in its queue alone. -/
theorem times_of_q {s t : State} (hs : TimesOk s) (hq : { t with q := s.q } = s) : TimesOk t :=
  times_frame hs (congrArg State.cfg hq :) (congrArg State.eng hq :) (congrArg State.pool hq :)

/-! ### The ends of an attempt (R282 to R284, R384) -/

theorem slotTimes_headed {c : Cfg} {tr : Transport} {tid : Half} {u : Byte} {len : Nat} {x : Slot} (hx : SlotTimes c x) :
    SlotTimes c (headed tr tid u len x) := by
  cases tr <;> exact hx

theorem times_rearmFrame {s : State} {h u : Nat} (hs : TimesOk s) : TimesOk (rearmFrame h u s) := by
  have frame := rearmFrame_frame h u s
  refine times_slot (h := h) hs (congrArg State.cfg frame :) (congrArg State.eng frame :)
    (fun k hk => by rw [rearmFrame_slot, if_neg hk]) ?_
  have kept : SlotTimes s.cfg (rearmed (slotAt s h)) := hs.at h
  rw [rearmFrame_slot, if_pos rfl]
  exact ⟨nowMs_lt s, (slotTimes_headed kept).2⟩

theorem times_rearm {s : State} {h u : Nat} (hs : TimesOk s) : TimesOk (rearm h u s) := by
  have pushed := times_of_q (times_rearmFrame (h := h) (u := u) hs) (qPush_frame (some h) _)
  simp only [rearm]
  split
  · next he => rw [he] at pushed; exact pushed
  · next he =>
    rw [he] at pushed
    exact times_release (times_emit (times_upd _ pushed fun hx => hx))

/-- R284, log 8: a delay that a slot holds as a number has `W_TIME` bits. -/
theorem delayOf_lt {c : Cfg} {n d : Nat} (hd : delayOf c n = .ms d) : d < c.span := by
  unfold delayOf at hd
  split at hd
  · cases hd; assumption
  · cases hd

theorem times_repeatOrRelease {s : State} {h : Nat} (hs : TimesOk s) : TimesOk (repeatOrRelease h s) := by
  simp only [repeatOrRelease]
  split
  · split
    · exact times_release hs
    · exact times_rearm (times_set hs ⟨(hs.at h).1, (hs.at h).2.1, fun _ hd => delayOf_lt hd⟩)
  · exact times_release hs

theorem times_raise {s : State} {h : Nat} {e : Err} (hs : TimesOk s) : AllNext TimesOk (raise h e s) := by
  have failed : TimesOk (updSlot s h (fun x => { x with err := e })) := times_upd _ hs fun hx => hx
  exact allNext_raise fun _ => times_answer (times_repeatOrRelease (times_emit failed))

theorem times_ended {h : Nat} {s t : State} (E : Ended h s t) (hs : TimesOk s) : TimesOk t := by
  have eng : t.eng = s.eng := (congrArg State.eng E.frame :)
  have qtime : (slotAt t h).qtime = (slotAt s h).qtime := (congrArg Slot.qtime E.slot :)
  have stime : (slotAt t h).stime = (slotAt s h).stime := (congrArg Slot.stime E.slot :)
  have delay : (slotAt t h).delay = (slotAt s h).delay := (congrArg Slot.delay E.slot :)
  refine times_slot hs E.cfg eng E.slots ?_
  unfold SlotTimes
  rw [qtime, stime, delay]
  exact hs.at h

theorem times_invokeOp {s : State} {h : Nat} (hs : TimesOk s) : AllNext TimesOk (invokeOp h s) := by
  obtain ⟨s', e, E, he⟩ := invoke_shape h s
  rw [he]
  exact times_raise (times_ended E hs)

/-- Each of the ends of an attempt changes the reply fields of its slot alone. -/
theorem ended_resp {h : Nat} {s : State} {p : State × Err} (hr : Resp h s p) : Ended h s p.1 := by
  cases hr with
  | refl => exact Ended.refl h s
  | window o l => exact ended_window h o l s
  | noWin => exact ended_noWindow h s
  | exc => exact ended_window h 0 0 s
  | norm => exact ended_normalize (Ended.refl h s)
  | winNorm o l => exact ended_normalize (ended_window h o l s)

theorem times_tcpReceive {s : State} {h : Nat} {f : List Byte} (hs : TimesOk s) : AllNext TimesOk (tcpReceive h f s) := by
  have header : TimesOk (storeHeader h f s) := times_upd _ hs fun hx => hx
  unfold tcpReceive
  refine allNext_ite (fun _ => times_raise hs) (fun _ => allNext_ite (fun _ => times_raise header) (fun _ => ?_))
  split
  · exact times_raise header
  · exact allNext_ite (fun _ => times_raise header) (fun _ => times_invokeOp (times_upd _ header fun hx => hx))

/-! ### Builds (R140) -/

theorem times_buildFrame {s : State} {h : Nat} {t : Target} {hd : Nat} {r : Request} (hs : TimesOk s) :
    TimesOk (buildFrame h t hd r s) := by
  have frame := buildFrame_frame h t hd r s
  refine times_slot (h := h) hs (congrArg State.cfg frame :) (congrArg State.eng frame :)
    (fun k hk => by rw [buildFrame_slot, if_neg hk]) ?_
  have fresh : SlotTimes s.cfg { fillRequest s.cfg r (allocated s t hd) with ss := (firstUnit t (targetSet s t)).2 } :=
    slotTimes_cleared _
  rw [buildFrame_slot, if_pos rfl]
  exact ⟨nowMs_lt s, (slotTimes_headed fresh).2.1, fun d hd => by cases hd; exact span_pos _⟩

theorem times_buildFail {s : State} {h : Nat} {e : Err} {t : Target} {hd : Nat} {fc : Byte} (hs : TimesOk s) :
    TimesOk (buildFail h e t hd fc s) := times_release (times_emit (times_upd _ hs fun hx => hx))

theorem times_build {s : State} {t : Target} {hd : Nat} {r : Request} (hs : TimesOk s) :
    AllNext TimesOk (build t hd r s) := by
  unfold build
  split
  · exact allNext_ret (times_answer (times_emit hs))
  · next h _ =>
    have fresh : SlotTimes s.cfg (allocated s t hd) := slotTimes_cleared _
    refine allNext_ite (fun _ => ?_) (fun _ => allNext_ret (times_answer (times_buildFail (times_set hs fresh))))
    have pushed := times_of_q (times_buildFrame (h := h) (t := t) (hd := hd) (r := r) hs) (qPush_frame (some h) _)
    split
    · next he => rw [he] at pushed; exact allNext_ret (times_answer pushed)
    · next he => rw [he] at pushed; exact allNext_ret (times_answer (times_buildFail pushed))

/-! ### The engine (file 46), `CLEAR_ALL` and `RESET` -/

theorem times_serial {s : State} (l : List Byte) (hs : TimesOk s) : TimesOk { s with serial := l } :=
  times_frame hs rfl rfl rfl

theorem times_tickBufferClear {s : State} (hs : TimesOk s) : TimesOk (tickBufferClear s) := by
  unfold tickBufferClear
  split
  · split
    · exact times_eng hs hs.engine.1 hs.engine.2
    · exact hs
  · exact times_eng (times_serial [] hs) (nowUs_lt s) hs.engine.2

theorem times_append {s : State} {h limit : Nat} (hs : TimesOk s) : TimesOk (append h limit s) := by
  have stored := times_upd (h := h) (fun x => { x with rx := writeBytes x.rx x.rxlen (taken s h limit),
                                                       rxlen := x.rxlen + (taken s h limit).length }) hs fun hx => hx
  have read := times_serial (s.serial.drop (taken s h limit).length) stored
  simp only [append]
  split
  · exact read
  · exact times_eng read (nowUs_lt s) (nowUs_lt s)

theorem times_crcVerdict {s : State} {h : Nat} (hs : TimesOk s) : TimesOk (crcVerdict h s) := by
  unfold crcVerdict
  split
  · exact hs
  · exact times_upd _ hs fun hx => hx

theorem times_headGood {s : State} {h : Nat} (hs : TimesOk s) : TimesOk (headGood h s) := by
  have flagged : TimesOk (updSlot s h (fun x => { x with exc := x.exc || isExceptionOf (fcOf s.cfg x) (readByte x.rx 1) })) :=
    times_upd _ hs fun hx => hx
  exact times_eng flagged hs.engine.1 hs.engine.2

theorem times_sendFrame {s : State} {h : Nat} (hs : TimesOk s) : TimesOk (sendFrame h s) := by
  have begun := times_emit (e := .txBegin) hs
  have written := times_emit (e := .serWrite (readBytes (slotAt s h).tx 0 (slotAt s h).txlen)) begun
  have stamped := times_upd (h := h) (fun x => { x with stime := s.nowMs }) (times_emit (e := .txEnd) written)
    fun hx => ⟨hx.1, nowMs_lt s, hx.2.2⟩
  exact times_eng stamped (nowUs_lt s) hs.engine.2

theorem times_awaitReply {s : State} {h : Nat} (hs : TimesOk s) : TimesOk (awaitReply h s) := by
  have emptied := times_upd (h := h) (fun x => { x with rxlen := 0, exc := false }) hs fun hx => hx
  exact times_eng emptied hs.engine.1 (nowUs_lt s)

theorem times_tickKeeps : TickKeeps TimesOk where
  ans _ _ hs := times_answer hs
  clear _ hs := times_tickBufferClear hs
  wait _ hs := times_eng hs (elapsed_lt _ _ _) hs.engine.2
  popReady s hs := times_of_q hs (qPopReady_frame s)
  send _ _ hs := times_sendFrame hs
  await _ _ hs := times_awaitReply hs
  append _ _ _ hs := times_append hs
  head _ _ hs := times_headGood hs
  wrongHead _ _ hs := times_upd _ hs fun hx => hx
  verdict _ _ hs := times_crcVerdict hs
  settle s hs := times_eng hs (nowUs_lt s) hs.engine.2
  raise _ _ _ hs := times_raise hs
  invoke _ _ hs := times_invokeOp hs

theorem times_clearQueue {s : State} (hs : TimesOk s) : TimesOk (clearQueue s) :=
  times_frame (times_releaseAll (l := (qContent s).filterMap id) hs) rfl rfl rfl

theorem times_clearContainers {s : State} (hs : TimesOk s) : TimesOk (clearContainers s) := by
  unfold clearContainers
  split
  · exact times_frame (times_releaseAll (l := s.sb.filterMap (fun c => c.2)) hs) rfl rfl rfl
  · have released := times_releaseAll (l := s.eng.pending.toList) hs
    exact times_eng released (nowUs_lt _) released.engine.2

theorem times_resetWith (p : Params) (s : State) : TimesOk (resetWith p s) :=
  timesOk_iff.mpr ⟨⟨stamp_lt _ _, stamp_lt _ _⟩, fun _ => slotTimes_cleared _⟩

/-! ### Every operation -/

theorem times_setSs {s : State} {r : SsRef} {x : SlaveSet} (hs : TimesOk s) : TimesOk (setSs s r x) := by
  cases r with
  | host k => exact times_frame hs rfl rfl rfl
  | slot h => exact times_upd (fun y => { y with ss := x }) hs fun hy => hy

theorem times_tcpSetMbap {s : State} {h : Nat} {u : Byte} {len : Nat} (hs : TimesOk s) : TimesOk (tcpSetMbap h u len s) := by
  have counted : TimesOk { s with ctx := { s.ctx with tid := s.ctx.tid + 1#16 } } := times_frame hs rfl rfl rfl
  exact times_upd _ counted fun hx => hx

theorem times_tcpSetMbapLong {s : State} {h : Nat} {u : Byte} {len : Nat} (hs : TimesOk s) :
    TimesOk (tcpSetMbapLong h u len s) := by
  have counted : TimesOk { s with ctx := { s.ctx with tid := s.ctx.tid + 1#16 }, freeCount := s.freeCount + 1 } :=
    times_frame hs rfl rfl rfl
  rw [tcpSetMbapLong_eq]
  exact times_upd _ counted fun hx => hx

theorem times_sbAdd {s : State} {h i : Nat} (hs : TimesOk s) :
    TimesOk (updSlot (sbPut s i (some h)) h (fun x => { x with stime := s.nowMs })) := by
  have put : TimesOk (sbPut s i (some h)) := times_frame hs rfl rfl rfl
  exact times_upd _ put fun hx => ⟨hx.1, nowMs_lt s, hx.2.2⟩

/-- Every operation keeps every time a value of `W_TIME` bits. -/
theorem keeps_times : Keeps TimesOk where
  ans _ _ hs := times_answer hs
  noSlot _ _ _ _ _ hs := times_emit hs
  build _ _ _ _ hs _ := times_build hs
  attempt _ _ _ _ hs _ _ hr := times_raise (times_ended (ended_resp hr) hs)
  fill h s hs _ := times_ended (ended_unreceived h s) hs
  fail _ _ _ hs _ := times_raise hs
  head _ _ _ hs _ _ := times_upd _ hs fun hx => hx
  crc _ _ _ hs _ _ _ := times_upd _ hs fun hx => hx
  mbap _ _ _ _ hs _ _ _ := times_tcpSetMbap hs
  mbapLong _ _ _ _ hs _ _ := times_tcpSetMbapLong hs
  receive _ _ _ hs _ _ _ := times_tcpReceive hs
  sbAdd _ _ _ hs _ _ _ := times_sbAdd hs
  sbTake _ _ _ hs _ _ := times_frame hs rfl rfl rfl
  sets _ _ _ hs _ _ := times_setSs hs
  rep _ _ hs _ _ := times_repeatOrRelease hs
  push _ s hs _ _ := times_of_q hs (qPush_frame _ s)
  pop s hs := times_of_q hs (qPop_q s)
  popReady s hs := times_of_q hs (qPopReady_frame s)
  qClear _ hs := times_clearQueue hs
  tick _ hs := times_tickKeeps.execTick hs
  clear _ hs := times_releaseAll (times_clearContainers (times_clearQueue hs))
  be _ _ hs := times_frame hs rfl rfl rfl
  norm h s hs _ _ _ := times_ended (ended_normalize (Ended.refl h s)) hs
  reset p s _ _ := times_resetWith p s

theorem times_fetch {s s' : State} {bytes : List Byte} (hf : fetch s = some (bytes, s')) (hs : TimesOk s) : TimesOk s' := by
  obtain ⟨hcfg, hpool, -, -, heng⟩ := fetch_frame hf
  exact times_frame hs hcfg heng hpool

end Sys2Proof.Machine

open Sys2Proof Sys2Proof.Machine

/-- Settles O56: every operation keeps either invariant, and so does taking the command off the stream. -/
theorem stepKeepsInvariant : Obligations.StepKeepsInvariant :=
  ⟨fun _ _ hs ht => step_keeps keeps_sound (fun _ _ _ hf hs => sound_fetch hf hs) hs ht,
    fun _ _ hs ht => step_keeps keeps_times (fun _ _ _ hf hs => times_fetch hf hs) hs ht⟩

end

section
/-! Every step keeps every sparse array in canonical form (log 16): each is written by `putCell` or emptied. -/

namespace Sys2Proof.Machine

/-! ### One record replaced -/

theorem buffersCanonical_cleared : BuffersCanonical Slot.cleared := ⟨rfl, rfl, rfl⟩

theorem canonical_frame {s t : State} (hs : Canonical s) (hp : t.pool = s.pool) (hq : t.q.arr = s.q.arr) (hsb : t.sb = s.sb)
    (hsets : t.hostSets = s.hostSets) : Canonical t where
  pool := by rw [hp]; exact hs.pool
  buffers k := by rw [slotAt_congr hp]; exact hs.buffers k
  queue := by rw [hq]; exact hs.queue
  sent := by rw [hsb]; exact hs.sent
  hostSets := by rw [hsets]; exact hs.hostSets

theorem canonical_setSlot {s : State} {h : Nat} {x : Slot} (hs : Canonical s) (hx : BuffersCanonical x) :
    Canonical (setSlot s h x) where
  pool := canonical_putCell h x hs.pool
  buffers k := by
    rw [slotAt_setSlot]
    split
    · exact hx
    · exact hs.buffers k
  queue := hs.queue
  sent := hs.sent
  hostSets := hs.hostSets

theorem canonical_updSlot {s : State} {h : Nat} (f : Slot → Slot) (hs : Canonical s)
    (hf : BuffersCanonical (slotAt s h) → BuffersCanonical (f (slotAt s h))) : Canonical (updSlot s h f) :=
  canonical_setSlot hs (hf (hs.buffers h))

theorem canonical_queue {s : State} {m : SMap (Option Nat)} {head tail count : Nat} (hs : Canonical s)
    (hm : canonical none m = true) :
    Canonical { s with q := { arr := m, head := head, tail := tail, count := count } } :=
  ⟨hs.pool, hs.buffers, hm, hs.sent, hs.hostSets⟩

theorem canonical_answer {r : Result} {s : State} (hs : Canonical s) : Canonical (answer r s) :=
  canonical_frame hs rfl rfl rfl rfl

theorem canonical_emit {e : Event} {s : State} (hs : Canonical s) : Canonical (emit s e) := canonical_frame hs rfl rfl rfl rfl

theorem canonical_release {h : Nat} {s : State} (hs : Canonical s) : Canonical (release h s) :=
  canonical_setSlot hs buffersCanonical_cleared

theorem canonical_releaseAll {l : List Nat} {s : State} (hs : Canonical s) : Canonical (releaseAll l s) := by
  induction l generalizing s with
  | nil => exact hs
  | cons h l ih => exact ih (canonical_release hs)

theorem canonical_sbPut {i : Nat} {v : Option Nat} {s : State} (hs : Canonical s) : Canonical (sbPut s i v) :=
  ⟨hs.pool, hs.buffers, hs.queue, canonical_putCell i v hs.sent, hs.hostSets⟩

theorem canonical_setSs {r : SsRef} {x : SlaveSet} {s : State} (hs : Canonical s) : Canonical (setSs s r x) := by
  cases r with
  | host k => exact ⟨hs.pool, hs.buffers, hs.queue, hs.sent, canonical_putCell k x hs.hostSets⟩
  | slot h => exact canonical_updSlot (fun y => { y with ss := x }) hs fun hy => hy

/-! ### The queue (file 45) -/

theorem canonical_qPush {s : State} (o : Option Nat) (hs : Canonical s) : Canonical (qPush o s).1 := by
  unfold qPush
  split
  · exact hs
  · split
    · exact hs
    · exact canonical_queue hs (canonical_putCell _ _ hs.queue)

theorem canonical_qPop {s : State} (hs : Canonical s) : Canonical (qPop s).1 := by
  unfold qPop
  split
  · exact hs
  · exact canonical_queue hs (canonical_putCell _ _ hs.queue)

theorem canonical_swapToHead {s : State} (j : Nat) (hs : Canonical s) : Canonical (swapToHead s j) :=
  canonical_queue hs (canonical_putCell _ _ (canonical_putCell _ _ hs.queue))

theorem canonical_foldl_putCell {α : Type} [DecidableEq α] {d : α} {m : SMap α} (l : List Nat) (pos : Nat → Nat) (val : Nat → α)
    (hm : canonical d m = true) : canonical d (l.foldl (fun arr k => putCell d arr (pos k) (val k)) m) = true := by
  induction l generalizing m with
  | nil => exact hm
  | cons k l ih => exact ih (canonical_putCell _ _ hm)

theorem canonical_closeGap {s : State} (j : Nat) (hs : Canonical s) : Canonical (closeGap s j) :=
  canonical_queue hs (canonical_putCell _ _ (canonical_foldl_putCell _ _ _ hs.queue))

theorem canonical_qPopReady {s : State} (hs : Canonical s) : Canonical (qPopReady s).1 := by
  unfold qPopReady
  split
  · exact hs
  · split
    · exact canonical_qPop (canonical_swapToHead _ hs)
    · exact canonical_closeGap _ hs

theorem canonical_clearQueue {s : State} (hs : Canonical s) : Canonical (clearQueue s) :=
  canonical_queue (canonical_releaseAll hs) rfl

/-! ### Frames, builds and re-arms (R140, R283) -/

/-- The header of R140 step 7 goes into the buffers by `MemWrite`. -/
theorem buffersCanonical_headed {tr : Transport} {tid : Half} {u : Byte} {len : Nat} {x : Slot} (hx : BuffersCanonical x) :
    BuffersCanonical (headed tr tid u len x) := by
  obtain ⟨htx, hrx, htmpl⟩ := hx
  cases tr with
  | rtu => exact ⟨wf_writeBytes _ _ (wf_writeBytes _ _ htx), hrx, wf_writeBytes _ _ htmpl⟩
  | tcp => exact ⟨wf_writeBytes _ _ htx, hrx, wf_writeBytes _ _ htmpl⟩

theorem canonical_setHeader {h : Nat} {u : Byte} {len : Nat} {s : State} (hs : Canonical s) :
    Canonical (setHeader h u len s) := by
  rw [setHeader_eq]
  exact canonical_frame (canonical_updSlot _ hs buffersCanonical_headed) rfl rfl rfl rfl

theorem buffersCanonical_fillRequest (c : Cfg) (r : Request) {x : Slot} (hx : BuffersCanonical x) :
    BuffersCanonical (fillRequest c r x) := by
  obtain ⟨htx, hrx, htmpl⟩ := hx
  exact ⟨wf_writeBytes _ _ htx, hrx, wf_writeBytes _ _ htmpl⟩

theorem buffersCanonical_allocated (s : State) (t : Target) (hd : Nat) : BuffersCanonical (allocated s t hd) :=
  buffersCanonical_cleared

theorem canonical_buildFrame {h : Nat} {t : Target} {hd : Nat} {r : Request} {s : State} (hs : Canonical s) :
    Canonical (buildFrame h t hd r s) := by
  have filled : BuffersCanonical (fillRequest s.cfg r (allocated s t hd)) :=
    buffersCanonical_fillRequest s.cfg r (buffersCanonical_allocated s t hd)
  exact canonical_updSlot (fun x => { x with qtime := _, delay := .ms 0 })
    (canonical_setHeader (canonical_setSlot hs filled)) fun hx => hx

theorem canonical_buildFail {h : Nat} {e : Err} {t : Target} {hd : Nat} {fc : Byte} {s : State} (hs : Canonical s) :
    Canonical (buildFail h e t hd fc s) := canonical_release (canonical_emit (canonical_updSlot _ hs fun hx => hx))

theorem canonical_build {t : Target} {hd : Nat} {r : Request} {s : State} (hs : Canonical s) :
    AllNext Canonical (build t hd r s) := by
  unfold build
  split
  · exact allNext_ret (canonical_answer (canonical_emit hs))
  · next h _ =>
    refine allNext_ite (fun _ => ?_) (fun _ => allNext_ret (canonical_answer (canonical_buildFail
      (canonical_setSlot hs (buffersCanonical_allocated s t hd)))))
    have pushed := canonical_qPush (some h) (canonical_buildFrame (h := h) (t := t) (hd := hd) (r := r) hs)
    split
    · next he => rw [he] at pushed; exact allNext_ret (canonical_answer pushed)
    · next he => rw [he] at pushed; exact allNext_ret (canonical_answer (canonical_buildFail pushed))

theorem canonical_rearmFrame {h u : Nat} {s : State} (hs : Canonical s) : Canonical (rearmFrame h u s) :=
  canonical_updSlot (fun x => { x with qtime := _ }) (canonical_setHeader (canonical_updSlot rearmed hs fun hx => hx))
    fun hx => hx

theorem canonical_rearm {h u : Nat} {s : State} (hs : Canonical s) : Canonical (rearm h u s) := by
  have pushed := canonical_qPush (some h) (canonical_rearmFrame (h := h) (u := u) hs)
  simp only [rearm]
  split
  · next he => rw [he] at pushed; exact pushed
  · next he =>
    rw [he] at pushed
    exact canonical_release (canonical_emit (canonical_updSlot _ pushed fun hx => hx))

/-! ### The ends of an attempt (R180 to R206, R282, R384) -/

theorem canonical_repeatOrRelease {h : Nat} {s : State} (hs : Canonical s) : Canonical (repeatOrRelease h s) := by
  simp only [repeatOrRelease]
  split
  · split
    · exact canonical_release hs
    · exact canonical_rearm (canonical_setSlot hs (hs.buffers h))
  · exact canonical_release hs

theorem canonical_raise {h : Nat} {e : Err} {s : State} (hs : Canonical s) : AllNext Canonical (raise h e s) := by
  have failed : Canonical (updSlot s h (fun x => { x with err := e })) := canonical_updSlot _ hs fun hx => hx
  exact allNext_raise fun _ => canonical_answer (canonical_repeatOrRelease (canonical_emit failed))

/-- Bytes received or left free go into the receive buffer by `MemWrite`, whatever else of the slot changes. -/
theorem BuffersCanonical.writeRx {x : Slot} (hx : BuffersCanonical x) (k : Nat) (bs : List Byte) :
    BuffersCanonical { x with rx := writeBytes x.rx k bs } := ⟨hx.1, wf_writeBytes _ _ hx.2.1, hx.2.2⟩

theorem canonical_unreceived {h : Nat} {s : State} (hs : Canonical s) : Canonical (unreceived h s) :=
  canonical_frame (canonical_updSlot (fillRx s.cfg s.freeCount) hs fun hx => hx.writeRx _ _) rfl rfl rfl rfl

theorem canonical_window {h off len : Nat} {s : State} (hs : Canonical s) : Canonical (window h off len s) :=
  canonical_updSlot _ hs fun hx => hx

theorem buffersCanonical_normalSlot (be : Bool) (start : Nat) {x : Slot} (hx : BuffersCanonical x) :
    BuffersCanonical (normalSlot be start x) := (hx.writeRx _ _).writeRx _ _

theorem canonical_normalizeSlot {h : Nat} {s : State} (hs : Canonical s) : Canonical (normalizeSlot h s).1 := by
  by_cases hn : normalErr s.cfg (slotAt s h) = .ok
  · rw [normalize_ok hn]
    exact canonical_frame (canonical_setSlot hs (buffersCanonical_normalSlot _ _ (hs.buffers h))) rfl rfl rfl rfl
  · rw [normalize_bad hn]
    exact canonical_updSlot (fun x => { x with winLen := 0 }) hs fun hx => hx

theorem canonical_resp {h : Nat} {s : State} {p : State × Err} (hs : Canonical s) (hr : Resp h s p) : Canonical p.1 := by
  cases hr with
  | refl => exact hs
  | window => exact canonical_window hs
  | noWin => exact canonical_updSlot (fun x => { x with winLen := 0 }) hs fun hx => hx
  | exc => exact canonical_window hs
  | norm => exact canonical_normalizeSlot hs
  | winNorm => exact canonical_normalizeSlot (canonical_window hs)

theorem canonical_invokeOp {h : Nat} {s : State} (hs : Canonical s) : AllNext Canonical (invokeOp h s) := by
  obtain ⟨s', e, hr, he⟩ := resp_invoke h s
  rw [he]
  rcases hr with hr | hr
  · exact canonical_raise (canonical_resp hs hr)
  · exact canonical_raise (canonical_resp (canonical_unreceived hs) hr)

/-! ### The frames (files 42, 43) -/

theorem canonical_tcpSetMbap {h : Nat} {u : Byte} {len : Nat} {s : State} (hs : Canonical s) :
    Canonical (tcpSetMbap h u len s) := by
  have counted : Canonical { s with ctx := { s.ctx with tid := s.ctx.tid + 1#16 } } := canonical_frame hs rfl rfl rfl rfl
  exact canonical_updSlot _ counted (buffersCanonical_headed (tr := .tcp))

theorem canonical_tcpSetMbapLong {h : Nat} {u : Byte} {len : Nat} {s : State} (hs : Canonical s) :
    Canonical (tcpSetMbapLong h u len s) := by
  have counted : Canonical { s with ctx := { s.ctx with tid := s.ctx.tid + 1#16 }, freeCount := s.freeCount + 1 } :=
    canonical_frame hs rfl rfl rfl rfl
  rw [tcpSetMbapLong_eq]
  exact canonical_updSlot _ counted (buffersCanonical_headed (tr := .tcp))

theorem canonical_tcpReceive {h : Nat} {f : List Byte} {s : State} (hs : Canonical s) :
    AllNext Canonical (tcpReceive h f s) := by
  have header : Canonical (storeHeader h f s) := canonical_updSlot _ hs fun hx => hx.writeRx _ _
  unfold tcpReceive
  refine allNext_ite (fun _ => canonical_raise hs) (fun _ => allNext_ite (fun _ => canonical_raise header) (fun _ => ?_))
  split
  · exact canonical_raise header
  · exact allNext_ite (fun _ => canonical_raise header)
      (fun _ => canonical_invokeOp (canonical_updSlot _ header fun hx => hx.writeRx _ _))

/-! ### The engine (file 46) and `CLEAR_ALL` (R390) -/

theorem canonical_tickBufferClear {s : State} (hs : Canonical s) : Canonical (tickBufferClear s) := by
  unfold tickBufferClear
  split
  · split
    · exact canonical_frame hs rfl rfl rfl rfl
    · exact hs
  · exact canonical_frame hs rfl rfl rfl rfl

theorem canonical_sendFrame {h : Nat} {s : State} (hs : Canonical s) : Canonical (sendFrame h s) := by
  have begun := canonical_emit (e := .txBegin) hs
  have written := canonical_emit (e := .serWrite (readBytes (slotAt s h).tx 0 (slotAt s h).txlen)) begun
  have stamped := canonical_updSlot (h := h) (fun x => { x with stime := s.nowMs }) (canonical_emit (e := .txEnd) written)
    fun hx => hx
  exact canonical_frame stamped rfl rfl rfl rfl

theorem canonical_awaitReply {h : Nat} {s : State} (hs : Canonical s) : Canonical (awaitReply h s) := by
  have emptied := canonical_updSlot (h := h) (fun x => { x with rxlen := 0, exc := false }) hs fun hx => hx
  exact canonical_frame emptied rfl rfl rfl rfl

theorem canonical_append {h limit : Nat} {s : State} (hs : Canonical s) : Canonical (append h limit s) := by
  have stored := canonical_updSlot (h := h) (fun x => { x with rx := writeBytes x.rx x.rxlen (taken s h limit),
                                                               rxlen := x.rxlen + (taken s h limit).length }) hs
    fun hx => hx.writeRx _ _
  simp only [append]
  split
  · exact canonical_frame stored rfl rfl rfl rfl
  · exact canonical_frame stored rfl rfl rfl rfl

theorem canonical_headGood {h : Nat} {s : State} (hs : Canonical s) : Canonical (headGood h s) := by
  have flagged := canonical_updSlot (h := h)
    (fun x => { x with exc := x.exc || isExceptionOf (fcOf s.cfg x) (readByte x.rx 1) }) hs fun hx => hx
  exact canonical_frame flagged rfl rfl rfl rfl

theorem canonical_crcVerdict {h : Nat} {s : State} (hs : Canonical s) : Canonical (crcVerdict h s) := by
  unfold crcVerdict
  split
  · exact hs
  · exact canonical_updSlot _ hs fun hx => hx

theorem canonical_tickKeeps : TickKeeps Canonical where
  ans _ _ hs := canonical_answer hs
  clear _ hs := canonical_tickBufferClear hs
  wait _ hs := canonical_frame hs rfl rfl rfl rfl
  popReady _ hs := canonical_qPopReady hs
  send _ _ hs := canonical_sendFrame hs
  await _ _ hs := canonical_awaitReply hs
  append _ _ _ hs := canonical_append hs
  head _ _ hs := canonical_headGood hs
  wrongHead _ _ hs := canonical_updSlot _ hs fun hx => hx
  verdict _ _ hs := canonical_crcVerdict hs
  settle _ hs := canonical_frame hs rfl rfl rfl rfl
  raise _ _ _ hs := canonical_raise hs
  invoke _ _ hs := canonical_invokeOp hs

theorem canonical_clearContainers {s : State} (hs : Canonical s) : Canonical (clearContainers s) := by
  unfold clearContainers
  split
  · have released := canonical_releaseAll (l := s.sb.filterMap (fun c => c.2)) hs
    exact ⟨released.pool, released.buffers, released.queue, rfl, released.hostSets⟩
  · exact canonical_frame (canonical_releaseAll (l := s.eng.pending.toList) hs) rfl rfl rfl rfl

theorem canonical_resetWith {p : Params} {s : State} (hs : Canonical s) : Canonical (resetWith p s) :=
  ⟨rfl, fun _ => buffersCanonical_cleared, rfl, rfl, hs.hostSets⟩

/-! ### Every operation -/

theorem keeps_canonical : Keeps Canonical where
  ans _ _ hs := canonical_answer hs
  noSlot _ _ _ _ _ hs := canonical_emit hs
  build _ _ _ _ hs _ := canonical_build hs
  attempt _ _ _ _ hs _ _ hr := canonical_raise (canonical_resp hs hr)
  fill _ _ hs _ := canonical_unreceived hs
  fail _ _ _ hs _ := canonical_raise hs
  head _ _ _ hs _ _ := canonical_updSlot _ hs fun ⟨htx, hrx, htmpl⟩ => ⟨wf_writeBytes _ _ htx, hrx, wf_writeBytes _ _ htmpl⟩
  crc _ _ _ hs _ _ _ := canonical_updSlot _ hs fun ⟨htx, hrx, htmpl⟩ => ⟨wf_writeBytes _ _ htx, hrx, htmpl⟩
  mbap _ _ _ _ hs _ _ _ := canonical_tcpSetMbap hs
  mbapLong _ _ _ _ hs _ _ := canonical_tcpSetMbapLong hs
  receive _ _ _ hs _ _ _ := canonical_tcpReceive hs
  sbAdd _ _ _ hs _ _ _ := canonical_updSlot _ (canonical_sbPut hs) fun hx => hx
  sbTake _ _ _ hs _ _ := canonical_sbPut hs
  sets _ _ _ hs _ _ := canonical_setSs hs
  rep _ _ hs _ _ := canonical_repeatOrRelease hs
  push _ _ hs _ _ := canonical_qPush _ hs
  pop _ hs := canonical_qPop hs
  popReady _ hs := canonical_qPopReady hs
  qClear _ hs := canonical_clearQueue hs
  tick _ hs := canonical_tickKeeps.execTick hs
  clear _ hs := canonical_releaseAll (canonical_clearContainers (canonical_clearQueue hs))
  be _ _ hs := canonical_frame hs rfl rfl rfl rfl
  norm _ _ hs _ _ _ := canonical_normalizeSlot hs
  reset _ _ hs _ := canonical_resetWith hs

theorem canonical_fetch {s s' : State} {bytes : List Byte} (hf : fetch s = some (bytes, s')) (hs : Canonical s) :
    Canonical s' := by
  unfold fetch at hf
  split at hf
  · cases hf
  · cases hf; exact canonical_frame hs rfl rfl rfl rfl

end Sys2Proof.Machine

open Sys2Proof Sys2Proof.Machine

/-- Settles O57: every operation keeps the canonical form, and so does taking the command off the stream. -/
theorem stepKeepsCanonicalForm : Obligations.StepKeepsCanonicalForm :=
  fun _ _ hs ht => step_keeps keeps_canonical (fun _ _ _ hf hs => canonical_fetch hf hs) hs ht

end

section
/-! The events of one operation (20 R81): only completions, at most two, but for the one transmission of a tick (46 R323,
R326). -/

namespace Sys2Proof.Machine

/-! ### What emits nothing -/

@[simp] theorem events_qPush (o : Option Nat) (s : State) : (qPush o s).1.events = s.events :=
  (congrArg State.events (qPush_frame o s) :)

@[simp] theorem events_qPop (s : State) : (qPop s).1.events = s.events := (congrArg State.events (qPop_q s) :)

@[simp] theorem events_qPopReady (s : State) : (qPopReady s).1.events = s.events :=
  (congrArg State.events (qPopReady_frame s) :)

@[simp] theorem events_releaseAll (l : List Nat) (s : State) : (releaseAll l s).events = s.events :=
  (congrArg State.events (releaseAll_eq l s) :)

@[simp] theorem events_clearQueue (s : State) : (clearQueue s).events = s.events := events_releaseAll _ s

@[simp] theorem events_clearAllOp (s : State) : (clearAllOp s).events = s.events := by
  have containers : ∀ u : State, (clearContainers u).events = u.events := fun u => by
    unfold clearContainers
    split
    · exact events_releaseAll _ u
    · exact events_releaseAll _ u
  simp [clearAllOp, containers]

@[simp] theorem events_heard (n h : Nat) (s : State) : (heard n h s).events = s.events := by
  unfold heard; split <;> rfl

@[simp] theorem events_rearmFrame (h u : Nat) (s : State) : (rearmFrame h u s).events = s.events :=
  (congrArg State.events (rearmFrame_frame h u s) :)

@[simp] theorem events_buildFrame (h : Nat) (t : Target) (hd : Nat) (r : Request) (s : State) :
    (buildFrame h t hd r s).events = s.events := (congrArg State.events (buildFrame_frame h t hd r s) :)

@[simp] theorem events_normalizeSlot (h : Nat) (s : State) : (normalizeSlot h s).1.events = s.events :=
  (ended_normalize (Ended.refl h s)).events

@[simp] theorem events_append (h limit : Nat) (s : State) : (append h limit s).events = s.events := by
  simp only [append]; split <;> rfl

@[simp] theorem events_crcVerdict (h : Nat) (s : State) : (crcVerdict h s).events = s.events := by
  unfold crcVerdict; split <;> rfl

@[simp] theorem events_tickBufferClear (s : State) : (tickBufferClear s).events = s.events := by
  unfold tickBufferClear
  split
  · split <;> rfl
  · rfl

/-! ### What announces completions -/

/-- `t` has the events of `s` and at most `n` completions behind them. -/
def Announces (n : Nat) (s t : State) : Prop :=
  ∃ new, t.events = s.events ++ new ∧ (∀ e ∈ new, Event.onLine e = false) ∧ new.length ≤ n

theorem announces_nothing {n : Nat} {s t : State} (h : t.events = s.events) : Announces n s t :=
  ⟨[], by simp [h], by simp, Nat.zero_le n⟩

theorem announces_done {n : Nat} {s t : State} {hd : Option Nat} {rec : DoneRecord}
    (h : t.events = s.events ++ [.done hd rec]) : Announces (n + 1) s t :=
  ⟨[.done hd rec], h, by simp [Event.onLine], by simp⟩

theorem Announces.trans {m n : Nat} {s t u : State} (h1 : Announces m s t) (h2 : Announces n t u) :
    Announces (m + n) s u := by
  obtain ⟨new1, e1, off1, len1⟩ := h1
  obtain ⟨new2, e2, off2, len2⟩ := h2
  refine ⟨new1 ++ new2, by rw [e2, e1, List.append_assoc], fun e he => ?_, by rw [List.length_append]; omega⟩
  rcases List.mem_append.mp he with he | he
  · exact off1 e he
  · exact off2 e he

/-- R283: a re-arm announces at most that the queue is full. -/
theorem announces_rearm (h u : Nat) (s : State) : Announces 1 s (rearm h u s) := by
  have pushed := events_qPush (some h) (rearmFrame h u s)
  rw [events_rearmFrame] at pushed
  simp only [rearm]
  split
  · next he => rw [he] at pushed; exact announces_nothing pushed
  · next s' he =>
    rw [he] at pushed
    have full : (rearmFull h u s').events = s'.events ++ [_] := rfl
    exact announces_done (full.trans (by rw [pushed]))

theorem announces_repeatOrRelease (h : Nat) (s : State) : Announces 1 s (repeatOrRelease h s) := by
  simp only [repeatOrRelease]
  split
  · split
    · exact announces_nothing rfl
    · exact announces_rearm h _ (setSlot s h _)
  · exact announces_nothing rfl

/-- R384, R378: the completion itself, and the one of a re-arm that fails. -/
theorem announces_complete (h : Nat) (e : Err) (s : State) : Announces 2 s (complete h e s) :=
  Announces.trans (announces_done (n := 0) rfl) (announces_repeatOrRelease h _)

theorem announces_ret {n : Nat} {s s' : State} (h : s'.events = s.events) (r : Result) :
    AllNext (Announces n s) (ret r s') := allNext_ret (announces_nothing h)

theorem announces_reject (n : Nat) (s : State) (r : Reject) : AllNext (Announces n s) (reject r s) := announces_ret rfl _

theorem announces_raise {h : Nat} {e : Err} {s s' : State} (hs : s'.events = s.events) :
    AllNext (Announces 2 s) (raise h e s') :=
  allNext_raise fun _ => (announces_nothing (n := 0) hs).trans (announces_complete h e s')

theorem announces_invokeOp {h : Nat} {s s' : State} (hs : s'.events = s.events) :
    AllNext (Announces 2 s) (invokeOp h s') := by
  obtain ⟨s1, e, ended, he⟩ := invoke_shape h s'
  rw [he]
  exact announces_raise (ended.events.trans hs)

/-- The guards in front of an operation that ends an attempt. -/
theorem announces_guarded {n h : Nat} {s : State} {k : Out} (hk : AllNext (Announces n s) k) :
    AllNext (Announces n s) (withSlot h s (withDetached h s (checked h s k))) :=
  allNext_withSlot (fun _ => allNext_withDetached (fun _ => allNext_checked fun _ _ => hk) (announces_nothing rfl))
    (announces_nothing rfl)

theorem announces_hostArm {h : Nat} {s : State} {reads : Nat → State → List (Nat × Nat × Bool)}
    {a : Nat → State → State × Err} (ha : ∀ s, Ended h s (a h s).1) : AllNext (Announces 2 s) (hostArm h reads a s) :=
  hostArm_shape ha (fun _ _ _ _ ended => announces_raise ended.events) fun _ => announces_nothing rfl

/-- R140, R149: a build announces at most its own failure. -/
theorem announces_build (t : Target) (hd : Nat) (r : Request) (s : State) : AllNext (Announces 2 s) (build t hd r s) := by
  unfold build
  split
  · exact allNext_ret (announces_done rfl)
  · next h _ =>
    refine allNext_ite (fun _ => ?_) (fun _ => allNext_ret (announces_done rfl))
    have pushed := events_qPush (some h) (buildFrame h t hd r s)
    rw [events_buildFrame] at pushed
    split
    · next he => rw [he] at pushed; exact announces_ret pushed _
    · next s' he =>
      rw [he] at pushed
      have failed : (buildFail h .queueFull t hd r.fc s').events = s'.events ++ [_] := rfl
      exact allNext_ret (announces_done (failed.trans (by rw [pushed])))

theorem announces_tcpReceive (h : Nat) (f : List Byte) (s : State) : AllNext (Announces 2 s) (tcpReceive h f s) := by
  unfold tcpReceive
  refine allNext_ite (fun _ => announces_raise rfl) (fun _ => allNext_ite (fun _ => announces_raise rfl) (fun _ => ?_))
  split
  · exact announces_raise rfl
  · exact allNext_ite (fun _ => announces_raise rfl) (fun _ => announces_invokeOp rfl)

theorem announces_ssUpdate (r : SsRef) (f : SlaveSet → SlaveSet) (s : State) :
    AllNext (Announces 2 s) (ssUpdate r f s) :=
  allNext_ite (fun _ => announces_ret (events_setSs s r _) _) (fun _ => announces_reject 2 s _)

theorem announces_sbTake (s : State) (p : Nat → Bool) : AllNext (Announces 2 s) (sbTake s p) := by
  unfold sbTake
  split
  · exact announces_ret rfl _
  · exact announces_ret rfl _

theorem announces_sbAdd (h : Nat) (s : State) : AllNext (Announces 2 s) (execSbAdd h s) := by
  refine allNext_onlyOn fun _ => ?_
  split
  · exact announces_ret rfl _
  · exact allNext_withSlot (fun _ => allNext_withDetached (fun _ => announces_ret rfl _) (announces_nothing rfl))
      (announces_nothing rfl)

/-- The operations one by one: all but `TICK` announce completions alone, at most two. -/
theorem exec_announces {i : Instr} (s : State) (hi : i ≠ .tick) : AllNext (Announces 2 s) (exec i s) := by
  have answers := fun r => announces_ret (n := 2) (s := s) rfl r
  have rejects := announces_reject 2 s
  have rejected : ∀ r, Announces 2 s (answer (.rejected r) s) := fun _ => announces_nothing rfl
  cases i with
  | rtuFrame | tcpFrame | ssPeek => exact allNext_ite (fun _ => answers _) (fun _ => rejects _)
  | rtuExceptionFrame => exact allNext_ite (fun _ => rejects _) (fun _ => answers _)
  | rdCoils | rdDiscrete | rdHolding | rdInput | wrCoil | wrReg | rdExcStatus | diag | wrCoils | wrRegs | maskWr | rwRegs =>
    exact announces_build _ _ _ s
  | buildRaw => exact allNext_ite (fun _ => rejects _) (fun _ => allNext_ret (announces_done rfl))
  | rspRdCoils h | rspRdDiscrete h => exact announces_hostArm (ended_readCheck h)
  | rspRdHolding h | rspRdInput h | rspRwRegs h => exact announces_hostArm (ended_regs h)
  | rspWrCoil h | rspWrReg h | rspWrCoils h | rspWrRegs h | rspMaskWr h => exact announces_hostArm fun s => ended_echo h _ s
  | rspRdExcStatus h => exact announces_hostArm fun s => ended_window h _ 1 s
  | rspDiag h => exact announces_hostArm (ended_diag h)
  | rspException h => exact announces_hostArm (ended_exception h)
  | rspWrongFunction h | rspNotSupported h => exact announces_hostArm fun s => Ended.refl h s
  | rtuSetHead => exact allNext_onlyOn fun _ => allNext_withSlot (fun _ => announces_ret rfl _) (rejected _)
  | rtuSetCrc =>
    exact allNext_onlyOn fun _ => allNext_withSlot
      (fun _ => allNext_ite (fun _ => announces_ret rfl _) (fun _ => allNext_fault)) (rejected _)
  | rtuCheckHead => exact allNext_onlyOn fun _ => allNext_withSlot (fun _ => answers _) (rejected _)
  | rtuCheckCrc =>
    exact allNext_onlyOn fun _ => allNext_withSlot (fun _ => allNext_checked fun _ _ => answers _) (rejected _)
  | crc16 | qPeek | qHasReady | encodeElems => exact answers _
  | tcpSetMbap =>
    exact allNext_onlyOn fun _ => allNext_withSlot (fun _ => announces_ret (by split <;> rfl) _) (rejected _)
  | tcpCheckMbap h | tcpPayloadLen h =>
    exact allNext_onlyOn fun _ => allNext_withSlot (fun _ => announces_ret (events_heard _ h s) _) (rejected _)
  | tcpReceive h f => exact allNext_onlyOn fun _ => announces_guarded (announces_tcpReceive h f s)
  | tcpFail =>
    exact allNext_onlyOn fun _ => allNext_withSlot
      (fun _ => allNext_withDetached (fun _ => announces_raise rfl) (rejected _)) (rejected _)
  | sbAdd h => exact announces_sbAdd h s
  | sbRead | sbReadNextTimeout => exact allNext_onlyOn fun _ => announces_sbTake s _
  | ssSet r | ssSetRange r | ssRemove r | ssRemoveRange r | ssClear r | ssSetDelays r =>
    simp only [exec, execSsSet, execSsSetRange, execSsRemove, execSsRemoveRange, execSsClear, execSsSetDelays]
    exact announces_ssUpdate r _ s
  | ssGetNext r => exact allNext_ite (fun _ => announces_ret (events_setSs s r _) _) (fun _ => rejects _)
  | repeatIfNeeded h =>
    exact announces_guarded (allNext_ret ((announces_repeatOrRelease h s).trans (announces_nothing (n := 1) rfl)))
  | qAdd o =>
    cases o with
    | none => exact answers _
    | some k =>
      exact allNext_ite (fun _ => answers _) (fun _ => allNext_withSlot (fun _ => allNext_withDetached
        (fun _ => announces_ret (events_qPush (some k) s) _) (rejected _)) (rejected _))
  | qRead => exact announces_ret (events_qPop s) _
  | qReadReady => exact announces_ret (events_qPopReady s) _
  | qClear => exact announces_ret (events_clearQueue s) _
  | tick => exact absurd rfl hi
  | clearAll => exact announces_ret (events_clearAllOp s) _
  | setBigEndian => exact announces_ret rfl _
  | invoke => exact announces_guarded (announces_invokeOp rfl)
  | normalize h =>
    exact allNext_withSlot (fun _ => allNext_checked fun _ _ => allNext_ite (fun _ => announces_ret (events_normalizeSlot h s) _)
      (fun _ => allNext_withDetached (fun _ => announces_raise (events_normalizeSlot h s)) (rejected _))) (rejected _)
  | reset => exact allNext_ite (fun _ => announces_ret rfl _) (fun _ => rejects _)

/-! ### A tick (R323) -/

/-- `t` has the events of `s`, one whole transmission behind them, and at most `n` completions behind that. -/
def Transmits (n : Nat) (s t : State) : Prop :=
  ∃ bytes m, m.events = s.events ++ [.txBegin, .serWrite bytes, .txEnd] ∧ Announces n m t

theorem transmits_transmit {h : Nat} {s s' : State} (hs : s'.events = s.events) :
    AllNext (Transmits 2 s) (transmit h s') := by
  have sent : (sendFrame h s').events =
      s.events ++ [.txBegin, .serWrite (readBytes (slotAt s' h).tx 0 (slotAt s' h).txlen), .txEnd] := by
    rw [← hs]; exact (congrArg State.events (sendFrame_frame h s') :)
  unfold transmit
  exact allNext_ite (fun _ t ht => ⟨_, _, sent, announces_raise rfl t ht⟩)
    (fun _ => allNext_ret ⟨_, _, sent, announces_nothing rfl⟩)

/-- R325: an idle engine's tick transmits at most once. -/
theorem tickIdle_events (s : State) : AllNext (fun t => Announces 2 s t ∨ Transmits 2 s t) (tickIdle s) := by
  have popped := events_qPopReady s
  unfold tickIdle
  refine allNext_ite (fun _ => allNext_ret (.inl (announces_nothing rfl)))
    (fun _ => allNext_ite (fun _ => allNext_ret (.inl (announces_nothing rfl))) (fun _ => ?_))
  split
  · next he => rw [he] at popped; exact allNext_ret (.inl (announces_nothing popped))
  · next he =>
    rw [he] at popped
    exact allNext_checked fun _ _ t ht => .inr (transmits_transmit popped t ht)

theorem announces_finishFrame {h : Nat} {s s' : State} (hs : s'.events = s.events) :
    AllNext (Announces 2 s) (finishFrame h s') :=
  announces_invokeOp (s' := settle (crcVerdict h s')) ((events_crcVerdict h s').trans hs)

theorem announces_tickReceive (h : Nat) (s : State) : AllNext (Announces 2 s) (tickReceive h s) := by
  have appended := events_append h (slotAt s h).explen s
  unfold tickReceive
  refine allNext_ite (fun _ => allNext_ite (fun _ => ?_) (fun _ => announces_raise appended))
    (fun _ => allNext_ite (fun _ => announces_raise appended) (fun _ => announces_ret appended _))
  have good : (headGood h (append h (slotAt s h).explen s)).events = s.events := appended
  exact allNext_ite (fun _ => announces_finishFrame good) (fun _ => announces_ret good _)

theorem announces_tickHeadChecked (h : Nat) (s : State) : AllNext (Announces 2 s) (tickHeadChecked h s) := by
  have appended := events_append h (needOf (slotAt s h)) s
  unfold tickHeadChecked
  exact allNext_ite (fun _ => announces_finishFrame appended)
    (fun _ => allNext_ite (fun _ => announces_raise appended) (fun _ => announces_ret appended _))

theorem execTick_events (s : State) : AllNext (fun t => Announces 2 s t ∨ Transmits 2 s t) (execTick s) :=
  allNext_execTick (fun _ => allNext_ret (.inl (announces_nothing (events_tickBufferClear s)))) (fun _ _ => tickIdle_events s)
    (fun h _ t ht => .inl (announces_tickReceive h s t ht)) (fun h _ t ht => .inl (announces_tickHeadChecked h s t ht))

/-! ### The two kinds of events apart -/

theorem filter_onLine_announced {new : List Event} (off : ∀ e ∈ new, e.onLine = false) : new.filter Event.onLine = [] :=
  List.filter_eq_nil_iff.mpr fun e he => by simp [off e he]

end Sys2Proof.Machine

open Sys2Proof Sys2Proof.Machine

/-- Settles O52: every operation but `TICK` announces completions alone (`exec_announces`), a tick may transmit before it
does (`execTick_events`). -/
theorem eventsOfOneOperation : Obligations.EventsOfOneOperation := by
  intro i s t ht
  have kinds : Announces 2 s t ∨ (i = .tick ∧ Transmits 2 s t) := by
    by_cases hi : i = .tick
    · subst hi
      exact (execTick_events s t ht).imp_right fun sent => ⟨rfl, sent⟩
    · exact .inl (exec_announces s hi t ht)
  rcases kinds with ⟨new, e, off, len⟩ | ⟨hi, bytes, m, sent, new, e, off, len⟩
  · exact ⟨new, e, .inl (filter_onLine_announced off), (List.length_filter_le ..).trans len⟩
  · have line := filter_onLine_announced off
    refine ⟨[.txBegin, .serWrite bytes, .txEnd] ++ new, by rw [e, sent, List.append_assoc], .inr ⟨hi, bytes, ?_⟩, ?_⟩
    · rw [List.filter_append, line]; rfl
    · rw [List.filter_append]; exact (List.length_filter_le ..).trans len

end

section
/-! From a sound state no operation runs past a buffer, but for two (20 R80, 10 R38, 93 U12): which faults each operation
can end in. -/

namespace Sys2Proof.Machine

open Sys2Proof.Claims

/-! ### Every fault of an outcome -/

/-- The outcome is no fault but an overrun, and that only where `Q` holds. -/
def FaultsOnly (Q : Prop) (o : Out) : Prop := ∀ f, o = .fault f → f = .bufferBound ∧ Q

theorem FaultsOnly.mono {P Q : Prop} {o : Out} (h : FaultsOnly P o) (hpq : P → Q) : FaultsOnly Q o :=
  fun f hf => (h f hf).imp_right hpq

theorem faults_ret {Q : Prop} (r : Result) (s : State) : FaultsOnly Q (ret r s) := fun _ hf => by cases hf

theorem faults_reject {Q : Prop} (r : Reject) (s : State) : FaultsOnly Q (reject r s) := faults_ret _ s

theorem faults_ite {Q : Prop} {c : Prop} [Decidable c] {a b : Out} (ha : c → FaultsOnly Q a) (hb : ¬ c → FaultsOnly Q b) :
    FaultsOnly Q (if c then a else b) := by
  split
  · next h => exact ha h
  · next h => exact hb h

theorem faults_onlyOn {Q : Prop} {tr : Transport} {s : State} {k : Out}
    (hk : s.cfg.params.transport = tr → FaultsOnly Q k) : FaultsOnly Q (onlyOn tr s k) :=
  faults_ite hk (fun _ _ hf => by cases hf)

theorem faults_withSlot {Q : Prop} {h : Nat} {s : State} {k : Out} (hk : slotExists s h = true → FaultsOnly Q k) :
    FaultsOnly Q (withSlot h s k) := faults_ite hk (fun _ => faults_reject _ s)

theorem faults_withDetached {Q : Prop} {h : Nat} {s : State} {k : Out} (hk : detached s h = true → FaultsOnly Q k) :
    FaultsOnly Q (withDetached h s k) := faults_ite hk (fun _ => faults_reject _ s)

theorem lengthsFit_of_slotFits {c : Cfg} {x : Slot} (hx : slotFits c x = true) : lengthsFit c x = true := by
  simp only [slotFits, Bool.and_eq_true] at hx
  exact hx.1.1

/-- R23, R80: in a sound state the guard on a slot's lengths lets every access through. -/
theorem faults_checked {Q : Prop} {h : Nat} {s : State} {k : Out} (hs : Sound s) (he : slotExists s h = true)
    (hk : FaultsOnly Q k) : FaultsOnly Q (checked h s k) := by
  rw [checked, if_pos (by simp [he, lengthsFit_of_slotFits (hs.bounds.lengths h)])]
  exact hk

/-- The guards in front of an operation that ends an attempt. -/
theorem faults_guarded {Q : Prop} {h : Nat} {s : State} {k : Out} (hs : Sound s)
    (hk : detached s h = true → FaultsOnly Q k) :
    FaultsOnly Q (withSlot h s (withDetached h s (checked h s k))) :=
  faults_withSlot fun he => faults_withDetached fun hd => faults_checked hs he (hk hd)

/-! ### The window at the end of an attempt (R185 to R205, R385) -/

/-- The window that the record of an attempt's end copies lies in the receive buffer. -/
def Inside (h : Nat) (p : State × Err) : Prop := windowFits p.1.cfg (slotAt p.1 h) = true

theorem inside_refl {s : State} (hs : Sound s) (h : Nat) (e : Err) : Inside h (s, e) :=
  (windowFits_iff _ _).mpr (.inr (hs.bounds.at h).pre.win)

theorem inside_of_empty {h : Nat} {p : State × Err} (hw : (slotAt p.1 h).winLen = 0) : Inside h p :=
  (windowFits_iff _ _).mpr (.inl hw)

theorem inside_window {h off len : Nat} {s : State} {e : Err} (hw : off + len ≤ s.cfg.bufCap) :
    Inside h (window h off len s, e) := by
  refine (windowFits_iff _ _).mpr (.inr ?_)
  simpa [window] using hw

theorem slotAt_normalizeSlot_of_ok {h : Nat} {s : State} (hn : normalErr s.cfg (slotAt s h) = .ok) :
    slotAt (normalizeSlot h s).1 h = normalSlot s.ctx.bigEndian s.freeCount (slotAt s h) := by
  rw [normalize_ok hn]
  exact slotAt_setSlot_self s h _

/-- R205: a window that the guards let through was received, and any other is emptied. -/
theorem inside_normalizeSlot {h : Nat} {s : State} (hr : (slotAt s h).rxlen ≤ s.cfg.bufCap) :
    Inside h (normalizeSlot h s) := by
  by_cases hn : normalErr s.cfg (slotAt s h) = .ok
  · have received := normalErr_win hn
    have shorter := normal_le s.ctx.bigEndian (slotAt s h).esize (dataOf (slotAt s h))
    rw [length_dataOf] at shorter
    refine (windowFits_iff _ _).mpr (.inr ?_)
    rw [slotAt_normalizeSlot_of_ok hn, (ended_normalize (Ended.refl h s)).cfg]
    show (slotAt s h).winOff + (normalBytes s.ctx.bigEndian (slotAt s h).esize (dataOf (slotAt s h))).length ≤ s.cfg.bufCap
    omega
  · rw [normalize_bad hn]
    exact inside_of_empty (by simp)

theorem inside_ite {h : Nat} {c : Prop} [Decidable c] {a b : State × Err} (ha : c → Inside h a) (hb : ¬ c → Inside h b) :
    Inside h (if c then a else b) := by
  split
  · next hc => exact ha hc
  · next hc => exact hb hc

theorem inside_normalized {h off len : Nat} {s : State} (hs : Sound s) : Inside h (normalizeSlot h (window h off len s)) :=
  inside_normalizeSlot (by rw [window, slotAt_updSlot_self]; exact (hs.bounds.at h).pre.rxlen)

/-- R185: a byte count that is the expected one opens a window as long as the build provided for. -/
theorem inside_readCheck {h : Nat} {s : State} (hs : Sound s) (hc : CountFits s h) : Inside h (readCheck h s) := by
  obtain ⟨hlen, hfit⟩ := hc
  refine inside_ite (fun hcount => inside_window ?_) (fun _ => inside_refl hs h _)
  rw [hcount, tmplByte_of_lt hlen]
  exact hfit

theorem inside_regsArm {h : Nat} {s : State} (hs : Sound s) : Inside h (regsArm h s) := by
  unfold regsArm readCheck
  split
  · exact inside_ite (fun _ => inside_normalized hs) (fun hne => absurd rfl hne)
  · exact inside_ite (fun he => by cases he) (fun _ => inside_refl hs h _)

theorem inside_echoArm {h : Nat} {s : State} (hs : Sound s) (checks : List (Bool × Err)) :
    Inside h (echoArm h checks s) :=
  inside_ite (fun _ => inside_of_empty (by simp [noWindow])) (fun _ => inside_refl hs h _)

theorem inside_excStatusArm {h : Nat} {s : State} (hs : Sound s) : Inside h (excStatusArm h s) :=
  inside_window (by have := bufCap_ge hs; omega)

theorem inside_diagArm {h : Nat} {s : State} (hs : Sound s) : Inside h (diagArm h s) :=
  inside_ite (fun _ => inside_normalized hs) (fun _ => inside_refl hs h _)

theorem inside_exceptionArm (h : Nat) (s : State) : Inside h (exceptionArm h s) := inside_window (Nat.zero_le _)

/-- R180 step 4: of the arms only the two coil reads rest on the byte count that the template holds. -/
theorem inside_arm {h : Nat} {s : State} {fc : Byte} (hs : Sound s)
    (hc : fc = 0x01#8 ∨ fc = 0x02#8 → CountFits s h) : Inside h (arm fc h s) :=
  have regs := inside_regsArm hs
  have echo := inside_echoArm hs
  inside_ite (fun e => inside_readCheck hs (hc (.inl e))) fun _ =>
  inside_ite (fun e => inside_readCheck hs (hc (.inr e))) fun _ =>
  inside_ite (fun _ => regs) fun _ => inside_ite (fun _ => regs) fun _ =>
  inside_ite (fun _ => echo _) fun _ => inside_ite (fun _ => echo _) fun _ =>
  inside_ite (fun _ => inside_excStatusArm hs) fun _ => inside_ite (fun _ => inside_diagArm hs) fun _ =>
  inside_ite (fun _ => echo _) fun _ => inside_ite (fun _ => echo _) fun _ => inside_ite (fun _ => echo _) fun _ =>
  inside_ite (fun _ => regs) fun _ => inside_refl hs h _

/-- R180 steps 1 to 3b: the attempt ends as it stands, or as an exception response. -/
theorem inside_earlyReply {h : Nat} {s : State} {p : State × Err} (hs : Sound s) (he : earlyReply h s = some p) :
    Inside h p := by
  have asItStands := inside_refl hs h
  simp only [earlyReply] at he
  split_ifs at he with recorded short exception wrongCode fewer more <;> cases he
  · exact asItStands _
  · exact asItStands _
  · exact inside_exceptionArm h s
  · exact asItStands _
  · exact asItStands _
  · exact asItStands _

/-! ### The ends of an attempt -/

theorem Off.cfg {h : Nat} {s s' : State} (E : Off h s s') : s'.cfg = s.cfg := (congrArg State.cfg E.frame :)

theorem Off.lengthsFit {h : Nat} {s s' : State} (E : Off h s s') (hs : Sound s) :
    lengthsFit s'.cfg (slotAt s' h) = true := by
  have fits := lengthsFit_of_slotFits (hs.bounds.lengths h)
  rw [← E.slot] at fits
  rw [E.cfg]
  exact fits

/-- An attempt that ends with its window inside the buffer ends without a fault. -/
theorem faults_raise {Q : Prop} {h : Nat} {e : Err} {s s' : State} (hs : Sound s) (he : slotExists s h = true)
    (E : Off h s s') (hw : ¬ Q → Inside h (s', e)) : FaultsOnly Q (raise h e s') := by
  have exists' : slotExists s' h = true := by unfold slotExists at *; rw [E.cfg]; exact he
  rw [raise, checked, if_pos (by simp [exists', E.lengthsFit hs])]
  refine faults_ite (fun _ => faults_ret _ _) (fun hout f hf => ?_)
  cases hf
  exact ⟨rfl, not_not.mp fun hq => hout (hw hq)⟩

/-- The end of an attempt in a sound state as it stands. -/
theorem faults_raise_sound {Q : Prop} {h : Nat} {e : Err} {s : State} (hs : Sound s) (he : slotExists s h = true) :
    FaultsOnly Q (raise h e s) := faults_raise hs he (Off.refl hs) fun _ => inside_refl hs h e

/-- Slot `h` holds a request to read coils or discrete inputs, and expects a byte count that runs past the buffer. -/
def ReadsPast (s : State) (h : Nat) : Prop :=
  (fcOf s.cfg (slotAt s h) = 0x01#8 ∨ fcOf s.cfg (slotAt s h) = 0x02#8) ∧ ¬ CountFits s h

/-- What an attempt receives has no part in the byte count it expects. -/
theorem countFits_congr {h : Nat} {s t : State} (hcfg : t.cfg = s.cfg) (hx : offReply (slotAt t h) = offReply (slotAt s h)) :
    CountFits t h ↔ CountFits s h := by
  have htmpl : (slotAt t h).tmpl = (slotAt s h).tmpl := (congrArg Slot.tmpl hx :)
  have hlen : (slotAt t h).tmpllen = (slotAt s h).tmpllen := (congrArg Slot.tmpllen hx :)
  unfold CountFits
  rw [hcfg, htmpl, hlen]

theorem readsPast_congr {h : Nat} {s t : State} (hcfg : t.cfg = s.cfg) (hx : offReply (slotAt t h) = offReply (slotAt s h)) :
    ReadsPast t h ↔ ReadsPast s h := by
  have htx : (slotAt t h).tx = (slotAt s h).tx := (congrArg Slot.tx hx :)
  unfold ReadsPast fcOf
  rw [hcfg, htx, countFits_congr hcfg hx]

theorem sound_prepared {reads : Nat → State → List (Nat × Nat × Bool)} {h : Nat} {s : State} (hs : Sound s)
    (he : slotExists s h = true) : Sound (prepared reads h s) := by
  rcases prepared_cases reads h s with e | e <;> rw [e]
  · exact hs
  · exact sound_fill hs (slot_lt he)

/-- An arm overruns only where the window it leaves does. -/
theorem faults_runArm {Q : Prop} {reads : Nat → State → List (Nat × Nat × Bool)} {a : Nat → State → State × Err} {h : Nat}
    {s : State} (hs : Sound s) (he : slotExists s h = true) (ha : ∀ u, Resp h u (a h u))
    (hw : ¬ Q → ∀ u, Sound u → Ended h s u → Inside h (a h u)) : FaultsOnly Q (runArm reads a h s) := by
  have ended := ended_prepared reads h s
  have sound := sound_prepared (reads := reads) hs he
  have exists' : slotExists (prepared reads h s) h = true := by unfold slotExists at *; rw [ended.cfg]; exact he
  exact faults_raise sound exists' (off_resp sound (slot_lt exists') (ha _)) fun hq => hw hq _ sound ended

theorem faults_hostArm {Q : Prop} {reads : Nat → State → List (Nat × Nat × Bool)} {a : Nat → State → State × Err} {h : Nat}
    {s : State} (hs : Sound s) (ha : ∀ u, Resp h u (a h u))
    (hw : ¬ Q → ∀ u, Sound u → Ended h s u → Inside h (a h u)) : FaultsOnly Q (hostArm h reads a s) :=
  faults_guarded hs fun hd => faults_runArm hs (slotExists_of_detached hd) ha hw

theorem faults_invokeOp {h : Nat} {s : State} (hs : Sound s) (he : slotExists s h = true) :
    FaultsOnly (ReadsPast s h) (invokeOp h s) := by
  unfold invokeOp
  split
  · next s' e hearly =>
    exact faults_raise hs he (off_resp hs (slot_lt he) (resp_early hearly)) fun _ => inside_earlyReply hs hearly
  · refine faults_runArm hs he (resp_arm _ h) fun hpast u hu ended => inside_arm hu fun hfc => ?_
    rw [countFits_congr ended.cfg ended.slot]
    exact not_not.mp fun hcount => hpast ⟨hfc, hcount⟩

/-- `INVOKE` on a slot whose reply fields alone were written. -/
theorem faults_invokeOp_received {h : Nat} {s t : State} (ht : Sound t) (he : slotExists t h = true) (hcfg : t.cfg = s.cfg)
    (hx : offReply (slotAt t h) = offReply (slotAt s h)) : FaultsOnly (ReadsPast s h) (invokeOp h t) :=
  (faults_invokeOp ht he).mono (readsPast_congr hcfg hx).mp

/-! ### What the TCP channel receives (R249) -/

theorem sound_storeHeader {h : Nat} {f : List Byte} {s : State} (hs : Sound s) (he : slotExists s h = true)
    (ht : s.cfg.params.transport = .tcp) : Sound (storeHeader h f s) := by
  obtain ⟨-, -, cap⟩ := tcp_caps ht
  exact sound_receive hs (slot_lt he) (by rw [List.length_take]; omega) (by omega)

theorem sound_storePayload {h n : Nat} {f : List Byte} {s : State} (hs : Sound s) (he : slotExists s h = true)
    (ht : s.cfg.params.transport = .tcp) (hn : n ≤ s.cfg.params.pduMax) (hf : 7 + n ≤ f.length) :
    Sound (storePayload h n f s) := by
  obtain ⟨-, -, cap⟩ := tcp_caps ht
  exact sound_receive hs (slot_lt he) (by rw [length_slice (by omega) hf]; omega) (by omega)

theorem faults_tcpReceive {h : Nat} {f : List Byte} {s : State} (hs : Sound s) (he : slotExists s h = true)
    (ht : s.cfg.params.transport = .tcp) : FaultsOnly (ReadsPast s h) (tcpReceive h f s) := by
  have header : Sound (storeHeader h f s) := sound_storeHeader hs he ht
  have raises : ∀ e, FaultsOnly (ReadsPast s h) (raise h e (storeHeader h f s)) := fun e => faults_raise_sound header he
  unfold tcpReceive
  refine faults_ite (fun _ => faults_raise_sound hs he) (fun _ => faults_ite (fun _ => raises _) (fun _ => ?_))
  split
  · exact raises _
  · next n hn =>
    refine faults_ite (fun _ => raises _) (fun hlen => ?_)
    have payload : Sound (storePayload h n f (storeHeader h f s)) :=
      sound_storePayload header he ht (payloadLen_le hn) (by omega)
    exact faults_invokeOp_received payload he rfl (by simp [storePayload, storeHeader, offReply])

/-! ### A tick (R323 to R332) -/

theorem sound_crcVerdict {h : Nat} {s : State} (hs : Sound s) (hh : h < s.cfg.params.poolCap) : Sound (crcVerdict h s) := by
  unfold crcVerdict
  split
  · exact hs
  · exact sound_upd _ hs hh (fun x => ⟨x.fits, x.tx, x.rx, x.tmpl⟩) rfl

theorem slotExists_pending {h : Nat} {s : State} (hs : Sound s) (hp : s.eng.pending = some h) : slotExists s h = true :=
  (hs.containers.pendingHolds h hp).1

theorem faults_engFail {Q : Prop} {h : Nat} {e : Err} {s : State} (hs : Sound s) (hp : s.eng.pending = some h) :
    FaultsOnly Q (engFail h e s) := by
  have exists' := slotExists_pending hs hp
  exact faults_raise_sound (sound_settle hs hp).1 exists'

theorem faults_finishFrame {h : Nat} {s t : State} (ht : Sound t) (hp : t.eng.pending = some h) (hcfg : t.cfg = s.cfg)
    (hx : offReply (slotAt t h) = offReply (slotAt s h)) : FaultsOnly (ReadsPast s h) (finishFrame h t) := by
  have exists' := slotExists_pending ht hp
  have verdict : (crcVerdict h t).eng = t.eng ∧ (crcVerdict h t).cfg = t.cfg ∧
      offReply (slotAt (crcVerdict h t) h) = offReply (slotAt t h) := by
    unfold crcVerdict
    split
    · exact ⟨rfl, rfl, rfl⟩
    · exact ⟨rfl, rfl, by simp [offReply]⟩
  obtain ⟨heng, hcfg', hx'⟩ := verdict
  have settled := (sound_settle (sound_crcVerdict ht (slot_lt exists')) (by rw [heng]; exact hp)).1
  refine faults_invokeOp_received settled ?_ (hcfg'.trans hcfg) (hx'.trans hx)
  unfold slotExists at *
  rw [show (settle (crcVerdict h t)).cfg = t.cfg from hcfg']
  exact exists'

theorem append_frame (h limit : Nat) (s : State) :
    (append h limit s).cfg = s.cfg ∧ offReply (slotAt (append h limit s) h) = offReply (slotAt s h) := by
  have stored : offReply (slotAt (updSlot s h fun x => { x with rx := writeBytes x.rx x.rxlen (taken s h limit),
                                                                rxlen := x.rxlen + (taken s h limit).length }) h) =
      offReply (slotAt s h) := by rw [slotAt_updSlot_self]; rfl
  simp only [append]
  split
  · exact ⟨rfl, stored⟩
  · exact ⟨rfl, stored⟩

theorem offReply_headGood (h : Nat) (s : State) : offReply (slotAt (headGood h s) h) = offReply (slotAt s h) :=
  (congrArg offReply (slotAt_updSlot_self s h fun x =>
    { x with exc := x.exc || isExceptionOf (fcOf s.cfg x) (readByte x.rx 1) }) :)

theorem faults_tickReceive {h : Nat} {s : State} (hs : Sound s) (hp : s.eng.pending = some h) :
    FaultsOnly (ReadsPast s h) (tickReceive h s) := by
  have appended := sound_append hs (pending_facts hs hp).1 (hs.bounds.at h).pre.explen
  have hp1 : (append h (slotAt s h).explen s).eng.pending = some h := by rw [(append_eng ..).1, hp]
  obtain ⟨hcfg, hx⟩ := append_frame h (slotAt s h).explen s
  unfold tickReceive
  refine faults_ite (fun _ => faults_ite (fun _ => faults_ite (fun _ => ?_) (fun _ => faults_ret _ _)) (fun _ => ?_))
    (fun _ => faults_ite (fun _ => faults_engFail appended hp1) (fun _ => faults_ret _ _))
  · exact faults_finishFrame (sound_headGood appended hp1) hp1 hcfg ((offReply_headGood h _).trans hx)
  · exact faults_engFail (sound_upd _ appended (pending_facts appended hp1).1 slotOk_unreceive rfl) hp1

theorem faults_tickHeadChecked {h : Nat} {s : State} (hs : Sound s) (hp : s.eng.pending = some h) :
    FaultsOnly (ReadsPast s h) (tickHeadChecked h s) := by
  have appended := sound_append hs (pending_facts hs hp).1 (needOf_le hs h)
  have hp1 : (append h (needOf (slotAt s h)) s).eng.pending = some h := by rw [(append_eng ..).1, hp]
  obtain ⟨hcfg, hx⟩ := append_frame h (needOf (slotAt s h)) s
  unfold tickHeadChecked
  exact faults_ite (fun _ => faults_finishFrame appended hp1 hcfg hx)
    (fun _ => faults_ite (fun _ => faults_engFail appended hp1) (fun _ => faults_ret _ _))

theorem faults_tickIdle {Q : Prop} {s : State} (hs : Sound s) : FaultsOnly Q (tickIdle s) := by
  obtain ⟨popped, winner⟩ := sound_popReady hs
  unfold tickIdle
  refine faults_ite (fun _ => faults_ret _ _) (fun _ => faults_ite (fun _ => faults_ret _ _) (fun _ => ?_))
  split
  · exact faults_ret _ _
  · next s' h he =>
    rw [he] at popped winner
    obtain ⟨-, hh, -⟩ := winner h rfl
    have exists' : slotExists s' h = true := decide_eq_true hh
    exact faults_checked popped exists'
      (faults_ite (fun _ => faults_raise_sound (sound_sendFrame popped hh) exists') (fun _ => faults_ret _ _))

/-- R38: an engine that awaits a response has a pending transaction. -/
theorem faults_withPending {Q : Prop} {s : State} {k : Nat → Out} (hs : Sound s)
    (hst : s.eng.state = .receive ∨ s.eng.state = .headChecked)
    (hk : ∀ h, s.eng.pending = some h → FaultsOnly Q (k h)) : FaultsOnly Q (withPending s k) := by
  obtain ⟨h, hp⟩ := Option.isSome_iff_exists.mp (hs.containers.awaiting.mpr hst)
  simp only [withPending, hp]
  exact faults_checked hs (slotExists_pending hs hp) (hk h hp)

theorem faults_execTick {s : State} (hs : Sound s) :
    FaultsOnly (∃ h, s.eng.pending = some h ∧ ReadsPast s h) (execTick s) := by
  refine faults_onlyOn fun _ => ?_
  cases hst : s.eng.state with
  | bufferClear => exact faults_ret _ _
  | idle => exact faults_tickIdle hs
  | receive =>
    exact faults_withPending hs (.inl hst) fun h hp => (faults_tickReceive hs hp).mono fun past => ⟨h, hp, past⟩
  | headChecked =>
    exact faults_withPending hs (.inr hst) fun h hp => (faults_tickHeadChecked hs hp).mono fun past => ⟨h, hp, past⟩

/-! ### Every operation -/

theorem faults_build {Q : Prop} (t : Target) (hd : Nat) (r : Request) (s : State) : FaultsOnly Q (build t hd r s) := by
  unfold build
  split
  · exact faults_ret _ _
  · refine faults_ite (fun _ => ?_) (fun _ => faults_ret _ _)
    split <;> exact faults_ret _ _

theorem faults_sbTake {Q : Prop} (s : State) (p : Nat → Bool) : FaultsOnly Q (sbTake s p) := by
  unfold sbTake
  split <;> exact faults_ret _ _

theorem faults_sbAdd {Q : Prop} (h : Nat) (s : State) : FaultsOnly Q (execSbAdd h s) := by
  refine faults_onlyOn fun _ => ?_
  split
  · exact faults_ret _ _
  · exact faults_withSlot fun _ => faults_withDetached fun _ => faults_ret _ _

/-- The two operations that may run past a buffer (log 12): a checksum behind a PDU that is too long, and the end of a coil
read that expects more bytes than the buffer has. -/
def MayOverrun (i : Instr) (s : State) : Prop :=
  (∃ h len, i = .rtuSetCrc h len ∧ s.cfg.bufCap < 1 + len + 2) ∨ ∃ h, ReadsCoils i s h ∧ ¬ CountFits s h

/-- The operations one by one: from a sound state none faults but where `MayOverrun` says. -/
theorem exec_faults {s : State} (hs : Sound s) (i : Instr) : FaultsOnly (MayOverrun i s) (exec i s) := by
  have answers : ∀ r t, FaultsOnly (MayOverrun i s) (ret r t) := faults_ret
  have rejects : ∀ r t, FaultsOnly (MayOverrun i s) (reject r t) := faults_reject
  have coils : ∀ h, ReadsCoils i s h → ¬ MayOverrun i s → ∀ u, Sound u → Ended h s u → Inside h (bitsArm h u) :=
    fun h hr hno u hu ended => inside_readCheck hu ((countFits_congr ended.cfg ended.slot).mpr
      (not_not.mp fun hcount => hno (.inr ⟨h, hr, hcount⟩)))
  cases i with
  | rtuFrame | tcpFrame | ssPeek | ssGetNext => exact faults_ite (fun _ => answers _ _) (fun _ => rejects _ _)
  | ssSet | ssSetRange | ssRemove | ssRemoveRange | ssClear | ssSetDelays =>
    exact faults_ite (fun _ => answers _ _) (fun _ => rejects _ _)
  | rtuExceptionFrame | buildRaw => exact faults_ite (fun _ => rejects _ _) (fun _ => answers _ _)
  | rdCoils | rdDiscrete | rdHolding | rdInput | wrCoil | wrReg | rdExcStatus | diag | wrCoils | wrRegs | maskWr | rwRegs =>
    exact faults_build _ _ _ s
  | rspRdCoils h => exact faults_hostArm hs (resp_readCheck h) (coils h (.inl rfl))
  | rspRdDiscrete h => exact faults_hostArm hs (resp_readCheck h) (coils h (.inr (.inl rfl)))
  | rspRdHolding h | rspRdInput h | rspRwRegs h => exact faults_hostArm hs (resp_regs h) fun _ _ hu _ => inside_regsArm hu
  | rspWrCoil h | rspWrReg h | rspWrCoils h | rspWrRegs h | rspMaskWr h =>
    exact faults_hostArm hs (fun u => resp_echo h _ u) fun _ _ hu _ => inside_echoArm hu _
  | rspRdExcStatus h =>
    exact faults_hostArm hs (fun _ => .window _ 1 (by omega)) fun _ _ hu _ => inside_excStatusArm hu
  | rspDiag h => exact faults_hostArm hs (resp_diag h) fun _ _ hu _ => inside_diagArm hu
  | rspException h => exact faults_hostArm hs (resp_exception h) fun _ u _ _ => inside_exceptionArm h u
  | rspWrongFunction h | rspNotSupported h => exact faults_hostArm hs (fun _ => .refl _) fun _ _ hu _ => inside_refl hu h _
  | rtuSetHead | rtuCheckHead | tcpSetMbap | tcpCheckMbap | tcpPayloadLen =>
    exact faults_onlyOn fun _ => faults_withSlot fun _ => answers _ _
  | rtuSetCrc h len =>
    refine faults_onlyOn fun _ => faults_withSlot fun _ => faults_ite (fun _ => answers _ _) (fun hlong f hf => ?_)
    cases hf
    exact ⟨rfl, .inl ⟨h, len, rfl, by omega⟩⟩
  | rtuCheckCrc => exact faults_onlyOn fun _ => faults_withSlot fun he => faults_checked hs he (answers _ _)
  | crc16 | qRead | qPeek | qReadReady | qHasReady | qClear | clearAll | setBigEndian | encodeElems => exact answers _ _
  | tcpReceive h f =>
    refine faults_onlyOn fun ht => faults_guarded hs fun hd =>
      (faults_tcpReceive hs (slotExists_of_detached hd) ht).mono fun ⟨hfc, hcount⟩ => ?_
    exact .inr ⟨h, .inr (.inr ⟨hfc, .inr (.inl ⟨f, rfl⟩)⟩), hcount⟩
  | sbAdd h => exact faults_sbAdd h s
  | sbRead | sbReadNextTimeout => exact faults_onlyOn fun _ => faults_sbTake s _
  | tcpFail =>
    exact faults_onlyOn fun _ => faults_withSlot fun he => faults_withDetached fun _ => faults_raise_sound hs he
  | repeatIfNeeded => exact faults_guarded hs fun _ => answers _ _
  | qAdd o =>
    cases o with
    | none => exact answers _ _
    | some k =>
      exact faults_ite (fun _ => answers _ _)
        (fun _ => faults_withSlot fun _ => faults_withDetached fun _ => answers _ _)
  | tick =>
    refine (faults_execTick hs).mono fun ⟨h, hp, hfc, hcount⟩ => ?_
    exact .inr ⟨h, .inr (.inr ⟨hfc, .inr (.inr ⟨rfl, hp⟩)⟩), hcount⟩
  | invoke h =>
    refine faults_guarded hs fun hd => (faults_invokeOp hs (slotExists_of_detached hd)).mono fun ⟨hfc, hcount⟩ => ?_
    exact .inr ⟨h, .inr (.inr ⟨hfc, .inl rfl⟩), hcount⟩
  | normalize h =>
    refine faults_withSlot fun he => faults_checked hs he (faults_ite (fun _ => answers _ _) (fun _ => ?_))
    exact faults_withDetached fun _ => faults_raise hs he (off_resp hs (slot_lt he) .norm) fun _ =>
      inside_normalizeSlot (hs.bounds.at h).pre.rxlen
  | reset => exact faults_ite (fun _ => answers _ _) (fun _ => rejects _ _)

/-- A PDU of at most `PDU_MAX` bytes has room for its checksum. -/
theorem crc_fits {c : Cfg} {len : Nat} (hl : len ≤ c.params.pduMax) : 1 + len + 2 ≤ c.bufCap := by
  rw [bufCap_eq]
  unfold Cfg.hdr Params.hdr Cfg.trl Params.trl
  cases c.params.transport <;> simp <;> omega

end Sys2Proof.Machine

open Sys2Proof Sys2Proof.Machine Sys2Proof.Claims

/-- Settles O60: `exec_faults` names the only fault and the two operations it is left to; with lengths in range neither is
one of them. -/
theorem noOverrun : Obligations.NoOverrun := by
  intro s i hs
  refine ⟨fun waits => ?_, fun hcrc hcoils overrun => ?_, fun h len hl overrun => ?_⟩
  · have only := (exec_faults hs i _ waits).1
    cases only
  · rcases (exec_faults hs i _ overrun).2 with ⟨h, len, hi, -⟩ | ⟨h, hr, hcount⟩
    · exact hcrc h len hi
    · exact hcount (hcoils h hr)
  · rcases (exec_faults hs _ _ overrun).2 with ⟨h', len', hi, hlong⟩ | ⟨h', hr, -⟩
    · cases hi
      have := crc_fits (c := s.cfg) hl
      omega
    · simp [ReadsCoils] at hr

end

section
/-! The decoder against the encoder and the table's numbers (spec 30 R125, R126, R129; log 1): the round trips of
Laws/PerInstr.lean put together. -/

namespace Sys2Proof.Laws.RoundTrip

theorem of_every_instr (i : Instr) : Statement i := by
  cases i with
  | rtuFrame => exact rtuFrame _ _
  | rtuExceptionFrame => exact rtuExceptionFrame _ _ _
  | tcpFrame => exact tcpFrame _ _ _
  | rdCoils => exact rdCoils _ _ _ _
  | rdDiscrete => exact rdDiscrete _ _ _ _
  | rdHolding => exact rdHolding _ _ _ _ _
  | rdInput => exact rdInput _ _ _ _ _
  | wrCoil => exact wrCoil _ _ _ _
  | wrReg => exact wrReg _ _ _ _
  | rdExcStatus => exact rdExcStatus _ _
  | diag => exact diag _ _ _ _
  | wrCoils => exact wrCoils _ _ _ _
  | wrRegs => exact wrRegs _ _ _ _ _
  | maskWr => exact maskWr _ _ _ _ _
  | rwRegs => exact rwRegs _ _ _ _ _ _ _
  | buildRaw => exact buildRaw _ _ _
  | rspRdCoils => exact rspRdCoils _
  | rspRdDiscrete => exact rspRdDiscrete _
  | rspRdHolding => exact rspRdHolding _
  | rspRdInput => exact rspRdInput _
  | rspWrCoil => exact rspWrCoil _
  | rspWrReg => exact rspWrReg _
  | rspRdExcStatus => exact rspRdExcStatus _
  | rspDiag => exact rspDiag _
  | rspWrCoils => exact rspWrCoils _
  | rspWrRegs => exact rspWrRegs _
  | rspMaskWr => exact rspMaskWr _
  | rspRwRegs => exact rspRwRegs _
  | rspException => exact rspException _
  | rspWrongFunction => exact rspWrongFunction _
  | rspNotSupported => exact rspNotSupported _
  | rtuSetHead => exact rtuSetHead _ _
  | rtuSetCrc => exact rtuSetCrc _ _
  | rtuCheckHead => exact rtuCheckHead _
  | rtuCheckCrc => exact rtuCheckCrc _
  | crc16 => exact crc16 _
  | tcpSetMbap => exact tcpSetMbap _ _ _
  | tcpCheckMbap => exact tcpCheckMbap _
  | tcpPayloadLen => exact tcpPayloadLen _
  | tcpReceive => exact tcpReceive _ _
  | sbAdd => exact sbAdd _
  | sbRead => exact sbRead _
  | sbReadNextTimeout => exact sbReadNextTimeout _
  | tcpFail => exact tcpFail _ _
  | ssSet => exact ssSet _ _
  | ssSetRange => exact ssSetRange _ _ _
  | ssRemove => exact ssRemove _ _
  | ssRemoveRange => exact ssRemoveRange _ _ _
  | ssGetNext => exact ssGetNext _
  | ssPeek => exact ssPeek _
  | ssClear => exact ssClear _
  | ssSetDelays => exact ssSetDelays _ _ _
  | repeatIfNeeded => exact repeatIfNeeded _
  | qAdd => exact qAdd _
  | qRead => exact qRead
  | qPeek => exact qPeek
  | qReadReady => exact qReadReady
  | qHasReady => exact qHasReady
  | qClear => exact qClear
  | tick => exact tick
  | clearAll => exact clearAll
  | setBigEndian => exact setBigEndian _
  | invoke => exact invoke _
  | normalize => exact normalize _
  | encodeElems => exact encodeElems _ _
  | reset => exact reset _

end Sys2Proof.Laws.RoundTrip

namespace Sys2Proof

/-- A table word selects `i` when the bytes it gives are the command of `i` and zeros behind it. -/
theorem decodeTableWord_of_command {nbits w : Nat} {i : Instr} (hw : i.wf = true)
    (hc : tableCommand nbits w =
      encode i ++ List.replicate ((tableCommand nbits w).length - (encode i).length) 0#8) :
    decodeTableWord nbits w = some i := by
  have hd : decode (tableCommand nbits w) = .ok i := by
    rw [hc]
    exact Laws.RoundTrip.of_every_instr i hw _
  simp [decodeTableWord, hd]

/-- A table word whose first two bytes, the number and the class, are in no row selects nothing. -/
theorem decodeTableWord_of_no_row {nbits w : Nat} {num cls : Byte} {r : List Byte}
    (hc : tableCommand nbits w = num :: cls :: r) (hop : operandsOf cls num = none) :
    decodeTableWord nbits w = none := by
  simp [decodeTableWord, decode, decodeFront, hc, hop]

end Sys2Proof

open Sys2Proof

/-- Settles O3: the round trip of each operation (`Laws.RoundTrip`). -/
theorem decodeEncodeAgree : Obligations.DecodeEncodeAgree := Laws.RoundTrip.of_every_instr

/-- Settles O2: each number followed by zeros is the command of the operation it selects, whose operands are all zero; the
number 0x56 is in no row. -/
theorem numbersSelectOperations : Obligations.NumbersSelectOperations := by
  refine ⟨?rdHolding, ?rwRegs, ?rtuSetCrc, ?tcpFail, ?ssSetDelays, ?qReadReady, ?tick, ?reset, ?rspException, ?unused⟩
  case unused => exact decodeTableWord_of_no_row rfl (by decide)
  all_goals exact decodeTableWord_of_command (by decide) (by decide)

end

section
/-! The wire formats as byte images (spec 30 R100, R102, R104; log 5). -/

namespace Sys2Proof.Machine

open Sys2Proof.Claims

theorem pduInRange_iff {c : Cfg} {pdu : List Byte} :
    pduInRange c pdu = true ↔ 1 ≤ pdu.length ∧ pdu.length ≤ c.params.pduMax := by simp [pduInRange]

theorem rtuFrameBytes_eq_wireFrame (tid : Half) (u : Byte) (pdu : List Byte) :
    rtuFrameBytes u pdu = wireFrame .rtu tid u pdu := rfl

theorem tcpFrameBytes_eq_wireFrame (tid : Half) (u : Byte) (pdu : List Byte) :
    tcpFrameBytes tid u pdu = wireFrame .tcp tid u pdu := by
  simp [tcpFrameBytes, mbap, wireFrame, be16, hi8, lo8]

theorem exec_rtuFrame_of_inRange {s : State} {pdu : List Byte} (hr : pduInRange s.cfg pdu = true) (tid : Half)
    (u : Byte) : exec (.rtuFrame u pdu) s = ret (.bytes (wireFrame .rtu tid u pdu)) s := by
  rw [← rtuFrameBytes_eq_wireFrame]
  exact if_pos hr

theorem exec_tcpFrame_of_inRange {s : State} {pdu : List Byte} (hr : pduInRange s.cfg pdu = true) (tid : Half)
    (u : Byte) : exec (.tcpFrame tid u pdu) s = ret (.bytes (wireFrame .tcp tid u pdu)) s := by
  rw [← tcpFrameBytes_eq_wireFrame]
  exact if_pos hr

theorem exec_rtuFrame_of_outOfRange {s : State} {pdu : List Byte} (hr : ¬ pduInRange s.cfg pdu = true) (u : Byte) :
    exec (.rtuFrame u pdu) s = reject .outOfRange s := if_neg hr

theorem exec_tcpFrame_of_outOfRange {s : State} {pdu : List Byte} (hr : ¬ pduInRange s.cfg pdu = true) (tid : Half)
    (u : Byte) : exec (.tcpFrame tid u pdu) s = reject .outOfRange s := if_neg hr

theorem exec_rtuExceptionFrame_of_lt {fc : Byte} (hfc : fc.toNat < 128) (s : State) (tid : Half) (u c : Byte) :
    exec (.rtuExceptionFrame u fc c) s = ret (.bytes (wireFrame .rtu tid u [fc + 0x80#8, c])) s := by
  rw [← rtuFrameBytes_eq_wireFrame]
  exact if_neg (Nat.not_le.mpr hfc)

theorem exec_rtuExceptionFrame_of_ge {fc : Byte} (hfc : 128 ≤ fc.toNat) (s : State) (u c : Byte) :
    exec (.rtuExceptionFrame u fc c) s = reject .outOfRange s := if_pos hfc

end Sys2Proof.Machine

open Sys2Proof Sys2Proof.Machine

/-- Settles O9: in its ranges each format answers the frame's bytes, which are `wireFrame`'s, and outside them it is
rejected. -/
theorem wireFormats : Obligations.WireFormats := by
  refine ⟨?rtu, ?exception, ?tcp, ?outside, ?exceptionOutside⟩
  case rtu => exact fun s u pdu h1 hmax => exec_rtuFrame_of_inRange (pduInRange_iff.mpr ⟨h1, hmax⟩) 0#16 u
  case exception => exact fun s u fc c hfc => exec_rtuExceptionFrame_of_lt hfc s 0#16 u c
  case tcp => exact fun s tid u pdu h1 hmax => exec_tcpFrame_of_inRange (pduInRange_iff.mpr ⟨h1, hmax⟩) tid u
  case outside =>
    intro s tid u pdu hout
    have hr := mt pduInRange_iff.mp hout
    exact ⟨exec_rtuFrame_of_outOfRange hr u, exec_tcpFrame_of_outOfRange hr tid u⟩
  case exceptionOutside => exact fun s u fc c hfc => exec_rtuExceptionFrame_of_ge hfc s u c

end

section
/-! What a build does (spec 40 R140): its slot, its target and its first unit, then the three ways it ends: queued, refused
by a check, refused by a full queue. -/

namespace Sys2Proof.Machine

open Sys2Proof.Claims

/-! ### The scan of addresses and the target (R143, R270, R279) -/

theorem least_findFrom (x : SlaveSet) (lo n : Nat) : Least x lo (lo + n) (findFrom (member x) lo n) := by
  cases hf : findFrom (member x) lo n with
  | none => exact findFrom_none hf
  | some a => exact findFrom_some hf

theorem findFrom_eq_some {p : Nat → Bool} {start n a : Nat} (hlo : start ≤ a) (hhi : a < start + n) (hp : p a = true)
    (hbelow : ∀ b, start ≤ b → b < a → p b = false) : findFrom p start n = some a := by
  cases hf : findFrom p start n with
  | none => simp [findFrom_none hf a hlo hhi] at hp
  | some b =>
    obtain ⟨hb, -, hpb, hfirst⟩ := findFrom_some hf
    rcases Nat.lt_trichotomy a b with hab | rfl | hba
    · simp [hfirst a hlo hab] at hp
    · rfl
    · simp [hbelow b hb hba] at hpb

theorem nonempty_iff (x : SlaveSet) : nonempty x = true ↔ HasMember x := by
  have least := least_findFrom x 0 248
  unfold nonempty
  cases hf : findFrom (member x) 0 248 with
  | none =>
    rw [hf] at least
    refine iff_of_false (by simp) fun ⟨a, ha, hm⟩ => ?_
    simp [least a (Nat.zero_le a) (by omega)] at hm
  | some a =>
    rw [hf] at least
    obtain ⟨-, ha, hm, -⟩ := least
    exact iff_of_true rfl ⟨a, by omega, hm⟩

theorem targetError_ne_ok (t : Target) : targetError t ≠ .ok := by cases t <;> simp [targetError]

theorem checkTarget_of_ok {s : State} {t : Target} (ht : TargetOk s t) : checkTarget s t = .ok := by
  cases t with
  | unit u => exact if_neg fun ⟨rtu, hu⟩ => Nat.not_lt.mpr (ht rtu) hu
  | set k => exact if_pos ((nonempty_iff _).mpr ht)

theorem checkTarget_of_not_ok {s : State} {t : Target} (ht : ¬ TargetOk s t) : checkTarget s t = targetError t := by
  cases t with
  | unit u =>
    obtain ⟨rtu, hu⟩ := Classical.not_imp.mp ht
    exact if_pos ⟨rtu, Nat.not_le.mp hu⟩
  | set k => exact if_neg (mt (nonempty_iff _).mp ht)

/-- R140 step 6: a target that passes its check has a first unit. -/
theorem firstUnit_of_targetOk {s : State} {t : Target} (ht : TargetOk s t) :
    FirstUnit s t (firstUnit t (targetSet s t)).1 (firstUnit t (targetSet s t)).2 := by
  cases t with
  | unit u => exact ⟨rfl, rfl⟩
  | set k =>
    have least := least_findFrom (targetSet s (.set k)) 0 248
    have next : nextMember (targetSet s (.set k)) = findFrom (member (targetSet s (.set k))) 0 248 := rfl
    obtain ⟨a, ha⟩ := Option.isSome_iff_exists.mp ((nonempty_iff (targetSet s (.set k))).mpr ht)
    rw [ha] at least next
    obtain ⟨hlo, hlt, hmem, hfirst⟩ := least
    have unit : (BitVec.ofNat 8 a).toNat = a := by simp; omega
    simp only [firstUnit, advance, next, Option.getD_some, FirstUnit, unit]
    exact ⟨⟨hlo, hlt, hmem, hfirst⟩, rfl⟩

/-! ### The slot of a build (R140 step 2) -/

theorem freeSlot_eq_some_iff {s : State} {h : Nat} : freeSlot s = some h ↔ Lowest s h := by
  constructor
  · intro hf
    obtain ⟨-, hlt, hfree, hbelow⟩ := findFrom_some hf
    exact ⟨by simpa using hlt, by simpa using hfree, fun k hk => by simpa using hbelow k (Nat.zero_le k) hk⟩
  · rintro ⟨hlt, hfree, hbelow⟩
    exact findFrom_eq_some (Nat.zero_le h) (by simpa using hlt) (by simpa using hfree)
      fun k _ hk => by simpa using hbelow k hk

theorem freeSlot_eq_none {s : State} (hall : ∀ h, h < s.cfg.params.poolCap → (slotAt s h).inuse = true) :
    freeSlot s = none := by
  cases hf : freeSlot s with
  | none => rfl
  | some h =>
    obtain ⟨hlt, hfree, -⟩ := freeSlot_eq_some_iff.mp hf
    simp [hall h hlt] at hfree

/-! ### The frame (R100, R104, R140 steps 5 to 8) -/

theorem tidAfter_eq_nextTid (s : State) : tidAfter s = nextTid s := rfl

theorem readBytes_writeBytes_before {m : Memory} (front : List Byte) {body : List Byte}
    (hm : readBytes m front.length body.length = body) :
    readBytes (writeBytes m 0 front) 0 (front.length + body.length) = front ++ body := by
  rw [readBytes_add, readBytes_writeBytes_self, readBytes_writeBytes_outside _ _ (by omega), Nat.zero_add, hm]

theorem readBytes_writeBytes_behind {m : Memory} {n : Nat} {front : List Byte} (back : List Byte)
    (hm : readBytes m 0 n = front) : readBytes (writeBytes m n back) 0 (n + back.length) = front ++ back := by
  rw [readBytes_add, readBytes_writeBytes_outside _ _ (by omega), Nat.zero_add, readBytes_writeBytes_self, hm]

theorem rtuFrame_of_headed (u : Byte) {pdu : List Byte} {x : Slot} (hp : readBytes x.tx 1 pdu.length = pdu) :
    readBytes (rtuCrc pdu.length (rtuHead u x)).tx 0 (1 + pdu.length + 2) = rtuFrameBytes u pdu := by
  have head : readBytes (rtuHead u x).tx 0 (1 + pdu.length) = u :: pdu := readBytes_writeBytes_before [u] hp
  have whole := readBytes_writeBytes_behind (le16 (crc (u :: pdu))) head
  simp only [rtuCrc, head]
  exact whole

theorem tcpFrame_of_headed (tid : Half) (u : Byte) {pdu : List Byte} {x : Slot}
    (hp : readBytes x.tx 7 pdu.length = pdu) :
    readBytes (tcpHead tid u pdu.length x).tx 0 (7 + pdu.length) = tcpFrameBytes tid u pdu := by
  have header := length_mbap tid u pdu.length
  have whole := readBytes_writeBytes_before (m := x.tx) (mbap tid u pdu.length) (body := pdu) (by rw [header]; exact hp)
  rwa [header] at whole

/-- R223, R224, R241: a new header around the PDU in the transmit buffer makes the frame of that PDU. -/
theorem framed_headed {s : State} (u : Byte) {pdu : List Byte} {x : Slot}
    (hp : readBytes x.tx s.cfg.hdr pdu.length = pdu) :
    Framed s u pdu (headed s.cfg.params.transport (tidAfter s) u pdu.length x) := by
  refine ⟨headed_txlen s.cfg.params (tidAfter s) u pdu.length x, ?_⟩
  rw [headed_txlen, ← tidAfter_eq_nextTid]
  unfold Cfg.hdr at hp ⊢
  generalize tidAfter s = tid
  cases htr : s.cfg.params.transport with
  | rtu =>
    simp only [Params.hdr, Params.trl, htr] at hp ⊢
    rw [← rtuFrameBytes_eq_wireFrame]
    exact ⟨rtuFrame_of_headed u hp, readBytes_writeBytes_self x.tmpl 0 [u]⟩
  | tcp =>
    simp only [Params.hdr, Params.trl, htr] at hp ⊢
    have header := length_mbap tid u pdu.length
    have template := readBytes_writeBytes_self x.tmpl 0 (mbap tid u pdu.length)
    rw [header] at template
    rw [← tcpFrameBytes_eq_wireFrame]
    exact ⟨tcpFrame_of_headed tid u hp, template.trans (List.take_left' header).symm⟩

/-! ### The slot a build leaves (R140, R148) -/

theorem framed_buildFrame (h : Nat) (t : Target) (hd : Nat) (r : Request) (s : State) :
    Framed s (firstUnit t (targetSet s t)).1 r.pdu (slotAt (buildFrame h t hd r s) h) := by
  rw [buildFrame_slot, if_pos rfl]
  exact framed_headed (x := { fillRequest s.cfg r (allocated s t hd) with ss := (firstUnit t (targetSet s t)).2 })
    _ (readBytes_writeBytes_self [] s.cfg.hdr r.pdu)

theorem template_buildFrame (h : Nat) (t : Target) (hd : Nat) (r : Request) (s : State) :
    readBytes (slotAt (buildFrame h t hd r s) h).tmpl s.cfg.hdr r.tmpl.length = r.tmpl := by
  rw [buildFrame_slot, if_pos rfl]
  exact (headed_tmpl s.cfg.params ..).trans (readBytes_writeBytes_self [] s.cfg.hdr r.tmpl)

/-- R140 steps 3, 5 and 8: all of the slot but the frame and the template's bytes. -/
theorem offFrame_buildFrame (h : Nat) (t : Target) (hd : Nat) (r : Request) (s : State) :
    offFrame (slotAt (buildFrame h t hd r s) h) =
      { Slot.cleared with
        inuse := true, handler := some hd, ss := (firstUnit t (targetSet s t)).2, tmpllen := r.tmpl.length,
        explen := s.cfg.hdr + r.pduExplen + s.cfg.trl, esize := r.esize, qtime := s.nowMs } := by
  rw [buildFrame_slot, if_pos rfl]
  cases s.cfg.params.transport <;> rfl

@[simp] theorem q_buildFrame (h : Nat) (t : Target) (hd : Nat) (r : Request) (s : State) :
    (buildFrame h t hd r s).q = s.q := (congrArg State.q (buildFrame_frame h t hd r s) :)

@[simp] theorem cfg_buildFrame (h : Nat) (t : Target) (hd : Nat) (r : Request) (s : State) :
    (buildFrame h t hd r s).cfg = s.cfg := (congrArg State.cfg (buildFrame_frame h t hd r s) :)

theorem slotsBut_buildFrame (h : Nat) (t : Target) (hd : Nat) (r : Request) (s : State) :
    SlotsBut h s (buildFrame h t hd r s) := fun k hk => by rw [buildFrame_slot, if_neg hk]

/-- R140 step 8, R148: a build whose frame finds room in the queue. -/
theorem built_of_push {s : State} {h : Nat} {t : Target} {hd : Nat} {r : Request} (hq : QueueOk s)
    (room : s.q.count < s.cfg.params.queueCap) (ht : TargetOk s t) :
    Built s (answer (.handle (some h)) (qPush (some h) (buildFrame h t hd r s)).1) h t hd r.pdu r.tmpl r.pduExplen
      r.esize := by
  have frame := buildFrame_frame h t hd r s
  have queue := q_buildFrame h t hd r s
  have cfg := cfg_buildFrame h t hd r s
  have pushed := qPush_frame (some h) (buildFrame h t hd r s)
  have slots (k : Nat) : slotAt (answer (.handle (some h)) (qPush (some h) (buildFrame h t hd r s)).1) k =
      slotAt (buildFrame h t hd r s) k := slotAt_congr (congrArg State.pool pushed :) k
  have slot := offFrame_buildFrame h t hd r s
  constructor
  case result => rfl
  case noEvent => exact (congrArg State.events pushed :).trans (congrArg State.events frame :)
  case queued =>
    rw [qContent_answer, qContent_qPush (queueOk_congr queue cfg hq) h (by rw [queue, cfg]; exact room),
      qContent_congr queue cfg]
  case ctx => exact (congrArg State.ctx pushed :).trans (congrArg State.ctx frame :)
  case frame =>
    exact ⟨by simp, (congrArg State.freeCount pushed :).trans (congrArg State.freeCount frame :)⟩
  case slots => exact fun k hk => (slots k).trans (slotsBut_buildFrame h t hd r s k hk)
  all_goals rw [slots]
  case framed => exact ⟨_, _, firstUnit_of_targetOk ht, framed_buildFrame h t hd r s, (congrArg Slot.ss slot :)⟩
  case template => exact ⟨template_buildFrame h t hd r s, (congrArg Slot.tmpllen slot :)⟩
  case lengths => exact ⟨(congrArg Slot.explen slot :), (congrArg Slot.esize slot :)⟩
  case owner => exact ⟨(congrArg Slot.inuse slot :), (congrArg Slot.handler slot :)⟩
  case fresh =>
    exact ⟨(congrArg Slot.err slot :), (congrArg Slot.rxlen slot :), (congrArg Slot.exc slot :),
      (congrArg Slot.winLen slot :)⟩
  case stamped => exact ⟨(congrArg Slot.qtime slot :), (congrArg Slot.delay slot :)⟩

/-! ### How a build ends (R140, R142, R149) -/

theorem buildErr_of_targetOk {s : State} {t : Target} (ht : TargetOk s t) (r : Request) :
    buildErr s t r = checkArgs s.cfg r := if_pos (checkTarget_of_ok ht)

theorem buildErr_of_not_targetOk {s : State} {t : Target} (ht : ¬ TargetOk s t) (r : Request) :
    buildErr s t r = targetError t := by
  rw [buildErr, checkTarget_of_not_ok ht, if_neg (targetError_ne_ok t)]

theorem build_of_no_slot {s : State} (hall : ∀ h, h < s.cfg.params.poolCap → (slotAt s h).inuse = true) (t : Target)
    (hd : Nat) (r : Request) :
    build t hd r s = ret (.handle none) (buildNoSlot .poolExhausted t hd r.fc s) := by
  simp [build, freeSlot_eq_none hall]

theorem build_of_err {s : State} {h : Nat} {t : Target} {r : Request} (hl : Lowest s h) (he : buildErr s t r ≠ .ok)
    (hd : Nat) :
    build t hd r s =
      ret (.handle none) (buildFail h (buildErr s t r) t hd r.fc (setSlot s h (allocated s t hd))) := by
  simp [build, freeSlot_eq_some_iff.mpr hl, he]

theorem build_of_room {s : State} {h : Nat} {t : Target} {r : Request} (hl : Lowest s h) (he : buildErr s t r = .ok)
    (hc : s.q.count ≠ s.cfg.params.queueCap) (hd : Nat) :
    build t hd r s = ret (.handle (some h)) (qPush (some h) (buildFrame h t hd r s)).1 := by
  have room : (buildFrame h t hd r s).q.count ≠ (buildFrame h t hd r s).cfg.params.queueCap := by simpa using hc
  simp [build, freeSlot_eq_some_iff.mpr hl, he, qPush_some h room]

theorem build_of_full {s : State} {h : Nat} {t : Target} {r : Request} (hl : Lowest s h) (he : buildErr s t r = .ok)
    (hc : s.q.count = s.cfg.params.queueCap) (hd : Nat) :
    build t hd r s = ret (.handle none) (buildFail h .queueFull t hd r.fc (buildFrame h t hd r s)) := by
  have full : (buildFrame h t hd r s).q.count = (buildFrame h t hd r s).cfg.params.queueCap := by simpa using hc
  simp [build, freeSlot_eq_some_iff.mpr hl, he, qPush_full h full]

/-- A build that answers a handle had that slot for its own and passed its checks. -/
theorem of_build_answers_slot {s t' : State} {h : Nat} {t : Target} {hd : Nat} {r : Request}
    (hb : build t hd r s = .next t') (hr : t'.result = .handle (some h)) : Lowest s h ∧ buildErr s t r = .ok := by
  unfold build at hb
  split at hb
  · cases hb; cases hr
  · next k hfree =>
    split at hb
    · next he =>
      split at hb
      · cases hb; cases hr; exact ⟨freeSlot_eq_some_iff.mp hfree, he⟩
      · cases hb; cases hr
    · cases hb; cases hr

theorem built_of_canBuild {s : State} {h : Nat} {t : Target} {r : Request} (hb : CanBuild s h t)
    (ha : checkArgs s.cfg r = .ok) (hd : Nat) :
    ∃ t', build t hd r s = .next t' ∧ Built s t' h t hd r.pdu r.tmpl r.pduExplen r.esize := by
  obtain ⟨-, hq, room, hl, ht⟩ := hb
  exact ⟨_, build_of_room hl ((buildErr_of_targetOk ht r).trans ha) (by omega) hd, built_of_push hq room ht⟩

theorem buildFailed_of_buildFail {s s' : State} {h : Nat} (hev : s'.events = s.events) (hslots : SlotsBut h s s')
    (e : Err) (t : Target) (hd : Nat) (fc : Byte) :
    BuildFailed s (answer (.handle none) (buildFail h e t hd fc s')) h t hd fc e := by
  refine ⟨rfl, ?_, ?_, fun k hk => ?_⟩
  · rw [← hev]; rfl
  · rw [slotAt_answer, slotAt_buildFail, if_pos rfl]
  · rw [slotAt_answer, slotAt_buildFail, if_neg hk, hslots k hk]

theorem offPool_setSlot (s : State) (h : Nat) (x : Slot) : offPool (setSlot s h x) = offPool s := rfl

theorem offPool_buildFail (r : Result) (h : Nat) (e : Err) (t : Target) (hd : Nat) (fc : Byte) (s : State) :
    offPool (answer r (buildFail h e t hd fc s)) = offPool s := calc
  offPool (answer r (buildFail h e t hd fc s))
  _ = offPool (release h (updSlot s h fun x => { x with err := e })) := rfl
  _ = offPool s := (offPool_setSlot ..).trans (offPool_setSlot ..)

/-- R149: a check that fails leaves of the build only its `Done`. -/
theorem buildFailed_of_err {s : State} {h : Nat} {t : Target} {r : Request} {e : Err} (hl : Lowest s h)
    (he : buildErr s t r = e) (hne : e ≠ .ok) (hd : Nat) :
    ∃ t', build t hd r s = .next t' ∧ BuildFailed s t' h t hd r.fc e ∧ offPool t' = offPool s := by
  subst he
  have others : SlotsBut h s (setSlot s h (allocated s t hd)) := fun k hk => slotAt_setSlot_ne s _ hk
  have ends := build_of_err hl hne hd
  have failed := buildFailed_of_buildFail (setSlot_events s h _) others (buildErr s t r) t hd r.fc
  exact ⟨_, ends, failed, (offPool_buildFail ..).trans (offPool_setSlot ..)⟩

end Sys2Proof.Machine

end

section
/-! The argument checks of the build operations (spec 40 R144 to R147) and the request each operation makes
(R150 to R162), then the proofs about the builds that are queued. -/

namespace Sys2Proof.Machine

open Sys2Proof.Claims

/-! ### The checks of a request as stages (R144) -/

/-- Checks that all give the error `e`, and all pass exactly if `P`. -/
def Stage (l : List (Bool × Err)) (e : Err) (P : Prop) : Prop := (∀ ck ∈ l, ck.2 = e) ∧ ((∀ ck ∈ l, ck.1 = true) ↔ P)

theorem stage_nil (e : Err) : Stage [] e True := by simp [Stage]

theorem Stage.append {l m : List (Bool × Err)} {e : Err} {P Q : Prop} (hl : Stage l e P) (hm : Stage m e Q) :
    Stage (l ++ m) e (P ∧ Q) := by
  refine ⟨List.forall_mem_append.mpr ⟨hl.1, hm.1⟩, ?_⟩
  rw [List.forall_mem_append, hl.2, hm.2]

theorem Stage.firstFailed_of_holds {l : List (Bool × Err)} {e : Err} {P : Prop} (hs : Stage l e P) (hp : P)
    (m : List (Bool × Err)) : firstFailed (l ++ m) = firstFailed m := by
  have passed := hs.2.mpr hp
  clear hs
  induction l with
  | nil => rfl
  | cons ck l ih =>
    obtain ⟨ok, e'⟩ := ck
    obtain ⟨rfl, rest⟩ := List.forall_mem_cons.mp passed
    exact ih rest

theorem Stage.firstFailed_of_fails {l : List (Bool × Err)} {e : Err} {P : Prop} (hs : Stage l e P) (hp : ¬ P)
    (m : List (Bool × Err)) : firstFailed (l ++ m) = e := by
  obtain ⟨errs, holds⟩ := hs
  have failed := mt holds.mp hp
  clear holds hp
  induction l with
  | nil => simp at failed
  | cons ck l ih =>
    obtain ⟨ok, e'⟩ := ck
    obtain ⟨rfl, errs⟩ := List.forall_mem_cons.mp errs
    cases ok with
    | false => rfl
    | true => exact ih errs fun rest => failed (List.forall_mem_cons.mpr ⟨rfl, rest⟩)

/-- R144: the checks of a request come in the order of the rule, each stage with its condition; the size is looked at only
once the element shape is right. -/
structure InOrder (c : Cfg) (r : Request) (shape quantity address size : Prop) : Prop where
  checks : ∃ sh q a, r.checks = sh ++ (q ++ a) ∧ Stage sh .invalidArgument shape ∧ Stage q .invalidQuantity quantity ∧
    Stage a .invalidAddress address
  size : shape → (r.pdu.length ≤ c.params.pduMax ∧ r.pduExplen ≤ c.params.pduMax ↔ size)

section
variable {c : Cfg} {r : Request} {shape quantity address size : Prop} (H : InOrder c r shape quantity address size)
include H

theorem InOrder.checkArgs_of_not_shape (h1 : ¬ shape) : checkArgs c r = .invalidArgument := by
  obtain ⟨sh, q, a, hr, hsh, -, -⟩ := H.checks
  rw [checkArgs, hr, List.append_assoc, hsh.firstFailed_of_fails h1]

theorem InOrder.checkArgs_of_not_quantity (h1 : shape) (h2 : ¬ quantity) : checkArgs c r = .invalidQuantity := by
  obtain ⟨sh, q, a, hr, hsh, hq, -⟩ := H.checks
  rw [checkArgs, hr, List.append_assoc, List.append_assoc, hsh.firstFailed_of_holds h1, hq.firstFailed_of_fails h2]

theorem InOrder.checkArgs_of_not_address (h1 : shape) (h2 : quantity) (h3 : ¬ address) :
    checkArgs c r = .invalidAddress := by
  obtain ⟨sh, q, a, hr, hsh, hq, ha⟩ := H.checks
  rw [checkArgs, hr, List.append_assoc, List.append_assoc, hsh.firstFailed_of_holds h1, hq.firstFailed_of_holds h2,
    ha.firstFailed_of_fails h3]

theorem InOrder.checkArgs_eq_size (h1 : shape) (h2 : quantity) (h3 : address) :
    checkArgs c r = firstFailed [sizeCheck c r] := by
  obtain ⟨sh, q, a, hr, hsh, hq, ha⟩ := H.checks
  rw [checkArgs, hr, List.append_assoc, List.append_assoc, hsh.firstFailed_of_holds h1, hq.firstFailed_of_holds h2,
    ha.firstFailed_of_holds h3]

theorem InOrder.checkArgs_of_not_size (h1 : shape) (h2 : quantity) (h3 : address) (h4 : ¬ size) :
    checkArgs c r = .tooManyData := by
  have tooLong := mt (H.size h1).mp h4
  rw [H.checkArgs_eq_size h1 h2 h3]
  simp [firstFailed, sizeCheck, tooLong]

theorem InOrder.checkArgs_ok (h1 : shape) (h2 : quantity) (h3 : address) (h4 : size) : checkArgs c r = .ok := by
  have fits := (H.size h1).mpr h4
  rw [H.checkArgs_eq_size h1 h2 h3]
  simp [firstFailed, sizeCheck, fits]

end

theorem stage_shapeOk (c : Cfg) (es n : Nat) :
    Stage [shapeOk c es n] .invalidArgument (1 ≤ es ∧ es ≤ c.params.esMax ∧ n * ts es % 2 = 0) := by
  simp [Stage, shapeOk, and_assoc]

theorem stage_quantityIn (q lo hi : Nat) : Stage [quantityIn q lo hi] .invalidQuantity (lo ≤ q ∧ q ≤ hi) := by
  simp [Stage, quantityIn]

theorem stage_addressIn (a : Half) (q : Nat) : Stage [addressIn a q] .invalidAddress (a.toNat + q ≤ 65536) := by
  simp [Stage, addressIn]

/-! ### The checks of each request -/

theorem inOrder_readBits {c : Cfg} (hc : 8 ≤ c.params.pduMax) (fc : Byte) (a : Half) (q : Nat) :
    InOrder c (readBitsReq fc a q) True (1 ≤ q ∧ q ≤ 2000) (a.toNat + q ≤ 65536) (2 + ceil8 q ≤ c.params.pduMax) where
  checks := ⟨[], _, _, rfl, stage_nil _, stage_quantityIn q 1 2000, stage_addressIn a q⟩
  size := fun _ => by simp [readBitsReq, be16]; omega

theorem inOrder_readRegs {c : Cfg} (hc : 8 ≤ c.params.pduMax) (fc : Byte) (a : Half) (n es : Nat) :
    InOrder c (readRegsReq c fc a n es) (1 ≤ es ∧ es ≤ c.params.esMax ∧ n * ts es % 2 = 0)
      (1 ≤ regsOf es n ∧ regsOf es n ≤ 125) (a.toNat + regsOf es n ≤ 65536)
      (2 + 2 * regsOf es n ≤ c.params.pduMax) where
  checks := ⟨_, _, _, rfl, stage_shapeOk c es n, stage_quantityIn _ 1 125, stage_addressIn a _⟩
  size := fun _ => by simp [readRegsReq, be16]; omega

theorem inOrder_wrCoils {c : Cfg} (hc : 8 ≤ c.params.pduMax) (a : Half) (bits : List Bool) :
    InOrder c (wrCoilsReq a bits) True (1 ≤ bits.length ∧ bits.length ≤ 1968) (a.toNat + bits.length ≤ 65536)
      (6 + ceil8 bits.length ≤ c.params.pduMax) where
  checks := ⟨[], _, _, rfl, stage_nil _, stage_quantityIn _ 1 1968, stage_addressIn a _⟩
  size := fun _ => by simp [wrCoilsReq, be16, length_pack]; omega

theorem two_mul_regsOf {es n : Nat} (h : n * ts es % 2 = 0) : 2 * regsOf es n = n * ts es := by
  unfold regsOf; omega

theorem inOrder_wrRegs {c : Cfg} (hc : 8 ≤ c.params.pduMax) (a : Half) (es : Nat) (vals : List Nat) :
    InOrder c (wrRegsReq c a es vals) (1 ≤ es ∧ es ≤ c.params.esMax ∧ vals.length * ts es % 2 = 0)
      (1 ≤ regsOf es vals.length ∧ regsOf es vals.length ≤ 123) (a.toNat + regsOf es vals.length ≤ 65536)
      (6 + 2 * regsOf es vals.length ≤ c.params.pduMax) where
  checks := ⟨_, _, _, rfl, stage_shapeOk c es _, stage_quantityIn _ 1 123, stage_addressIn a _⟩
  size := fun ⟨_, _, whole⟩ => by
    rw [two_mul_regsOf whole]
    simp [wrRegsReq, be16, length_encodeVals]; omega

theorem inOrder_rwRegs (c : Cfg) (ra : Half) (rn : Nat) (wa : Half) (es : Nat)
    (vals : List Nat) :
    InOrder c (rwRegsReq c ra rn wa es vals)
      (1 ≤ es ∧ es ≤ c.params.esMax ∧ rn * ts es % 2 = 0 ∧ vals.length * ts es % 2 = 0)
      (1 ≤ regsOf es rn ∧ regsOf es rn ≤ 125 ∧ 1 ≤ regsOf es vals.length ∧ regsOf es vals.length ≤ 121)
      (ra.toNat + regsOf es rn ≤ 65536 ∧ wa.toNat + regsOf es vals.length ≤ 65536)
      (10 + 2 * regsOf es vals.length ≤ c.params.pduMax ∧ 2 + 2 * regsOf es rn ≤ c.params.pduMax) where
  checks := by
    have shapes := (stage_shapeOk c es rn).append (stage_shapeOk c es vals.length)
    have quantities := (stage_quantityIn (regsOf es rn) 1 125).append (stage_quantityIn (regsOf es vals.length) 1 121)
    have addresses := (stage_addressIn ra (regsOf es rn)).append (stage_addressIn wa (regsOf es vals.length))
    refine ⟨_, _, _, rfl, ⟨shapes.1, shapes.2.trans (by tauto)⟩, ⟨quantities.1, quantities.2.trans (by tauto)⟩, addresses⟩
  size := fun ⟨_, _, _, whole⟩ => by
    rw [two_mul_regsOf whole]
    simp [rwRegsReq, be16, length_encodeVals]; omega

theorem eight_le_pduMax {s : State} (hc : CfgOk s) : 8 ≤ s.cfg.params.pduMax := by
  obtain ⟨ok, -⟩ := hc
  simp only [legal, Bool.and_eq_true, decide_eq_true_eq] at ok
  omega

theorem regsOf_eq {es n q : Nat} (h : n * ts es = 2 * q) : regsOf es n = q := by unfold regsOf; omega

/-- R145: every address has room for one register. -/
theorem addressIn_one (a : Half) : (addressIn a 1).1 = true := decide_eq_true (by have := a.isLt; omega)

theorem checkArgs_writeOne {c : Cfg} (hc : 8 ≤ c.params.pduMax) (fc : Byte) (a v : Half) :
    checkArgs c (writeOneReq fc a v) = .ok :=
  argsOk (by simp [writeOneReq, be16]; omega) (by simp [writeOneReq]; omega) (by simp [writeOneReq, addressIn_one])

theorem checkArgs_maskWr {c : Cfg} (hc : 8 ≤ c.params.pduMax) (a am om : Half) :
    checkArgs c (maskWrReq a am om) = .ok :=
  argsOk (by simp [maskWrReq, be16]; omega) (by simp [maskWrReq]; omega) (by simp [maskWrReq, addressIn_one])

theorem checkArgs_rdExcStatus {c : Cfg} (hc : 8 ≤ c.params.pduMax) : checkArgs c rdExcStatusReq = .ok :=
  argsOk (by simp [rdExcStatusReq]; omega) (by simp [rdExcStatusReq]; omega) (by simp [rdExcStatusReq])

theorem checkArgs_diag {c : Cfg} (hc : 8 ≤ c.params.pduMax) (sub data : Half) :
    checkArgs c (diagReq sub data) = .ok :=
  argsOk (by simp [diagReq, be16]; omega) (by simp [diagReq]; omega) (by simp [diagReq])

/-! ### The data of the writes (R121, R206) -/

theorem getLsbD_pack {bits : List Bool} {i j : Nat} {b : Byte} (hi : i < 8) (hj : j < ceil8 bits.length)
    (hb : (pack bits)[j]? = some b) : b.getLsbD i = (bits[8 * j + i]?).getD false := by
  rw [getElem?_pack bits j hj] at hb
  cases hb
  rw [packByte_bit _ _ hi, List.getElem?_take, if_pos hi, List.getElem?_drop]

theorem encoded_encodeVals (es : Nat) (vals : List Nat) : Encoded es vals (encodeVals es vals) :=
  ⟨length_encodeVals es vals, fun k v hv hlt => (slice_encodeVals es k v vals hv).trans (image_eq hlt)⟩

end Sys2Proof.Machine

open Sys2Proof Sys2Proof.Machine Sys2Proof.Claims

/-- Settles O26: within the limits every check of `readBitsReq` passes. -/
theorem buildReadBits : Obligations.BuildReadBits := by
  intro s h target a q handler hb hlo hhi ha hsize
  have ok (fc : Byte) := (inOrder_readBits (eight_le_pduMax hb.cfg) fc a q).checkArgs_ok trivial ⟨hlo, hhi⟩ ha hsize
  exact ⟨built_of_canBuild hb (ok 0x01#8) handler, built_of_canBuild hb (ok 0x02#8) handler⟩

/-- Settles O27: `n * ts es = 2 * q` makes `q` the quantity of `readRegsReq`, and within the limits its checks pass. -/
theorem buildReadRegisters : Obligations.BuildReadRegisters := by
  intro s h target a n es q handler hb hes hmax hq hlo hhi ha hsize
  obtain rfl := regsOf_eq hq
  have ok (fc : Byte) := (inOrder_readRegs (eight_le_pduMax hb.cfg) fc a n es).checkArgs_ok
    ⟨hes, hmax, by omega⟩ ⟨hlo, hhi⟩ ha hsize
  exact ⟨built_of_canBuild hb (ok 0x03#8) handler, built_of_canBuild hb (ok 0x04#8) handler⟩

/-- Settles O28: a PDU of at most eight bytes always fits, and one register fits at every address. -/
theorem buildWithoutLimits : Obligations.BuildWithoutLimits := by
  intro s h target a handler hb
  have hc := eight_le_pduMax hb.cfg
  refine ⟨?wrCoil, ?wrReg, ?maskWr, ?rdExcStatus, ?diag⟩
  case wrCoil => exact fun on => built_of_canBuild hb (checkArgs_writeOne hc 0x05#8 a (coilValue on)) handler
  case wrReg => exact fun v => built_of_canBuild hb (checkArgs_writeOne hc 0x06#8 a v) handler
  case maskWr => exact fun am om => built_of_canBuild hb (checkArgs_maskWr hc a am om) handler
  case rdExcStatus => exact built_of_canBuild hb (checkArgs_rdExcStatus hc) handler
  case diag => exact fun sub data => built_of_canBuild hb (checkArgs_diag hc sub data) handler

/-- Settles O29: the data bytes are `pack`'s. -/
theorem buildWriteCoils : Obligations.BuildWriteCoils := by
  intro s h target a bits handler hb hlo hhi ha hsize
  have ok := (inOrder_wrCoils (eight_le_pduMax hb.cfg) a bits).checkArgs_ok trivial ⟨hlo, hhi⟩ ha hsize
  obtain ⟨t, runs, built⟩ := built_of_canBuild hb ok handler
  exact ⟨t, pack bits, runs, length_pack bits, fun j i hi hj b => getLsbD_pack hi hj, built⟩

/-- Settles O30: the data bytes are `encodeVals`'s. -/
theorem buildWriteRegisters : Obligations.BuildWriteRegisters := by
  intro s h target a es vals q handler hb hes hmax hq hlo hhi ha hsize
  obtain rfl := regsOf_eq hq
  have ok := (inOrder_wrRegs (eight_le_pduMax hb.cfg) a es vals).checkArgs_ok
    ⟨hes, hmax, by omega⟩ ⟨hlo, hhi⟩ ha hsize
  obtain ⟨t, runs, built⟩ := built_of_canBuild hb ok handler
  exact ⟨t, encodeVals es vals, runs, encoded_encodeVals es vals, built⟩

/-- Settles O31: both quantities are `rwRegsReq`'s, the data bytes `encodeVals`'s. -/
theorem buildReadWriteRegisters : Obligations.BuildReadWriteRegisters := by
  intro s h target ra rn rq wa es vals wq handler hb hes hmax hrq hwq hr hr' hw hw' hra hwa hpdu hresp
  obtain rfl := regsOf_eq hrq
  obtain rfl := regsOf_eq hwq
  have ok := (inOrder_rwRegs s.cfg ra rn wa es vals).checkArgs_ok
    ⟨hes, hmax, by omega, by omega⟩ ⟨hr, hr', hw, hw'⟩ ⟨hra, hwa⟩ ⟨hpdu, hresp⟩
  obtain ⟨t, runs, built⟩ := built_of_canBuild hb ok handler
  exact ⟨t, encodeVals es vals, runs, encoded_encodeVals es vals, built⟩

end

section
/-! The builds that fail (spec 40 R141 to R149): without a slot, by their target or arguments, on a full queue. -/

namespace Sys2Proof.Machine

open Sys2Proof.Claims

/-! ### The request of an operation (R150 to R162) -/

/-- The operation `i` is the build of the request `r`, in every state of the configuration `c`. -/
def BuildsRequest (c : Cfg) (t : Target) (hd : Nat) (i : Instr) (r : Request) : Prop :=
  ∀ s, s.cfg = c → exec i s = build t hd r s

theorem request_of_isBuild (c : Cfg) {t : Target} {hd : Nat} {fc : Byte} {i : Instr} (hi : IsBuild t hd fc i) :
    ∃ r, r.fc = fc ∧ BuildsRequest c t hd i r := by
  cases hi with
  | rdCoils a q => exact ⟨readBitsReq _ a q, rfl, fun s _ => rfl⟩
  | rdDiscrete a q => exact ⟨readBitsReq _ a q, rfl, fun s _ => rfl⟩
  | rdHolding a n es => exact ⟨readRegsReq c _ a n es, rfl, fun s hs => hs ▸ rfl⟩
  | rdInput a n es => exact ⟨readRegsReq c _ a n es, rfl, fun s hs => hs ▸ rfl⟩
  | wrCoil a on => exact ⟨writeOneReq _ a (coilValue on), rfl, fun s _ => rfl⟩
  | wrReg a v => exact ⟨writeOneReq _ a v, rfl, fun s _ => rfl⟩
  | rdExcStatus => exact ⟨rdExcStatusReq, rfl, fun s _ => rfl⟩
  | diag sub data => exact ⟨diagReq sub data, rfl, fun s _ => rfl⟩
  | wrCoils a bits => exact ⟨wrCoilsReq a bits, rfl, fun s _ => rfl⟩
  | wrRegs a es vals => exact ⟨wrRegsReq c a es vals, rfl, fun s hs => hs ▸ rfl⟩
  | maskWr a am om => exact ⟨maskWrReq a am om, rfl, fun s _ => rfl⟩
  | rwRegs ra rn wa es vals => exact ⟨rwRegsReq c ra rn wa es vals, rfl, fun s hs => hs ▸ rfl⟩

/-- R144: the seven operations with argument checks make a request that has them in order. -/
theorem request_of_buildArgs {c : Cfg} (hc : 8 ≤ c.params.pduMax) {t : Target} {hd : Nat} {fc : Byte} {i : Instr}
    {shape quantity address size : Prop} (hb : BuildArgs c t hd fc i shape quantity address size) :
    ∃ r, r.fc = fc ∧ BuildsRequest c t hd i r ∧ InOrder c r shape quantity address size := by
  cases hb with
  | rdCoils a q => exact ⟨_, rfl, fun s _ => rfl, inOrder_readBits hc 0x01#8 a q⟩
  | rdDiscrete a q => exact ⟨_, rfl, fun s _ => rfl, inOrder_readBits hc 0x02#8 a q⟩
  | rdHolding a n es q hq => exact hq ▸ ⟨_, rfl, fun s hs => hs ▸ rfl, inOrder_readRegs hc 0x03#8 a n es⟩
  | rdInput a n es q hq => exact hq ▸ ⟨_, rfl, fun s hs => hs ▸ rfl, inOrder_readRegs hc 0x04#8 a n es⟩
  | wrCoils a bits => exact ⟨_, rfl, fun s _ => rfl, inOrder_wrCoils hc a bits⟩
  | wrRegs a es vals q hq => exact hq ▸ ⟨_, rfl, fun s hs => hs ▸ rfl, inOrder_wrRegs hc a es vals⟩
  | rwRegs ra rn wa es vals rq wq hr hw =>
    exact hr ▸ hw ▸ ⟨_, rfl, fun s hs => hs ▸ rfl, inOrder_rwRegs c ra rn wa es vals⟩

end Sys2Proof.Machine

open Sys2Proof Sys2Proof.Machine Sys2Proof.Claims

/-- Settles O32: `BUILD_RAW` looks at the code alone; the twelve find no free slot. -/
theorem buildWithoutSlot : Obligations.BuildWithoutSlot := by
  refine ⟨?unsupported, ?supported, ?exhausted⟩
  case unsupported => exact fun s target fc handler hfc => if_neg (by simp [hfc])
  case supported => exact fun s target fc handler hfc => if_pos hfc
  case exhausted =>
    intro s i target fc handler hi hall
    obtain ⟨r, rfl, runs⟩ := request_of_isBuild s.cfg hi
    exact (runs s rfl).trans (build_of_no_slot hall target handler r)

/-- Settles O33: the target's error is the build's, whatever its request. -/
theorem buildRefusesTarget : Obligations.BuildRefusesTarget := by
  intro s h i target fc handler hi hl ht
  obtain ⟨r, rfl, runs⟩ := request_of_isBuild s.cfg hi
  rw [runs s rfl]
  exact buildFailed_of_err hl (buildErr_of_not_targetOk ht r) (targetError_ne_ok target) handler

/-- Settles O34: with a legal target the first stage that fails gives the build's error. -/
theorem buildRefusesArguments : Obligations.BuildRefusesArguments := by
  intro s h i target fc handler shape quantity address size hc hl ht hb
  obtain ⟨r, rfl, runs, order⟩ := request_of_buildArgs (eight_le_pduMax hc) hb
  have fails {e : Err} (he : checkArgs s.cfg r = e) (hne : e ≠ .ok) :=
    buildFailed_of_err hl ((buildErr_of_targetOk ht r).trans he) hne handler
  rw [runs s rfl]
  refine ⟨?shape, ?quantity, ?address, ?size⟩
  case shape => exact fun h1 => fails (order.checkArgs_of_not_shape h1) (by simp)
  case quantity => exact fun h1 h2 => fails (order.checkArgs_of_not_quantity h1 h2) (by simp)
  case address => exact fun h1 h2 h3 => fails (order.checkArgs_of_not_address h1 h2 h3) (by simp)
  case size => exact fun h1 h2 h3 h4 => fails (order.checkArgs_of_not_size h1 h2 h3 h4) (by simp)

/-- Settles O35: the slot and the checks of a build do not depend on the queue, so the full one is found with the frame
made. -/
theorem buildFindsQueueFull : Obligations.BuildFindsQueueFull := by
  intro s h i t₀ target fc handler _ hi hfull hrun hres
  obtain ⟨r, rfl, runs⟩ := request_of_isBuild s.cfg hi
  have emptied := runs { s with q := { arr := [], head := 0, tail := 0, count := 0 } } rfl
  obtain ⟨hl, he⟩ := of_build_answers_slot (emptied.symm.trans hrun) hres
  have hl : Lowest s h := hl
  have he : buildErr s target r = .ok := he
  rw [runs s rfl, build_of_full hl he hfull handler]
  have frame := buildFrame_frame h target handler r s
  have others := slotsBut_buildFrame h target handler r s
  refine ⟨_, rfl, buildFailed_of_buildFail (events_buildFrame ..) others .queueFull target handler r.fc,
    (congrArg State.ctx frame :), ?_⟩
  rw [offPool_buildFail]
  exact (congrArg (fun u : State => { offPool u with ctx := s.ctx }) frame :)

end

section
/-! How an attempt ends (spec 44 R282 to R284, 60 R384, R385): `COMPLETE`, run on a state that differs from the first in
the reply fields of its slot, announces the record and releases or re-arms the slot. -/

namespace Sys2Proof.Machine

open Sys2Proof.Claims

/-! ### The next target (R279, R282, R284) -/

theorem nextIs_nextMember (x : SlaveSet) : NextIs x (nextMember x) := by
  unfold NextIs nextMember
  cases x.active with
  | finish => rfl
  | null => rfl
  | start => exact least_findFrom x 0 248
  | addr c =>
    have above : Least x (c + 1) 248 (findFrom (member x) (c + 1) (248 - (c + 1))) := by
      rcases Nat.le_total (c + 1) 248 with hc | hc
      · have least := least_findFrom x (c + 1) (248 - (c + 1))
        rwa [Nat.add_sub_cancel' hc] at least
      · rw [Nat.sub_eq_zero_of_le hc]
        exact fun b hlo hhi => by omega
    cases hf : findFrom (member x) (c + 1) (248 - (c + 1)) with
    | some a => exact .inl ⟨a, by simp only [hf], by simpa only [hf] using above⟩
    | none =>
      refine .inr ⟨hf ▸ above, ?_⟩
      simp only [hf]
      by_cases hd : 0 ≤ x.repeatDelay
      · exact .inl ⟨hd, by simpa [hd] using least_findFrom x 0 (c + 1)⟩
      · exact .inr ⟨by omega, if_neg hd⟩

theorem delayIs_delayOf (s : State) (n : Nat) : DelayIs s n (delayOf s.cfg n) :=
  ⟨fun hn => if_pos hn, fun hn => if_neg (Nat.not_lt.mpr hn)⟩

theorem wrapped_iff {x : SlaveSet} {a : Nat} : wrapped x.active a = true ↔ Wrapped x a := by
  unfold wrapped Wrapped
  cases x.active <;> simp

/-- R284: the delay of the next attempt, by whether the cursor moved back. -/
theorem delayIs_nextDelay (s : State) (x : SlaveSet) (a : Nat) :
    (Wrapped x a → DelayIs s x.repeatDelay.toNat (nextDelay s.cfg x a)) ∧
    (¬ Wrapped x a → DelayIs s (max 0 x.itemDelay).toNat (nextDelay s.cfg x a)) := by
  have item : (max 0 x.itemDelay).toNat = x.itemDelay.toNat := by omega
  rw [item]
  refine ⟨fun hw => ?_, fun hw => ?_⟩
  · rw [nextDelay, if_pos (wrapped_iff.mpr hw)]; exact delayIs_delayOf s _
  · rw [nextDelay, if_neg (mt wrapped_iff.mp hw)]; exact delayIs_delayOf s _

/-! ### What `REPEAT_IF_NEEDED` does (R282) -/

/-- R282: slot `h` of `s` turned to its next target `a`, before the frame is made again. -/
def aimed (h a : Nat) (s : State) : State :=
  setSlot s h { slotAt s h with ss := advance (slotAt s h).ss, delay := nextDelay s.cfg (slotAt s h).ss a }

theorem repeatOrRelease_of_none {h : Nat} {s : State}
    (hn : HasMember (slotAt s h).ss → nextMember (slotAt s h).ss = none) : repeatOrRelease h s = release h s := by
  unfold repeatOrRelease
  by_cases hm : HasMember (slotAt s h).ss
  · simp [(nonempty_iff _).mpr hm, hn hm]
  · simp [mt (nonempty_iff _).mp hm]

theorem repeatOrRelease_of_some {h a : Nat} {s : State} (hm : HasMember (slotAt s h).ss)
    (hn : nextMember (slotAt s h).ss = some a) : repeatOrRelease h s = rearm h a (aimed h a s) := by
  simp [repeatOrRelease, (nonempty_iff _).mpr hm, hn, aimed]

theorem rearm_of_room {h a : Nat} {s : State} (hc : s.q.count ≠ s.cfg.params.queueCap) :
    rearm h a s = (qPush (some h) (rearmFrame h a s)).1 := by
  have frame := rearmFrame_frame h a s
  have room : (rearmFrame h a s).q.count ≠ (rearmFrame h a s).cfg.params.queueCap := by
    rw [(congrArg State.q frame :), (congrArg State.cfg frame :)]; exact hc
  simp [rearm, qPush_some h room]

theorem rearm_of_full {h a : Nat} {s : State} (hc : s.q.count = s.cfg.params.queueCap) :
    rearm h a s = rearmFull h a (rearmFrame h a s) := by
  have frame := rearmFrame_frame h a s
  have full : (rearmFrame h a s).q.count = (rearmFrame h a s).cfg.params.queueCap := by
    rw [(congrArg State.q frame :), (congrArg State.cfg frame :)]; exact hc
  simp [rearm, qPush_full h full]

/-! ### From the state with the record announced

`u` is `s` but for the events, which are `evs` by now, the reply fields of slot `h` and the free-value counter. -/

/-- Slots that agree but for the reply fields. -/
theorem eq_of_offReply {x y : Slot} (hxy : offReply y = offReply x) :
    y = { x with
      rx := y.rx, rxlen := y.rxlen, winOff := y.winOff, winLen := y.winLen, err := y.err, exc := y.exc } := by
  cases x; cases y
  simp only [offReply, Slot.mk.injEq] at hxy ⊢
  simp [hxy]

theorem fcOf_headed {c : Cfg} {len : Nat} (hlen : 0 < len) (tid : Half) (u : Byte) (x : Slot) :
    fcOf c (headed c.params.transport tid u len x) = fcOf c x := by
  have first := congrArg (·[0]?) (headed_pdu c.params tid u len x)
  simp only [getElem?_readBytes, if_pos hlen] at first
  exact Option.some.inj first

section
variable {h a : Nat} {evs : List Event} {s u : State} (E : Ended h { s with events := evs } u)
include E

theorem aimed_cfg : (aimed h a u).cfg = s.cfg := E.cfg

theorem aimed_q : (aimed h a u).q = s.q := E.q

theorem tidAfter_aimed : tidAfter (aimed h a u) = nextTid s := by
  have ctx : (aimed h a u).ctx = s.ctx := E.ctx
  rw [← tidAfter_eq_nextTid, tidAfter, tidAfter, aimed_cfg E, ctx]

/-- R283, R284: all of the slot that is re-armed for `a` but its receive buffer. -/
theorem slotAt_rearmFrame_aimed (hn : nextMember (slotAt s h).ss = some a) :
    { slotAt (rearmFrame h a (aimed h a u)) h with rx := (slotAt s h).rx } =
      { headed s.cfg.params.transport (nextTid s) (BitVec.ofNat 8 a) (pduTx s.cfg (slotAt s h)).length (slotAt s h) with
        rxlen := 0, winOff := 0, winLen := 0, err := .ok, exc := false, qtime := s.nowMs,
        delay := nextDelay s.cfg (slotAt s h).ss a, ss := { (slotAt s h).ss with active := .addr a } } := by
  have cfg : u.cfg = s.cfg := E.cfg
  have now : (aimed h a u).nowMs = s.nowMs := E.nowMs
  have len : (pduTx s.cfg (slotAt s h)).length = (slotAt s h).txlen - s.cfg.hdr - s.cfg.trl := by
    simp only [pduTx, length_readBytes]; omega
  have set : advance (slotAt s h).ss = { (slotAt s h).ss with active := .addr a } := by rw [advance, hn]; rfl
  have slot : offReply (slotAt u h) = offReply (slotAt s h) := E.slot
  rw [rearmFrame_slot, if_pos rfl, tidAfter_aimed E, now, len, ← set]
  simp only [aimed, slotAt_setSlot_self, setSlot_cfg, cfg]
  rw [eq_of_offReply slot]
  cases s.cfg.params.transport <;> rfl

/-- R283, R284: the slot that is re-armed, but for its frame, its template's bytes and its receive buffer. -/
theorem offFrame_rearmFrame_aimed (hn : nextMember (slotAt s h).ss = some a) :
    { offFrame (slotAt (rearmFrame h a (aimed h a u)) h) with rx := (slotAt s h).rx } =
      { offFrame (slotAt s h) with
        rxlen := 0, winOff := 0, winLen := 0, err := .ok, exc := false, qtime := s.nowMs,
        delay := nextDelay s.cfg (slotAt s h).ss a, ss := { (slotAt s h).ss with active := .addr a } } := by
  refine (congrArg offFrame (slotAt_rearmFrame_aimed E hn) :).trans ?_
  cases s.cfg.params.transport <;> rfl

/-- R283: the frame made again, around the same PDU. -/
theorem framed_rearmFrame_aimed (hn : nextMember (slotAt s h).ss = some a) :
    Framed s (BitVec.ofNat 8 a) (pduTx s.cfg (slotAt s h)) (slotAt (rearmFrame h a (aimed h a u)) h) := by
  have slot := slotAt_rearmFrame_aimed E hn
  have pdu : readBytes (slotAt s h).tx s.cfg.hdr (pduTx s.cfg (slotAt s h)).length = pduTx s.cfg (slotAt s h) := by
    rw [pduTx, length_readBytes]
  have made := framed_headed (s := s) (BitVec.ofNat 8 a) pdu
  unfold Framed at made ⊢
  rwa [(congrArg Slot.txlen slot :), (congrArg Slot.tx slot :), (congrArg Slot.tmpl slot :)]

theorem tmplPdu_rearmFrame_aimed (hn : nextMember (slotAt s h).ss = some a) :
    readBytes (slotAt (rearmFrame h a (aimed h a u)) h).tmpl s.cfg.hdr (slotAt s h).tmpllen =
      tmplPdu s.cfg (slotAt s h) := by
  rw [(congrArg Slot.tmpl (slotAt_rearmFrame_aimed E hn) :)]
  exact headed_tmpl s.cfg.params ..

theorem fcOf_rearmFrame_aimed (hreq : s.cfg.hdr + s.cfg.trl < (slotAt s h).txlen)
    (hn : nextMember (slotAt s h).ss = some a) :
    fcOf s.cfg (slotAt (rearmFrame h a (aimed h a u)) h) = fcOf s.cfg (slotAt s h) := by
  have nonempty : 0 < (pduTx s.cfg (slotAt s h)).length := by simp only [pduTx, length_readBytes]; omega
  rw [← fcOf_headed nonempty (nextTid s) (BitVec.ofNat 8 a) (slotAt s h), fcOf,
    (congrArg Slot.tx (slotAt_rearmFrame_aimed E hn) :)]
  rfl

theorem slotsBut_rearmFrame_aimed : SlotsBut h s (rearmFrame h a (aimed h a u)) := fun k hk => by
  rw [rearmFrame_slot, if_neg hk, aimed, slotAt_setSlot_ne _ _ hk]
  exact E.slots k hk

theorem rearmFrame_aimed_frame :
    { rearmFrame h a (aimed h a u) with pool := s.pool, freeCount := s.freeCount } =
      { s with events := evs, ctx := { s.ctx with tid := nextTid s } } := by
  have made := rearmFrame_frame h a (aimed h a u)
  rw [tidAfter_aimed E] at made
  calc
    { rearmFrame h a (aimed h a u) with pool := s.pool, freeCount := s.freeCount }
    _ = { u with ctx := { u.ctx with tid := nextTid s }, pool := s.pool, freeCount := s.freeCount } :=
      (congrArg (fun t : State => { t with pool := s.pool, freeCount := s.freeCount }) made :)
    _ = { s with events := evs, ctx := { s.ctx with tid := nextTid s } } :=
      (congrArg (fun t : State => { t with ctx := { t.ctx with tid := nextTid s } }) E.frame :)

/-- R283: a re-arm that finds room in the queue. -/
theorem rearmed_of_room (hq : QueueOk s) (hi : (slotAt s h).inuse = true) (hc : s.q.count ≠ s.cfg.params.queueCap)
    (hn : nextMember (slotAt s h).ss = some a) :
    (rearm h a (aimed h a u)).events = evs ∧ Rearmed h a s (rearm h a (aimed h a u)) := by
  have frame := rearmFrame_aimed_frame (a := a) E
  have queue : (rearmFrame h a (aimed h a u)).q = s.q := (congrArg State.q frame :)
  have cfg : (rearmFrame h a (aimed h a u)).cfg = s.cfg := (congrArg State.cfg frame :)
  have pushed := qPush_frame (some h) (rearmFrame h a (aimed h a u))
  have slots (k : Nat) : slotAt (qPush (some h) (rearmFrame h a (aimed h a u))).1 k =
      slotAt (rearmFrame h a (aimed h a u)) k := slotAt_congr (congrArg State.pool pushed :) k
  have slot := offFrame_rearmFrame_aimed E hn
  rw [rearm_of_room (by rwa [aimed_q E, aimed_cfg E])]
  refine ⟨(congrArg State.events pushed :).trans (congrArg State.events frame :), ?_⟩
  constructor
  case queued =>
    have count := hq.count
    rw [qContent_qPush (queueOk_congr queue cfg hq) h (by rw [queue, cfg]; omega), qContent_congr queue cfg]
  case tid => exact congrArg Ctx.tid ((congrArg State.ctx pushed :).trans (congrArg State.ctx frame :))
  case slots => exact fun k hk => (slots k).trans (slotsBut_rearmFrame_aimed E k hk)
  all_goals rw [slots]
  case framed => exact framed_rearmFrame_aimed E hn
  case template => exact tmplPdu_rearmFrame_aimed E hn
  case kept =>
    exact ⟨(congrArg Slot.inuse slot :).trans hi, (congrArg Slot.tmpllen slot :), (congrArg Slot.explen slot :),
      (congrArg Slot.esize slot :), (congrArg Slot.handler slot :)⟩
  case fresh =>
    exact ⟨(congrArg Slot.err slot :), (congrArg Slot.rxlen slot :), (congrArg Slot.exc slot :),
      (congrArg Slot.winOff slot :), (congrArg Slot.winLen slot :)⟩
  case stamped => exact (congrArg Slot.qtime slot :)
  case delay => exact (congrArg Slot.delay slot :) ▸ delayIs_nextDelay s (slotAt s h).ss a
  case set => exact (congrArg Slot.ss slot :)

/-- R283, R378: a re-arm that finds the queue full. -/
theorem released_of_full (hreq : s.cfg.hdr + s.cfg.trl < (slotAt s h).txlen) (hc : s.q.count = s.cfg.params.queueCap)
    (hn : nextMember (slotAt s h).ss = some a) :
    (rearm h a (aimed h a u)).events = evs ++ [.done (slotAt s h).handler
      { slot := some h, err := .queueFull, fc := fcOf s.cfg (slotAt s h), unit := BitVec.ofNat 8 a, esize := 1,
        data := [] }] ∧
    Released h s (rearm h a (aimed h a u)) ∧ (rearm h a (aimed h a u)).ctx.tid = nextTid s := by
  have frame := rearmFrame_aimed_frame (a := a) E
  rw [rearm_of_full (by rwa [aimed_q E, aimed_cfg E])]
  refine ⟨?events, ⟨?cleared, ?others, (congrArg State.q frame :)⟩, congrArg Ctx.tid (congrArg State.ctx frame :)⟩
  case events =>
    have events : (rearmFrame h a (aimed h a u)).events = evs := (congrArg State.events frame :)
    have cfg : (rearmFrame h a (aimed h a u)).cfg = s.cfg := (congrArg State.cfg frame :)
    have handler : (slotAt (rearmFrame h a (aimed h a u)) h).handler = (slotAt s h).handler :=
      (congrArg Slot.handler (offFrame_rearmFrame_aimed E hn) :)
    have fc := fcOf_rearmFrame_aimed E hreq hn
    unfold fcOf at fc
    simp only [rearmFull, release_events, emit_events, updSlot_events, updSlot_cfg, slotAt_updSlot_self, events, cfg,
      handler, fcOf, fc]
  case cleared => rw [rearmFull, slotAt_release, if_pos rfl]
  case others =>
    intro k hk
    rw [rearmFull, slotAt_release, if_neg hk, slotAt_emit, slotAt_updSlot_ne _ _ hk]
    exact slotsBut_rearmFrame_aimed E k hk

theorem released_of_release : Released h s (release h u) :=
  ⟨by rw [slotAt_release, if_pos rfl], fun k hk => by rw [slotAt_release, if_neg hk]; exact E.slots k hk, E.q⟩

/-- R282: `REPEAT_IF_NEEDED`. -/
theorem repeats_of_ended (hq : QueueOk s) (hi : (slotAt s h).inuse = true)
    (hreq : s.cfg.hdr + s.cfg.trl < (slotAt s h).txlen) : Repeats h evs s (repeatOrRelease h u) := by
  have set : (slotAt u h).ss = (slotAt s h).ss := E.ss
  refine ⟨(offAttempt_repeatOrRelease h u).trans E.offAttempt, ?_⟩
  have releases (hn : HasMember (slotAt s h).ss → nextMember (slotAt s h).ss = none) :
      (repeatOrRelease h u).events = evs ∧ Released h s (repeatOrRelease h u) ∧
        (repeatOrRelease h u).ctx.tid = s.ctx.tid := by
    rw [repeatOrRelease_of_none (by rwa [set])]
    exact ⟨E.events, released_of_release E, congrArg Ctx.tid E.ctx⟩
  by_cases hm : HasMember (slotAt s h).ss
  · cases hn : nextMember (slotAt s h).ss with
    | none => exact ⟨none, fun _ => hn ▸ nextIs_nextMember _, fun _ => rfl, releases fun _ => hn⟩
    | some a =>
      refine ⟨some a, fun _ => hn ▸ nextIs_nextMember _, fun hno => absurd hm hno, ?_⟩
      rw [repeatOrRelease_of_some (by rwa [set]) (by rwa [set])]
      exact ⟨fun hc => released_of_full E hreq hc hn, fun hc => rearmed_of_room E hq hi hc hn⟩
  · exact ⟨none, fun hyes => absurd hyes hm, fun _ => rfl, releases fun hyes => absurd hyes hm⟩

end

/-! ### `COMPLETE` (R384, R385) -/

theorem rearmed_answer {h a : Nat} {s t : State} (R : Rearmed h a s t) (r : Result) : Rearmed h a s (answer r t) :=
  ⟨R.framed, R.template, R.kept, R.fresh, R.stamped, R.delay, R.set, R.slots, R.queued, R.tid⟩

/-- The answer of the operation that ends the attempt is apart from what R282 does. -/
theorem repeats_answer {h : Nat} {evs : List Event} {s t : State} (R : Repeats h evs s t) (r : Result) :
    Repeats h evs s (answer r t) := by
  obtain ⟨frame, n, next, last, ends⟩ := R
  refine ⟨frame, n, next, last, ?_⟩
  cases n with
  | none => exact ends
  | some a => exact ⟨ends.1, fun hc => ⟨(ends.2 hc).1, rearmed_answer (ends.2 hc).2 r⟩⟩

/-- What the end of an attempt needs of slot `h` (R384, R23, R100): `Awaiting` but for the window. -/
structure MayEnd (s : State) (h : Nat) : Prop where
  queue    : QueueOk s
  detached : detached s h = true
  fits     : lengthsFit s.cfg (slotAt s h) = true
  request  : s.cfg.hdr + s.cfg.trl < (slotAt s h).txlen

theorem mayEnd_of_awaiting {s : State} {h : Nat} (W : Awaiting s h) : MayEnd s h where
  queue := W.queue
  detached := by simp [detached, slotExists, W.slot, W.inuse, W.free]
  fits := W.fits
  request := W.request

theorem MayEnd.rxlen_le {s : State} {h : Nat} (M : MayEnd s h) : (slotAt s h).rxlen ≤ s.cfg.bufCap := by
  obtain ⟨-, rxlen, -⟩ := (lengthsFit_iff _ _).mp M.fits
  exact rxlen

theorem complete_eq (h : Nat) (e : Err) (s : State) :
    complete h e s = repeatOrRelease h (emit (updSlot s h fun x => { x with err := e })
      (.done (slotAt s h).handler { record s h with err := e })) := by
  simp [complete, record, fcOf, unitOf, dataOf]

/-- R385: of the reply fields the record holds the error and the data alone. -/
theorem record_of_ended {h : Nat} {s s' : State} (E : Ended h s s') :
    record s' h =
      { slot := some h, err := (slotAt s' h).err, fc := fcOf s.cfg (slotAt s h), unit := unitOf s.cfg (slotAt s h),
        esize := (slotAt s h).esize, data := dataOf (slotAt s' h) } := by
  simp only [record, fcOf, unitOf, E.cfg, E.tx, E.esize]

theorem ended_emit {h : Nat} {s s' : State} (E : Ended h s s') (ev : Event) :
    Ended h { s with events := s.events ++ [ev] } (emit s' ev) :=
  ⟨E.slot, E.slots, (congrArg (emit · ev) E.frame :)⟩

/-- R384, R385: `COMPLETE` after a change of the reply fields announces their record and takes slot `h` to its next
target. -/
theorem completes_of_ended {h : Nat} {s s' : State} (M : MayEnd s h) (E : Ended h s s') (e : Err) :
    Completes h e (dataOf (slotAt s' h)) s (answer .unit (complete h e s')) := by
  obtain ⟨-, inuse, -⟩ := free_of_detached M.detached
  have marked : Ended h s (updSlot s' h fun x => { x with err := e }) := E.upd _ fun _ => rfl
  rw [complete_eq, record_of_ended E, E.handler]
  exact repeats_answer (repeats_of_ended (ended_emit marked _) M.queue inuse M.request) .unit

/-- R13, R384: an operation that is a `raise` after a change of the reply fields ends the attempt with their data. -/
theorem endsWith_of_raise {i : Instr} {h : Nat} {e : Err} {s s' : State} (M : MayEnd s h) (hi : exec i s = raise h e s')
    (E : Ended h s s') (hr : (slotAt s' h).rxlen = (slotAt s h).rxlen) (hw : windowFits s'.cfg (slotAt s' h) = true) :
    EndsWith i h e (dataOf (slotAt s' h)) s := by
  have fits : lengthsFit s'.cfg (slotAt s' h) = true := by
    have := M.fits
    rw [lengthsFit_iff] at this ⊢
    rwa [E.cfg, E.txlen, E.explen, E.tmpllen, hr]
  have there : slotExists s' h = true := by
    rw [slotExists, E.cfg]; exact slotExists_of_detached M.detached
  exact ⟨_, hi.trans (raise_eq_next.mpr ⟨there, fits, hw, rfl⟩), rfl, completes_of_ended M E e⟩

end Sys2Proof.Machine
end

section
/-! The response arms (spec 41 R180 to R198): the state an arm runs in, the shapes its end can have, then each arm. -/

namespace Sys2Proof.Machine

open Sys2Proof.Claims

/-! ### The state an arm runs in (U7, log 24) -/

section
variable (reads : Nat → State → List (Nat × Nat × Bool)) (h : Nat) (s : State)

@[simp] theorem prepared_cfg : (prepared reads h s).cfg = s.cfg := (ended_prepared reads h s).cfg

/-- Of its slot only the receive buffer is another. -/
theorem slotAt_prepared : { slotAt (prepared reads h s) h with rx := (slotAt s h).rx } = slotAt s h := by
  rcases prepared_cases reads h s with e | e
  · rw [e]
  · rw [e, slotAt_unreceived, if_pos rfl]; rfl

@[simp] theorem prepared_rxlen : (slotAt (prepared reads h s) h).rxlen = (slotAt s h).rxlen :=
  (congrArg Slot.rxlen (slotAt_prepared reads h s) :)

@[simp] theorem prepared_winLen : (slotAt (prepared reads h s) h).winLen = (slotAt s h).winLen :=
  (congrArg Slot.winLen (slotAt_prepared reads h s) :)

@[simp] theorem prepared_tmpllen : (slotAt (prepared reads h s) h).tmpllen = (slotAt s h).tmpllen :=
  (ended_prepared reads h s).tmpllen

theorem tmplPdu_prepared : tmplPdu s.cfg (slotAt (prepared reads h s) h) = tmplPdu s.cfg (slotAt s h) := by
  rw [tmplPdu, (ended_prepared reads h s).tmpl, prepared_tmpllen]; rfl

variable {reads h s}

theorem readBytes_prepared {k n : Nat} (hn : k + n ≤ (slotAt s h).rxlen) :
    readBytes (slotAt (prepared reads h s) h).rx k n = readBytes (slotAt s h).rx k n := by
  rcases prepared_cases reads h s with e | e <;> rw [e]
  exact readBytes_unreceived hn

theorem replyByte_prepared {i : Nat} {c : Byte} (hc : (pduRx s.cfg (slotAt s h))[i]? = some c) :
    replyByte (prepared reads h s) h i = c := by
  rw [replyByte, prepared_cfg, pduRx_prepared, hc]; rfl

theorem tmplByte_prepared {i : Nat} {c : Byte} (hc : (tmplPdu s.cfg (slotAt s h))[i]? = some c) :
    tmplByte (prepared reads h s) h i = c := by
  rw [tmplByte, prepared_cfg, tmplPdu_prepared, hc]; rfl

/-- What an arm exposes of its receive buffer is exposed as received. -/
theorem exposed_prepared (k n : Nat) : Exposed s h k n (readBytes (slotAt (prepared reads h s) h).rx k n) := by
  refine ⟨length_readBytes .., fun j hj hr => ?_⟩
  have same : readBytes (slotAt (prepared reads h s) h).rx (k + j) 1 = readBytes (slotAt s h).rx (k + j) 1 :=
    readBytes_prepared hr
  rw [getElem?_readBytes, if_pos hj, List.head_eq_of_cons_eq same]

/-- R186: an echoed field, where the received PDU and the template have it. -/
theorem echoCheck_prepared {k : Nat} (e : Err) (hp : k + 2 ≤ (pduRx s.cfg (slotAt s h)).length)
    (ht : k + 2 ≤ (slotAt s h).tmpllen) :
    echoCheck h k e (prepared reads h s) =
      (decide (slice (pduRx s.cfg (slotAt s h)) k (k + 2) = slice (tmplPdu s.cfg (slotAt s h)) k (k + 2)), e) := by
  refine Prod.ext ?_ rfl
  have received := hp
  rw [length_pduRx] at received
  rw [echoCheck_eq (by rw [prepared_cfg, pduRx_prepared]; exact hp) (by rw [prepared_tmpllen]; exact ht), prepared_cfg,
    readBytes_prepared (by omega), (ended_prepared reads h s).tmpl, slice_pduRx (by omega) hp, tmplPdu,
    slice_readBytes _ _ _ _ _ (by omega) ht, Nat.add_sub_cancel_left]

end

/-! ### The ends of an arm -/

theorem hostArm_eq_runArm {h : Nat} {s : State} (M : MayEnd s h) (reads : Nat → State → List (Nat × Nat × Bool))
    (a : Nat → State → State × Err) : hostArm h reads a s = runArm reads a h s := by
  have there := slotExists_of_detached M.detached
  simp [hostArm, withSlot, withDetached, checked, there, M.detached, M.fits]

/-- R80, U12: a record whose window runs past the receive buffer. -/
theorem raise_of_window_past {h : Nat} {e : Err} {s : State} (hw : ¬ windowFits s.cfg (slotAt s h) = true) :
    raise h e s = .fault .bufferBound := by
  unfold raise checked
  rw [if_neg hw]
  exact ite_self _

theorem window_fits_iff {h off n : Nat} {s : State} :
    windowFits (window h off n s).cfg (slotAt (window h off n s) h) = true ↔ n = 0 ∨ off + n ≤ s.cfg.bufCap := by
  rw [windowFits_iff, window, slotAt_updSlot_self]; rfl

section
variable {i : Instr} {h : Nat} {e : Err} {s s' : State} {reads : Nat → State → List (Nat × Nat × Bool)}
  {a : Nat → State → State × Err}

theorem endsWith_of_arm (M : MayEnd s h) (hi : exec i s = runArm reads a h s)
    (ha : a h (prepared reads h s) = (s', e)) (E : Ended h (prepared reads h s) s')
    (hr : (slotAt s' h).rxlen = (slotAt s h).rxlen) (hw : windowFits s'.cfg (slotAt s' h) = true) :
    EndsWith i h e (dataOf (slotAt s' h)) s :=
  endsWith_of_raise M (hi.trans (by rw [runArm, ha])) ((ended_prepared reads h s).trans E) hr hw

/-- An arm that leaves no window. -/
theorem endsWith_empty_of_arm (M : MayEnd s h) (hi : exec i s = runArm reads a h s)
    (ha : a h (prepared reads h s) = (s', e)) (E : Ended h (prepared reads h s) s')
    (hr : (slotAt s' h).rxlen = (slotAt s h).rxlen) (hw : (slotAt s' h).winLen = 0) : EndsWith i h e [] s := by
  have ends := endsWith_of_arm M hi ha E hr ((windowFits_iff _ _).mpr (.inl hw))
  rwa [dataOf, hw] at ends

/-- An arm that ends with an error before it sets a window: a slot that awaits its response has none. -/
theorem endsWith_of_refusal (W : Awaiting s h) (hi : exec i s = runArm reads a h s)
    (ha : a h (prepared reads h s) = (prepared reads h s, e)) : EndsWith i h e [] s :=
  endsWith_empty_of_arm (mayEnd_of_awaiting W) hi ha (Ended.refl h _) (prepared_rxlen reads h s)
    ((prepared_winLen reads h s).trans W.window)

/-- An arm that exposes a window inside the receive buffer. -/
theorem endsWith_of_window {off n : Nat} (M : MayEnd s h) (hi : exec i s = runArm reads a h s)
    (ha : a h (prepared reads h s) = (window h off n (prepared reads h s), e)) (hn : n = 0 ∨ off + n ≤ s.cfg.bufCap) :
    EndsWith i h e (readBytes (slotAt (prepared reads h s) h).rx off n) s := by
  have ends := endsWith_of_arm M hi ha (ended_window ..)
    (by rw [window, slotAt_updSlot_self]; exact prepared_rxlen reads h s) (window_fits_iff.mpr (by rwa [prepared_cfg]))
  rwa [window, slotAt_updSlot_self] at ends

/-! ### The ends of the normaliser (R204, R205) -/

/-- R205: a guard of the normaliser fails. -/
theorem endsWith_of_normalize_bad (M : MayEnd s h)
    (hi : exec i s = raise h (normalizeSlot h s').2 (normalizeSlot h s').1) (E : Ended h s s')
    (hr : (slotAt s' h).rxlen = (slotAt s h).rxlen) (hn : normalErr s'.cfg (slotAt s' h) = e)
    (he : e ≠ .ok) : EndsWith i h e [] s := by
  subst hn
  rw [normalize_bad he] at hi
  have ends := endsWith_of_raise M hi (E.upd (fun x => { x with winLen := 0 }) fun _ => rfl)
    (by rw [slotAt_updSlot_self]; exact hr)
    ((windowFits_iff _ _).mpr (.inl (by rw [slotAt_updSlot_self])))
  rwa [slotAt_updSlot_self] at ends

/-- R204: its guards pass. -/
theorem endsWith_of_normalize_ok (M : MayEnd s h)
    (hi : exec i s = raise h (normalizeSlot h s').2 (normalizeSlot h s').1) (E : Ended h s s')
    (hr : (slotAt s' h).rxlen = (slotAt s h).rxlen) (hn : normalErr s'.cfg (slotAt s' h) = .ok) :
    EndsWith i h .ok (normalBytes s.ctx.bigEndian (slotAt s h).esize (dataOf (slotAt s' h))) s := by
  have slot := slotAt_normalizeSlot_of_ok hn
  have received : (slotAt s' h).rxlen ≤ s'.cfg.bufCap := by
    rw [hr, E.cfg]; exact M.rxlen_le
  rw [show (normalizeSlot h s').2 = .ok by rw [normalize_ok hn]] at hi
  have ends := endsWith_of_raise M hi (ended_normalize E) (by rw [slot]; exact hr) (inside_normalizeSlot received)
  rwa [slot, normalSlot_data, E.ctx, E.esize] at ends

/-- An arm that normalises `n` bytes behind the first `off` of the PDU. -/
theorem endsNormalised_of_arm {off n : Nat} (M : MayEnd s h) (hi : exec i s = runArm reads a h s)
    (ha : a h (prepared reads h s) = normalizeSlot h (window h (s.cfg.hdr + off) n (prepared reads h s)))
    (hoff : 0 < off) :
    EndsNormalised i h (readBytes (slotAt s h).rx (s.cfg.hdr + off) n)
      (off + n ≤ (pduRx s.cfg (slotAt s h)).length) s := by
  have raises : exec i s = raise h _ _ := hi.trans (by rw [runArm, ha])
  have E := (ended_prepared reads h s).trans (ended_window h (s.cfg.hdr + off) n (prepared reads h s))
  have slot : slotAt (window h (s.cfg.hdr + off) n (prepared reads h s)) h =
    { slotAt (prepared reads h s) h with winOff := s.cfg.hdr + off, winLen := n } := slotAt_updSlot_self ..
  have rxlen : (slotAt (window h (s.cfg.hdr + off) n (prepared reads h s)) h).rxlen = (slotAt s h).rxlen := by
    rw [slot]; exact prepared_rxlen reads h s
  have guards : normalErr (window h (s.cfg.hdr + off) n (prepared reads h s)).cfg
      (slotAt (window h (s.cfg.hdr + off) n (prepared reads h s)) h) =
        if s.cfg.params.esMax < (slotAt s h).esize then .invalidArgument
        else if (slotAt s h).rxlen < s.cfg.hdr + off + n + s.cfg.trl ∨ n % ts (slotAt s h).esize ≠ 0 then
          .bufferTooSmall
        else .ok := by
    rw [normalErr_eq, rxlen, E.cfg, E.esize, slot]
  have whole : off + n ≤ (pduRx s.cfg (slotAt s h)).length ↔
      ¬ (slotAt s h).rxlen < s.cfg.hdr + off + n + s.cfg.trl := by
    rw [length_pduRx]; omega
  rw [EndsNormalised, length_readBytes, whole]
  refine ⟨fun hes => ?_, fun hes hbad => ?_, fun hes hall hmod => ?_⟩
  · rw [if_pos hes] at guards
    exact endsWith_of_normalize_bad M raises E rxlen guards (by simp)
  · rw [if_neg (Nat.not_lt.mpr hes), if_pos (by simpa using hbad)] at guards
    exact endsWith_of_normalize_bad M raises E rxlen guards (by simp)
  · rw [if_neg (Nat.not_lt.mpr hes), if_neg (by simp only [not_or, not_not]; exact ⟨hall, hmod⟩)] at guards
    have ends := endsWith_of_normalize_ok M raises E rxlen guards
    have data := readBytes_prepared (reads := reads) (show s.cfg.hdr + off + n ≤ (slotAt s h).rxlen by omega)
    rw [slot, dataOf] at ends
    simp only [data] at ends
    have normal := normalBytes_spec s.ctx.bigEndian (slotAt s h).esize (readBytes (slotAt s h).rx (s.cfg.hdr + off) n)
    exact ⟨_, normal, ends⟩

/-- R204, R205: however the normaliser ends the attempt. -/
theorem endsWith_of_endsNormalised {raw : List Byte} {whole : Prop} (N : EndsNormalised i h raw whole s) :
    ∃ e w, EndsWith i h e w s ∧ (e = .invalidArgument ∨ e = .bufferTooSmall ∨ e = .ok) := by
  obtain ⟨argument, small, ok⟩ := N
  by_cases hes : s.cfg.params.esMax < (slotAt s h).esize
  · exact ⟨_, _, argument hes, .inl rfl⟩
  · by_cases hbad : ¬ whole ∨ raw.length % ts (slotAt s h).esize ≠ 0
    · exact ⟨_, _, small (Nat.not_lt.mp hes) hbad, .inr (.inl rfl)⟩
    · simp only [not_or, not_not] at hbad
      obtain ⟨w, -, ends⟩ := ok (Nat.not_lt.mp hes) hbad.1 hbad.2
      exact ⟨_, w, ends, .inr (.inr rfl)⟩

end

/-! ### The reads (R185 to R190, R198) -/

section
variable {op : Instr} {h : Nat} {s : State}

theorem exec_rspBits (M : MayEnd s h) (hop : op = .rspRdCoils h ∨ op = .rspRdDiscrete h) :
    exec op s = runArm bitsReads bitsArm h s := by
  rw [← hostArm_eq_runArm M]
  rcases hop with rfl | rfl <;> rfl

theorem exec_rspRegs (M : MayEnd s h) (hop : op = .rspRdHolding h ∨ op = .rspRdInput h ∨ op = .rspRwRegs h) :
    exec op s = runArm regsReads regsArm h s := by
  rw [← hostArm_eq_runArm M]
  rcases hop with rfl | rfl | rfl <;> rfl

theorem readCheck_of_eq {n : Nat} (hc : replyByte s h 1 = tmplByte s h 1) (hn : (replyByte s h 1).toNat = n) :
    readCheck h s = (window h (s.cfg.hdr + 2) n s, .ok) := by rw [readCheck, if_pos hc, hn]

theorem readCheck_of_ne (hc : replyByte s h 1 ≠ tmplByte s h 1) : readCheck h s = (s, .invalidByteLength) := if_neg hc

theorem regsArm_of_eq {n : Nat} (hc : replyByte s h 1 = tmplByte s h 1) (hn : (replyByte s h 1).toNat = n) :
    regsArm h s = normalizeSlot h (window h (s.cfg.hdr + 2) n s) := by
  rw [regsArm, readCheck_of_eq hc hn, if_pos rfl]

theorem regsArm_of_ne (hc : replyByte s h 1 ≠ tmplByte s h 1) : regsArm h s = (s, .invalidByteLength) := by
  rw [regsArm, readCheck_of_ne hc, if_neg (by simp)]

/-- R187, R188: the data of a coil read whose byte count is the template's. -/
theorem bits_of_count_eq {n : Nat} (M : MayEnd s h) (hi : exec op s = runArm bitsReads bitsArm h s)
    (hc : replyByte (prepared bitsReads h s) h 1 = tmplByte (prepared bitsReads h s) h 1)
    (hn : (replyByte (prepared bitsReads h s) h 1).toNat = n) (hfit : n = 0 ∨ s.cfg.hdr + 2 + n ≤ s.cfg.bufCap) :
    EndsWith op h .ok (readBytes (slotAt (prepared bitsReads h s) h).rx (s.cfg.hdr + 2) n) s :=
  endsWith_of_window M hi ((readCheck_of_eq hc hn).trans (by rw [prepared_cfg])) hfit

/-- R80, U12: a byte count that is the template's and leads past the receive buffer. -/
theorem bits_of_count_past {n : Nat} (hi : exec op s = runArm bitsReads bitsArm h s)
    (hc : replyByte (prepared bitsReads h s) h 1 = tmplByte (prepared bitsReads h s) h 1)
    (hn : (replyByte (prepared bitsReads h s) h 1).toNat = n) (hpast : ¬ (n = 0 ∨ s.cfg.hdr + 2 + n ≤ s.cfg.bufCap)) :
    exec op s = .fault .bufferBound := by
  rw [hi, runArm, bitsArm, readCheck_of_eq hc hn, prepared_cfg]
  exact raise_of_window_past (mt window_fits_iff.mp (by rwa [prepared_cfg]))

end

end Sys2Proof.Machine

open Sys2Proof Sys2Proof.Machine Sys2Proof.Claims

/-- Settles O36: the window behind a right byte count is exposed as received, or lies past the buffer. -/
theorem responseReadBits : Obligations.ResponseReadBits := by
  intro s h op W hop
  have M := mayEnd_of_awaiting W
  have runs := exec_rspBits M hop
  refine ⟨fun c b hc hb => ?counted, fun _ => ?uncounted⟩
  case counted =>
    have reply : replyByte (prepared bitsReads h s) h 1 = c := replyByte_prepared hc
    have tmpl : tmplByte (prepared bitsReads h s) h 1 = b := tmplByte_prepared hb
    have second := (List.getElem?_eq_some_iff.mp hc).1
    have received := M.rxlen_le
    rw [length_pduRx] at second
    refine ⟨fun hne => ?_, fun heq hall => ?_, fun heq hfit => ?_, fun heq hpast => ?_⟩
    · exact endsWith_of_refusal W runs (readCheck_of_ne (by rwa [reply, tmpl]))
    · have data := slice_pduRx (Nat.le_add_right 2 c.toNat) hall
      rw [length_pduRx] at hall
      have ends := bits_of_count_eq M runs (by rw [reply, tmpl, heq]) (congrArg BitVec.toNat reply) (.inr (by omega))
      rw [readBytes_prepared (by omega)] at ends
      rwa [data, Nat.add_sub_cancel_left]
    · exact ⟨_, exposed_prepared _ _,
        bits_of_count_eq M runs (by rw [reply, tmpl, heq]) (congrArg BitVec.toNat reply) (.inr hfit)⟩
    · exact bits_of_count_past runs (by rw [reply, tmpl, heq]) (congrArg BitVec.toNat reply) (by omega)
  case uncounted =>
    by_cases heq : replyByte (prepared bitsReads h s) h 1 = tmplByte (prepared bitsReads h s) h 1
    · by_cases hfit : (replyByte (prepared bitsReads h s) h 1).toNat = 0 ∨
          s.cfg.hdr + 2 + (replyByte (prepared bitsReads h s) h 1).toNat ≤ s.cfg.bufCap
      · exact .inr (.inl ⟨_, _, exposed_prepared _ _, bits_of_count_eq M runs heq rfl hfit⟩)
      · exact .inr (.inr (bits_of_count_past runs heq rfl hfit))
    · exact .inl (endsWith_of_refusal W runs (readCheck_of_ne heq))

/-- Settles O37: behind a right byte count stands the normaliser. -/
theorem responseReadRegisters : Obligations.ResponseReadRegisters := by
  intro s h op W hop
  have M := mayEnd_of_awaiting W
  have runs := exec_rspRegs M hop
  have normalises {n : Nat} (heq : replyByte (prepared regsReads h s) h 1 = tmplByte (prepared regsReads h s) h 1)
      (hn : (replyByte (prepared regsReads h s) h 1).toNat = n) :
      EndsNormalised op h (readBytes (slotAt s h).rx (s.cfg.hdr + 2) n) (2 + n ≤ (pduRx s.cfg (slotAt s h)).length) s :=
    endsNormalised_of_arm M runs ((regsArm_of_eq heq hn).trans (by rw [prepared_cfg])) (by omega)
  refine ⟨fun c b hc hb => ?counted, fun _ _ => ?uncounted⟩
  case counted =>
    have reply : replyByte (prepared regsReads h s) h 1 = c := replyByte_prepared hc
    have tmpl : tmplByte (prepared regsReads h s) h 1 = b := tmplByte_prepared hb
    refine ⟨fun hne => endsWith_of_refusal W runs (regsArm_of_ne (by rwa [reply, tmpl])), fun heq raw hlen hraw => ?_⟩
    have data : raw = readBytes (slotAt s h).rx (s.cfg.hdr + 2) c.toNat := by
      refine List.ext_getElem? fun k => ?_
      rw [getElem?_readBytes]
      split
      · next hk => exact hraw k hk
      · next hk => exact List.getElem?_eq_none (by omega)
    rw [data]
    exact normalises (by rw [reply, tmpl, heq]) (congrArg BitVec.toNat reply)
  case uncounted =>
    by_cases heq : replyByte (prepared regsReads h s) h 1 = tmplByte (prepared regsReads h s) h 1
    · obtain ⟨e, w, ends, he⟩ := endsWith_of_endsNormalised (normalises heq rfl)
      exact ⟨e, w, ends, .inr he⟩
    · exact ⟨_, _, endsWith_of_refusal W runs (regsArm_of_ne heq), .inl rfl⟩

end

section
/-! The write responses, the two bytes apart, the errors and the dispatch (spec 41 R180 to R183, R191 to R197). -/

namespace Sys2Proof.Machine

open Sys2Proof.Claims

/-! ### The echoes (R186, R191, R192, R195 to R197) -/

theorem firstFailed_cases (l : List (Bool × Err)) : firstFailed l = .ok ∨ firstFailed l ∈ l.map Prod.snd := by
  induction l with
  | nil => exact .inl rfl
  | cons c l ih =>
    obtain ⟨passed, e⟩ := c
    cases passed with
    | false => exact .inr (List.mem_cons_self ..)
    | true => exact ih.imp_right (List.mem_cons_of_mem _)

section
variable {op : Instr} {h : Nat} {s : State}

theorem exec_rspWriteOne (M : MayEnd s h) (hop : op = .rspWrCoil h ∨ op = .rspWrReg h) :
    exec op s = runArm writeReads writeOneArm h s := by
  rw [← hostArm_eq_runArm M]
  rcases hop with rfl | rfl <;> rfl

theorem exec_rspWriteMany (M : MayEnd s h) (hop : op = .rspWrCoils h ∨ op = .rspWrRegs h) :
    exec op s = runArm writeReads writeManyArm h s := by
  rw [← hostArm_eq_runArm M]
  rcases hop with rfl | rfl <;> rfl

theorem exec_rspMaskWr (M : MayEnd s h) : exec (.rspMaskWr h) s = runArm maskReads maskArm h s :=
  hostArm_eq_runArm M maskReads maskArm

/-- R186: an arm that compares fields ends with the first that differs, and without data. -/
theorem endsWith_of_echo {reads : Nat → State → List (Nat × Nat × Bool)} {a : Nat → State → State × Err}
    {checks : List (Bool × Err)} (W : Awaiting s h) (hi : exec op s = runArm reads a h s)
    (ha : a h (prepared reads h s) = echoArm h checks (prepared reads h s)) :
    EndsWith op h (firstFailed checks) [] s := by
  by_cases hok : firstFailed checks = .ok
  · rw [hok]
    rw [echoArm, if_pos hok] at ha
    refine endsWith_empty_of_arm (mayEnd_of_awaiting W) hi ha (ended_noWindow ..) ?_ ?_ <;>
      rw [noWindow, slotAt_updSlot_self]
    exact prepared_rxlen reads h s
  · rw [echoArm, if_neg hok] at ha
    exact endsWith_of_refusal W hi ha

theorem endsWith_writeOne (W : Awaiting s h) (hop : op = .rspWrCoil h ∨ op = .rspWrReg h) :
    EndsWith op h (firstFailed [echoCheck h 1 .invalidAddress (prepared writeReads h s),
      echoCheck h 3 .invalidData (prepared writeReads h s)]) [] s :=
  endsWith_of_echo W (exec_rspWriteOne (mayEnd_of_awaiting W) hop) rfl

theorem endsWith_writeMany (W : Awaiting s h) (hop : op = .rspWrCoils h ∨ op = .rspWrRegs h) :
    EndsWith op h (firstFailed [echoCheck h 1 .invalidAddress (prepared writeReads h s),
      echoCheck h 3 .invalidQuantity (prepared writeReads h s)]) [] s :=
  endsWith_of_echo W (exec_rspWriteMany (mayEnd_of_awaiting W) hop) rfl

theorem endsWith_maskWr (W : Awaiting s h) :
    EndsWith (.rspMaskWr h) h (firstFailed [echoCheck h 1 .invalidAddress (prepared maskReads h s),
      echoCheck h 3 .invalidData (prepared maskReads h s), echoCheck h 5 .invalidData (prepared maskReads h s)]) [] s :=
  endsWith_of_echo W (exec_rspMaskWr (mayEnd_of_awaiting W)) rfl

/-- The errors an echo may give. -/
theorem ends_with_echo_error {checks : List (Bool × Err)} (ends : EndsWith op h (firstFailed checks) [] s)
    (named : ∀ e ∈ checks.map Prod.snd, e = .invalidAddress ∨ e = .invalidData ∨ e = .invalidQuantity) :
    ∃ e, EndsWith op h e [] s ∧ (e = .invalidAddress ∨ e = .invalidData ∨ e = .invalidQuantity ∨ e = .ok) := by
  refine ⟨_, ends, ?_⟩
  rcases firstFailed_cases checks with hok | hmem
  · exact .inr (.inr (.inr hok))
  · exact (named _ hmem).imp_right (Or.imp_right .inl)

end

/-! ### The exception-status byte and the diagnostics (R193, R194) -/

section
variable {h : Nat} {s : State}

theorem exec_rspRdExcStatus (M : MayEnd s h) : exec (.rspRdExcStatus h) s = runArm secondRead excStatusArm h s :=
  hostArm_eq_runArm M secondRead excStatusArm

theorem exec_rspDiag (M : MayEnd s h) : exec (.rspDiag h) s = runArm diagReads diagArm h s :=
  hostArm_eq_runArm M diagReads diagArm

theorem endsWith_excStatus (M : MayEnd s h) (hfit : s.cfg.hdr + 2 ≤ s.cfg.bufCap) :
    EndsWith (.rspRdExcStatus h) h .ok (readBytes (slotAt (prepared secondRead h s) h).rx (s.cfg.hdr + 1) 1) s :=
  endsWith_of_window M (exec_rspRdExcStatus M) (by rw [excStatusArm, prepared_cfg]) (.inr hfit)

/-- R193: a status byte that was received. -/
theorem endsWith_excStatus_received {b : Byte} (M : MayEnd s h) (hb : (pduRx s.cfg (slotAt s h))[1]? = some b) :
    EndsWith (.rspRdExcStatus h) h .ok [b] s := by
  have second := (List.getElem?_eq_some_iff.mp hb).1
  have byte := pduRx_get second
  have received := M.rxlen_le
  rw [length_pduRx] at second
  have ends := endsWith_excStatus M (by omega)
  rw [readBytes_prepared (by omega)] at ends
  rwa [Option.some.inj (hb.symm.trans byte)]

theorem diagArm_of_passed (hc : echoCheck h 1 .invalidSubfunction s = (true, .invalidSubfunction)) :
    diagArm h s = normalizeSlot h (window h (s.cfg.hdr + 3) 2 s) := by
  rw [diagArm, hc]; exact if_pos rfl

theorem diagArm_of_failed (hc : echoCheck h 1 .invalidSubfunction s = (false, .invalidSubfunction)) :
    diagArm h s = (s, .invalidSubfunction) := by
  rw [diagArm, hc]; exact if_neg (by simp [firstFailed])

/-- R194: the data word behind a sub-function that is echoed. -/
theorem endsNormalised_diag (M : MayEnd s h)
    (hc : echoCheck h 1 .invalidSubfunction (prepared diagReads h s) = (true, .invalidSubfunction)) :
    EndsNormalised (.rspDiag h) h (readBytes (slotAt s h).rx (s.cfg.hdr + 3) 2)
      (5 ≤ (pduRx s.cfg (slotAt s h)).length) s :=
  endsNormalised_of_arm M (exec_rspDiag M) ((diagArm_of_passed hc).trans (by rw [prepared_cfg])) (by omega)

theorem endsWith_diag_failed (W : Awaiting s h)
    (hc : echoCheck h 1 .invalidSubfunction (prepared diagReads h s) = (false, .invalidSubfunction)) :
    EndsWith (.rspDiag h) h .invalidSubfunction [] s :=
  endsWith_of_refusal W (exec_rspDiag (mayEnd_of_awaiting W)) (diagArm_of_failed hc)

end

/-! ### Exceptions and the fall-through arms (R181 to R183) -/

section
variable {h : Nat} {s : State}

theorem prepared_noReads (h : Nat) (s : State) : prepared noReads h s = s := prepared_of_fits rfl

theorem prepared_secondRead (hp : 2 ≤ (pduRx s.cfg (slotAt s h)).length) : prepared secondRead h s = s :=
  prepared_of_fits (by simp [fitsReads, secondRead, readsFit, hp])

theorem exec_rspException (M : MayEnd s h) : exec (.rspException h) s = runArm secondRead exceptionArm h s :=
  hostArm_eq_runArm M secondRead exceptionArm

theorem exec_rspWrongFunction (M : MayEnd s h) : exec (.rspWrongFunction h) s = raise h .invalidFunction s := by
  have runs := hostArm_eq_runArm M noReads (fun _ s => (s, .invalidFunction))
  rw [runArm, prepared_noReads] at runs
  exact runs

theorem exec_rspNotSupported (M : MayEnd s h) :
    exec (.rspNotSupported h) s = runArm noReads (fun _ s => (s, .notSupported)) h s :=
  hostArm_eq_runArm M noReads _

/-- A `raise` on a slot that awaits its response, which has no window. -/
theorem endsWith_of_raise_at_once {i : Instr} {e : Err} (W : Awaiting s h) (hi : exec i s = raise h e s) :
    EndsWith i h e [] s := by
  have fits := (windowFits_iff s.cfg (slotAt s h)).mpr (.inl W.window)
  have ends := endsWith_of_raise (mayEnd_of_awaiting W) hi (Ended.refl h s) rfl fits
  rwa [dataOf, W.window] at ends

theorem endsWith_exception (M : MayEnd s h) :
    EndsWith (.rspException h) h (if 2 < (pduRx s.cfg (slotAt s h)).length then .tooManyData
      else exceptionErr (replyByte (prepared secondRead h s) h 1)) [] s := by
  have length : (pduRx s.cfg (slotAt (prepared secondRead h s) h)).length = (pduRx s.cfg (slotAt s h)).length :=
    congrArg List.length (pduRx_prepared secondRead h s)
  exact endsWith_of_window (off := 0) (n := 0) M (exec_rspException M) (by rw [exceptionArm, prepared_cfg, length])
    (.inl rfl)

theorem exceptionErr_cases (c : Byte) :
    exceptionErr c = .invalidExceptionCode ∨ ∃ d : Byte, 1 ≤ d.toNat ∧ d.toNat ≤ 10 ∧ exceptionErr c = .protocol d := by
  unfold exceptionErr
  split
  · next hc => exact .inr ⟨c, hc.1, hc.2, rfl⟩
  · exact .inl rfl

end

/-! ### `INVOKE` (R180) -/

section
variable {h : Nat} {s : State}

theorem exec_invoke (M : MayEnd s h) : exec (.invoke h) s = invokeOp h s := by
  have there := slotExists_of_detached M.detached
  show execInvoke h s = _
  simp [execInvoke, withSlot, withDetached, checked, there, M.detached, M.fits]

theorem exec_invoke_of_early {s' : State} {e : Err} (M : MayEnd s h) (he : earlyReply h s = some (s', e)) :
    exec (.invoke h) s = raise h e s' := by
  rw [exec_invoke M, invokeOp, he]

theorem earlyReply_of_err (he : (slotAt s h).err ≠ .ok) : earlyReply h s = some (s, (slotAt s h).err) := if_pos he

theorem earlyReply_of_short (he : (slotAt s h).err = .ok) (hp : (pduRx s.cfg (slotAt s h)).length < 2) :
    earlyReply h s = some (s, .tooFewData) := by
  simp [earlyReply, he, hp]

/-- R180 steps 2 to 3b on a PDU of two bytes or more. -/
theorem earlyReply_of_received {b : Byte} {rest : List Byte} (he : (slotAt s h).err = .ok)
    (hp : pduRx s.cfg (slotAt s h) = b :: rest) (hr : 1 ≤ rest.length) :
    earlyReply h s =
      if b.toNat = (fcOf s.cfg (slotAt s h)).toNat + 0x80 then some (exceptionArm h s)
      else if b ≠ fcOf s.cfg (slotAt s h) then some (s, .invalidFunction)
      else if s.cfg.hdr + (rest.length + 1) + s.cfg.trl < (slotAt s h).explen then some (s, .tooFewData)
      else if (slotAt s h).explen < s.cfg.hdr + (rest.length + 1) + s.cfg.trl then some (s, .tooManyData)
      else none := by
  have first : replyByte s h 0 = b := by rw [replyByte, hp]; rfl
  have long : ¬ rest.length + 1 < 2 := by omega
  simp only [earlyReply, he, hp, first, isExceptionOf, List.length_cons, ne_eq, not_true_eq_false, if_false, long,
    decide_eq_true_eq, Nat.add_comm (rest.length + 1) s.cfg.hdr]

/-- R180 step 4: past the guards the attempt ends as the arm of the request's function code. -/
theorem exec_invoke_of_expected {rest : List Byte} (M : MayEnd s h) (he : (slotAt s h).err = .ok)
    (hp : pduRx s.cfg (slotAt s h) = fcOf s.cfg (slotAt s h) :: rest) (hr : 1 ≤ rest.length)
    (hlen : (slotAt s h).explen = s.cfg.hdr + (1 + rest.length) + s.cfg.trl) :
    exec (.invoke h) s = runArm (armReads (fcOf s.cfg (slotAt s h))) (arm (fcOf s.cfg (slotAt s h))) h s := by
  have passed : earlyReply h s = none := by
    rw [earlyReply_of_received he hp hr, if_neg (by omega), if_neg (by simp), if_neg (by omega), if_neg (by omega)]
  rw [exec_invoke M, invokeOp, passed]

theorem supportedCode_eq_false_iff {fc : Byte} : supportedCode fc = false ↔
    fc ≠ 0x01#8 ∧ fc ≠ 0x02#8 ∧ fc ≠ 0x03#8 ∧ fc ≠ 0x04#8 ∧ fc ≠ 0x05#8 ∧ fc ≠ 0x06#8 ∧ fc ≠ 0x07#8 ∧ fc ≠ 0x08#8 ∧
    fc ≠ 0x0F#8 ∧ fc ≠ 0x10#8 ∧ fc ≠ 0x16#8 ∧ fc ≠ 0x17#8 := by
  simp [supportedCode]

theorem armReads_of_unsupported {fc : Byte} (hfc : supportedCode fc = false) : armReads fc = noReads := by
  rw [supportedCode_eq_false_iff] at hfc
  simp only [armReads, hfc, if_false]

/-- R183: the last arm. -/
theorem arm_of_unsupported {fc : Byte} (hfc : supportedCode fc = false) : arm fc = fun _ s => (s, .notSupported) := by
  rw [supportedCode_eq_false_iff] at hfc
  funext h s
  simp only [arm, hfc, if_false]

theorem exec_eq_dispatched {i : Instr} {fc : Byte} {reads : Nat → State → List (Nat × Nat × Bool)}
    {a : Nat → State → State × Err} (M : MayEnd s h) (hi : exec i s = hostArm h reads a s) (hr : armReads fc = reads)
    (ha : arm fc = a) : runArm (armReads fc) (arm fc) h s = exec i s := by
  rw [hi, hostArm_eq_runArm M, hr, ha]

end

end Sys2Proof.Machine

open Sys2Proof Sys2Proof.Machine Sys2Proof.Claims

/-- Settles O38: each write arm is an echo of its fields in PDU order (`endsWith_of_echo`). -/
theorem responseEchoes : Obligations.ResponseEchoes := by
  refine ⟨fun s h op W hop => ?any, fun s h same W hp ht hsame => ?fields⟩
  case any =>
    rcases hop with hop | hop | hop | hop | rfl
    · exact ends_with_echo_error (endsWith_writeOne W (.inl hop)) (by simp [echoCheck])
    · exact ends_with_echo_error (endsWith_writeOne W (.inr hop)) (by simp [echoCheck])
    · exact ends_with_echo_error (endsWith_writeMany W (.inl hop)) (by simp [echoCheck])
    · exact ends_with_echo_error (endsWith_writeMany W (.inr hop)) (by simp [echoCheck])
    · exact ends_with_echo_error (endsWith_maskWr W) (by simp [echoCheck])
  case fields =>
    have passes {reads} {k : Nat} {e : Err} (hp : k + 2 ≤ (pduRx s.cfg (slotAt s h)).length)
        (ht : k + 2 ≤ (slotAt s h).tmpllen) (hs : same k) : echoCheck h k e (prepared reads h s) = (true, e) := by
      rw [echoCheck_prepared e hp ht, decide_eq_true ((hsame k).mp hs)]
    have differs {reads} {k : Nat} {e : Err} (hp : k + 2 ≤ (pduRx s.cfg (slotAt s h)).length)
        (ht : k + 2 ≤ (slotAt s h).tmpllen) (hs : ¬ same k) : echoCheck h k e (prepared reads h s) = (false, e) := by
      rw [echoCheck_prepared e hp ht, decide_eq_false (mt (hsame k).mpr hs)]
    have two {reads} {op : Instr} {e : Err} (ends : EndsWith op h (firstFailed
        [echoCheck h 1 .invalidAddress (prepared reads h s), echoCheck h 3 e (prepared reads h s)]) [] s) :
        (¬ same 1 → EndsWith op h .invalidAddress [] s) ∧ (same 1 → ¬ same 3 → EndsWith op h e [] s) ∧
        (same 1 → same 3 → EndsWith op h .ok [] s) := by
      refine ⟨fun h1 => ?_, fun h1 h3 => ?_, fun h1 h3 => ?_⟩
      · rwa [differs (by omega) (by omega) h1] at ends
      · rwa [passes (by omega) (by omega) h1, differs (by omega) (by omega) h3] at ends
      · rwa [passes (by omega) (by omega) h1, passes (by omega) (by omega) h3] at ends
    refine ⟨fun op hop => two (endsWith_writeOne W hop), fun op hop => two (endsWith_writeMany W hop),
      fun hp7 ht7 => ?mask⟩
    case mask =>
      have ends := endsWith_maskWr W
      refine ⟨fun h1 => ?_, fun h1 h35 => ?_, fun h1 h3 h5 => ?_⟩
      · rwa [differs (by omega) (by omega) h1] at ends
      · rw [passes (by omega) (by omega) h1] at ends
        by_cases h3 : same 3
        · rwa [passes (by omega) (by omega) h3, differs (by omega) (by omega) fun h5 => h35 ⟨h3, h5⟩] at ends
        · rwa [differs (by omega) (by omega) h3] at ends
      · rwa [passes (by omega) (by omega) h1, passes (by omega) (by omega) h3, passes (by omega) (by omega) h5] at ends

/-- Settles O39: the status byte is a window of one byte; behind the echoed sub-function stands the normaliser. -/
theorem responseStatusAndDiagnostics : Obligations.ResponseStatusAndDiagnostics := by
  intro s h W
  have M := mayEnd_of_awaiting W
  refine ⟨fun b hb => endsWith_excStatus_received M hb, fun hc => ⟨?status, ?diag⟩,
    fun hp ht => ⟨fun hne => ?differs, fun heq => ?echoed⟩⟩
  case status =>
    have pduMax := eight_le_pduMax hc
    have cap := bufCap_eq s.cfg
    exact ⟨_, exposed_prepared _ _, endsWith_excStatus M (by omega)⟩
  case diag =>
    cases hc : (echoCheck h 1 .invalidSubfunction (prepared diagReads h s)).1 with
    | false => exact ⟨_, _, endsWith_diag_failed W (Prod.ext hc rfl), .inl rfl⟩
    | true =>
      obtain ⟨e, w, ends, he⟩ := endsWith_of_endsNormalised (endsNormalised_diag M (Prod.ext hc rfl))
      exact ⟨e, w, ends, .inr he⟩
  case differs => exact endsWith_diag_failed W (by rw [echoCheck_prepared _ hp ht, decide_eq_false hne])
  case echoed => exact endsNormalised_diag M (by rw [echoCheck_prepared _ hp ht, decide_eq_true heq])

/-- Settles O40: the exception arm leaves an empty window, the fall-through arms leave the slot as it is. -/
theorem responseExceptionAndFallThrough : Obligations.ResponseExceptionAndFallThrough := by
  intro s h W
  have M := mayEnd_of_awaiting W
  have ends := endsWith_exception M
  refine ⟨fun hlong => ?long, fun p c hpc => ?code, fun hshort => ?short, ?wrong, ?unsupported⟩
  case long => rwa [if_pos hlong] at ends
  case code =>
    have reply : replyByte (prepared secondRead h s) h 1 = c := replyByte_prepared (by rw [hpc]; rfl)
    rw [hpc, if_neg (by simp), reply] at ends
    refine ⟨fun hlo hhi => ?_, fun hout => ?_⟩
    · rwa [exceptionErr, if_pos ⟨hlo, hhi⟩] at ends
    · rwa [exceptionErr, if_neg (by omega)] at ends
  case short =>
    rw [if_neg (by omega)] at ends
    exact ⟨_, ends, exceptionErr_cases _⟩
  case wrong => exact endsWith_of_raise_at_once W (exec_rspWrongFunction M)
  case unsupported => exact endsWith_of_refusal W (exec_rspNotSupported M) rfl

/-- Settles O41: the guards of `earlyReply` in its order. -/
theorem invokeGuards : Obligations.InvokeGuards := by
  intro s h x p W hx hpdu
  subst hx hpdu
  have M := mayEnd_of_awaiting W
  refine ⟨fun he => ?failed, fun he => ⟨fun hshort => ?short, fun b rest hp hr => ?received⟩⟩
  case failed => exact endsWith_of_raise_at_once W (exec_invoke_of_early M (earlyReply_of_err he))
  case short => exact endsWith_of_raise_at_once W (exec_invoke_of_early M (earlyReply_of_short he hshort))
  case received =>
    have early := earlyReply_of_received he hp hr
    have length : (pduRx s.cfg (slotAt s h)).length = rest.length + 1 := by rw [hp, List.length_cons]
    rw [length]
    refine ⟨fun hexc => ?_, fun hexc => ⟨fun hne => ?_, fun heq => ⟨fun hfew => ?_, fun hmany => ?_⟩⟩⟩
    · rw [if_pos hexc] at early
      have runs : exec (.invoke h) s = raise h (exceptionArm h s).2 (exceptionArm h s).1 := exec_invoke_of_early M early
      rw [runs, exec_rspException M, runArm, prepared_secondRead (by omega)]
    · rw [if_neg hexc, if_pos hne] at early
      rw [exec_invoke_of_early M early, exec_rspWrongFunction M]
    · rw [if_neg hexc, if_neg (not_not.mpr heq), if_pos hfew] at early
      exact endsWith_of_raise_at_once W (exec_invoke_of_early M early)
    · rw [if_neg hexc, if_neg (not_not.mpr heq), if_neg (by omega), if_pos hmany] at early
      exact endsWith_of_raise_at_once W (exec_invoke_of_early M early)

/-- Settles O42: `arm` and `armReads` are those of the operation that the code selects. -/
theorem invokeDispatches : Obligations.InvokeDispatches := by
  intro s h rest W he hp hr hlen
  have M := mayEnd_of_awaiting W
  have runs := exec_invoke_of_expected M he hp hr hlen
  refine ⟨fun b hfc hrest => ?status, ?dispatch⟩
  case status =>
    have same : exec (.invoke h) s = exec (.rspRdExcStatus h) s :=
      runs.trans (exec_eq_dispatched M rfl (by rw [hfc]; rfl) (by rw [hfc]; rfl))
    obtain ⟨t, ends, completed⟩ := endsWith_excStatus_received M (b := b) (by rw [hp, hrest]; rfl)
    exact ⟨t, same.trans ends, completed⟩
  case dispatch =>
    rw [runs]
    generalize fcOf s.cfg (slotAt s h) = fc
    have code {n : Nat} (hfc : fc.toNat = n) : fc = BitVec.ofNat 8 n := by
      rw [← hfc, BitVec.ofNat_toNat, BitVec.setWidth_eq]
    split
    case h_13 h1 h2 h3 h4 h5 h6 h7 h8 h15 h16 h22 h23 =>
      have unsupported : supportedCode fc = false := by
        simp only [supportedCode_eq_false_iff, ne_eq, ← BitVec.toNat_inj]
        exact ⟨h1, h2, h3, h4, h5, h6, h7, h8, h15, h16, h22, h23⟩
      exact exec_eq_dispatched M rfl (armReads_of_unsupported unsupported) (arm_of_unsupported unsupported)
    all_goals
      next hfc =>
        rw [code hfc]
        exact exec_eq_dispatched M rfl (by simp [armReads]) (by funext h s; simp [arm])

end

section
/-! The normaliser as an operation, its accessor and its encoder (spec 41 R203 to R208). -/

namespace Sys2Proof.Machine

open Sys2Proof.Claims

/-! ### `NORMALIZE` (R204, R205) -/

section
variable {h : Nat} {s : State}

theorem exec_normalize (hh : h < s.cfg.params.poolCap) (hf : lengthsFit s.cfg (slotAt s h) = true) :
    exec (.normalize h) s =
      if (normalizeSlot h s).2 = .ok then ret .unit (normalizeSlot h s).1
      else withDetached h s (raise h (normalizeSlot h s).2 (normalizeSlot h s).1) := by
  show execNormalize h s = _
  simp [execNormalize, withSlot, checked, slotExists, hh, hf]

theorem exec_normalize_of_ok (hh : h < s.cfg.params.poolCap) (hf : lengthsFit s.cfg (slotAt s h) = true)
    (hn : normalErr s.cfg (slotAt s h) = .ok) : exec (.normalize h) s = ret .unit (normalizeSlot h s).1 := by
  rw [exec_normalize hh hf, if_pos (by rw [normalize_ok hn])]

theorem exec_normalize_of_bad (hh : h < s.cfg.params.poolCap) (hf : lengthsFit s.cfg (slotAt s h) = true)
    (hn : normalErr s.cfg (slotAt s h) ≠ .ok) :
    exec (.normalize h) s = withDetached h s (raise h (normalizeSlot h s).2 (normalizeSlot h s).1) := by
  rw [exec_normalize hh hf, if_neg (by rwa [normalize_bad hn])]

end

/-! ### Elements (R203, R206, R207) -/

theorem ts_of_pos {es : Nat} (hes : 1 ≤ es) : ts es = if es ≤ 2 then es else es + es % 2 := if_neg (by omega)

theorem hostOrder_hostOrder (be : Bool) (l : List Byte) : hostOrder be (hostOrder be l) = l := by
  cases be
  · exact List.reverse_reverse l
  · rfl

/-- R207: the accessor on a normalised window. -/
theorem elemOf_of_normalised {be : Bool} {es k : Nat} {raw w : List Byte} (N : Normalised be es raw w)
    (hk : k < raw.length / ts es) :
    elemOf be es w k = uNbe (slice raw (k * ts es + (ts es - es)) ((k + 1) * ts es)) := by
  rw [elemOf, N.2 k hk, hostOrder_hostOrder]

/-- R206: the bytes of values of their type. -/
theorem encodeVals_eq {es : Nat} {vals : List Nat} (hv : ∀ v ∈ vals, v < 256 ^ es) :
    encodeVals es vals = vals.flatMap fun v => beN v (ts es) :=
  List.flatMap_congr fun v hmem => image_eq (hv v hmem)

/-- R203, R206: an element behind its padding. -/
theorem uNbe_unpadded {es k v : Nat} {vals : List Nat} (hv : vals[k]? = some v) (hlt : v < 256 ^ es) :
    uNbe (slice (encodeVals es vals) (k * ts es + (ts es - es)) ((k + 1) * ts es)) = v := by
  have le := es_le_ts es
  have wide : k * ts es + (ts es - es) ≤ (k + 1) * ts es := by rw [Nat.add_mul]; omega
  rw [← drop_slice _ _ _ _ wide, slice_encodeVals es k v vals hv, image_eq hlt, drop_beN _ _ _ (Nat.sub_le ..),
    Nat.sub_sub_self le, uNbe_beN, Nat.mod_eq_of_lt hlt]

/-- R206: an element with its padding. -/
theorem uNbe_element {es k v : Nat} {vals : List Nat} (hv : vals[k]? = some v) (hlt : v < 256 ^ es) :
    uNbe (slice (encodeVals es vals) (k * ts es) ((k + 1) * ts es)) = v := by
  have fits : v < 256 ^ ts es := hlt.trans_le (Nat.pow_le_pow_right (by omega) (es_le_ts es))
  rw [slice_encodeVals es k v vals hv, image_eq hlt, uNbe_beN, Nat.mod_eq_of_lt fits]

end Sys2Proof.Machine

open Sys2Proof Sys2Proof.Machine Sys2Proof.Claims

/-- Settles O43: the guards pass and the slot is `normalSlot`'s, or the first that fails is raised. -/
theorem normalizeRewritesWindow : Obligations.NormalizeRewritesWindow := by
  intro s h x hh hx hf
  subst hx
  have guards := normalErr_eq s.cfg (slotAt s h)
  refine ⟨fun hes hall hmod => ?passed, fun hbad => ?failed⟩
  case passed =>
    rw [if_neg (Nat.not_lt.mpr hes), if_neg (by omega)] at guards
    have E := ended_normalize (Ended.refl h s)
    have slot := slotAt_normalizeSlot_of_ok guards
    refine ⟨_, exec_normalize_of_ok hh hf guards, rfl, E.events, ?_, fun k hk => ?_, ?_, E.slots, ?_⟩
    · rw [slotAt_answer, slot, normalSlot_data]
      exact normalBytes_spec ..
    · rw [slotAt_answer, slot]
      exact normalSlot_outside _ _ _ k hk
    · rw [slotAt_answer, slot]; rfl
    · exact (congrArg offPool E.frame :)
  case failed =>
    have err : normalErr s.cfg (slotAt s h) =
        if s.cfg.params.esMax < (slotAt s h).esize then .invalidArgument else .bufferTooSmall := by
      rw [guards]
      split
      · rfl
      · next hes => exact if_pos (hbad.resolve_left hes)
    have bad : normalErr s.cfg (slotAt s h) ≠ .ok := by rw [err]; split <;> simp
    have runs := exec_normalize_of_bad hh hf bad
    refine ⟨fun hd hq hreq => ?_, fun hd => ?_⟩
    · rw [withDetached, if_pos hd] at runs
      exact endsWith_of_normalize_bad ⟨hq, hd, hf, hreq⟩ runs (Ended.refl h s) rfl err (err ▸ bad)
    · rw [runs, withDetached, if_neg (by simp [hd])]
      rfl

/-- Settles O44: normalising and reading an element undo each other's order, and an encoding holds each value's bytes
behind its padding. -/
theorem elementsReadBack : Obligations.ElementsReadBack := by
  intro be es raw w k hes N hk
  have elem := elemOf_of_normalised N hk
  refine ⟨elem, fun vals hraw hv => ?_⟩
  rw [← encodeVals_eq hv] at hraw
  have count : k < vals.length := by
    rwa [hraw, length_encodeVals, Nat.mul_div_cancel _ (hes.trans (es_le_ts es))] at hk
  have value := List.getElem?_eq_getElem count
  rw [elem, hraw, uNbe_unpadded value (hv _ (List.getElem_mem count)), value]

/-- Settles O45: the answer is `encodeVals`, whose element `k` is the image of value `k`. -/
theorem encodeElementsAnswers : Obligations.EncodeElementsAnswers := by
  refine fun s es vals => ⟨encodeVals es vals, rfl, fun hes => ?_, fun k v hes hv hlt => ?_⟩
  · rw [← ts_of_pos hes]; exact length_encodeVals es vals
  · rw [← ts_of_pos hes]; exact uNbe_element hv hlt

/-- Settles O46: `execSetBigEndian` is this state. -/
theorem setBigEndianWritesFlag : Obligations.SetBigEndianWritesFlag := fun _ _ => rfl

end

section
/-! The checksum (spec 42 R221, R222, R228) and the RTU frame operations (R223 to R226, U11). -/

namespace Sys2Proof.Machine

open Sys2Proof.Claims

/-! ### The checksum (R221, R222, R228) -/

/-- R228: one byte of the checksum by the table. -/
theorem crcByte_table (c : Half) (b : Byte) : crcByte c b = (c >>> 8) ^^^ crcTab (lo8 (c ^^^ b.setWidth 16)) := by
  rw [crcByte, crcEight_table, hi8_xor_low]

theorem lo8_xor_setWidth (c : Half) (b : Byte) : lo8 (c ^^^ b.setWidth 16) = lo8 c ^^^ b := by
  simp [lo8, BitVec.extractLsb'_xor, BitVec.extractLsb'_setWidth_of_le]

theorem hi8_setWidth (b : Byte) : hi8 (b.setWidth 16) = 0#8 := by
  have noHigh : b.toNat % 65536 / 256 % 256 = 0 := by omega
  apply BitVec.eq_of_toNat_eq
  simpa [hi8, Nat.shiftRight_eq_div_pow] using noHigh

theorem hi8_xor (c d : Half) : hi8 (c ^^^ d) = hi8 c ^^^ hi8 d := BitVec.extractLsb'_xor

theorem crcTab_zero : crcTab 0#8 = 0#16 := by decide

theorem crcByte_lo8 (c : Half) : crcByte c (lo8 c) = (hi8 c).setWidth 16 := by
  rw [crcByte_table, lo8_xor_setWidth, BitVec.xor_self, crcTab_zero, BitVec.xor_zero, hi8_eq]

theorem crcByte_eq_zero_iff {c : Half} {b : Byte} : crcByte c b = 0#16 ↔ c = b.setWidth 16 := by
  constructor
  · exact fun h => BitVec.xor_eq_zero_iff.mp (crcEight_eq_zero h)
  · rintro rfl
    rw [crcByte, BitVec.xor_self]
    decide

/-- The checksum has a zero high byte behind its own low byte only, and its low byte is then the high byte it had. -/
theorem crcByte_eq_setWidth_iff {c : Half} {lo hi : Byte} :
    crcByte c lo = hi.setWidth 16 ↔ lo = lo8 c ∧ hi = hi8 c := by
  constructor
  · intro h
    have noHigh : hi8 (crcTab (lo8 c ^^^ lo)) = 0#8 := by
      have high := congrArg hi8 h
      rwa [crcByte_table, lo8_xor_setWidth, ← hi8_eq, hi8_xor, hi8_setWidth, hi8_setWidth, BitVec.zero_xor] at high
    obtain rfl := BitVec.xor_eq_zero_iff.mp (crcTab_high _ noHigh)
    rw [crcByte_lo8] at h
    exact ⟨rfl, (setWidth_inj h).symm⟩
  · rintro ⟨rfl, rfl⟩
    exact crcByte_lo8 c

/-- R222: behind a sequence only its own checksum, low byte first, gives 0. -/
theorem crc_trailer_eq_zero_iff (l : List Byte) (lo hi : Byte) :
    crc (l ++ [lo, hi]) = 0#16 ↔ [lo, hi] = le16 (crc l) := by
  rw [crc_append, List.foldl_cons, List.foldl_cons, List.foldl_nil, crcByte_eq_zero_iff, crcByte_eq_setWidth_iff]
  simp [le16]

/-- Two sequences that differ in one byte alone have different checksums. -/
theorem crc_inj_byte {l r : List Byte} {b c : Byte} (h : crc (l ++ b :: r) = crc (l ++ c :: r)) : b = c := by
  rw [crc_append, crc_append] at h
  exact crcByte_inj_byte (foldl_crcByte_inj h)

/-! ### The receive frame (R225, R226) -/

theorem rtuHeadOk_iff (x : Slot) : rtuHeadOk x = true ↔ 1 ≤ x.rxlen ∧ readByte x.rx 0 = readByte x.tmpl 0 := by
  simp [rtuHeadOk]

/-- R226: the last two bytes are the checksum of those before. -/
theorem rtuCrcOk_iff (x : Slot) : rtuCrcOk x = true ↔
    3 ≤ x.rxlen ∧ readBytes x.rx (x.rxlen - 2) 2 = le16 (crc (readBytes x.rx 0 (x.rxlen - 2))) := by
  rw [rtuCrcOk, Bool.and_eq_true, decide_eq_true_eq, decide_eq_true_eq]
  exact and_congr_right fun _ => le16_iff ..

/-- R222, R226: a frame passes when the checksum of all its bytes is 0. -/
theorem crc_rx_eq_zero {x : Slot} (hx : rtuCrcOk x = true) : crc (readBytes x.rx 0 x.rxlen) = 0#16 := by
  obtain ⟨hlen, trailer⟩ := (rtuCrcOk_iff x).mp hx
  have parts := readBytes_add x.rx 0 (x.rxlen - 2) 2
  rw [Nat.sub_add_cancel (by omega), Nat.zero_add] at parts
  rw [parts]
  exact (crc_trailer_eq_zero_iff ..).mpr trailer

theorem readBytes_split_at (m : Memory) {k n : Nat} (hk : k < n) :
    readBytes m 0 n = readBytes m 0 k ++ readByte m k :: readBytes m (k + 1) (n - (k + 1)) := by
  have parts := readBytes_add m 0 k (n - (k + 1) + 1)
  rwa [show k + (n - (k + 1) + 1) = n by omega, Nat.zero_add] at parts

/-- R222: a byte written inside a range with another value changes the checksum of the range. -/
theorem eq_readByte_of_crc_eq {m : Memory} {k n : Nat} {b : Byte} (hk : k < n)
    (h : crc (readBytes (writeBytes m k [b]) 0 n) = crc (readBytes m 0 n)) : b = readByte m k := by
  have written : readByte (writeBytes m k [b]) k = b := by simp [readByte_writeBytes]
  have before : readBytes (writeBytes m k [b]) 0 k = readBytes m 0 k := readBytes_writeBytes_outside _ _ (by omega)
  have behind (p : Nat) : readBytes (writeBytes m k [b]) (k + 1) p = readBytes m (k + 1) p :=
    readBytes_writeBytes_outside _ _ (.inr (Nat.le_refl _))
  rw [readBytes_split_at _ hk, readBytes_split_at m hk, before, written, behind] at h
  exact crc_inj_byte h

theorem rtuCrcOk_altered {x : Slot} {k : Nat} {b : Byte} (hx : rtuCrcOk x = true) (hk : k < x.rxlen)
    (hb : b ≠ readByte x.rx k) : rtuCrcOk { x with rx := writeBytes x.rx k [b] } = false := by
  refine Bool.eq_false_iff.mpr fun altered => hb (eq_readByte_of_crc_eq hk ?_)
  rw [crc_rx_eq_zero hx]
  exact crc_rx_eq_zero altered

/-! ### The operations on a slot of an RTU instance (R223 to R226) -/

section
variable {s : State} {h : Nat}

theorem onSlot_updSlot (r : Result) (f : Slot → Slot) : OnSlot h r s (answer r (updSlot s h f)) :=
  ⟨rfl, rfl, rfl, fun _ hk => slotAt_updSlot_ne s f hk⟩

variable (ht : s.cfg.params.transport = .rtu) (hh : h < s.cfg.params.poolCap)
include ht hh

theorem rtu_guards (k : Out) : onlyOn .rtu s (withSlot h s k) = k := by
  simp [onlyOn, withSlot, slotExists, ht, hh]

theorem exec_rtuSetHead (u : Byte) : exec (.rtuSetHead h u) s = ret .unit (updSlot s h (rtuHead u)) :=
  rtu_guards ht hh _

theorem exec_rtuSetCrc {len : Nat} (hlen : len ≤ s.cfg.params.pduMax) :
    exec (.rtuSetCrc h len) s = ret .unit (updSlot s h (rtuCrc len)) :=
  (rtu_guards ht hh _).trans (if_pos (crc_fits hlen))

theorem exec_rtuCheckHead : exec (.rtuCheckHead h) s = ret (.bool (rtuHeadOk (slotAt s h))) s := rtu_guards ht hh _

theorem exec_rtuCheckCrc (hf : lengthsFit s.cfg (slotAt s h) = true) :
    exec (.rtuCheckCrc h) s = ret (.bool (rtuCrcOk (slotAt s h))) s :=
  (rtu_guards ht hh _).trans (if_pos (by simp [slotExists, hh, hf]))

end

end Sys2Proof.Machine

open Sys2Proof Sys2Proof.Machine

/-- Settles O6: the inner loop is `crcEight`, and one byte is a table look-up (`crcByte_table`). -/
theorem crc16Algorithm : Obligations.Crc16Algorithm := by
  refine ⟨fun l s => rfl, rfl, fun l b => ⟨?loop, ?table, ?entries⟩⟩
  case loop => exact crc_snoc l b
  case table => rw [crc_snoc, crcByte_table]
  case entries => decide

/-- Settles O7: the last two steps give 0 exactly on the low and the high byte they start from. -/
theorem crcOfWholeFrame : Obligations.CrcOfWholeFrame := crc_trailer_eq_zero_iff

/-- Settles O8: a frame passes when its checksum is 0, and the checksum of the altered frame is another. -/
theorem oneByteErrorDetected : Obligations.OneByteErrorDetected := by
  intro s h k b ht hh hf passes hk hb
  have good : rtuCrcOk (slotAt s h) = true := by
    rw [exec_rtuCheckCrc ht hh hf, ret_eq_next] at passes
    simpa using (congrArg State.result passes).symm
  rw [exec_rtuCheckCrc (s := updSlot s h _) ht hh (by rw [slotAt_updSlot_self]; exact hf), slotAt_updSlot_self,
    rtuCrcOk_altered good hk hb]
  rfl

/-- Settles O10: `rtuHead` writes one byte of each buffer, `rtuCrc` two behind address and PDU. -/
theorem rtuSetHeadAndCrc : Obligations.RtuSetHeadAndCrc := by
  refine ⟨fun s h u ht hh => ?head, fun s h len ht hh hlen => ?crc⟩
  case head =>
    refine ⟨_, exec_rtuSetHead ht hh u, onSlot_updSlot .unit _, ?_⟩
    rw [slotAt_answer, slotAt_updSlot_self]
    have address (m : Memory) : readByte (writeBytes m 0 [u]) 0 = u := by simp [readByte_writeBytes]
    have others (m : Memory) {k : Nat} (hk : k ≠ 0) : readByte (writeBytes m 0 [u]) k = readByte m k :=
      readByte_writeBytes_outside m _ (.inr (Nat.pos_of_ne_zero hk))
    exact ⟨address _, address _, fun k hk => ⟨others _ hk, others _ hk⟩, rfl, rfl⟩
  case crc =>
    refine ⟨_, exec_rtuSetCrc ht hh hlen, onSlot_updSlot .unit _, ?_⟩
    rw [slotAt_answer, slotAt_updSlot_self]
    exact ⟨readBytes_writeBytes_self .., fun k hk => readByte_writeBytes_outside _ _ hk, rfl, rfl, rfl⟩

/-- Settles O11: the answers are `rtuHeadOk` and `rtuCrcOk`. -/
theorem rtuChecksAnswer : Obligations.RtuChecksAnswer := fun _ _ ht hh =>
  ⟨⟨_, exec_rtuCheckHead ht hh, rtuHeadOk_iff _⟩, fun hf => ⟨_, exec_rtuCheckCrc ht hh hf, rtuCrcOk_iff _⟩⟩

end

section
/-! The MBAP header (spec 43 R241, R242) and the checks of a received one (R244 to R248). -/

namespace Sys2Proof.Machine

open Sys2Proof.Claims

/-! ### Pairs of bytes as numbers (R12) -/

theorem uNbe_readBytes_two_inj {m m' : Memory} {k k' : Nat} :
    uNbe (readBytes m k 2) = uNbe (readBytes m' k' 2) ↔ readBytes m k 2 = readBytes m' k' 2 := by
  simp only [readBytes, uNbe_two]
  exact pair_eq

theorem uNbe_readBytes_two_eq_zero {m : Memory} {k : Nat} :
    uNbe (readBytes m k 2) = 0 ↔ readBytes m k 2 = [0#8, 0#8] := by
  simp only [readBytes, uNbe_two]
  exact pair_zero

/-! ### The guards of an operation on a slot (R22) -/

section
variable {s : State} {h : Nat} (ht : s.cfg.params.transport = .tcp)
include ht

theorem onlyOn_tcp (k : Out) : onlyOn .tcp s k = k := if_pos ht

theorem tcp_guards (hh : h < s.cfg.params.poolCap) (k : Out) : onlyOn .tcp s (withSlot h s k) = k := by
  rw [onlyOn_tcp ht]
  exact if_pos (decide_eq_true hh)

end

/-! ### `TCP_SET_MBAP` (R241, R242) -/

/-- R104: the seven bytes of a header, field by field. -/
theorem readBytes_writeBytes_mbap (m : Memory) (tid : Half) (u : Byte) (len : Nat) :
    readBytes (writeBytes m 0 (mbap tid u len)) 0 7 =
      be16 tid ++ be16 0#16 ++ be16 (BitVec.ofNat 16 (len + 1)) ++ [u] :=
  readBytes_writeBytes_self m 0 (mbap tid u len)

theorem readByte_writeBytes_mbap (m : Memory) (tid : Half) (u : Byte) (len : Nat) {k : Nat} (hk : 7 ≤ k) :
    readByte (writeBytes m 0 (mbap tid u len)) k = readByte m k :=
  readByte_writeBytes_outside m _ (.inr (by rw [length_mbap]; omega))

theorem slotAt_tcpSetMbap (h : Nat) (u : Byte) (len : Nat) (s : State) (k : Nat) :
    slotAt (tcpSetMbap h u len s) k = if k = h then tcpHead (s.ctx.tid + 1#16) u len (slotAt s h) else slotAt s k :=
  slotAt_updSlot { s with ctx := { s.ctx with tid := s.ctx.tid + 1#16 } } h k _

theorem fieldLength_of_lt {len : Nat} (hlen : len + 1 < 65536) : fieldLength len = len := if_pos hlen

section
variable {s : State} {h len : Nat} (ht : s.cfg.params.transport = .tcp) (hh : h < s.cfg.params.poolCap)
include ht hh

theorem exec_tcpSetMbap (hlen : len ≤ s.cfg.params.pduMax) (u : Byte) :
    exec (.tcpSetMbap h u len) s = ret .unit (tcpSetMbap h u len s) := by
  obtain ⟨-, -, cap⟩ := tcp_caps ht
  exact (tcp_guards ht hh _).trans (by rw [if_pos (by omega)])

theorem exec_tcpSetMbap_long (hlen : s.cfg.params.pduMax < len) (u : Byte) :
    exec (.tcpSetMbap h u len) s = ret .unit (tcpSetMbapLong h u len s) := by
  obtain ⟨-, -, cap⟩ := tcp_caps ht
  exact (tcp_guards ht hh _).trans (by rw [if_neg (by omega)])

end

/-! ### `TCP_CHECK_MBAP` and `TCP_PAYLOAD_LEN` (R244 to R248) -/

/-- R244 to R247: the first check that fails gives the answer. -/
theorem mbapErr_eq (x : Slot) : mbapErr x =
    if readBytes x.rx 0 2 ≠ readBytes x.tmpl 0 2 then .invalidTransactionId
    else if readBytes x.rx 2 2 ≠ [0#8, 0#8] then .invalidProtocolId
    else if readByte x.rx 6 ≠ readByte x.tmpl 6 then .invalidUnitId
    else .ok := by
  simp only [mbapErr, firstFailed, uNbe_readBytes_two_inj, uNbe_readBytes_two_eq_zero, decide_eq_true_eq, ite_not]

theorem mbapErr_cases (x : Slot) : mbapErr x = .ok ∨ mbapErr x = .invalidTransactionId ∨
    mbapErr x = .invalidProtocolId ∨ mbapErr x = .invalidUnitId := by
  rw [mbapErr_eq]
  split_ifs <;> simp

theorem payloadLen_of_bad {c : Cfg} {x : Slot} {n : Nat} (hn : uNbe (readBytes x.rx 4 2) = n)
    (hbad : n < 2 ∨ c.params.pduMax < n - 1) : payloadLen c x = none := by
  subst hn
  exact if_pos hbad

theorem payloadLen_of_good {c : Cfg} {x : Slot} {n : Nat} (hn : uNbe (readBytes x.rx 4 2) = n) (h2 : 2 ≤ n)
    (hmax : n - 1 ≤ c.params.pduMax) : payloadLen c x = some (n - 1) := by
  subst hn
  exact if_neg (by omega)

theorem lengthResult_payloadLen_cases (c : Cfg) (x : Slot) :
    lengthResult (payloadLen c x) = .err .invalidLength ∨
    ∃ n, 1 ≤ n ∧ n ≤ c.params.pduMax ∧ lengthResult (payloadLen c x) = .length n := by
  by_cases hbad : uNbe (readBytes x.rx 4 2) < 2 ∨ c.params.pduMax < uNbe (readBytes x.rx 4 2) - 1
  · exact .inl (by rw [payloadLen_of_bad rfl hbad]; rfl)
  · exact .inr ⟨uNbe (readBytes x.rx 4 2) - 1, by omega, by omega,
      by rw [payloadLen_of_good rfl (by omega) (by omega)]; rfl⟩

/-- Log 24: an operation that reads bytes that were not received. -/
theorem heard_answer_unreceived (r : Result) (h : Nat) (s : State) : Heard h s (answer r (unreceived h s)) := by
  have slot : slotAt (unreceived h s) h = fillRx s.cfg s.freeCount (slotAt s h) := by
    rw [slotAt_unreceived, if_pos rfl]
  refine ⟨rfl, fun k hk => ?_, rfl, ?_, fun k hk => ?_⟩
  · rw [slotAt_answer, slotAt_unreceived, if_neg hk]
  · rw [slotAt_answer, slot]; rfl
  · rw [slotAt_answer, slot]
    exact readByte_writeBytes_outside _ _ (.inl hk)

section
variable {s : State} {h : Nat} (ht : s.cfg.params.transport = .tcp) (hh : h < s.cfg.params.poolCap)
include ht hh

theorem exec_tcpCheckMbap (hr : 7 ≤ (slotAt s h).rxlen) :
    exec (.tcpCheckMbap h) s = ret (.err (mbapErr (slotAt s h))) s :=
  (tcp_guards ht hh _).trans (by rw [heard_of_le hr])

theorem exec_tcpCheckMbap_short (hr : (slotAt s h).rxlen < 7) :
    exec (.tcpCheckMbap h) s = ret (.err (mbapErr (slotAt (unreceived h s) h))) (unreceived h s) :=
  (tcp_guards ht hh _).trans (by rw [heard_of_lt hr])

theorem exec_tcpPayloadLen (hr : 6 ≤ (slotAt s h).rxlen) :
    exec (.tcpPayloadLen h) s = ret (lengthResult (payloadLen s.cfg (slotAt s h))) s :=
  (tcp_guards ht hh _).trans (by rw [heard_of_le hr])

theorem exec_tcpPayloadLen_short (hr : (slotAt s h).rxlen < 6) :
    exec (.tcpPayloadLen h) s = ret (lengthResult (payloadLen s.cfg (slotAt (unreceived h s) h))) (unreceived h s) :=
  (tcp_guards ht hh _).trans (by rw [heard_of_lt hr])

end

end Sys2Proof.Machine

open Sys2Proof Sys2Proof.Machine Sys2Proof.Claims

/-- Settles O12: the header of `tcpHead` is the seven bytes of `mbap`; a length above `PDU_MAX` changes the field and
`txlen` alone. -/
theorem tcpSetMbapWritesHeader : Obligations.TcpSetMbapWritesHeader := by
  refine ⟨fun s h u len ht hh hlen => ?inRange, fun s h u len ht hh hlen => ?long⟩
  case inRange =>
    have slot := slotAt_tcpSetMbap h u len s
    refine ⟨_, exec_tcpSetMbap ht hh hlen u, rfl, rfl, fun k hk => (slot k).trans (if_neg hk), rfl, rfl, ?_⟩
    rw [slotAt_answer, slot, if_pos rfl]
    exact ⟨readBytes_writeBytes_mbap .., readBytes_writeBytes_mbap ..,
      fun k hk => ⟨readByte_writeBytes_mbap _ _ _ _ hk, readByte_writeBytes_mbap _ _ _ _ hk⟩, rfl, rfl⟩
  case long =>
    have slot := slotAt_tcpSetMbapLong h u len s
    refine ⟨_, BitVec.ofNat 16 (fieldLength len + 1), exec_tcpSetMbap_long ht hh hlen u, rfl, rfl,
      fun k hk => (slot k).trans (if_neg hk), rfl, rfl, fun h16 => by rw [fieldLength_of_lt h16], ?_⟩
    rw [slotAt_answer, slot, if_pos rfl]
    refine ⟨readBytes_writeBytes_mbap .., readBytes_writeBytes_mbap ..,
      fun k hk => ⟨readByte_writeBytes_mbap _ _ _ _ hk, readByte_writeBytes_mbap _ _ _ _ hk⟩, Nat.le_add_right ..,
      ?_, rfl⟩
    obtain ⟨-, -, cap⟩ := tcp_caps ht
    have free : Config.freeLength s.freeCount len % (s.cfg.params.pduMax + 1) < s.cfg.params.pduMax + 1 :=
      Nat.mod_lt _ (Nat.succ_pos _)
    show 7 + _ ≤ _
    omega

/-- Settles O13: the answers are `mbapErr` and `payloadLen`, of the slot or of the slot with unreceived bytes free. -/
theorem tcpChecksAnswer : Obligations.TcpChecksAnswer := by
  intro s h ht hh
  refine ⟨fun hr => ?header, fun hr => ?shortHeader, fun hr => ?shortLength, fun hr => ?length⟩
  case header =>
    refine ⟨_, exec_tcpCheckMbap ht hh hr, ?_⟩
    rw [mbapErr_eq]
    refine ⟨fun tid => if_pos tid, fun tid => ?_⟩
    rw [if_neg (not_not.mpr tid)]
    refine ⟨fun protocol => if_pos protocol, fun protocol => ?_⟩
    rw [if_neg (not_not.mpr protocol)]
    exact ⟨fun unit => if_pos unit, fun unit => if_neg (not_not.mpr unit)⟩
  case shortHeader =>
    exact ⟨_, _, exec_tcpCheckMbap_short ht hh hr, rfl, heard_answer_unreceived .., mbapErr_cases _⟩
  case shortLength =>
    exact ⟨_, _, exec_tcpPayloadLen_short ht hh hr, rfl, heard_answer_unreceived .., lengthResult_payloadLen_cases ..⟩
  case length =>
    refine ⟨_, exec_tcpPayloadLen ht hh hr, fun n hn => ⟨fun hbad => ?_, fun h2 hmax => ?_⟩⟩
    · rw [payloadLen_of_bad ((uNbe_two _ _).trans hn.symm) hbad]; rfl
    · rw [payloadLen_of_good ((uNbe_two _ _).trans hn.symm) h2 hmax]; rfl

end

section
/-! The channel's entry points (spec 43 R249, R250). -/

namespace Sys2Proof.Machine

open Sys2Proof.Claims

/-! ### Bytes behind a write -/

theorem slice_take {l : List Byte} {i j n : Nat} (hn : j ≤ n) : slice (l.take n) i j = slice l i j := by
  rw [slice, slice, List.drop_take, List.take_take, Nat.min_eq_left (by omega)]

/-- Reads inside the written sequence are a part of it. -/
theorem readBytes_writeBytes_inside (m : Memory) (k : Nat) {bs : List Byte} {i n : Nat} (hn : i + n ≤ bs.length) :
    readBytes (writeBytes m k bs) (k + i) n = slice bs i (i + n) := by
  have part := slice_readBytes (writeBytes m k bs) k bs.length i (i + n) (Nat.le_add_right ..) hn
  rw [readBytes_writeBytes_self, Nat.add_sub_cancel_left] at part
  exact part.symm

/-! ### Two writes of one slot in use -/

theorem insertCell_insertCell {α : Type} (m : SMap α) (k : Nat) (v w : α) :
    insertCell (insertCell m k v) k w = insertCell m k w := by
  induction m with
  | nil => simp [insertCell]
  | cons c m ih =>
    obtain ⟨a, x⟩ := c
    by_cases hlt : k < a
    · simp [insertCell, hlt]
    · by_cases heq : a = k
      · simp [insertCell, heq]
      · simp [insertCell, hlt, heq, ih]

theorem ne_cleared_of_inuse {x : Slot} (hx : x.inuse = true) : x ≠ Slot.cleared := by
  rintro rfl
  cases hx

/-- The slot stays listed in the pool, so the second write replaces the first. -/
theorem updSlot_updSlot {s : State} {h : Nat} {f g : Slot → Slot} (hf : (f (slotAt s h)).inuse = true)
    (hg : (g (f (slotAt s h))).inuse = true) :
    updSlot (updSlot s h f) h g = updSlot s h fun x => g (f x) := by
  have pool : putCell Slot.cleared (putCell Slot.cleared s.pool h (f (slotAt s h))) h (g (f (slotAt s h))) =
      putCell Slot.cleared s.pool h (g (f (slotAt s h))) := by
    simp only [putCell, if_neg (ne_cleared_of_inuse hf), if_neg (ne_cleared_of_inuse hg), insertCell_insertCell]
  rw [updSlot, updSlot, slotAt_setSlot_self]
  exact (congrArg (fun m => { s with pool := m }) pool :)

/-! ### A change of the reply fields that sets the received length too -/

section
variable {h : Nat} {s s' : State} (E : Ended h s s')
include E

theorem lengthsFit_of_ended (hf : lengthsFit s.cfg (slotAt s h) = true) (hr : (slotAt s' h).rxlen ≤ s.cfg.bufCap) :
    lengthsFit s'.cfg (slotAt s' h) = true := by
  obtain ⟨txlen, -, explen, tmpl1, tmpl7⟩ := (lengthsFit_iff _ _).mp hf
  rw [lengthsFit_iff, E.cfg, E.txlen, E.explen, E.tmpllen]
  exact ⟨txlen, hr, explen, tmpl1, tmpl7⟩

theorem held_of_ended (k : Nat) : held s' k = held s k := by
  have sent : s'.sb = s.sb := (congrArg State.sb E.frame :)
  have engine : s'.eng = s.eng := (congrArg State.eng E.frame :)
  rw [held, held, E.q, sent, engine]

theorem awaiting_of_ended (W : Awaiting s h) (hr : (slotAt s' h).rxlen ≤ s.cfg.bufCap) (hw : (slotAt s' h).winLen = 0) :
    Awaiting s' h where
  queue := queueOk_congr E.q E.cfg W.queue
  slot := by rw [E.cfg]; exact W.slot
  inuse := E.inuse.trans W.inuse
  free := (held_of_ended E h).trans W.free
  fits := lengthsFit_of_ended E W.fits hr
  request := by rw [E.cfg, E.txlen]; exact W.request
  window := hw

/-- R13, R384: an operation that ends with an error before it sets a window. -/
theorem endsWith_of_raise_received {i : Instr} {e : Err} (W : Awaiting s h) (hi : exec i s = raise h e s')
    (hr : (slotAt s' h).rxlen ≤ s.cfg.bufCap) (hw : (slotAt s' h).winLen = 0) : EndsWith i h e [] s := by
  have W' := awaiting_of_ended E W hr hw
  have ends := completes_of_ended (mayEnd_of_awaiting W) E e
  rw [dataOf, hw] at ends
  exact ⟨_, hi.trans (raise_eq_next.mpr
    ⟨decide_eq_true W'.slot, W'.fits, (windowFits_iff ..).mpr (.inl hw), rfl⟩), rfl, ends⟩

end

/-! ### What `TCP_RECEIVE` stores (R249) -/

section
variable {s : State} {h n : Nat} {f : List Byte}

theorem ended_storeHeader (h : Nat) (f : List Byte) (s : State) : Ended h s (storeHeader h f s) :=
  (Ended.refl h s).upd _ fun _ => rfl

@[simp] theorem storeHeader_cfg (h : Nat) (f : List Byte) (s : State) : (storeHeader h f s).cfg = s.cfg := rfl

theorem slotAt_storeHeader : slotAt (storeHeader h f s) h =
    { slotAt s h with rx := writeBytes (slotAt s h).rx 0 (f.take 7), rxlen := 7 } := slotAt_updSlot_self ..

theorem readBytes_storeHeader (hf : 7 ≤ f.length) {i k : Nat} (hk : i + k ≤ 7) :
    readBytes (slotAt (storeHeader h f s) h).rx i k = slice f i (i + k) := by
  have inside := readBytes_writeBytes_inside (slotAt s h).rx 0 (bs := f.take 7) (i := i) (n := k)
    (by rw [List.length_take]; omega)
  rw [slotAt_storeHeader, ← slice_take hk, ← inside, Nat.zero_add]

/-- R244 to R247 on the header received. -/
theorem mbapErr_storeHeader (hf : 7 ≤ f.length) : mbapErr (slotAt (storeHeader h f s) h) =
    if f.take 2 ≠ readBytes (slotAt s h).tmpl 0 2 then .invalidTransactionId
    else if slice f 2 4 ≠ [0#8, 0#8] then .invalidProtocolId
    else if slice f 6 7 ≠ [readByte (slotAt s h).tmpl 6] then .invalidUnitId
    else .ok := by
  have tid : readBytes (slotAt (storeHeader h f s) h).rx 0 2 = f.take 2 := readBytes_storeHeader hf (by omega)
  have protocol : readBytes (slotAt (storeHeader h f s) h).rx 2 2 = slice f 2 4 := readBytes_storeHeader hf (by omega)
  have unit : [readByte (slotAt (storeHeader h f s) h).rx 6] = slice f 6 7 :=
    readBytes_storeHeader (i := 6) (k := 1) hf (by omega)
  have tmpl : (slotAt (storeHeader h f s) h).tmpl = (slotAt s h).tmpl := (ended_storeHeader h f s).tmpl
  rw [mbapErr_eq, tid, protocol, tmpl, ← unit]
  simp only [ne_eq, List.cons.injEq, and_true]

/-- The header and the payload as one write of the slot. -/
theorem storePayload_storeHeader (hi : (slotAt s h).inuse = true) : storePayload h n f (storeHeader h f s) =
    updSlot s h fun x =>
      { x with rx := writeBytes (writeBytes x.rx 0 (f.take 7)) 7 (slice f 7 (7 + n)), rxlen := 7 + n } :=
  updSlot_updSlot hi hi

end

/-! ### The branches of `TCP_RECEIVE` (R249) and `TCP_FAIL` (R250) -/

section
variable {s : State} {h : Nat} {f : List Byte} (ht : s.cfg.params.transport = .tcp) (W : Awaiting s h)
include ht W

theorem exec_tcpReceive : exec (.tcpReceive h f) s = tcpReceive h f s := by
  have detached := (mayEnd_of_awaiting W).detached
  refine (tcp_guards ht W.slot _).trans ?_
  rw [withDetached, if_pos detached, checked, slotExists_of_detached detached, W.fits]
  rfl

theorem exec_tcpReceive_short (hf : f.length < 7) : exec (.tcpReceive h f) s = raise h .invalidMbapHeader s :=
  (exec_tcpReceive ht W).trans (if_pos hf)

theorem exec_tcpReceive_of_mbapErr {e : Err} (hf : 7 ≤ f.length) (he : mbapErr (slotAt (storeHeader h f s) h) = e)
    (hne : e ≠ .ok) : exec (.tcpReceive h f) s = raise h e (storeHeader h f s) := by
  subst he
  exact (exec_tcpReceive ht W).trans ((if_neg (Nat.not_lt.mpr hf)).trans (if_pos hne))

theorem exec_tcpReceive_of_bad_length (hf : 7 ≤ f.length) (he : mbapErr (slotAt (storeHeader h f s) h) = .ok)
    (hp : payloadLen s.cfg (slotAt (storeHeader h f s) h) = none) :
    exec (.tcpReceive h f) s = raise h .invalidLength (storeHeader h f s) := by
  rw [exec_tcpReceive ht W, tcpReceive, if_neg (Nat.not_lt.mpr hf)]
  simp only [he, storeHeader_cfg, hp, ne_eq, not_true_eq_false, if_false]

theorem exec_tcpReceive_of_length {n : Nat} (hf : 7 ≤ f.length) (he : mbapErr (slotAt (storeHeader h f s) h) = .ok)
    (hp : payloadLen s.cfg (slotAt (storeHeader h f s) h) = some n) : exec (.tcpReceive h f) s =
      if f.length < 7 + n then raise h .tooFewData (storeHeader h f s)
      else invokeOp h (storePayload h n f (storeHeader h f s)) := by
  rw [exec_tcpReceive ht W, tcpReceive, if_neg (Nat.not_lt.mpr hf)]
  simp only [he, storeHeader_cfg, hp, ne_eq, not_true_eq_false, if_false]

/-- An error that a received header gives ends the attempt. -/
theorem endsWith_of_storeHeader {i : Instr} {e : Err} (hi : exec i s = raise h e (storeHeader h f s)) :
    EndsWith i h e [] s := by
  obtain ⟨-, -, cap⟩ := tcp_caps ht
  refine endsWith_of_raise_received (ended_storeHeader h f s) W hi ?_ ?_ <;> rw [slotAt_storeHeader]
  · show 7 ≤ _
    omega
  · exact W.window

theorem exec_tcpFail (e : FailCode) : exec (.tcpFail h e) s = raise h (failErr e) s :=
  (tcp_guards ht W.slot _).trans (if_pos (mayEnd_of_awaiting W).detached)

theorem endsWith_tcpFail (e : FailCode) : EndsWith (.tcpFail h e) h (failErr e) [] s :=
  endsWith_of_raise_at_once W (exec_tcpFail ht W e)

end

end Sys2Proof.Machine

open Sys2Proof Sys2Proof.Machine Sys2Proof.Claims

/-- Settles O14: the branches of `tcpReceive` before the payload is stored, each a `raise`. -/
theorem tcpReceiveRefuses : Obligations.TcpReceiveRefuses := by
  intro s h f ht W
  refine ⟨fun hf => endsWith_of_raise_at_once W (exec_tcpReceive_short ht W hf), fun hf => ?_⟩
  have header := mbapErr_storeHeader (s := s) (h := h) hf
  have refused {e : Err} (he : mbapErr (slotAt (storeHeader h f s) h) = e) (hne : e ≠ .ok) :
      EndsWith (.tcpReceive h f) h e [] s :=
    endsWith_of_storeHeader ht W (exec_tcpReceive_of_mbapErr ht W hf he hne)
  refine ⟨fun tid => refused (header.trans (if_pos tid)) (by simp), fun tid => ?_⟩
  rw [if_neg (not_not.mpr tid)] at header
  refine ⟨fun protocol => refused (header.trans (if_pos protocol)) (by simp), fun protocol => ?_⟩
  rw [if_neg (not_not.mpr protocol)] at header
  refine ⟨fun unit => refused (header.trans (if_pos unit)) (by simp), fun unit => ?_⟩
  rw [if_neg (not_not.mpr unit)] at header
  have field : uNbe (readBytes (slotAt (storeHeader h f s) h).rx 4 2) = uNbe (slice f 4 6) :=
    congrArg uNbe (readBytes_storeHeader hf (by omega))
  refine ⟨fun hbad => ?length, fun h2 hmax hshort => ?payload⟩
  case length =>
    exact endsWith_of_storeHeader ht W (exec_tcpReceive_of_bad_length ht W hf header (payloadLen_of_bad field hbad))
  case payload =>
    exact endsWith_of_storeHeader ht W
      ((exec_tcpReceive_of_length ht W hf header (payloadLen_of_good field h2 hmax)).trans (if_pos (by omega)))

/-- Settles O15: the slot with header and payload stored still awaits its response, and what follows is `INVOKE`. -/
theorem tcpReceiveAccepts : Obligations.TcpReceiveAccepts := by
  intro s h f n u ht W hf h1 hmax tid protocol length unit hu
  obtain ⟨hdr, trl, cap⟩ := tcp_caps ht
  have slot : slotAt u h = { slotAt s h with
      rx := writeBytes (writeBytes (slotAt s h).rx 0 (f.take 7)) 7 (slice f 7 (7 + n)), rxlen := 7 + n } := by
    rw [hu, slotAt_updSlot_self]
  have E : Ended h s u := hu ▸ (Ended.refl h s).upd _ fun _ => rfl
  have W' : Awaiting u h := awaiting_of_ended E W
    (by rw [slot]; show 7 + n ≤ _; omega) (by rw [slot]; exact W.window)
  have same : exec (.tcpReceive h f) s = exec (.invoke h) u := by
    have whole : 7 ≤ f.length := by omega
    have header : mbapErr (slotAt (storeHeader h f s) h) = .ok := by
      rw [mbapErr_storeHeader whole, if_neg (not_not.mpr tid), if_neg (not_not.mpr protocol), if_neg (not_not.mpr unit)]
    have field : uNbe (readBytes (slotAt (storeHeader h f s) h).rx 4 2) = n + 1 :=
      (congrArg uNbe (readBytes_storeHeader whole (by omega))).trans length
    calc exec (.tcpReceive h f) s
      _ = invokeOp h (storePayload h n f (storeHeader h f s)) :=
        (exec_tcpReceive_of_length ht W whole header (payloadLen_of_good field (by omega) (by omega))).trans
          (if_neg (by rw [Nat.add_sub_cancel]; omega))
      _ = invokeOp h u := by rw [storePayload_storeHeader W.inuse, hu]
      _ = exec (.invoke h) u := (exec_invoke (mayEnd_of_awaiting W')).symm
  refine ⟨same, fun err fc explen b hn hb => ?status⟩
  case status =>
    subst hn
    have code : fcOf u.cfg (slotAt u h) = 0x07#8 := by rw [fcOf, E.cfg, E.tx]; exact fc
    have pdu : pduRx u.cfg (slotAt u h) = fcOf u.cfg (slotAt u h) :: [b] := by
      have stored := readBytes_writeBytes_self (writeBytes (slotAt s h).rx 0 (f.take 7)) 7 (slice f 7 (7 + 2))
      rw [length_slice (by omega) hf] at stored
      rw [pduRx, code, E.cfg, hdr, trl, slot]
      exact stored.trans hb
    have dispatch := invokeDispatches u h [b] W' (by rw [slot]; exact err) pdu (Nat.le_refl 1)
      (by rw [E.explen, E.cfg, hdr, trl]; exact explen)
    rw [same]
    exact dispatch.1 b code rfl

/-- Settles O16: each code is the error of a `raise` on a slot without a window. -/
theorem tcpFailEnds : Obligations.TcpFailEnds := fun _ _ ht W =>
  ⟨endsWith_tcpFail ht W .responseTimeout, endsWith_tcpFail ht W .tcpSendBufferFull,
    endsWith_tcpFail ht W .connectionReset, endsWith_tcpFail ht W .connectionRefused,
    endsWith_tcpFail ht W .noClientForSlave⟩

end

section
/-! The SentBuffer (spec 43 R255 to R258). -/

namespace Sys2Proof.Machine

open Sys2Proof.Claims

/-! ### The scan -/

theorem findFrom_eq_none {p : Nat → Bool} {start n : Nat} (hp : ∀ a, start ≤ a → a < start + n → p a = false) :
    findFrom p start n = none := by
  cases hf : findFrom p start n with
  | none => rfl
  | some a =>
    obtain ⟨hlo, hhi, hpa, -⟩ := findFrom_some hf
    simp [hp a hlo hhi] at hpa

section
variable {s : State} {p : Option Nat → Bool}

theorem sbFind_eq_some {i : Nat} (hi : i < s.cfg.params.sentCap) (hp : p (cellAt none s.sb i) = true)
    (hbelow : ∀ k, k < i → p (cellAt none s.sb k) = false) : sbFind s p = some i :=
  findFrom_eq_some (Nat.zero_le i) (by omega) hp fun k _ hk => hbelow k hk

theorem sbFind_eq_none (hp : ∀ k, k < s.cfg.params.sentCap → p (cellAt none s.sb k) = false) : sbFind s p = none :=
  findFrom_eq_none fun k _ hk => hp k (by omega)

end

theorem cellAt_sbPut (s : State) (i k : Nat) (v : Option Nat) :
    cellAt none (sbPut s i v).sb k = if k = i then v else cellAt none s.sb k := cellAt_putCell ..

/-! ### `SB_ADD` (R255) -/

section
variable {s : State} {h : Nat} (ht : s.cfg.params.transport = .tcp)
include ht

/-- R255: the handle in position `i`, its slot stamped. -/
theorem exec_sbAdd_of_free {i : Nat} (hd : detached s h = true)
    (hf : sbFind s (fun v => decide (v = none)) = some i) : exec (.sbAdd h) s =
      ret (.bool true) (updSlot (sbPut s i (some h)) h fun x => { x with stime := s.nowMs }) := by
  refine (onlyOn_tcp ht _).trans ?_
  rw [hf]
  exact (if_pos (slotExists_of_detached hd)).trans (if_pos hd)

theorem exec_sbAdd_of_full (hf : sbFind s (fun v => decide (v = none)) = none) :
    exec (.sbAdd h) s = ret (.bool false) s := by
  refine (onlyOn_tcp ht _).trans ?_
  rw [hf]

end

/-! ### `SB_READ` and `SB_READ_NEXT_TIMEOUT` (R256, R257) -/

theorem sbTake_of_lowest {s : State} {p : Nat → Bool} {i h : Nat} (hi : i < s.cfg.params.sentCap)
    (hc : cellAt none s.sb i = some h) (hp : p h = true)
    (hbelow : ∀ k g, k < i → cellAt none s.sb k = some g → p g = false) :
    sbTake s p = ret (.handle (some h)) (sbPut s i none) := by
  have found : sbFind s (fun v => v.elim false p) = some i := by
    refine sbFind_eq_some hi (by rw [hc]; exact hp) fun k hk => ?_
    cases hg : cellAt none s.sb k with
    | none => rfl
    | some g => exact hbelow k g hk hg
  rw [sbTake, found, ← hc]

theorem sbTake_of_none {s : State} {p : Nat → Bool}
    (hp : ∀ i h, i < s.cfg.params.sentCap → cellAt none s.sb i = some h → p h = false) :
    sbTake s p = ret (.handle none) s := by
  have missed : sbFind s (fun v => v.elim false p) = none := by
    refine sbFind_eq_none fun k hk => ?_
    cases hg : cellAt none s.sb k with
    | none => rfl
    | some g => exact hp k g hk hg
  rw [sbTake, missed]

/-- R25: a transaction id and its two bytes in the frame. -/
theorem tidOf_eq_iff {x : Slot} {tid : Half} : tidOf x = tid.toNat ↔ readBytes x.tx 0 2 = be16 tid := by
  simp only [tidOf, readBytes, uNbe_two, toNat_half tid, be16]
  exact pair_eq

theorem since_eq_elapsed (s : State) (now past : Time) : since s now past = elapsed s.cfg now past := by
  have modular : (elapsed s.cfg now past : Int) = ((now : Int) - past) % ((2 ^ s.cfg.params.wTime : Nat) : Int) :=
    elapsed_eq s.cfg now past
  rw [since, ← modular, Int.toNat_natCast]

/-- R256, R257: what either operation looks for. -/
theorem exec_sbTake {s : State} {op : Instr} {hit : Nat → Prop} (ht : s.cfg.params.transport = .tcp)
    (hop : (∃ tid, op = .sbRead tid ∧ ∀ h, hit h ↔ readBytes (slotAt s h).tx 0 2 = be16 tid) ∨
      (∃ lim, op = .sbReadNextTimeout lim ∧ ∀ h, hit h ↔ lim ≤ since s s.nowMs (slotAt s h).stime)) :
    ∃ p : Nat → Bool, exec op s = sbTake s p ∧ ∀ h, p h = true ↔ hit h := by
  rcases hop with ⟨tid, rfl, hhit⟩ | ⟨lim, rfl, hhit⟩
  · exact ⟨_, onlyOn_tcp ht _, fun h => by rw [decide_eq_true_eq, tidOf_eq_iff, hhit]⟩
  · exact ⟨_, onlyOn_tcp ht _, fun h => by rw [decide_eq_true_eq, ← since_eq_elapsed, hhit]⟩

end Sys2Proof.Machine

open Sys2Proof Sys2Proof.Machine Sys2Proof.Claims

/-- Settles O17: `sbFind` gives the lowest free position, or none. -/
theorem sentBufferAdd : Obligations.SentBufferAdd := by
  refine ⟨fun s h i ht hh inuse free hi hnone hbelow => ?added, fun s h ht hfull => ?full⟩
  case added =>
    have detached : detached s h = true := by simp [detached, slotExists, hh, inuse, free]
    have found := sbFind_eq_some (p := fun v => decide (v = none)) hi (decide_eq_true hnone)
      fun k hk => decide_eq_false (hbelow k hk)
    have slot (k : Nat) : slotAt (updSlot (sbPut s i (some h)) h fun x => { x with stime := s.nowMs }) k =
        if k = h then { slotAt s h with stime := s.nowMs } else slotAt s k := slotAt_updSlot (sbPut s i (some h)) h k _
    exact ⟨_, exec_sbAdd_of_free ht detached found, rfl, rfl, fun k => cellAt_sbPut s i k (some h),
      (slot h).trans (if_pos rfl), fun k hk => (slot k).trans (if_neg hk), rfl⟩
  case full => exact exec_sbAdd_of_full ht (sbFind_eq_none fun k hk => decide_eq_false (hfull k hk))

/-- Settles O18: both operations are `sbTake`, whose scan stops at the lowest position that matches. -/
theorem sentBufferTake : Obligations.SentBufferTake := by
  intro s op hit ht hop
  obtain ⟨p, runs, hp⟩ := exec_sbTake ht hop
  have misses {h : Nat} (hh : ¬ hit h) : p h = false := Bool.eq_false_iff.mpr (mt (hp h).mp hh)
  refine ⟨fun i h hi hc hh hbelow => ?found, fun hnone => ?missed⟩
  case found =>
    have takes := sbTake_of_lowest hi hc ((hp h).mpr hh) fun k g hk hg => misses (hbelow k g hk hg)
    exact ⟨_, runs.trans takes, rfl, rfl, fun k => cellAt_sbPut s i k none, rfl⟩
  case missed => exact runs.trans (sbTake_of_none fun i h hi hc => misses (hnone i h hi hc))

end

section
/-! The operations on a SlaveSet (spec 44 R271 to R280): each answers and writes one set, or changes nothing; and
`REPEAT_IF_NEEDED` as an operation (R282 to R284). -/

namespace Sys2Proof.Machine

open Sys2Proof.Claims

/-! ### One set written -/

/-- From `s` to `t` set `r` becomes `x` and the operation answers `res`; every other set, the rest of every slot and all
else stay. -/
structure WritesSet (r : SsRef) (x : SlaveSet) (res : Result) (s t : State) : Prop where
  result : t.result = res
  events : t.events = s.events
  set    : ssAt t r = x
  others : ∀ r', r' ≠ r → ssAt t r' = ssAt s r'
  slots  : ∀ h, offSet (slotAt t h) = offSet (slotAt s h)
  frame  : offSets t = offSets s

theorem offSet_slotAt_setSs (s : State) (r : SsRef) (x : SlaveSet) (k : Nat) :
    offSet (slotAt (setSs s r x) k) = offSet (slotAt s k) := by
  cases r with
  | host => rfl
  | slot h =>
    rw [setSs, slotAt_updSlot]
    split
    · next hk => subst hk; rfl
    · rfl

theorem writesSet_setSs (r : SsRef) (x : SlaveSet) (res : Result) (s : State) :
    WritesSet r x res s (answer res (setSs s r x)) where
  result := rfl
  events := events_setSs s r x
  set := by rw [ssAt_answer, ssAt_setSs, if_pos rfl]
  others r' hr' := by rw [ssAt_answer, ssAt_setSs, if_neg hr']
  slots := offSet_slotAt_setSs s r x
  frame := by cases r <;> rfl

section
variable {s : State} {r : SsRef} (hr : ∀ h, r = SsRef.slot h → h < s.cfg.params.poolCap)
include hr

/-- R22: every host set exists, an embedded one with its slot. -/
theorem ssExists_of_lt : ssExists s r = true := by
  cases r with
  | host => rfl
  | slot h => exact decide_eq_true (hr h rfl)

theorem ssUpdate_writesSet (f : SlaveSet → SlaveSet) :
    ∃ t, ssUpdate r f s = .next t ∧ WritesSet r (f (ssAt s r)) .unit s t :=
  ⟨_, if_pos (ssExists_of_lt hr), writesSet_setSs r _ .unit s⟩

/-- R277: the cursor moves to the address that is answered. -/
theorem exec_ssGetNext_writesSet :
    ∃ t, exec (.ssGetNext r) s = .next t ∧
      WritesSet r (advance (ssAt s r)) (.cursor (cursorOf (nextMember (ssAt s r)))) s t :=
  ⟨_, if_pos (ssExists_of_lt hr), writesSet_setSs r _ _ s⟩

theorem exec_ssPeek_eq :
    exec (.ssPeek r) s = .next { s with result := .cursor (cursorOf (nextMember (ssAt s r))) } :=
  if_pos (ssExists_of_lt hr)

end

/-! ### Membership (R271 to R274) -/

/-- The addresses `lo` to `hi`, up to 247, made members or no members of `x`. -/
def setRange (add : Bool) (lo hi : Nat) (x : SlaveSet) : SlaveSet :=
  if add then addMembers x lo hi else dropMembers x lo hi

theorem member_setRange (add : Bool) (lo hi a : Nat) (x : SlaveSet) :
    member (setRange add lo hi x) a = if lo ≤ a ∧ a ≤ hi ∧ a ≤ 247 then add else member x a := by
  cases add with
  | true => rw [setRange, if_pos rfl, member_addMembers]; split <;> simp [*]
  | false => rw [setRange, if_neg (by simp), member_dropMembers]; split <;> simp [*]

theorem setRange_frame (add : Bool) (lo hi : Nat) (x : SlaveSet) : { setRange add lo hi x with bits := x.bits } = x := by
  cases add <;> rfl

/-- The four operations on membership are one, `setRange`. -/
theorem exec_membership {r : SsRef} {lo hi : Byte} {op : Instr} {add : Bool}
    (hop : (op = .ssSet r lo ∧ hi = lo ∧ add = true) ∨ (op = .ssSetRange r lo hi ∧ add = true) ∨
      (op = .ssRemove r lo ∧ hi = lo ∧ add = false) ∨ (op = .ssRemoveRange r lo hi ∧ add = false)) (s : State) :
    exec op s = ssUpdate r (setRange add lo.toNat hi.toNat) s := by
  rcases hop with ⟨rfl, rfl, rfl⟩ | ⟨rfl, rfl⟩ | ⟨rfl, rfl, rfl⟩ | ⟨rfl, rfl⟩ <;> rfl

/-! ### `REPEAT_IF_NEEDED` (R282) -/

theorem exec_repeatIfNeeded {s : State} {h : Nat} (M : MayEnd s h) :
    exec (.repeatIfNeeded h) s = ret .unit (repeatOrRelease h s) := by
  have there := slotExists_of_detached M.detached
  simp [exec, execRepeatIfNeeded, withSlot, withDetached, checked, there, M.detached, M.fits]

end Sys2Proof.Machine

open Sys2Proof Sys2Proof.Machine Sys2Proof.Claims

/-- Settles O19: each of the four is `setRange` on the bits of its set. -/
theorem slaveSetMembership : Obligations.SlaveSetMembership := by
  intro s r lo hi op add hr hop
  obtain ⟨t, runs, W⟩ := ssUpdate_writesSet hr (setRange add lo.toNat hi.toNat)
  refine ⟨t, (exec_membership hop s).trans runs, W.result, W.events, fun a => ?members, ?kept, W.others, W.slots, W.frame⟩
  case members => rw [W.set, member_setRange]
  case kept => rw [W.set, setRange_frame]

/-- Settles O20: either operation replaces its set. -/
theorem slaveSetClearAndDelays : Obligations.SlaveSetClearAndDelays := by
  intro s r hr
  refine ⟨?clear, fun i d => ?delays⟩
  case clear =>
    obtain ⟨t, runs, W⟩ := ssUpdate_writesSet hr fun _ => SlaveSet.cleared
    exact ⟨t, runs, W.result, W.events, W.set, W.others, W.slots, W.frame⟩
  case delays =>
    obtain ⟨t, runs, W⟩ := ssUpdate_writesSet hr fun x => { x with itemDelay := i, repeatDelay := d }
    exact ⟨t, runs, W.result, W.events, W.set, W.others, W.slots, W.frame⟩

/-- Settles O21: both operations answer `nextMember`, which is R279's scan. -/
theorem slaveSetScan : Obligations.SlaveSetScan := by
  intro s r hr
  obtain ⟨t, runs, W⟩ := exec_ssGetNext_writesSet hr
  exact ⟨nextMember (ssAt s r), nextIs_nextMember _, exec_ssPeek_eq hr,
    t, runs, W.result, W.events, W.set, W.others, W.slots, W.frame⟩

/-- Settles O22: the end of an attempt without its record. -/
theorem repeatReleasesOrRearms : Obligations.RepeatReleasesOrRearms := by
  intro s h W
  have repeats := repeats_of_ended (Ended.refl h s) W.queue W.inuse W.request
  exact ⟨_, exec_repeatIfNeeded (mayEnd_of_awaiting W), rfl, repeats_answer repeats .unit⟩

end

section
/-! Every step keeps every SlaveSet, embedded or the host's own, within the addresses 0 to 247 (10 R37, 44 R271). -/

namespace Sys2Proof.Machine

/-! ### One record replaced -/

theorem setsOk_iff {s : State} : SetsOk s ↔ ∀ r, SetOk (ssAt s r) :=
  ⟨fun ⟨slots, host⟩ r => match r with
    | .host k => host k
    | .slot h => slots h,
  fun hs => ⟨fun h => hs (.slot h), fun k => hs (.host k)⟩⟩

/-- A state with the same pool and the same host sets has the same SlaveSets. -/
theorem setsOk_frame {s t : State} (hs : SetsOk s) (hp : t.pool = s.pool) (hh : t.hostSets = s.hostSets) : SetsOk t :=
  ⟨fun h => by rw [slotAt_congr hp]; exact hs.1 h, fun k => by rw [hh]; exact hs.2 k⟩

/-- A state in which the slots other than `h` and the host's sets are as they were. -/
theorem setsOk_slot {s t : State} {h : Nat} (hs : SetsOk s) (hh : t.hostSets = s.hostSets)
    (hk : ∀ k, k ≠ h → slotAt t k = slotAt s k) (hx : SetOk (slotAt t h).ss) : SetsOk t := by
  refine ⟨fun k => ?_, fun k => by rw [hh]; exact hs.2 k⟩
  by_cases e : k = h
  · rw [e]; exact hx
  · rw [hk k e]; exact hs.1 k

theorem setsOk_setSlot {s : State} {h : Nat} {x : Slot} (hs : SetsOk s) (hx : SetOk x.ss) : SetsOk (setSlot s h x) :=
  setsOk_slot (h := h) hs rfl (fun _ hk => slotAt_setSlot_ne s x hk) (by rwa [slotAt_setSlot_self])

/-- A change of a slot that leaves its SlaveSet. -/
theorem setsOk_updSlot {s : State} {h : Nat} (f : Slot → Slot) (hs : SetsOk s)
    (hf : (f (slotAt s h)).ss = (slotAt s h).ss) : SetsOk (updSlot s h f) :=
  setsOk_setSlot hs (by rw [hf]; exact hs.1 h)

theorem setsOk_setSs {s : State} {r : SsRef} {x : SlaveSet} (hs : SetsOk s) (hx : SetOk x) : SetsOk (setSs s r x) := by
  refine setsOk_iff.mpr fun r' => ?_
  rw [ssAt_setSs]
  split
  · exact hx
  · exact setsOk_iff.mp hs r'

theorem setsOk_answer {s : State} {r : Result} (hs : SetsOk s) : SetsOk (answer r s) := setsOk_frame hs rfl rfl

theorem setsOk_emit {s : State} {e : Event} (hs : SetsOk s) : SetsOk (emit s e) := setsOk_frame hs rfl rfl

/-- A state that differs in its queue alone. -/
theorem setsOk_of_q {s t : State} (hs : SetsOk s) (hq : { t with q := s.q } = s) : SetsOk t :=
  setsOk_frame hs (congrArg State.pool hq :) (congrArg State.hostSets hq :)

theorem setsOk_release {s : State} {h : Nat} (hs : SetsOk s) : SetsOk (release h s) := setsOk_setSlot hs setOk_cleared

theorem setsOk_releaseAll {l : List Nat} {s : State} (hs : SetsOk s) : SetsOk (releaseAll l s) := by
  induction l generalizing s with
  | nil => exact hs
  | cons h l ih => exact ih (setsOk_release hs)

/-! ### Builds (R140) -/

theorem ss_headed (tr : Transport) (tid : Half) (u : Byte) (len : Nat) (x : Slot) : (headed tr tid u len x).ss = x.ss :=
  (congrArg Slot.ss (headed_frame tr tid u len x) :)

/-- R140 step 3: the copy of a host's set, its cursor at the begin sentinel. -/
theorem setOk_targetSet {s : State} (t : Target) (hs : SetsOk s) : SetOk (targetSet s t) := by
  cases t with
  | unit => exact setOk_cleared
  | set k =>
    obtain ⟨bits, -⟩ := hs.2 k
    exact ⟨bits, fun _ ha => nomatch ha⟩

/-- R140 step 6: the cursor moves by the scan. -/
theorem setOk_firstUnit {x : SlaveSet} (t : Target) (hx : SetOk x) : SetOk (firstUnit t x).2 := by
  cases t with
  | unit => exact hx
  | set => exact setOk_advance hx

theorem setsOk_buildFrame {s : State} {h : Nat} {t : Target} {hd : Nat} {r : Request} (hs : SetsOk s) :
    SetsOk (buildFrame h t hd r s) := by
  refine setsOk_slot hs (congrArg State.hostSets (buildFrame_frame h t hd r s) :)
    (fun k hk => by rw [buildFrame_slot, if_neg hk]) ?_
  rw [buildFrame_slot, if_pos rfl]
  show SetOk (headed ..).ss
  rw [ss_headed]
  exact setOk_firstUnit t (setOk_targetSet t hs)

theorem setsOk_buildFail {s : State} {h : Nat} {e : Err} {t : Target} {hd : Nat} {fc : Byte} (hs : SetsOk s) :
    SetsOk (buildFail h e t hd fc s) := setsOk_release (setsOk_emit (setsOk_updSlot _ hs rfl))

theorem setsOk_build {s : State} {t : Target} {hd : Nat} {r : Request} (hs : SetsOk s) :
    AllNext SetsOk (build t hd r s) := by
  unfold build
  split
  · exact allNext_ret (setsOk_answer (setsOk_emit hs))
  · next h _ =>
    have fresh : SetsOk (setSlot s h (allocated s t hd)) := setsOk_setSlot hs (setOk_targetSet t hs)
    refine allNext_ite (fun _ => ?_) (fun _ => allNext_ret (setsOk_answer (setsOk_buildFail fresh)))
    have pushed := setsOk_of_q (setsOk_buildFrame (h := h) (t := t) (hd := hd) (r := r) hs) (qPush_frame (some h) _)
    split
    · next he => rw [he] at pushed; exact allNext_ret (setsOk_answer pushed)
    · next he => rw [he] at pushed; exact allNext_ret (setsOk_answer (setsOk_buildFail pushed))

/-! ### The ends of an attempt (R282 to R284, R384) -/

theorem setsOk_rearmFrame {s : State} {h u : Nat} (hs : SetsOk s) : SetsOk (rearmFrame h u s) := by
  refine setsOk_slot hs (congrArg State.hostSets (rearmFrame_frame h u s) :)
    (fun k hk => by rw [rearmFrame_slot, if_neg hk]) ?_
  rw [rearmFrame_slot, if_pos rfl]
  show SetOk (headed ..).ss
  rw [ss_headed]
  exact hs.1 h

theorem setsOk_rearm {s : State} {h u : Nat} (hs : SetsOk s) : SetsOk (rearm h u s) := by
  have pushed := setsOk_of_q (setsOk_rearmFrame (h := h) (u := u) hs) (qPush_frame (some h) _)
  simp only [rearm]
  split
  · next he => rw [he] at pushed; exact pushed
  · next he =>
    rw [he] at pushed
    exact setsOk_release (setsOk_emit (setsOk_updSlot _ pushed rfl))

theorem setsOk_repeatOrRelease {s : State} {h : Nat} (hs : SetsOk s) : SetsOk (repeatOrRelease h s) := by
  simp only [repeatOrRelease]
  split
  · split
    · exact setsOk_release hs
    · exact setsOk_rearm (setsOk_setSlot hs (setOk_advance (hs.1 h)))
  · exact setsOk_release hs

theorem setsOk_raise {s : State} {h : Nat} {e : Err} (hs : SetsOk s) : AllNext SetsOk (raise h e s) := by
  have failed : SetsOk (updSlot s h (fun x => { x with err := e })) := setsOk_updSlot _ hs rfl
  exact allNext_raise fun _ => setsOk_answer (setsOk_repeatOrRelease (setsOk_emit failed))

/-- The reply fields are apart from the set. -/
theorem setsOk_ended {h : Nat} {s t : State} (E : Ended h s t) (hs : SetsOk s) : SetsOk t :=
  setsOk_slot hs (congrArg State.hostSets E.frame :) E.slots (by rw [E.ss]; exact hs.1 h)

theorem setsOk_invokeOp {s : State} {h : Nat} (hs : SetsOk s) : AllNext SetsOk (invokeOp h s) := by
  obtain ⟨s', e, E, he⟩ := invoke_shape h s
  rw [he]
  exact setsOk_raise (setsOk_ended E hs)

/-! ### The frames (files 42, 43) -/

theorem setsOk_tcpReceive {s : State} {h : Nat} {f : List Byte} (hs : SetsOk s) : AllNext SetsOk (tcpReceive h f s) := by
  have header : SetsOk (storeHeader h f s) := setsOk_updSlot _ hs rfl
  unfold tcpReceive
  refine allNext_ite (fun _ => setsOk_raise hs) (fun _ => allNext_ite (fun _ => setsOk_raise header) (fun _ => ?_))
  split
  · exact setsOk_raise header
  · exact allNext_ite (fun _ => setsOk_raise header) (fun _ => setsOk_invokeOp (setsOk_updSlot _ header rfl))

theorem setsOk_tcpSetMbap {s : State} {h : Nat} {u : Byte} {len : Nat} (hs : SetsOk s) :
    SetsOk (tcpSetMbap h u len s) := by
  have counted : SetsOk { s with ctx := { s.ctx with tid := s.ctx.tid + 1#16 } } := setsOk_frame hs rfl rfl
  exact setsOk_updSlot _ counted rfl

theorem setsOk_tcpSetMbapLong {s : State} {h : Nat} {u : Byte} {len : Nat} (hs : SetsOk s) :
    SetsOk (tcpSetMbapLong h u len s) := by
  have counted : SetsOk { s with ctx := { s.ctx with tid := s.ctx.tid + 1#16 }, freeCount := s.freeCount + 1 } :=
    setsOk_frame hs rfl rfl
  rw [tcpSetMbapLong_eq]
  exact setsOk_updSlot _ counted rfl

/-! ### The engine (file 46), `CLEAR_ALL` and `RESET` -/

theorem setsOk_tickBufferClear {s : State} (hs : SetsOk s) : SetsOk (tickBufferClear s) := by
  unfold tickBufferClear
  split
  · split
    · exact setsOk_frame hs rfl rfl
    · exact hs
  · exact setsOk_frame hs rfl rfl

theorem setsOk_sendFrame {s : State} {h : Nat} (hs : SetsOk s) : SetsOk (sendFrame h s) :=
  setsOk_frame (setsOk_updSlot (h := h) (fun x => { x with stime := s.nowMs }) hs rfl) rfl rfl

theorem setsOk_awaitReply {s : State} {h : Nat} (hs : SetsOk s) : SetsOk (awaitReply h s) :=
  setsOk_frame (setsOk_updSlot (h := h) (fun x => { x with rxlen := 0, exc := false }) hs rfl) rfl rfl

theorem setsOk_append {s : State} {h limit : Nat} (hs : SetsOk s) : SetsOk (append h limit s) := by
  have stored := setsOk_updSlot (h := h) (fun x => { x with rx := writeBytes x.rx x.rxlen (taken s h limit),
                                                            rxlen := x.rxlen + (taken s h limit).length }) hs rfl
  simp only [append]
  split <;> exact setsOk_frame stored rfl rfl

theorem setsOk_headGood {s : State} {h : Nat} (hs : SetsOk s) : SetsOk (headGood h s) :=
  setsOk_frame (setsOk_updSlot (h := h)
    (fun x => { x with exc := x.exc || isExceptionOf (fcOf s.cfg x) (readByte x.rx 1) }) hs rfl) rfl rfl

theorem setsOk_crcVerdict {s : State} {h : Nat} (hs : SetsOk s) : SetsOk (crcVerdict h s) := by
  unfold crcVerdict
  split
  · exact hs
  · exact setsOk_updSlot _ hs rfl

theorem setsOk_tickKeeps : TickKeeps SetsOk where
  ans _ _ hs := setsOk_answer hs
  clear _ hs := setsOk_tickBufferClear hs
  wait _ hs := setsOk_frame hs rfl rfl
  popReady s hs := setsOk_of_q hs (qPopReady_frame s)
  send _ _ hs := setsOk_sendFrame hs
  await _ _ hs := setsOk_awaitReply hs
  append _ _ _ hs := setsOk_append hs
  head _ _ hs := setsOk_headGood hs
  wrongHead _ _ hs := setsOk_updSlot _ hs rfl
  verdict _ _ hs := setsOk_crcVerdict hs
  settle _ hs := setsOk_frame hs rfl rfl
  raise _ _ _ hs := setsOk_raise hs
  invoke _ _ hs := setsOk_invokeOp hs

theorem setsOk_clearQueue {s : State} (hs : SetsOk s) : SetsOk (clearQueue s) :=
  setsOk_frame (setsOk_releaseAll (l := (qContent s).filterMap id) hs) rfl rfl

theorem setsOk_clearContainers {s : State} (hs : SetsOk s) : SetsOk (clearContainers s) := by
  unfold clearContainers
  split
  · exact setsOk_frame (setsOk_releaseAll (l := s.sb.filterMap (fun c => c.2)) hs) rfl rfl
  · exact setsOk_frame (setsOk_releaseAll (l := s.eng.pending.toList) hs) rfl rfl

theorem setsOk_resetWith {s : State} (p : Params) (hs : SetsOk s) : SetsOk (resetWith p s) :=
  ⟨fun _ => setOk_cleared, hs.2⟩

/-! ### Every operation -/

theorem setsOk_sbAdd {s : State} {h i : Nat} (hs : SetsOk s) :
    SetsOk (updSlot (sbPut s i (some h)) h (fun x => { x with stime := s.nowMs })) := by
  have put : SetsOk (sbPut s i (some h)) := setsOk_frame hs rfl rfl
  exact setsOk_updSlot _ put rfl

theorem keeps_setsOk : Keeps SetsOk where
  ans _ _ hs := setsOk_answer hs
  noSlot _ _ _ _ _ hs := setsOk_emit hs
  build _ _ _ _ hs _ := setsOk_build hs
  attempt _ _ _ _ hs _ _ hr := setsOk_raise (setsOk_ended (ended_resp hr) hs)
  fill h s hs _ := setsOk_ended (ended_unreceived h s) hs
  fail _ _ _ hs _ := setsOk_raise hs
  head _ _ _ hs _ _ := setsOk_updSlot _ hs rfl
  crc _ _ _ hs _ _ _ := setsOk_updSlot _ hs rfl
  mbap _ _ _ _ hs _ _ _ := setsOk_tcpSetMbap hs
  mbapLong _ _ _ _ hs _ _ := setsOk_tcpSetMbapLong hs
  receive _ _ _ hs _ _ _ := setsOk_tcpReceive hs
  sbAdd _ _ _ hs _ _ _ := setsOk_sbAdd hs
  sbTake _ _ _ hs _ _ := setsOk_frame hs rfl rfl
  sets r _ _ hs _ hx := setsOk_setSs hs (hx (setsOk_iff.mp hs r))
  rep _ _ hs _ _ := setsOk_repeatOrRelease hs
  push _ s hs _ _ := setsOk_of_q hs (qPush_frame _ s)
  pop s hs := setsOk_of_q hs (qPop_q s)
  popReady s hs := setsOk_of_q hs (qPopReady_frame s)
  qClear _ hs := setsOk_clearQueue hs
  tick _ hs := setsOk_tickKeeps.execTick hs
  clear _ hs := setsOk_releaseAll (setsOk_clearContainers (setsOk_clearQueue hs))
  be _ _ hs := setsOk_frame hs rfl rfl
  norm h s hs _ _ _ := setsOk_ended (ended_normalize (Ended.refl h s)) hs
  reset p _ hs _ := setsOk_resetWith p hs

theorem setsOk_fetch {s s' : State} {bytes : List Byte} (hf : fetch s = some (bytes, s')) (hs : SetsOk s) :
    SetsOk s' := by
  unfold fetch at hf
  split at hf
  · cases hf
  · cases hf; exact setsOk_frame hs rfl rfl

end Sys2Proof.Machine

open Sys2Proof Sys2Proof.Machine

/-- Settles O58: every operation keeps every set, and taking the command off the stream touches none. -/
theorem stepKeepsSlaveSets : Obligations.StepKeepsSlaveSets :=
  fun _ _ hs ht => step_keeps keeps_setsOk (fun _ _ _ hf hs => setsOk_fetch hf hs) hs ht

end

section
/-! The TransactionQueue (spec 45 R301 to R309). -/

namespace Sys2Proof.Machine

open Sys2Proof.Claims

/-- A state that differs in its queue alone, and in what the step answers. -/
theorem offQueue_answer_of_q {s t : State} (r : Result) (hq : { t with q := s.q } = s) :
    offQueue (answer r t) = offQueue s :=
  (congrArg offQueue hq :)

/-! ### `Q_ADD`, `Q_PEEK` and `Q_READ` (R301 to R303) -/

theorem exec_qAdd_of_room {s : State} {h : Nat} (hc : s.q.count ≠ s.cfg.params.queueCap) (hd : detached s h = true) :
    exec (.qAdd (some h)) s = ret (.bool true) (qPush (some h) s).1 := by
  have added : (qPush (some h) s).2 = true := by rw [qPush_some h hc]
  simp [exec, execQAdd, withSlot, withDetached, hc, hd, slotExists_of_detached hd, added]

theorem exec_qAdd_of_full {s : State} (h : Nat) (hc : s.q.count = s.cfg.params.queueCap) :
    exec (.qAdd (some h)) s = ret (.bool false) s := if_pos hc

/-- R303: what `Q_READ` would answer. -/
theorem exec_qPeek (s : State) : exec .qPeek s = ret (.handle (qPop s).2) s := by
  show ret (.handle (if s.q.count = 0 then none else cellAt none s.q.arr s.q.head)) s = _
  unfold qPop
  split <;> rfl

theorem exec_qRead (s : State) : exec .qRead s = ret (.handle (qPop s).2) (qPop s).1 := rfl

theorem qPop_of_content_nil {s : State} (hc : qContent s = []) : qPop s = (s, none) :=
  if_pos (by rw [← length_qContent, hc, List.length_nil])

/-- R302: the head, and the content behind it. -/
theorem qPop_of_content_cons {s : State} {o : Option Nat} {rest : List (Option Nat)} (hq : QueueOk s)
    (hc : qContent s = o :: rest) : (qPop s).2 = o ∧ qContent (qPop s).1 = rest := by
  have occupied : s.q.count ≠ 0 := by rw [← length_qContent, hc]; simp
  have head : (qContent s)[0]? = some (qItem s 0) := by rw [getElem?_qContent, if_pos (by omega)]
  rw [hc] at head
  exact ⟨(qPop_head hq occupied).trans (Option.some.inj head).symm, by rw [qContent_qPop hq occupied, hc]; rfl⟩

/-! ### The winner (R304, R305) -/

theorem readyDelay_eq_some_iff {s : State} {i h d : Nat} (hq : qItem s i = some h) :
    readyDelay s i = some d ↔ (slotAt s h).delay = .ms d ∧ d ≤ since s s.nowMs (slotAt s h).qtime := by
  have reached (hd : (slotAt s h).delay = .ms d) :
      ready s h = true ↔ d ≤ since s s.nowMs (slotAt s h).qtime := by
    rw [ready, hd, since_eq_elapsed]
    exact decide_eq_true_iff
  rw [readyDelay_some]
  constructor
  · rintro ⟨k, hk, hr, hd⟩
    cases hq.symm.trans hk
    exact ⟨hd, (reached hd).mp hr⟩
  · rintro ⟨hd, hle⟩
    exact ⟨h, hq, (reached hd).mpr hle, hd⟩

theorem readyAt_iff_readyDelay {s : State} {i h : Nat} :
    ReadyAt s i h ↔ i < s.q.count ∧ qItem s i = some h ∧ ∃ d, readyDelay s i = some d :=
  and_congr_right fun _ => and_congr_right fun hq => exists_congr fun _ => (readyDelay_eq_some_iff hq).symm

theorem wins_of_selectReady {s : State} {j : Nat} (hs : selectReady s = some j) : ∃ h, Wins s j h := by
  obtain ⟨hj, d, hd, least⟩ := selectReady_some hs
  obtain ⟨h, hq, -, -⟩ := readyDelay_some.mp hd
  refine ⟨h, readyAt_iff_readyDelay.mpr ⟨hj, hq, d, hd⟩, fun i k hr d' e' hd' he' => ?_⟩
  obtain ⟨hi, hk, e, he⟩ := readyAt_iff_readyDelay.mp hr
  cases (((readyDelay_eq_some_iff hq).mp hd).1.symm.trans hd' :)
  cases (((readyDelay_eq_some_iff hk).mp he).1.symm.trans he' :)
  exact least i _ hi he

theorem selectReady_eq_none_iff {s : State} : selectReady s = none ↔ ∀ i h, ¬ ReadyAt s i h := by
  constructor
  · intro hs i h hr
    obtain ⟨hi, -, d, hd⟩ := readyAt_iff_readyDelay.mp hr
    cases (selectReady_none hs i hi).symm.trans hd
  · intro hnone
    cases hs : selectReady s with
    | none => rfl
    | some j =>
      obtain ⟨h, W⟩ := wins_of_selectReady hs
      exact absurd W.1 (hnone j h)

/-- R305: two winners stand at one index, as the delay of one behind the other would be both larger and no larger. -/
theorem wins_index_le {s : State} {j k h g : Nat} (hj : Wins s j h) (hk : Wins s k g) : j ≤ k := by
  obtain ⟨jReady, jLeast⟩ := hj
  obtain ⟨kReady, kLeast⟩ := hk
  have ⟨_, _, d, hd, _⟩ := jReady
  have ⟨_, _, e, he, _⟩ := kReady
  obtain ⟨notLarger, -⟩ := kLeast j h jReady e d he hd
  obtain ⟨-, smaller⟩ := jLeast k g kReady d e hd he
  exact Nat.le_of_not_lt fun hlt => absurd (smaller hlt) (Nat.not_lt.mpr notLarger)

/-- R305: the scan finds the winner. -/
theorem selectReady_of_wins {s : State} {j h : Nat} (W : Wins s j h) : selectReady s = some j := by
  cases hs : selectReady s with
  | none => exact absurd W.1 (selectReady_eq_none_iff.mp hs j h)
  | some k =>
    obtain ⟨g, V⟩ := wins_of_selectReady hs
    rw [Nat.le_antisymm (wins_index_le V W) (wins_index_le W V)]

/-! ### `Q_READ_READY`, `Q_HAS_READY` (R306, R307) and `Q_CLEAR` (R308) -/

theorem exec_qReadReady (s : State) : exec .qReadReady s = ret (.handle (qPopReady s).2) (qPopReady s).1 := rfl

theorem exec_qHasReady (s : State) : exec .qHasReady s = ret (.bool (selectReady s).isSome) s := rfl

theorem slotAt_clearQueue (s : State) (h : Nat) :
    slotAt (clearQueue s) h = if some h ∈ qContent s then Slot.cleared else slotAt s h := by
  have held : h ∈ (qContent s).filterMap id ↔ some h ∈ qContent s := by simp
  refine (slotAt_releaseAll ((qContent s).filterMap id) s h).trans ?_
  simp only [held]

theorem offQueue_clearQueue (s : State) : { offQueue (clearQueue s) with pool := s.pool } = offQueue s :=
  (congrArg offQueue (releaseAll_eq ((qContent s).filterMap id) s) :)

end Sys2Proof.Machine

open Sys2Proof Sys2Proof.Machine Sys2Proof.Claims

/-- Settles O23: `qPush` appends to the logical content and `qPop` takes its first element. -/
theorem queueIsFifo : Obligations.QueueIsFifo := by
  refine ⟨fun s h hq hc hh inuse free => ?added, fun s => ?noHandle, fun s h hc => ?full, fun s h rest hq hc => ?head,
    fun s hc => ?empty⟩
  case added =>
    have detached : detached s h = true := by simp [detached, slotExists, hh, inuse, free]
    exact ⟨_, exec_qAdd_of_room (by omega) detached, rfl, events_qPush (some h) s, qContent_qPush hq h hc,
      offQueue_answer_of_q _ (qPush_frame (some h) s)⟩
  case noHandle => rfl
  case full => exact exec_qAdd_of_full h hc
  case head =>
    obtain ⟨answered, left⟩ := qPop_of_content_cons hq hc
    exact ⟨by rw [exec_qPeek, answered]; rfl, _, exec_qRead s, congrArg Result.handle answered, events_qPop s, left,
      offQueue_answer_of_q _ (qPop_q s)⟩
  case empty =>
    have popped := qPop_of_content_nil hc
    exact ⟨by rw [exec_qPeek, popped]; rfl, by rw [exec_qRead, popped]; rfl⟩

/-- Settles O24: `selectReady` gives the winner's index, or none, and `qPopReady` takes the winner out. -/
theorem queueSelectsReady : Obligations.QueueSelectsReady := by
  intro s hq
  refine ⟨fun j h W => ?winner, fun hnone => ?noneReady, fun ⟨i, h, hr⟩ => ?someReady⟩
  case winner =>
    have selected := selectReady_of_wins W
    obtain ⟨answered, -, left, frame⟩ := qPopReady_some hq selected
    obtain ⟨⟨-, winner, -⟩, -⟩ := W
    exact ⟨by rw [exec_qHasReady, selected]; rfl, _, exec_qReadReady s, congrArg Result.handle (answered.trans winner),
      events_qPopReady s, left, offQueue_answer_of_q _ frame⟩
  case noneReady =>
    have unselected := selectReady_eq_none_iff.mpr hnone
    exact ⟨by rw [exec_qHasReady, unselected]; rfl, by rw [exec_qReadReady, qPopReady_none unselected]; rfl⟩
  case someReady =>
    obtain ⟨j, selected⟩ := Option.ne_none_iff_exists'.mp fun hs => selectReady_eq_none_iff.mp hs i h hr
    exact ⟨j, wins_of_selectReady selected⟩

/-- Settles O25: the slots of the logical content are released, and the queue is the empty one. -/
theorem queueClearReleases : Obligations.QueueClearReleases := by
  intro s _
  have slot := slotAt_clearQueue s
  exact ⟨_, rfl, rfl, events_clearQueue s, fun _ => rfl, rfl, rfl, rfl, fun h hm => (slot h).trans (if_pos hm),
    fun h hm => (slot h).trans (if_neg hm), offQueue_clearQueue s⟩

end

section
/-! The RTU engine (spec 46 R323 to R325): how a transaction in flight ends, and the ticks of an engine that awaits no
response and does not transmit. -/

namespace Sys2Proof.Machine

open Sys2Proof.Claims

/-! ### The ends of an attempt in a sound state (R384, R385) -/

/-- In a canonical state a handle that stands in no container is not held (R24). -/
theorem held_eq_false_of_free {s : State} {h : Nat} (C : Canonical s) (F : Free h s) : held s h = false := by
  have queue : s.q.arr.any (fun c => decide (c.2 = some h)) = false := by
    refine List.any_eq_false.mpr fun c hc found => F.q c.1 ?_
    exact (cellAt_of_mem C.queue hc).1.trans (of_decide_eq_true found)
  have sent : s.sb.any (fun c => decide (c.2 = some h)) = false := by
    refine List.any_eq_false.mpr fun c hc found => F.sb c.1 ?_
    exact (cellAt_of_mem C.sent hc).1.trans (of_decide_eq_true found)
  have pending : ¬ s.eng.pending = some h := F.pend
  simp [held, queue, sent, pending]

/-- A sound state whose slot `h` is in use, with a request of one byte or more: its attempt may be ended, whatever the
containers hold. -/
structure InFlight (s : State) (h : Nat) : Prop where
  sound   : Sound s
  slot    : h < s.cfg.params.poolCap
  inuse   : (slotAt s h).inuse = true
  request : s.cfg.hdr + s.cfg.trl < (slotAt s h).txlen

/-- R384, R385: a `raise` after a change of the reply fields that leaves no window answers, and ends the attempt. -/
theorem InFlight.raise_completes {h : Nat} {s s' : State} (F : InFlight s h) (E : Ended h s s')
    (hr : (slotAt s' h).rxlen ≤ s.cfg.bufCap) (hw : (slotAt s' h).winLen = 0) (e : Err) :
    ∃ t, raise h e s' = .next t ∧ t.result = .unit ∧ Completes h e [] s t := by
  have fits : lengthsFit s'.cfg (slotAt s' h) = true :=
    lengthsFit_of_ended E (lengthsFit_of_fits (F.sound.bounds.at h).fits) hr
  have there : slotExists s' h = true := decide_eq_true (by rw [E.cfg]; exact F.slot)
  have marked : Ended h s (updSlot s' h fun x => { x with err := e }) := E.upd _ fun _ => rfl
  refine ⟨_, raise_eq_next.mpr ⟨there, fits, (windowFits_iff ..).mpr (.inl hw), rfl⟩, rfl, ?_⟩
  rw [complete_eq, record_of_ended E, E.handler, dataOf, hw]
  exact repeats_answer (repeats_of_ended (ended_emit marked _) F.sound.queue F.inuse F.request) .unit

/-- The change is one update of the slot. -/
theorem InFlight.raise_updSlot_completes {h : Nat} {s : State} (F : InFlight s h) (f : Slot → Slot)
    (hf : ∀ x, offReply (f x) = offReply x) (hr : (f (slotAt s h)).rxlen ≤ s.cfg.bufCap)
    (hw : (f (slotAt s h)).winLen = 0) (e : Err) :
    ∃ t, raise h e (updSlot s h f) = .next t ∧ t.result = .unit ∧ Completes h e [] s t :=
  F.raise_completes ((Ended.refl h s).upd f hf) (by rwa [slotAt_updSlot_self]) (by rwa [slotAt_updSlot_self]) e

/-! ### The dispatch of a tick (R323) -/

section
variable {s : State} (ht : s.cfg.params.transport = .rtu)
include ht

theorem exec_tick_bufferClear (hst : s.eng.state = .bufferClear) : exec .tick s = ret .unit (tickBufferClear s) :=
  (if_pos ht).trans (by rw [hst])

theorem exec_tick_idle (hst : s.eng.state = .idle) : exec .tick s = tickIdle s := (if_pos ht).trans (by rw [hst])

section
variable (hst : s.eng.state = .idle) (hq : s.q.count ≠ 0) (hsilent : s.cfg.frameToUs ≤ since s s.nowUs s.eng.idleT)
include hst hq hsilent

/-- R325: after a frame timeout of silence an idle engine asks the queue for a winner; there is none. -/
theorem exec_tick_of_none_ready {p : State} (hp : qPopReady s = (p, none)) : exec .tick s = ret .unit p := by
  rw [since_eq_elapsed] at hsilent
  rw [exec_tick_idle ht hst, tickIdle, if_neg hq, if_neg (Nat.not_lt.mpr hsilent), hp]

/-- R325: there is a winner. -/
theorem exec_tick_of_popped {p : State} {h : Nat} (hp : qPopReady s = (p, some h)) :
    exec .tick s = checked h p (transmit h p) := by
  rw [since_eq_elapsed] at hsilent
  rw [exec_tick_idle ht hst, tickIdle, if_neg hq, if_neg (Nat.not_lt.mpr hsilent), hp]

end

end

end Sys2Proof.Machine

open Sys2Proof Sys2Proof.Machine Sys2Proof.Claims

/-- Settles O48: the branches of `tickBufferClear` and `tickIdle`; with nothing ready `selectReady` finds none. -/
theorem tickWaits : Obligations.TickWaits := by
  intro s ht
  refine ⟨fun hst => ?clearing, fun hst => ⟨fun hq => ?empty, fun hq hearly => ?early,
    fun _ hq hsilent hnone => ?noneReady⟩⟩
  case clearing =>
    rw [exec_tick_bufferClear ht hst, tickBufferClear, ← since_eq_elapsed]
    refine ⟨fun hbytes => ?_, fun hempty hearly => ?_, fun hempty hsilent => ?_⟩
    · rw [if_neg hbytes]; rfl
    · rw [if_pos hempty, if_neg (Nat.not_le.mpr hearly)]; rfl
    · rw [if_pos hempty, if_pos hsilent]; rfl
  case empty => rw [exec_tick_idle ht hst, tickIdle, if_pos hq, since_eq_elapsed]; rfl
  case early =>
    rw [since_eq_elapsed] at hearly
    rw [exec_tick_idle ht hst, tickIdle, if_neg hq, if_pos hearly]; rfl
  case noneReady =>
    exact exec_tick_of_none_ready ht hst hq hsilent (qPopReady_none (selectReady_eq_none_iff.mpr hnone))

end

section
/-! The transmission of a tick (spec 46 R325, R326). -/

namespace Sys2Proof.Machine

open Sys2Proof.Claims

/-- R306, R325: the winner is out of the queue, in no container, and nothing but the queue has changed. -/
theorem qPopReady_of_wins {s : State} {j h : Nat} (hs : Sound s) (W : Wins s j h) :
    ∃ p, qPopReady s = (p, some h) ∧ Sound p ∧ Free h p ∧ h < p.cfg.params.poolCap ∧ (slotAt p h).inuse = true ∧
      qContent p = without s.cfg.params.removeMode (qContent s) j ∧ { p with q := s.q } = s := by
  obtain ⟨winner, -, content, frame⟩ := qPopReady_some hs.queue (selectReady_of_wins W)
  obtain ⟨sound, free⟩ := sound_popReady hs
  obtain ⟨⟨-, item, -⟩, -⟩ := W
  have answered := winner.trans item
  obtain ⟨free, slot, inuse⟩ := free h answered
  exact ⟨_, Prod.ext rfl answered, sound, free, slot, inuse, content, frame⟩

theorem slotAt_awaitReply (h : Nat) (s : State) (k : Nat) :
    slotAt (awaitReply h s) k = if k = h then { slotAt s h with rxlen := 0, exc := false } else slotAt s k :=
  slotAt_updSlot s h k fun x => { x with rxlen := 0, exc := false }

/-- R326: the frame of the winner on the line. -/
theorem sent_sendFrame {s p : State} {j h : Nat} (sound : Sound p) (free : Free h p) (slot : h < p.cfg.params.poolCap)
    (content : qContent p = without s.cfg.params.removeMode (qContent s) j) (frame : { p with q := s.q } = s) :
    Sent s (sendFrame h p) j h := by
  have slots (k : Nat) : slotAt p k = slotAt s k := slotAt_congr (congrArg State.pool frame :) k
  have now : p.nowMs = s.nowMs := (congrArg State.nowMs frame :)
  have line := sendFrame_frame h p
  rw [slots h] at line
  constructor
  case content => exact content
  case events => rw [(congrArg State.events line :), (congrArg State.events frame :)]
  case slot => rw [slotAt_sendFrame, if_pos rfl, slots, now]
  case slots => exact fun k hk => by rw [slotAt_sendFrame, if_neg hk, slots]
  case eng => exact (congrArg (fun u : State => { u.eng with idleT := u.nowUs }) frame :)
  case frame =>
    exact ⟨(congrArg (fun u : State => { offAttempt u with eng := s.eng }) frame :), (congrArg State.ctx frame :)⟩
  case queue => exact ⟨(sound_sendFrame sound slot).queue, free.q⟩

end Sys2Proof.Machine

open Sys2Proof Sys2Proof.Machine Sys2Proof.Claims

/-- Settles O49: the winner is popped and its frame sent (`sendFrame`); then `transmit` ends the attempt of a broadcast,
or awaits the reply. -/
theorem tickTransmits : Obligations.TickTransmits := by
  intro s j h hs ht hst hsilent W hreq hwin
  have occupied : s.q.count ≠ 0 := by obtain ⟨⟨inside, -⟩, -⟩ := W; omega
  obtain ⟨p, popped, sound, free, slot, inuse, content, frame⟩ := qPopReady_of_wins hs W
  have S : Sent s (sendFrame h p) j h := sent_sendFrame sound free slot content frame
  have cfg : p.cfg = s.cfg := (congrArg State.cfg frame :)
  have now : p.nowUs = s.nowUs := (congrArg State.nowUs frame :)
  have fits : lengthsFit p.cfg (slotAt p h) = true := lengthsFit_of_fits (sound.bounds.at h).fits
  have sends : exec .tick s = transmit h p :=
    (exec_tick_of_popped ht hst occupied hsilent popped).trans (if_pos (by simp [slotExists, slot, fits]))
  have address : readByte (slotAt (sendFrame h p) h).tx 0 = readByte (slotAt s h).tx 0 := by rw [S.slot]
  rw [sends, transmit, address]
  by_cases hb : readByte (slotAt s h).tx 0 = 0#8
  · have sentSound := sound_sendFrame sound slot
    have F : InFlight (sendFrame h p) h :=
      ⟨sentSound, slot, by rw [slotAt_sendFrame, if_pos rfl]; exact inuse, by rw [S.slot]; exact cfg ▸ hreq⟩
    obtain ⟨t, ends, result, completes⟩ := F.raise_completes (Ended.refl h _) (sentSound.bounds.at h).pre.rxlen
      (by rw [S.slot]; exact hwin) .ok
    exact ⟨_, t, (if_pos hb).trans ends, result, S, fun _ => completes, fun hn => absurd hb hn⟩
  · refine ⟨_, _, if_neg hb, rfl, S, fun hy => absurd hy hb, fun _ => ⟨rfl, ?_, fun k hk => ?_, ?_, rfl⟩⟩
    · rw [slotAt_answer, slotAt_awaitReply, if_pos rfl]
    · rw [slotAt_answer, slotAt_awaitReply, if_neg hk]
    · rw [← now]; rfl

end

section
/-! The receiving side of a tick (spec 46 R327 to R332). -/

namespace Sys2Proof.Machine

open Sys2Proof.Claims

/-! ### `APPEND` (R328) -/

theorem append_eq_received (h limit : Nat) (s : State) : append h limit s = received h limit s := by
  simp only [append]
  split
  · next hnone => simp only [received, taken] at hnone ⊢; rw [if_pos hnone]; rfl
  · next hsome => simp only [received, taken] at hsome ⊢; rw [if_neg hsome]; rfl

theorem silent_iff {h limit : Nat} {s : State} : Silent h limit s ↔ (taken s h limit).length = 0 := by
  rw [Silent, taken, List.length_take, ← List.length_eq_zero_iff]
  omega

theorem slotAt_received (h limit : Nat) (s : State) :
    slotAt (received h limit s) h =
      { slotAt s h with rx := writeBytes (slotAt s h).rx (slotAt s h).rxlen (taken s h limit),
                        rxlen := (slotAt s h).rxlen + (taken s h limit).length } :=
  slotAt_updSlot_self s h fun x =>
    { x with rx := writeBytes x.rx x.rxlen (taken s h limit), rxlen := x.rxlen + (taken s h limit).length }

theorem eng_received_of_silent {h limit : Nat} {s : State} (hs : Silent h limit s) : (received h limit s).eng = s.eng :=
  if_pos (List.length_eq_zero_iff.mp (silent_iff.mp hs))

/-- R180 step 1: a recorded error is the attempt's. -/
theorem invokeOp_of_err {h : Nat} {s : State} {e : Err} (he : (slotAt s h).err = e) (hne : e ≠ .ok) :
    invokeOp h s = raise h e s := by
  subst he
  rw [invokeOp, earlyReply_of_err hne]

/-! ### The engine that waits for a response -/

section
variable {s : State} {st : EngState} {h : Nat} (W : WaitsFor s st h)
include W

theorem waitsFor_slot_lt : h < s.cfg.params.poolCap := (pending_facts W.sound W.pending).1

theorem waitsFor_received {limit : Nat} (hl : limit ≤ s.cfg.bufCap) : WaitsFor (received h limit s) st h := by
  obtain ⟨pending, state⟩ := append_eng h limit s
  have sound := sound_append W.sound (waitsFor_slot_lt W) hl
  have canon := canonical_append (h := h) (limit := limit) W.canon
  rw [append_eq_received] at pending state sound canon
  refine ⟨sound, canon, W.rtu, state.trans W.state, pending.trans W.pending, ?_, ?_⟩ <;> rw [slotAt_received]
  · exact W.request
  · exact W.window

theorem waitsFor_headGood : WaitsFor (headGood h s) .headChecked h := by
  have slot := slotAt_updSlot_self s h fun x =>
    { x with exc := x.exc || isExceptionOf (fcOf s.cfg x) (readByte x.rx 1) }
  exact ⟨sound_headGood W.sound W.pending, canonical_headGood W.canon, W.rtu, rfl, W.pending,
    (congrArg Slot.txlen slot :) ▸ W.request, (congrArg Slot.winLen slot :).trans W.window⟩

/-- R330, R332: once the engine is settled, the attempt may end. -/
theorem awaiting_settled : Awaiting (settled s) h := by
  obtain ⟨slot, inuse, -⟩ := pending_facts W.sound W.pending
  obtain ⟨sound, free⟩ := sound_settle W.sound W.pending
  have canon : Canonical (settle s) := canonical_tickKeeps.settle s W.canon
  exact ⟨sound.queue, slot, inuse, held_eq_false_of_free canon free, lengthsFit_of_fits (sound.bounds.at h).fits,
    W.request, W.window⟩

theorem inFlight_settled : InFlight (settled s) h where
  sound := (sound_settle W.sound W.pending).1
  slot := (awaiting_settled W).slot
  inuse := (awaiting_settled W).inuse
  request := W.request

/-! ### The ends of a wait (R330, R332) -/

theorem engFail_completes (e : Err) :
    ∃ t, engFail h e s = .next t ∧ t.result = .unit ∧ Completes h e [] (settled s) t :=
  (inFlight_settled W).raise_completes (Ended.refl h _) (W.sound.bounds.at h).pre.rxlen W.window e

/-- R327, R332: the bytes of another station are discarded first. -/
theorem engFail_discarded_completes (e : Err) :
    ∃ t, engFail h e (updSlot s h fun x => { x with rxlen := 0 }) = .next t ∧ t.result = .unit ∧
      Completes h e [] (settled s) t :=
  (inFlight_settled W).raise_updSlot_completes (fun x => { x with rxlen := 0 }) (fun _ => rfl) (Nat.zero_le _) W.window e

/-- R330: a frame with a good checksum. -/
theorem finishFrame_of_crc_ok (hc : rtuCrcOk (slotAt s h) = true) :
    finishFrame h s = exec (.invoke h) (settled s) := by
  rw [exec_invoke (mayEnd_of_awaiting (awaiting_settled W)), finishFrame, crcVerdict, if_pos hc]
  rfl

/-- R330: with a bad checksum the error is recorded, and `INVOKE` ends the attempt with it. -/
theorem finishFrame_of_crc_bad (hc : rtuCrcOk (slotAt s h) = false) :
    ∃ t, finishFrame h s = .next t ∧ t.result = .unit ∧ Completes h .crcFailure [] (settled s) t := by
  have records : settle (crcVerdict h s) = updSlot (settled s) h fun x => { x with err := .crcFailure } := by
    rw [crcVerdict, if_neg (by simp [hc])]
    rfl
  rw [finishFrame, records, invokeOp_of_err (by rw [slotAt_updSlot_self]) (by simp)]
  exact (inFlight_settled W).raise_updSlot_completes (fun x => { x with err := .crcFailure }) (fun _ => rfl)
    (W.sound.bounds.at h).pre.rxlen W.window _

end

/-! ### The dispatch to the pending transaction (R38) -/

theorem withPending_of_waitsFor {s : State} {st : EngState} {h : Nat} (W : WaitsFor s st h) (k : Nat → Out) :
    withPending s k = k h := by
  have there : slotExists s h = true := decide_eq_true (waitsFor_slot_lt W)
  have fits : lengthsFit s.cfg (slotAt s h) = true := lengthsFit_of_fits (W.sound.bounds.at h).fits
  simp [withPending, W.pending, checked, there, fits]

theorem exec_tick_receive {s : State} {h : Nat} (W : WaitsFor s .receive h) : exec .tick s = tickReceive h s :=
  (if_pos W.rtu).trans (by rw [W.state]; exact withPending_of_waitsFor W _)

theorem exec_tick_headChecked {s : State} {h : Nat} (W : WaitsFor s .headChecked h) :
    exec .tick s = tickHeadChecked h s :=
  (if_pos W.rtu).trans (by rw [W.state]; exact withPending_of_waitsFor W _)

/-! ### The RECEIVE arm (R327) -/

section
variable {s m : State} {h : Nat} (hm : m = received h (slotAt s h).explen s)
include hm

theorem respTimeout_iff : (taken s h (slotAt s h).explen).length = 0 ∧
      m.cfg.params.respTimeoutMs ≤ elapsed m.cfg m.nowMs (slotAt m h).stime ↔
    Silent h (slotAt s h).explen s ∧ s.cfg.params.respTimeoutMs ≤ since s s.nowMs (slotAt s h).stime := by
  rw [silent_iff, since_eq_elapsed, hm, slotAt_received]
  rfl

variable (W : WaitsFor s .receive h)
include W

theorem exec_tick_of_short (hr : (slotAt m h).rxlen < 2) :
    exec .tick s =
      if (taken s h (slotAt s h).explen).length = 0 ∧
          m.cfg.params.respTimeoutMs ≤ elapsed m.cfg m.nowMs (slotAt m h).stime
      then engFail h .responseTimeout m else ret .unit m := by
  simp only [exec_tick_receive W, tickReceive, append_eq_received, ← hm, if_neg (Nat.not_le.mpr hr)]

theorem exec_tick_of_head_wrong (hr : 2 ≤ (slotAt m h).rxlen)
    (hb : readByte (slotAt m h).rx 0 ≠ readByte (slotAt m h).tmpl 0) :
    exec .tick s = engFail h .invalidSlave (updSlot m h fun x => { x with rxlen := 0 }) := by
  have bad : ¬ rtuHeadOk (slotAt m h) = true := fun good => hb ((rtuHeadOk_iff _).mp good).2
  simp only [exec_tick_receive W, tickReceive, append_eq_received, ← hm, if_pos hr, if_neg bad]

theorem exec_tick_of_head_right (hr : 2 ≤ (slotAt m h).rxlen)
    (hb : readByte (slotAt m h).rx 0 = readByte (slotAt m h).tmpl 0) :
    exec .tick s = checkComplete h (headGood h m) := by
  have good : rtuHeadOk (slotAt m h) = true := (rtuHeadOk_iff _).mpr ⟨by omega, hb⟩
  simp only [exec_tick_receive W, tickReceive, append_eq_received, ← hm, if_pos hr, if_pos good]

end

section
variable {h : Nat} {s : State} {flagged : Bool} (hf : flagged = true ↔
  (slotAt s h).exc = true ∨ (readByte (slotAt s h).rx 1).toNat = (fcOf s.cfg (slotAt s h)).toNat + 0x80)
include hf

/-- R327: what a good head changes. -/
theorem headGood_eq : headGood h s =
    { updSlot s h (fun x => { x with exc := flagged }) with eng := { s.eng with state := .headChecked } } := by
  have flag : ((slotAt s h).exc || isExceptionOf (fcOf s.cfg (slotAt s h)) (readByte (slotAt s h).rx 1)) = flagged := by
    rw [Bool.eq_iff_iff, hf, Bool.or_eq_true, isExceptionOf, decide_eq_true_iff]
  rw [headGood, updSlot, flag]
  rfl

theorem slotAt_headGood : slotAt (headGood h s) h = { slotAt s h with exc := flagged } := by
  rw [headGood_eq hf]
  exact slotAt_updSlot_self s h fun x => { x with exc := flagged }

theorem rtuCrcOk_headGood : rtuCrcOk (slotAt (headGood h s) h) = rtuCrcOk (slotAt s h) := by
  rw [slotAt_headGood hf]
  rfl

/-- R331. -/
theorem checkComplete_headGood : checkComplete h (headGood h s) =
    if (slotAt s h).rxlen = if flagged then 5 else (slotAt s h).explen
    then finishFrame h (headGood h s) else ret .unit (headGood h s) := by
  rw [checkComplete, slotAt_headGood hf]
  rfl

end

/-! ### The HEAD_CHECKED arm (R329) -/

section
variable {s m : State} {h : Nat} (hm : m = received h (needOf (slotAt s h)) s)
include hm

/-- The byte clock is read after the bytes of this tick are taken; when none is, it stands. -/
theorem byteTimeout_iff : (taken s h (needOf (slotAt s h))).length = 0 ∧
      m.cfg.byteToUs ≤ elapsed m.cfg m.nowUs m.eng.byteT ↔
    Silent h (needOf (slotAt s h)) s ∧ s.cfg.byteToUs ≤ since s s.nowUs s.eng.byteT := by
  rw [← silent_iff]
  refine and_congr_right fun silent => ?_
  rw [since_eq_elapsed, hm, eng_received_of_silent silent]
  rfl

variable (W : WaitsFor s .headChecked h)
include W

theorem exec_tick_of_whole (hr : (slotAt m h).rxlen = needOf (slotAt s h)) : exec .tick s = finishFrame h m := by
  simp only [exec_tick_headChecked W, tickHeadChecked, append_eq_received, ← hm, if_pos hr]

theorem exec_tick_of_part (hr : (slotAt m h).rxlen ≠ needOf (slotAt s h)) :
    exec .tick s =
      if (taken s h (needOf (slotAt s h))).length = 0 ∧ m.cfg.byteToUs ≤ elapsed m.cfg m.nowUs m.eng.byteT
      then engFail h .responseTimeout m else ret .unit m := by
  simp only [exec_tick_headChecked W, tickHeadChecked, append_eq_received, ← hm, if_neg hr]

end

end Sys2Proof.Machine

open Sys2Proof Sys2Proof.Machine Sys2Proof.Claims

/-- Settles O50: the branches of `tickReceive`; past a good head the engine waits in HEAD_CHECKED, from where
`finishFrame` ends the attempt of a frame that is complete. -/
theorem tickReceives : Obligations.TickReceives := by
  intro s h m W hm
  have Wm : WaitsFor m .receive h := hm ▸ waitsFor_received W (W.sound.bounds.at h).pre.explen
  refine ⟨fun hr => ⟨fun silent late => ?timeout, fun hwait => ?waits⟩,
    fun hr => ⟨fun hb => ?wrong, fun hb flagged n hflag hn => ?right⟩⟩
  case timeout =>
    rw [exec_tick_of_short hm W hr, if_pos ((respTimeout_iff hm).mpr ⟨silent, late⟩)]
    exact engFail_completes Wm _
  case waits =>
    rw [exec_tick_of_short hm W hr, if_neg (mt (respTimeout_iff hm).mp hwait)]
    rfl
  case wrong =>
    rw [exec_tick_of_head_wrong hm W hr hb]
    exact engFail_discarded_completes Wm _
  case right =>
    have kept : (slotAt m h).exc = (slotAt s h).exc ∧ (slotAt m h).explen = (slotAt s h).explen ∧
        fcOf m.cfg (slotAt m h) = fcOf s.cfg (slotAt s h) := by
      rw [hm, slotAt_received]; exact ⟨rfl, rfl, rfl⟩
    obtain ⟨exc, explen, fc⟩ := kept
    rw [← exc, ← fc] at hflag
    have settles : settled (headGood h m) = settled n := by rw [headGood_eq hflag, hn]; rfl
    have Wg := waitsFor_headGood Wm
    rw [exec_tick_of_head_right hm W hr hb, checkComplete_headGood hflag, explen, ← settles, ← rtuCrcOk_headGood hflag]
    refine ⟨fun hpart => ?_, fun hwhole => ?_⟩
    · rw [if_neg hpart, headGood_eq hflag, hn]; rfl
    · rw [if_pos hwhole]
      exact ⟨finishFrame_of_crc_ok Wg, fun bad _ => finishFrame_of_crc_bad Wg bad⟩

/-- Settles O51: the branches of `tickHeadChecked`. -/
theorem tickCollects : Obligations.TickCollects := by
  intro s h need m W hneed hm
  obtain rfl : need = needOf (slotAt s h) := hneed
  have Wm : WaitsFor m .headChecked h := hm ▸ waitsFor_received W (needOf_le W.sound h)
  refine ⟨fun hr => ?whole, fun hr => ⟨fun silent late => ?timeout, fun hwait => ?waits⟩⟩
  case whole =>
    rw [exec_tick_of_whole hm W hr]
    exact ⟨finishFrame_of_crc_ok Wm, fun bad _ => finishFrame_of_crc_bad Wm bad⟩
  case timeout =>
    rw [exec_tick_of_part hm W hr, if_pos ((byteTimeout_iff hm).mpr ⟨silent, late⟩)]
    exact engFail_completes Wm _
  case waits =>
    rw [exec_tick_of_part hm W hr, if_neg (mt (byteTimeout_iff hm).mp hwait)]
    rfl

end

section
/-! No window outlives its step, and no completion with an error carries data (60 R386, R423): what each operation keeps. -/

namespace Sys2Proof.Machine

/-! ### The invariant -/

/-- R386: the event is no completion that has both an error and data. -/
def NoDataIn (ev : Event) : Prop := ∀ handler rec, ev = .done handler rec → rec.err ≠ .ok → rec.data = []

/-- Every window but that of slot `h` is closed, and no completion announced so far has both an error and data. -/
structure ClosedBut (h : Nat) (s : State) : Prop where
  windows : ∀ k, k ≠ h → (slotAt s k).winLen = 0
  events  : ∀ ev ∈ s.events, NoDataIn ev

/-- Every window is closed, and no completion announced so far has both an error and data. -/
structure Closed (s : State) : Prop where
  windows : WindowsClosed s
  events  : ∀ ev ∈ s.events, NoDataIn ev

theorem noDataIn_done {handler : Option Nat} {rec : DoneRecord} (hr : rec.err ≠ .ok → rec.data = []) :
    NoDataIn (.done handler rec) := fun _ _ he => by cases he; exact hr

theorem noDataIn_of_onLine {ev : Event} (hl : ev.onLine = true) : NoDataIn ev := fun _ _ he => by subst he; cases hl

theorem Closed.but {s : State} (hs : Closed s) (h : Nat) : ClosedBut h s := ⟨fun k _ => hs.windows k, hs.events⟩

theorem ClosedBut.closed {h : Nat} {s : State} (hs : ClosedBut h s) (hw : (slotAt s h).winLen = 0) : Closed s := by
  refine ⟨fun k => ?_, hs.events⟩
  by_cases e : k = h
  · rw [e]; exact hw
  · exact hs.windows k e

/-! ### One record replaced -/

/-- A state with the same events in which the slots other than `h` are as they were. -/
theorem ClosedBut.slot {h : Nat} {s t : State} (hs : ClosedBut h s) (hev : t.events = s.events)
    (hk : ∀ k, k ≠ h → slotAt t k = slotAt s k) : ClosedBut h t :=
  ⟨fun k e => by rw [hk k e]; exact hs.windows k e, by rw [hev]; exact hs.events⟩

theorem closed_frame {s t : State} (hs : Closed s) (hp : t.pool = s.pool) (hev : t.events = s.events) : Closed t :=
  ⟨fun k => by rw [slotAt_congr hp]; exact hs.windows k, by rw [hev]; exact hs.events⟩

theorem ClosedBut.setSlot {h : Nat} {s : State} (hs : ClosedBut h s) (x : Slot) : ClosedBut h (setSlot s h x) :=
  hs.slot rfl fun _ e => slotAt_setSlot_ne s x e

theorem ClosedBut.updSlot {h : Nat} {s : State} (hs : ClosedBut h s) (f : Slot → Slot) : ClosedBut h (updSlot s h f) :=
  hs.setSlot _

theorem closed_setSlot {h : Nat} {s : State} {x : Slot} (hs : ClosedBut h s) (hx : x.winLen = 0) :
    Closed (setSlot s h x) := (hs.setSlot x).closed (by rwa [slotAt_setSlot_self])

/-- A change of a slot that leaves its window. -/
theorem closed_updSlot {h : Nat} {s : State} (f : Slot → Slot) (hs : Closed s)
    (hf : (f (slotAt s h)).winLen = (slotAt s h).winLen) : Closed (updSlot s h f) :=
  closed_setSlot (hs.but h) (hf.trans (hs.windows h))

theorem ClosedBut.emit {h : Nat} {s : State} {ev : Event} (hs : ClosedBut h s) (hev : NoDataIn ev) :
    ClosedBut h (emit s ev) := by
  refine ⟨hs.windows, fun e he => ?_⟩
  rcases List.mem_append.mp he with he | he
  · exact hs.events e he
  · rw [List.mem_singleton.mp he]; exact hev

theorem closed_emit {s : State} {ev : Event} (hs : Closed s) (hev : NoDataIn ev) : Closed (emit s ev) :=
  ((hs.but 0).emit hev).closed (hs.windows 0)

theorem closed_answer {s : State} {r : Result} (hs : Closed s) : Closed (answer r s) := closed_frame hs rfl rfl

/-- A state that differs in its queue alone. -/
theorem closed_of_q {s t : State} (hs : Closed s) (hq : { t with q := s.q } = s) : Closed t :=
  closed_frame hs (congrArg State.pool hq :) (congrArg State.events hq :)

theorem closed_release {h : Nat} {s : State} (hs : ClosedBut h s) : Closed (release h s) := closed_setSlot hs rfl

theorem closed_releaseAll {l : List Nat} {s : State} (hs : Closed s) : Closed (releaseAll l s) := by
  induction l generalizing s with
  | nil => exact hs
  | cons h l ih => exact ih (closed_release (hs.but h))

theorem winLen_headed (tr : Transport) (tid : Half) (u : Byte) (len : Nat) (x : Slot) :
    (headed tr tid u len x).winLen = x.winLen := (congrArg Slot.winLen (headed_frame tr tid u len x) :)

/-! ### The ends of an attempt (R282, R283, R384, R385): they close the window that the record copied -/

theorem closed_rearmFrame {h u : Nat} {s : State} (hs : ClosedBut h s) : Closed (rearmFrame h u s) := by
  refine (hs.slot (events_rearmFrame h u s) fun k e => by rw [rearmFrame_slot, if_neg e]).closed ?_
  rw [rearmFrame_slot, if_pos rfl]
  exact winLen_headed ..

theorem closed_rearm {h u : Nat} {s : State} (hs : ClosedBut h s) : Closed (rearm h u s) := by
  have pushed := closed_of_q (closed_rearmFrame (u := u) hs) (qPush_frame (some h) _)
  simp only [rearm]
  split
  · next he => rw [he] at pushed; exact pushed
  · next he =>
    rw [he] at pushed
    exact closed_release (((pushed.but h).updSlot _).emit (noDataIn_done fun _ => rfl))

theorem closed_repeatOrRelease {h : Nat} {s : State} (hs : ClosedBut h s) : Closed (repeatOrRelease h s) := by
  simp only [repeatOrRelease]
  split
  · split
    · exact closed_release hs
    · exact closed_rearm (hs.setSlot _)
  · exact closed_release hs

/-- R384, R385: a `raise` may find a window open in its own slot, but only when it raises no error. -/
theorem closed_raise {h : Nat} {e : Err} {s : State} (hs : ClosedBut h s)
    (hw : e ≠ .ok → (slotAt s h).winLen = 0) : AllNext Closed (raise h e s) := by
  have record : e ≠ .ok → dataOf (slotAt s h) = [] := fun he => by rw [dataOf, hw he]; rfl
  refine allNext_raise fun _ => closed_answer ?_
  rw [complete_eq]
  exact closed_repeatOrRelease ((hs.updSlot _).emit (noDataIn_done record))

theorem closed_raise_of_closed {h : Nat} {e : Err} {s : State} (hs : Closed s) : AllNext Closed (raise h e s) :=
  closed_raise (hs.but h) fun _ => hs.windows h

theorem closed_unreceived {h : Nat} {s : State} (hs : Closed s) : Closed (unreceived h s) :=
  closed_frame (closed_updSlot (h := h) (fillRx s.cfg s.freeCount) hs rfl) rfl rfl

/-- R205: a normalisation that fails empties the window. -/
theorem winLen_normalizeSlot_of_err {h : Nat} {s : State} (he : (normalizeSlot h s).2 ≠ .ok) :
    (slotAt (normalizeSlot h s).1 h).winLen = 0 := by
  have hn : normalErr s.cfg (slotAt s h) ≠ .ok := fun hn => he (by rw [normalize_ok hn])
  rw [normalize_bad hn]
  simp

/-- R386: an attempt opens a window only where it ends without an error. -/
theorem winLen_of_resp_err {h : Nat} {s : State} {p : State × Err} (hs : Closed s) (hr : Resp h s p) (he : p.2 ≠ .ok) :
    (slotAt p.1 h).winLen = 0 := by
  cases hr with
  | refl => exact hs.windows h
  | window => exact absurd rfl he
  | noWin => simp [noWindow]
  | exc => simp [window]
  | norm => exact winLen_normalizeSlot_of_err he
  | winNorm => exact winLen_normalizeSlot_of_err he

theorem closed_raise_of_resp {h : Nat} {s s' : State} {e : Err} (hs : Closed s) (hr : Resp h s (s', e)) :
    AllNext Closed (raise h e s') := by
  have E : Ended h s s' := ended_resp hr
  exact closed_raise ((hs.but h).slot E.events E.slots) (winLen_of_resp_err hs hr)

theorem closed_invokeOp {h : Nat} {s : State} (hs : Closed s) : AllNext Closed (invokeOp h s) := by
  obtain ⟨s', e, hr, he⟩ := resp_invoke h s
  rw [he]
  rcases hr with hr | hr
  · exact closed_raise_of_resp hs hr
  · exact closed_raise_of_resp (closed_unreceived hs) hr

/-- R204: what is normalised is never longer than the window, so a closed window stays closed. -/
theorem closed_normalizeSlot {h : Nat} {s : State} (hs : Closed s) : Closed (normalizeSlot h s).1 := by
  have E := ended_normalize (Ended.refl h s)
  refine ((hs.but h).slot E.events E.slots).closed ?_
  by_cases hn : normalErr s.cfg (slotAt s h) = .ok
  · have shorter := normal_le s.ctx.bigEndian (slotAt s h).esize (dataOf (slotAt s h))
    rw [length_dataOf, hs.windows h] at shorter
    rw [slotAt_normalizeSlot_of_ok hn]
    exact Nat.le_zero.mp shorter
  · rw [normalize_bad hn]; simp

theorem closed_tcpReceive {h : Nat} {f : List Byte} {s : State} (hs : Closed s) : AllNext Closed (tcpReceive h f s) := by
  have header : Closed (storeHeader h f s) := closed_updSlot _ hs rfl
  unfold tcpReceive
  refine allNext_ite (fun _ => closed_raise_of_closed hs)
    (fun _ => allNext_ite (fun _ => closed_raise_of_closed header) (fun _ => ?_))
  split
  · exact closed_raise_of_closed header
  · exact allNext_ite (fun _ => closed_raise_of_closed header)
      (fun _ => closed_invokeOp (closed_updSlot _ header rfl))

/-! ### Builds (R140, R149) -/

theorem closed_buildFrame {h : Nat} {t : Target} {hd : Nat} {r : Request} {s : State} (hs : Closed s) :
    Closed (buildFrame h t hd r s) := by
  refine ((hs.but h).slot (events_buildFrame h t hd r s) fun k e => by rw [buildFrame_slot, if_neg e]).closed ?_
  rw [buildFrame_slot, if_pos rfl]
  exact winLen_headed ..

theorem closed_buildFail {h : Nat} {e : Err} {t : Target} {hd : Nat} {fc : Byte} {s : State} (hs : Closed s) :
    Closed (buildFail h e t hd fc s) :=
  closed_release (((hs.but h).updSlot _).emit (noDataIn_done fun _ => rfl))

theorem closed_buildNoSlot {e : Err} {t : Target} {hd : Nat} {fc : Byte} {s : State} (hs : Closed s) :
    Closed (buildNoSlot e t hd fc s) := closed_emit hs (noDataIn_done fun _ => rfl)

theorem closed_build {t : Target} {hd : Nat} {r : Request} {s : State} (hs : Closed s) :
    AllNext Closed (build t hd r s) := by
  unfold build
  split
  · exact allNext_ret (closed_answer (closed_buildNoSlot hs))
  · next h _ =>
    have fresh : Closed (setSlot s h (allocated s t hd)) := closed_setSlot (hs.but h) rfl
    refine allNext_ite (fun _ => ?_) (fun _ => allNext_ret (closed_answer (closed_buildFail fresh)))
    have pushed := closed_of_q (closed_buildFrame (h := h) (t := t) (hd := hd) (r := r) hs) (qPush_frame (some h) _)
    split
    · next he => rw [he] at pushed; exact allNext_ret (closed_answer pushed)
    · next he => rw [he] at pushed; exact allNext_ret (closed_answer (closed_buildFail pushed))

/-! ### The frames (files 42, 43) -/

theorem closed_tcpSetMbap {h : Nat} {u : Byte} {len : Nat} {s : State} (hs : Closed s) :
    Closed (tcpSetMbap h u len s) := by
  have counted : Closed { s with ctx := { s.ctx with tid := s.ctx.tid + 1#16 } } := closed_frame hs rfl rfl
  exact closed_updSlot _ counted rfl

theorem closed_tcpSetMbapLong {h : Nat} {u : Byte} {len : Nat} {s : State} (hs : Closed s) :
    Closed (tcpSetMbapLong h u len s) := by
  have counted : Closed { s with ctx := { s.ctx with tid := s.ctx.tid + 1#16 }, freeCount := s.freeCount + 1 } :=
    closed_frame hs rfl rfl
  rw [tcpSetMbapLong_eq]
  exact closed_updSlot _ counted rfl

theorem closed_sbAdd {h i : Nat} {s : State} (hs : Closed s) :
    Closed (updSlot (sbPut s i (some h)) h (fun x => { x with stime := s.nowMs })) := by
  have put : Closed (sbPut s i (some h)) := closed_frame hs rfl rfl
  exact closed_updSlot _ put rfl

theorem closed_setSs {r : SsRef} {x : SlaveSet} {s : State} (hs : Closed s) : Closed (setSs s r x) := by
  cases r with
  | host k => exact closed_frame hs rfl rfl
  | slot h => exact closed_updSlot (fun y => { y with ss := x }) hs rfl

/-! ### The engine (file 46) and `CLEAR_ALL` (R390) -/

theorem closed_tickBufferClear {s : State} (hs : Closed s) : Closed (tickBufferClear s) := by
  unfold tickBufferClear
  split
  · split
    · exact closed_frame hs rfl rfl
    · exact hs
  · exact closed_frame hs rfl rfl

theorem closed_sendFrame {h : Nat} {s : State} (hs : Closed s) : Closed (sendFrame h s) := by
  have begun := closed_emit (ev := .txBegin) hs (noDataIn_of_onLine rfl)
  have written := closed_emit (ev := .serWrite (readBytes (slotAt s h).tx 0 (slotAt s h).txlen)) begun
    (noDataIn_of_onLine rfl)
  have ended := closed_emit (ev := .txEnd) written (noDataIn_of_onLine rfl)
  exact closed_frame (closed_updSlot (h := h) (fun x => { x with stime := s.nowMs }) ended rfl) rfl rfl

theorem closed_awaitReply {h : Nat} {s : State} (hs : Closed s) : Closed (awaitReply h s) :=
  closed_frame (closed_updSlot (h := h) (fun x => { x with rxlen := 0, exc := false }) hs rfl) rfl rfl

theorem closed_append {h limit : Nat} {s : State} (hs : Closed s) : Closed (append h limit s) := by
  have stored := closed_updSlot (h := h) (fun x => { x with rx := writeBytes x.rx x.rxlen (taken s h limit),
                                                            rxlen := x.rxlen + (taken s h limit).length }) hs rfl
  simp only [append]
  split
  · exact closed_frame stored rfl rfl
  · exact closed_frame stored rfl rfl

theorem closed_headGood {h : Nat} {s : State} (hs : Closed s) : Closed (headGood h s) :=
  closed_frame (closed_updSlot (h := h)
    (fun x => { x with exc := x.exc || isExceptionOf (fcOf s.cfg x) (readByte x.rx 1) }) hs rfl) rfl rfl

theorem closed_crcVerdict {h : Nat} {s : State} (hs : Closed s) : Closed (crcVerdict h s) := by
  unfold crcVerdict
  split
  · exact hs
  · exact closed_updSlot _ hs rfl

theorem closed_tickKeeps : TickKeeps Closed where
  ans _ _ hs := closed_answer hs
  clear _ hs := closed_tickBufferClear hs
  wait _ hs := closed_frame hs rfl rfl
  popReady s hs := closed_of_q hs (qPopReady_frame s)
  send _ _ hs := closed_sendFrame hs
  await _ _ hs := closed_awaitReply hs
  append _ _ _ hs := closed_append hs
  head _ _ hs := closed_headGood hs
  wrongHead _ _ hs := closed_updSlot _ hs rfl
  verdict _ _ hs := closed_crcVerdict hs
  settle _ hs := closed_frame hs rfl rfl
  raise _ _ _ hs := closed_raise_of_closed hs
  invoke _ _ hs := closed_invokeOp hs

theorem closed_clearQueue {s : State} (hs : Closed s) : Closed (clearQueue s) :=
  closed_frame (closed_releaseAll (l := (qContent s).filterMap id) hs) rfl rfl

theorem closed_clearContainers {s : State} (hs : Closed s) : Closed (clearContainers s) := by
  unfold clearContainers
  split
  · exact closed_frame (closed_releaseAll (l := s.sb.filterMap (fun c => c.2)) hs) rfl rfl
  · exact closed_frame (closed_releaseAll (l := s.eng.pending.toList) hs) rfl rfl

/-! ### Every operation -/

theorem keeps_closed : Keeps Closed where
  ans _ _ hs := closed_answer hs
  noSlot _ _ _ _ _ hs := closed_buildNoSlot hs
  build _ _ _ _ hs _ := closed_build hs
  attempt _ _ _ _ hs _ _ hr := closed_raise_of_resp hs hr
  fill _ _ hs _ := closed_unreceived hs
  fail _ _ _ hs _ := closed_raise_of_closed hs
  head _ _ _ hs _ _ := closed_updSlot _ hs rfl
  crc _ _ _ hs _ _ _ := closed_updSlot _ hs rfl
  mbap _ _ _ _ hs _ _ _ := closed_tcpSetMbap hs
  mbapLong _ _ _ _ hs _ _ := closed_tcpSetMbapLong hs
  receive _ _ _ hs _ _ _ := closed_tcpReceive hs
  sbAdd _ _ _ hs _ _ _ := closed_sbAdd hs
  sbTake _ _ _ hs _ _ := closed_frame hs rfl rfl
  sets _ _ _ hs _ _ := closed_setSs hs
  rep h _ hs _ _ := closed_repeatOrRelease (hs.but h)
  push _ s hs _ _ := closed_of_q hs (qPush_frame _ s)
  pop s hs := closed_of_q hs (qPop_q s)
  popReady s hs := closed_of_q hs (qPopReady_frame s)
  qClear _ hs := closed_clearQueue hs
  tick _ hs := closed_tickKeeps.execTick hs
  clear _ hs := closed_releaseAll (closed_clearContainers (closed_clearQueue hs))
  be _ _ hs := closed_frame hs rfl rfl
  norm _ _ hs _ _ _ := closed_normalizeSlot hs
  reset _ _ hs _ := ⟨fun _ => rfl, hs.events⟩

/-- A step starts with the events of the step before discarded (R9). -/
theorem closed_fetch {s s' : State} {bytes : List Byte} (hf : fetch s = some (bytes, s')) (hs : WindowsClosed s) :
    Closed s' := by
  obtain ⟨-, hpool, -⟩ := fetch_frame hf
  refine ⟨fun k => by rw [slotAt_congr hpool]; exact hs k, ?_⟩
  unfold fetch at hf
  split at hf
  · cases hf
  · cases hf; exact fun _ he => nomatch he

end Sys2Proof.Machine

open Sys2Proof Sys2Proof.Machine

/-- Settles O59: without a command nothing changes; with one, the step is an operation run from a state with every window
closed and no event, and every operation keeps `Closed`. -/
theorem noDataOnError : Obligations.NoDataOnError := by
  intro s t hs ht
  cases hh : s.host with
  | nil =>
    rw [step_of_fetch_none (fetch_of_host_nil hh)] at ht
    cases ht
    exact ⟨hs, fun hne => absurd rfl hne⟩
  | cons c rest =>
    have hf := fetch_of_host_cons hh
    cases hd : decode c.bytes with
    | error e => rw [step_of_decode_error hf hd] at ht; cases ht
    | ok i =>
      rw [step_of_decode_ok hf hd] at ht
      have closed := exec_keeps keeps_closed i _ (closed_fetch hf hs) t ht
      exact ⟨closed.windows, fun _ handler rec hm he => closed.events _ hm handler rec rfl he⟩

end

section
/-! `CLEAR_ALL` (60 R390): the slots it releases, and what it leaves of the containers and of everything else. -/

namespace Sys2Proof.Machine

open Sys2Proof.Claims

/-! ### The slots -/

/-- Of the pool, `t` differs from `s` in that some slots in use are cleared. -/
def Frees (s t : State) : Prop :=
  ∀ h, slotAt t h = slotAt s h ∨ ((slotAt s h).inuse = true ∧ slotAt t h = Slot.cleared)

theorem Frees.inuse {s t : State} {h : Nat} (F : Frees s t) (hi : (slotAt t h).inuse = true) :
    (slotAt s h).inuse = true := by
  rcases F h with kept | ⟨used, -⟩
  · rw [← kept]; exact hi
  · exact used

theorem Frees.releaseAll {s t : State} {l : List Nat} (F : Frees s t) (hl : ∀ h ∈ l, (slotAt s h).inuse = true) :
    Frees s (releaseAll l t) := fun h => by
  rw [slotAt_releaseAll]
  split
  · next hm => exact .inr ⟨hl h hm, rfl⟩
  · exact F h

theorem frees_clearQueue {s : State} (C : ContainersOk s) : Frees s (clearQueue s) := by
  refine Frees.releaseAll (l := (qContent s).filterMap id) (fun _ => .inl rfl) fun h hm => ?_
  obtain ⟨i, -, hi⟩ : ∃ i, i < s.q.count ∧ qItem s i = some h := by simpa [qContent] using hm
  exact (C.queueHolds _ h hi).2

theorem frees_clearContainers {s t : State} (C : ContainersOk s) (sent : canonical none s.sb = true)
    (hsb : t.sb = s.sb) (heng : t.eng = s.eng) (F : Frees s t) : Frees s (clearContainers t) := by
  unfold clearContainers
  split
  · refine F.releaseAll (l := t.sb.filterMap fun c => c.2) fun h hm => ?_
    obtain ⟨c, hc, hh⟩ := List.mem_filterMap.mp hm
    rw [hsb] at hc
    exact (C.sentHolds c.1 h ((cellAt_of_mem sent hc).1.trans hh)).2
  · refine F.releaseAll (l := t.eng.pending.toList) fun h hm => ?_
    rw [heng] at hm
    exact (C.pendingHolds h (Option.mem_toList.mp hm)).2

/-- In a canonical state `slotsInUse` lists just the slots in use. -/
theorem mem_slotsInUse {s : State} {h : Nat} (hp : canonical Slot.cleared s.pool = true) :
    h ∈ slotsInUse s ↔ h < s.cfg.params.poolCap ∧ (slotAt s h).inuse = true := by
  constructor
  · intro hm
    obtain ⟨c, hc, rfl⟩ := List.mem_map.mp hm
    obtain ⟨listed, used⟩ := List.mem_filter.mp hc
    have read : slotAt s c.1 = c.2 := (cellAt_of_mem hp listed).1
    rw [read]
    simpa using used
  · intro ⟨hh, hi⟩
    have listed : (h, slotAt s h) ∈ s.pool := mem_of_cellAt_ne (ne_cleared_of_inuse hi)
    exact List.mem_map.mpr ⟨_, List.mem_filter.mpr ⟨listed, by simp [hh, hi]⟩, rfl⟩

/-- R390: the containers hold slots in use alone. -/
theorem frees_emptied {s : State} (C : ContainersOk s) (K : Canonical s) : Frees s (clearContainers (clearQueue s)) := by
  have frame := releaseAll_eq ((qContent s).filterMap id) s
  exact frees_clearContainers C K.sent (congrArg State.sb frame :) (congrArg State.eng frame :) (frees_clearQueue C)

theorem canonical_emptied {s : State} (K : Canonical s) : Canonical (clearContainers (clearQueue s)) :=
  canonical_clearContainers (canonical_clearQueue K)

theorem frees_clearAllOp {s : State} (C : ContainersOk s) (K : Canonical s) : Frees s (clearAllOp s) :=
  (frees_emptied C K).releaseAll fun _ hm =>
    (frees_emptied C K).inuse ((mem_slotsInUse (canonical_emptied K).pool).mp hm).2

theorem emptied_cfg (s : State) : (clearContainers (clearQueue s)).cfg = s.cfg := by
  simp only [clearContainers, clearQueue, releaseAll_pool]
  split <;> rfl

theorem slotAt_clearAllOp_of_inuse {s : State} {h : Nat} (C : ContainersOk s) (K : Canonical s)
    (hh : h < s.cfg.params.poolCap) (hi : (slotAt s h).inuse = true) : slotAt (clearAllOp s) h = Slot.cleared := by
  refine (slotAt_releaseAll _ _ h).trans ?_
  rcases frees_emptied C K h with kept | ⟨-, cleared⟩
  · exact if_pos ((mem_slotsInUse (canonical_emptied K).pool).mpr ⟨by rw [emptied_cfg]; exact hh, by rw [kept]; exact hi⟩)
  · rw [cleared, ite_self]

theorem slotAt_clearAllOp_of_not_inuse {s : State} {h : Nat} (C : ContainersOk s) (K : Canonical s)
    (hi : (slotAt s h).inuse = false) : slotAt (clearAllOp s) h = slotAt s h := by
  rcases frees_clearAllOp C K h with kept | ⟨used, -⟩
  · exact kept
  · rw [hi] at used; cases used

/-! ### The containers and the rest -/

/-- `CLEAR_ALL` touches the pool and the containers alone. -/
theorem clearAllOp_frame (s : State) :
    { clearAllOp s with pool := s.pool, q := s.q, sb := s.sb, eng := s.eng } = s := by
  simp only [clearAllOp, clearContainers, clearQueue, releaseAll_pool]
  split <;> rfl

theorem clearAllOp_q (s : State) : (clearAllOp s).q = emptyQueue := by
  simp only [clearAllOp, clearContainers, clearQueue, releaseAll_pool]
  split <;> rfl

theorem clearAllOp_of_rtu {s : State} (ht : s.cfg.params.transport = .rtu) : (clearAllOp s).sb = s.sb ∧
    (clearAllOp s).eng = { s.eng with pending := none, state := .idle, idleT := s.nowUs } := by
  simp only [clearAllOp, clearContainers, clearQueue, releaseAll_pool, ht]
  exact ⟨trivial, rfl⟩

theorem clearAllOp_of_tcp {s : State} (ht : s.cfg.params.transport = .tcp) :
    (clearAllOp s).sb = [] ∧ (clearAllOp s).eng = s.eng := by
  simp only [clearAllOp, clearContainers, clearQueue, releaseAll_pool, ht, and_self]

/-- R390: whatever the transport, no handle is left in the SentBuffer and none pending. -/
theorem clearAllOp_holds_none {s : State} (C : ContainersOk s) :
    (∀ i, cellAt none (clearAllOp s).sb i = none) ∧ (clearAllOp s).eng.pending = none := by
  cases ht : s.cfg.params.transport with
  | rtu =>
    obtain ⟨sb, eng⟩ := clearAllOp_of_rtu ht
    rw [sb, eng]
    exact ⟨C.sentTcp ht, rfl⟩
  | tcp =>
    obtain ⟨sb, eng⟩ := clearAllOp_of_tcp ht
    rw [sb, eng]
    exact ⟨fun _ => rfl, C.pendingRtu ht⟩

end Sys2Proof.Machine

open Sys2Proof Sys2Proof.Machine Sys2Proof.Claims

/-- Settles O47: the slots in use are cleared and no other (`Frees`), the containers are empty, and the rest is as it was
(`clearAllOp_frame`). -/
theorem clearAllReleasesAll : Obligations.ClearAllReleasesAll := by
  intro s _ C K
  have queue := clearAllOp_q s
  have frame := clearAllOp_frame s
  obtain ⟨sent, pending⟩ := clearAllOp_holds_none C
  refine ⟨_, rfl, rfl, events_clearAllOp s, fun h hh hi => slotAt_clearAllOp_of_inuse C K hh hi,
    fun h hi => slotAt_clearAllOp_of_not_inuse C K hi, fun i => ?cells, congrArg Queue.head queue, congrArg Queue.tail queue,
    congrArg Queue.count queue, sent, pending, fun ht => ?engine, (congrArg State.cfg frame :), (congrArg State.ctx frame :),
    (congrArg State.serial frame :), (congrArg State.clockMs frame :), (congrArg State.clockUs frame :),
    (congrArg State.hostSets frame :), (congrArg State.host frame :), (congrArg State.freeCount frame :)⟩
  case cells => rw [answer_q, queue]; rfl
  case engine =>
    obtain ⟨-, eng⟩ := clearAllOp_of_rtu ht
    rw [answer_eng, eng]
    exact ⟨rfl, rfl, rfl⟩

end

section
/-! `RESET` (70 R410, R412, 46 R322) and the operations out of contract (U1, U18, R420). -/

namespace Sys2Proof.Machine

open Sys2Proof.Claims

/-! ### `RESET` (R410, R412, R322) -/

theorem legal_iff {p : Params} : legal p = true ↔ LegalParams p := by
  unfold legal LegalParams Params.span
  cases p.transport with
  | rtu => simp only [Bool.and_eq_true, decide_eq_true_eq, reduceCtorEq, false_implies, true_implies]; tauto
  | tcp => simp only [Bool.and_eq_true, decide_eq_true_eq, reduceCtorEq, false_implies, true_implies]; tauto

/-- R322: the two timing constants up to 19200 baud. -/
theorem timeouts_of_slow {p : Params} (h0 : 1 ≤ p.baud) (h1 : p.baud ≤ 19200) :
    byteTo p = (15 * charBits p * 100000 + p.baud - 1) / p.baud ∧
    frameTo p = (35 * charBits p * 100000 + p.baud - 1) / p.baud := by
  have hz : p.baud ≠ 0 := by omega
  simp [byteTo, frameTo, ceilDiv, h1, hz]

theorem timeouts_of_fast {p : Params} (h : 19200 < p.baud) : byteTo p = 750 ∧ frameTo p = 1750 :=
  ⟨if_neg (by omega), if_neg (by omega)⟩

theorem exec_reset_of_legal {p : Params} (hp : LegalParams p) (s : State) :
    exec (.reset p) s = ret .unit (resetWith p s) := if_pos (legal_iff.mpr hp)

theorem exec_reset_of_illegal {p : Params} (hp : ¬ LegalParams p) (s : State) :
    exec (.reset p) s = reject .illegalConfiguration s := if_neg (mt legal_iff.mp hp)

/-- R410: the serial source is drained on RTU, and is not the block's on TCP. -/
theorem resetWith_serial (p : Params) (s : State) : (p.transport = .rtu → (resetWith p s).serial = []) ∧
    (p.transport = .tcp → (resetWith p s).serial = s.serial) :=
  ⟨fun ht => by simp [resetWith, ht], fun ht => by simp [resetWith, ht]⟩

/-! ### Handles out of contract (U1, R420) -/

section
variable {s : State} {h : Nat} (hh : h < s.cfg.params.poolCap) (hd : detached s h = false)
include hh hd

/-- The guards of an operation that needs its handle in use and in no container. -/
theorem guards_of_not_detached (k : Out) : withSlot h s (withDetached h s k) = reject .handleNotFree s := by
  have there : slotExists s h = true := decide_eq_true hh
  simp [withSlot, withDetached, there, hd]

theorem exec_needsDetached {i : Instr} (hi : NeedsDetached h i) : exec i s = reject .handleNotFree s := by
  cases hi <;> exact guards_of_not_detached hh hd _

theorem exec_qAdd_of_not_detached (hc : s.q.count ≠ s.cfg.params.queueCap) :
    exec (.qAdd (some h)) s = reject .handleNotFree s := (if_neg hc).trans (guards_of_not_detached hh hd _)

section
variable (ht : s.cfg.params.transport = .tcp)
include ht

theorem exec_tcpReceive_of_not_detached (f : List Byte) : exec (.tcpReceive h f) s = reject .handleNotFree s :=
  (onlyOn_tcp ht _).trans (guards_of_not_detached hh hd _)

theorem exec_tcpFail_of_not_detached (e : FailCode) : exec (.tcpFail h e) s = reject .handleNotFree s :=
  (onlyOn_tcp ht _).trans (guards_of_not_detached hh hd _)

/-- R255: with a place free the handle matters. -/
theorem exec_sbAdd_of_not_detached {i : Nat} (hi : i < s.cfg.params.sentCap) (hn : cellAt none s.sb i = none) :
    exec (.sbAdd h) s = reject .handleNotFree s := by
  have found : sbFind s (fun v => decide (v = none)) ≠ none := fun none_free => by
    have taken := findFrom_none none_free i (Nat.zero_le i) (by omega)
    simp [hn] at taken
  obtain ⟨j, hj⟩ := Option.ne_none_iff_exists'.mp found
  refine (onlyOn_tcp ht _).trans ?_
  rw [hj]
  exact guards_of_not_detached hh hd _

end
end

end Sys2Proof.Machine

open Sys2Proof Sys2Proof.Machine Sys2Proof.Claims

/-- Settles O4: `resetWith` writes the reset table field by field; the timing constants are R322's. -/
theorem resetLeavesResetValues : Obligations.ResetLeavesResetValues := by
  intro s p hp
  obtain ⟨drained, left⟩ := resetWith_serial p s
  exact ⟨_, exec_reset_of_legal hp s, rfl, rfl, rfl, timeouts_of_slow, timeouts_of_fast, rfl, fun _ => rfl, fun _ => rfl,
    rfl, rfl, rfl, fun _ => rfl, rfl, drained, left, rfl, rfl, rfl, rfl, rfl, rfl, rfl⟩

/-- Settles O54: illegal parameters fail `legal`, and every other operation named stands behind `withDetached`. -/
theorem outOfContractRejected : Obligations.OutOfContractRejected :=
  ⟨fun s _ hp => exec_reset_of_illegal hp s, fun _ _ _ hi hh hd => exec_needsDetached hh hd hi,
    fun _ _ f e ht hh hd => ⟨exec_tcpReceive_of_not_detached hh hd ht f, exec_tcpFail_of_not_detached hh hd ht e,
      fun ⟨_, hi, hn⟩ => exec_sbAdd_of_not_detached hh hd ht hi hn⟩,
    fun _ _ hc hh hd => exec_qAdd_of_not_detached hh hd hc⟩

end
